-- ==== Sys2Proof/Word.lean ====
section
/-! DEFINITION. The word types of the block: 32-bit registers, one-bit and eight-bit data elements
(00_scope.md R12, 10_state.md R21 and R38). -/

namespace Sys2Proof

/-- A register or a command word: 32 bits, bit 0 the least significant (00_scope.md R12). -/
abbrev Word := BitVec 32

/-- One element of `ACK_MEM`, `BITSEQ`, `C_BUF`, `ALLOC`: one bit (10_state.md R38). `true` is 1. -/
abbrev Bit := Bool

/-- One element of `LLR_MEM`, `OUT_MEM`, `D_BUF`: eight bits (10_state.md R38). An LLR is its two's
complement reading, `BitVec.toInt` (00_scope.md R12). -/
abbrev Byte := BitVec 8

/-- Bit `b` as the number 0 or 1. -/
abbrev bitNum (b : Bit) : Nat := b.toNat

end Sys2Proof
end

