-- ==== Sys2Proof/Syntax.lean ====
section
/-! DEFINITION. The commands of the block: one constructor per row of 30_encoding.md R83. No command has an
operand field (R84), so no constructor has an argument. -/

namespace Sys2Proof

/-- The 23 commands of 30_encoding.md R83, in the order of that table. -/
inductive Instr where
  /-- `PUCCH_E` (op 0x01), 40_sizing.md R106. -/
  | pucchE
  /-- `PUSCH_ACK_NOF_BITS` (op 0x02), 40_sizing.md R112. -/
  | puschAckNofBits
  /-- `PUSCH_CSI1_NOF_BITS` (op 0x03), 40_sizing.md R117. -/
  | puschCsi1NofBits
  /-- `TOTAL_BITS` (op 0x04), 40_sizing.md R119. -/
  | totalBits
  /-- `PACK_PUCCH` (op 0x08), 41_payload.md R135. -/
  | packPucch
  /-- `UNPACK_PUCCH` (op 0x09), 41_payload.md R139. -/
  | unpackPucch
  /-- `COMPUTE_A` (op 0x0A), 41_payload.md R142. -/
  | computeA
  /-- `ENCODE` (op 0x10), 46_transport.md R294. -/
  | encode
  /-- `DECODE` (op 0x11), 46_transport.md R296. -/
  | decode
  /-- `ENC_1BIT` (op 0x12), 42_small_block.md R152. -/
  | enc1Bit
  /-- `DEC_1BIT` (op 0x13), 42_small_block.md R156. -/
  | dec1Bit
  /-- `ENC_2BIT` (op 0x14), 42_small_block.md R161. -/
  | enc2Bit
  /-- `DEC_2BIT` (op 0x15), 42_small_block.md R165. -/
  | dec2Bit
  /-- `ENC_RM` (op 0x16), 43_reed_muller.md R185. -/
  | encRm
  /-- `DEC_RM` (op 0x17), 43_reed_muller.md R191. -/
  | decRm
  /-- `ENC_POLAR` (op 0x18), 45_polar_pipeline.md R268. -/
  | encPolar
  /-- `DEC_POLAR` (op 0x19), 45_polar_pipeline.md R275. -/
  | decPolar
  /-- `ENC_PUCCH` (op 0x20), 46_transport.md R300. -/
  | encPucch
  /-- `DEC_PUCCH` (op 0x21), 46_transport.md R303. -/
  | decPucch
  /-- `ENC_PUSCH_ACK` (op 0x22), 46_transport.md R306. -/
  | encPuschAck
  /-- `DEC_PUSCH_ACK` (op 0x23), 46_transport.md R308. -/
  | decPuschAck
  /-- `ENC_PUSCH_CSI1` (op 0x24), 46_transport.md R310. -/
  | encPuschCsi1
  /-- `DEC_PUSCH_CSI1` (op 0x25), 46_transport.md R312. -/
  | decPuschCsi1
deriving DecidableEq, Repr

end Sys2Proof
end

