-- ==== Sys2Proof/Decode.lean ====
section
/-! DEFINITION. Command words, 30_encoding.md: the format `C` (R81), the opcode map (R83), the total decoder (R82)
with its two ways to reject (R85, R86), and the encoder. A command is one 32-bit register word; there is no byte
order (20_memory.md R62). -/

namespace Sys2Proof

/-- Why a word is no command; either way it raises `IllegalCommand`. -/
inductive DecodeError where
  /-- `w[31:8] ≠ 0` (R85). -/
  | reservedBits
  /-- `w[31:8] = 0` and `w[7:0]` is not in the opcode map (R86). -/
  | unknownOpcode
deriving DecidableEq, Repr

/-- The field `op`, bits 7:0 (R81). -/
def opField (w : Word) : BitVec 8 := w.extractLsb' 0 8

/-- The field `rsv`, bits 31:8 (R81). -/
def rsvField (w : Word) : BitVec 24 := w.extractLsb' 8 24

/-- The opcode map (R83). -/
def commandOfOpcode (op : Nat) : Option Instr :=
  match op with
  | 0x01 => some .pucchE
  | 0x02 => some .puschAckNofBits
  | 0x03 => some .puschCsi1NofBits
  | 0x04 => some .totalBits
  | 0x08 => some .packPucch
  | 0x09 => some .unpackPucch
  | 0x0A => some .computeA
  | 0x10 => some .encode
  | 0x11 => some .decode
  | 0x12 => some .enc1Bit
  | 0x13 => some .dec1Bit
  | 0x14 => some .enc2Bit
  | 0x15 => some .dec2Bit
  | 0x16 => some .encRm
  | 0x17 => some .decRm
  | 0x18 => some .encPolar
  | 0x19 => some .decPolar
  | 0x20 => some .encPucch
  | 0x21 => some .decPucch
  | 0x22 => some .encPuschAck
  | 0x23 => some .decPuschAck
  | 0x24 => some .encPuschCsi1
  | 0x25 => some .decPuschCsi1
  | _ => none

/-- The decoder (R82): every word is exactly one command or illegal. -/
def decodeWord (w : Word) : Except DecodeError Instr :=
  if rsvField w = 0 then
    match commandOfOpcode (opField w).toNat with
    | some i => .ok i
    | none => .error .unknownOpcode
  else .error .reservedBits

/-- The opcode of each command (R83). -/
def opcode : Instr → BitVec 8
  | .pucchE => 0x01
  | .puschAckNofBits => 0x02
  | .puschCsi1NofBits => 0x03
  | .totalBits => 0x04
  | .packPucch => 0x08
  | .unpackPucch => 0x09
  | .computeA => 0x0A
  | .encode => 0x10
  | .decode => 0x11
  | .enc1Bit => 0x12
  | .dec1Bit => 0x13
  | .enc2Bit => 0x14
  | .dec2Bit => 0x15
  | .encRm => 0x16
  | .decRm => 0x17
  | .encPolar => 0x18
  | .decPolar => 0x19
  | .encPucch => 0x20
  | .decPucch => 0x21
  | .encPuschAck => 0x22
  | .decPuschAck => 0x23
  | .encPuschCsi1 => 0x24
  | .decPuschCsi1 => 0x25

/-- The word of a command, `zext_32(op)` (R82, R88). -/
def encodeWord (i : Instr) : Word := (opcode i).setWidth 32

/-- The register word of `nbits` bits `w` as opcode_table.json numbers them: the bits from `nbits` on are 0. -/
def tableWord (nbits w : Nat) : Word := BitVec.ofNat 32 (w % 2 ^ nbits)

/-- The command the decoder reads from an instruction whose bits are `w`; `none` where it refuses. -/
def decodeTableWord (nbits w : Nat) : Option Instr :=
  match decodeWord (tableWord nbits w) with
  | .ok i => some i
  | .error _ => none

end Sys2Proof
end

