-- ==== Sys2Proof/Config.lean ====
section
/-! DEFINITION. What an implementation fixes and what the spec leaves free: the fixed sizes of 00_scope.md R9,
the named parameters of R10, the answers of the three ports (10_state.md R46 to R49) as plain data, and the free
values behind the spec's `any` (00_scope.md R14).

The parameters and the ports are arguments of the step in the spec (R10, R46). The step's type is fixed as a
function of the state alone, so both travel in the state as plain data that no command writes but for the CSI
port's record of what it was given: a statement over every state is a statement over every parameter and every
port answer (log entries 2 and 3). -/

namespace Sys2Proof

/-! ## Sizes fixed by the spec -/

/-- `A_MAX` of R9: the capacity of `BITSEQ` and of `ACK_MEM`, in bits (10_state.md R38). -/
def aMax : Nat := 1706

/-- The number of elements of `C_BUF`, `A_MAX + L_MAX` (10_state.md R38, R43). -/
def cBufSize : Nat := 1717

/-- `N_MAX` of R9: the number of elements of `ALLOC` and of `D_BUF` (10_state.md R38, R43). -/
def polarBufSize : Nat := 2048

/-- `n_max` of R9: the largest polar code exponent asked of the code table (45_polar_pipeline.md R264). -/
def polarNMax : Nat := 10

/-! ## Parameters -/

/-- The two readings of `pwr` in the 1-bit decoder (42_small_block.md R155). -/
inductive OneBitPwrMode where
  /-- `pwr = S2`, the sum of the squares: the default. -/
  | sum
  /-- `pwr = S2 / n`, the mean of the squares. -/
  | mean
deriving DecidableEq, Repr

/-- The named parameters of 00_scope.md R10, but for the three ports (`Ports`). `Params.wellFormed` says the shapes R10
gives them (log entry 20). -/
structure Params where
  /-- `E_MAX`: elements of `OUT_MEM` and of `LLR_MEM` (OPEN in the spec, D4). -/
  eMax : Nat
  /-- `RM_BASIS`: the rows `M[i]`, each the list of its 11 columns. -/
  rmBasis : List (List Bit)
  /-- `CRC6_POLY`, leading term as bit 6. -/
  crc6Poly : Nat
  /-- `CRC11_POLY`, leading term as bit 11. -/
  crc11Poly : Nat
  /-- `POLAR_Q`: positions by increasing reliability. -/
  polarQ : List Nat
  /-- `SUBBLOCK_P`: the 32-entry sub-block interleaver pattern. -/
  subblockP : List Nat
  /-- `LLR_SAT`: the magnitude at which internal soft values saturate. -/
  llrSat : Nat
  /-- `E_POLAR_MAX`: the largest `E_r` the default code table accepts. -/
  ePolarMax : Nat
  /-- `ONEBIT_PWR_MODE`. -/
  oneBitPwrMode : OneBitPwrMode
deriving DecidableEq, Repr

/-! ## Ports -/

/-- A polar code record, 44_polar_code.md R211. -/
structure PolarCode where
  /-- Code length. -/
  N : Nat
  /-- Its exponent, `N = 2^n`. -/
  n : Nat
  /-- Message bits, CRC included. -/
  K : Nat
  /-- Number of parity-check bits. -/
  nPC : Nat
  /-- Positions that carry message or parity-check bits. -/
  kSet : List Nat
  /-- Parity-check positions. -/
  pcSet : List Nat
  /-- Frozen positions. -/
  fSet : List Nat
  /-- Size of `F_set`. -/
  fSetSize : Nat
deriving DecidableEq, Repr

/-- The answers of `CSI_PORT` (10_state.md R47) for the commands to come, and what it was last given. Within one
command each function is called at most once with one argument, so one answer each is all a command can see
(log entry 3). -/
structure CsiPort where
  /-- `csi.nof_bits()`. -/
  nofBits : Nat
  /-- `csi.has_part2()`. -/
  hasPart2 : Bool
  /-- The answer to `csi.pack`: `none` is `Fail`. -/
  packed : Option (List Bit)
  /-- The answer to `csi.unpack`: `true` is `Ok`. -/
  unpackOk : Bool
  /-- The bits last stored behind the port by an `Ok` answer of `csi.unpack` (the model's own record of R47's
  "on `Ok` the decoded CSI values are stored behind the port"). -/
  delivered : Option (List Bit)
deriving DecidableEq, Repr

/-- `POLAR_SELECT` (10_state.md R48). -/
inductive PolarSelectPort where
  /-- The default code table, 44_polar_code.md R214 to R221. -/
  | table
  /-- Another table, by its answer to the one lookup a command makes; `none` is `Fail`. -/
  | answer (code : Option PolarCode)
deriving DecidableEq, Repr

/-- `POLAR_DECODE` (10_state.md R49). -/
inductive PolarDecodePort where
  /-- The hard-decision reference decoder, 44_polar_code.md R247. -/
  | reference
  /-- Another decoder, by its answers to the calls of a command, one a segment; `none` (and no entry) is
  `Fail`. -/
  | answers (perSegment : List (Option (List Bit)))
deriving DecidableEq, Repr

/-- The three ports bound to the block (10_state.md R46). -/
structure Ports where
  csi : CsiPort
  polarSelect : PolarSelectPort
  polarDecode : PolarDecodePort
deriving DecidableEq, Repr

/-! ## Free values

`any` of 00_scope.md R14 is "an unspecified value the model must treat as a free draw". The three constants have
no body, so nothing can be proved of a value of theirs; the first argument is the number of the draw, taken from
the counter `State.draws` (log entry 4). -/

/-- The free value of element `i` of a one-bit memory left `any` by draw number `draw`. -/
opaque Config.anyBit (draw i : Nat) : Bit

/-- The free value of element `i` of an eight-bit memory left `any` by draw number `draw`. -/
opaque Config.anyByte (draw i : Nat) : Byte

/-- The free value of a register left `any` by draw number `draw`. -/
opaque Config.anyWord (draw : Nat) : Word

end Sys2Proof
end

