-- ==== Sys2Proof/Machine/State.lean ====
section
/-! DEFINITION. The whole state of the block (10_state.md R20): the register bank (R22), the four host-visible
memories (R39 to R42), the three scratch buffers (R43); and, as fields of the model's own, the parameters and the
ports (log entries 2 and 3), the host's pending bus transactions and the value of its last read (log entry 1), and
the counter of free draws (log entry 4). -/

namespace Sys2Proof.Machine

/-! ## Reasons to stop -/

/-- Reasons for the machine to stop with a fault: none. Every error of this block is an exception that ends in a
next state (60_exceptions.md R334), so no constructor exists and no step faults (log entry 6). Safe. -/
inductive Fault where
deriving DecidableEq, Repr

/-- Reasons for the model to have no transition. -/
inductive Refusal where
  /-- A command whose meaning is not written: raised by no arm of `exec` any more. Safe. -/
  | notModelled (mnemonic : String)
  /-- A host access to an element outside its memory, or to a register number above 63: raised by
  `hostAccess`. 20_memory.md R61: it "has no meaning: the model refuses it". Safe. -/
  | outsideSpace
  /-- A host access to `C_BUF`, `ALLOC` or `D_BUF`: raised by `hostAccess` (R61, the same sentence). Safe. -/
  | internalSpace
deriving DecidableEq, Repr

/-! ## STATUS -/

/-- The sequencer's phase (10_state.md R30). -/
inductive Phase where
  | idle | packedPayload | sized | smallBlock | polar | emitted | error
deriving DecidableEq, Repr

/-- The fields of `STATUS` (10_state.md R24). `errCode` is 0 when there is no error. The register's other bits
read 0, so they are not stored. -/
structure Status where
  done : Bool
  err : Bool
  valid : Bool
  phase : Phase
  errCode : BitVec 8
deriving DecidableEq, Repr

/-! ## The error kinds -/

/-- The twelve error kinds of 60_exceptions.md R331: the block's exceptions. -/
inductive ErrorKind where
  | invalidInput | invalidModulation | invalidRate | invalidOccLength | unsupported | underRateMatched
  | allZeros | polarCodeSelectFailed | polarDecodeFailed | csiPackFailed | csiUnpackFailed | illegalCommand
deriving DecidableEq, Repr

/-! ## The register bank -/

/-- The registers of 10_state.md R22 that store a word. `CMD` stores nothing (R23) and `STATUS` is `Status`. -/
structure Regs where
  /-- 2 `RES_E` -/
  resE : Word
  /-- 3 `RES_A` -/
  resA : Word
  /-- 4 `CTRL` -/
  ctrl : Word
  /-- 5 `BLOCK_THR` -/
  blockThr : Word
  /-- 6 `ONEBIT_THR` -/
  oneBitThr : Word
  /-- 7 `ARG_A` -/
  argA : Word
  /-- 8 `ARG_E` -/
  argE : Word
  /-- 16 `O_ACK` -/
  oAck : Word
  /-- 17 `O_SR` -/
  oSr : Word
  /-- 18 `NOF_CSI` -/
  nofCsi : Word
  /-- 19 `RNTI` -/
  rnti : Word
  /-- 20 `MODULATION` -/
  modulation : Word
  /-- 21 `NOF_LAYERS` -/
  nofLayers : Word
  /-- 22 `R` -/
  rate : Word
  /-- 23 `ALPHA` -/
  alpha : Word
  /-- 24 `BETA_HARQ` -/
  betaHarq : Word
  /-- 25 `BETA_CSI1` -/
  betaCsi1 : Word
  /-- 26 `L0` -/
  l0 : Word
  /-- 27 `K_SUM` -/
  kSum : Word
  /-- 28 `CSI_PART2_PRESENT` -/
  csiPart2Present : Word
  /-- 32 to 45 `M_UCI_SC[0..13]` -/
  mUciSc : Vector Word 14
  /-- 48 `PUCCH_FORMAT` -/
  pucchFormat : Word
  /-- 49 `PUCCH_NOF_SYMBOLS` -/
  pucchNofSymbols : Word
  /-- 50 `PUCCH_NOF_PRB` -/
  pucchNofPrb : Word
  /-- 51 `PUCCH_OCC_LENGTH` -/
  pucchOccLength : Word
  /-- 52 `PUCCH_ENABLE_PI_BPSK` -/
  pucchEnablePiBpsk : Word
  /-- 56 `SR` -/
  sr : Word
deriving DecidableEq, Repr

/-! ## Memories -/

/-- An element memory: the elements with a determined value, and the number of the free draw that gives every
other element its value. Canonical form: addresses strictly rising (`Memory.wf` in `Machine/Ops.lean`). An element
that is not listed has no determined value, so no listed value can equal it (log entry 5). With `α := Byte` an
entry is a `Host.Cell`. -/
structure Memory (α : Type) where
  fill : Nat
  cells : List (Nat × α)
deriving DecidableEq, Repr

/-- The memories of one-bit elements (10_state.md R38). -/
inductive BitSpace where
  | ackMem | bitSeq | cBuf | alloc
deriving DecidableEq, Repr

/-- The memories of eight-bit elements (10_state.md R38). -/
inductive ByteSpace where
  | llrMem | outMem | dBuf
deriving DecidableEq, Repr

/-! ## What the outside world can do -/

/-- One transaction of the host (30_encoding.md R89), or an event of the platform. A mixed-width access does not
exist (20_memory.md R62), so each memory access carries an element of its memory's width. -/
inductive HostOp where
  /-- `WR n, v`; with `n = 0` it issues the command word `v` (10_state.md R23). -/
  | wr (n : Nat) (v : Word)
  /-- `RD n`. -/
  | rd (n : Nat)
  /-- `WM SPACE, i, v` for a memory of bits. -/
  | wmBit (sp : BitSpace) (i : Nat) (v : Bit)
  /-- `WM SPACE, i, v` for a memory of bytes. -/
  | wmByte (sp : ByteSpace) (i : Nat) (v : Byte)
  /-- `RM SPACE, i` for a memory of bits. -/
  | rmBit (sp : BitSpace) (i : Nat)
  /-- `RM SPACE, i` for a memory of bytes. -/
  | rmByte (sp : ByteSpace) (i : Nat)
  /-- The reset event (70_reset_and_hazards.md R360). -/
  | reset
  /-- The ports answer as `p` says from here on: what lies behind them has changed (10_state.md R46, R47; log
  entry 17). -/
  | bindPorts (p : Ports)
deriving DecidableEq, Repr

/-! ## The state -/

/-- The state of the block. -/
structure State where
  /-- Register 1 `STATUS`. -/
  status : Status
  /-- The other registers. -/
  regs : Regs
  ackMem : Memory Bit
  bitSeq : Memory Bit
  llrMem : Memory Byte
  outMem : Memory Byte
  cBuf : Memory Bit
  alloc : Memory Bit
  dBuf : Memory Byte
  /-- The model's own: the parameters of R10; no step changes them. -/
  params : Params
  /-- The model's own: the ports of R46. -/
  ports : Ports
  /-- The model's own: the host's transactions to come, the next one first. -/
  pending : List HostOp
  /-- The model's own: the word the host's last `RD` or `RM` returned. -/
  busRead : Word
  /-- The model's own: the number of the next free draw. -/
  draws : Nat
deriving DecidableEq, Repr

/-- `STATUS` after reset (70_reset_and_hazards.md R361): `0x00000000`. -/
def Status.reset : Status where
  done := false
  err := false
  valid := false
  phase := .idle
  errCode := 0

/-- The registers after reset (10_state.md R22, 70_reset_and_hazards.md R361): 0, but for the two thresholds,
which hold the binary32 pattern of 0.5. -/
def Regs.reset : Regs where
  resE := 0
  resA := 0
  ctrl := 0
  blockThr := 0x3F000000
  oneBitThr := 0x3F000000
  argA := 0
  argE := 0
  oAck := 0
  oSr := 0
  nofCsi := 0
  rnti := 0
  modulation := 0
  nofLayers := 0
  rate := 0
  alpha := 0
  betaHarq := 0
  betaCsi1 := 0
  l0 := 0
  kSum := 0
  csiPart2Present := 0
  mUciSc := Vector.replicate 14 0
  pucchFormat := 0
  pucchNofSymbols := 0
  pucchNofPrb := 0
  pucchOccLength := 0
  pucchEnablePiBpsk := 0
  sr := 0

/-- The ports as `State.reset` has them: the bindings 95_test_vectors.md section 0 takes where it says nothing
else (log entry 3, DESIGN CHOICE: R361 says only that the ports are "bound before reset is released"). -/
def portsDefault : Ports where
  csi := { nofBits := 0, hasPart2 := false, packed := some [], unpackOk := true, delivered := none }
  polarSelect := .table
  polarDecode := .reference

/-- A memory every element of which is `any`: free draw number `d`. -/
def Memory.any (α : Type) (d : Nat) : Memory α where
  fill := d
  cells := []

/-- The machine right after reset (70_reset_and_hazards.md R361): every memory element is `any` (10_state.md
R50), each memory by a draw of its own. -/
def State.reset : State where
  status := Status.reset
  regs := Regs.reset
  ackMem := Memory.any Bit 0
  bitSeq := Memory.any Bit 1
  llrMem := Memory.any Byte 2
  outMem := Memory.any Byte 3
  cBuf := Memory.any Bit 4
  alloc := Memory.any Bit 5
  dBuf := Memory.any Byte 6
  params := paramsDefault
  ports := portsDefault
  pending := []
  busRead := 0
  draws := 7

end Sys2Proof.Machine
end

