-- ==== Sys2Proof/Machine/Ops.lean ====
section
/-! DEFINITION. The named operations over memories and registers, the frame of every command (start, end), and
taking an exception: `State.raiseError` (60_exceptions.md R334) and, for a command word that decodes to nothing,
`State.illegalCommand` (30_encoding.md R86). There is no return from an exception (R338): the next command's
`State.startCommand` clears the error. -/

namespace Sys2Proof.Machine

/-! ## Memories -/

/-- Strictly increasing, each entry above `lo` when `lo` is given. -/
def risingAbove : Option Nat → List Nat → Bool
  | _, [] => true
  | none, x :: xs => risingAbove (some x) xs
  | some lo, x :: xs => decide (lo < x) && risingAbove (some x) xs

/-- A strictly increasing list of naturals. -/
def strictlyRising (xs : List Nat) : Bool := risingAbove none xs

/-- The canonical form of a memory of `size` elements: listed addresses strictly rising and inside it. -/
def Memory.wf {α : Type} (m : Memory α) (size : Nat) : Bool :=
  strictlyRising (m.cells.map Prod.fst) && m.cells.all fun c => decide (c.1 < size)

/-- The entry at address `i`, if it is listed. -/
def lookupCell {α : Type} : List (Nat × α) → Nat → Option α
  | [], _ => none
  | (a, v) :: cells, i => if a = i then some v else lookupCell cells i

/-- Element `i`: the listed value, or the free draw `free` gives an element without a determined value. -/
def Memory.read {α : Type} (free : Nat → Nat → α) (m : Memory α) (i : Nat) : α :=
  (lookupCell m.cells i).getD (free m.fill i)

/-- The values `vs` as entries at the addresses from `base` on. -/
def cellsFrom {α : Type} : Nat → List α → List (Nat × α)
  | _, [] => []
  | base, v :: vs => (base, v) :: cellsFrom (base + 1) vs

/-- `MemWrite(SPACE, base, |vs|, vs)` of 00_scope.md R14: elements `base .. base + |vs|` become `vs`, every other
element keeps its value. -/
def Memory.writeRange {α : Type} (m : Memory α) (base : Nat) (vs : List α) : Memory α where
  fill := m.fill
  cells :=
    m.cells.filter (fun c => decide (c.1 < base)) ++ cellsFrom base vs ++
      m.cells.filter (fun c => decide (base + vs.length ≤ c.1))

/-- One element of a memory of bits. -/
def readBit (m : Memory Bit) (i : Nat) : Bit := m.read Config.anyBit i

/-- One element of a memory of bytes. -/
def readByte (m : Memory Byte) (i : Nat) : Byte := m.read Config.anyByte i

/-- `MemRead(SPACE, base, n)` of 00_scope.md R14, for bits. -/
def readBits (m : Memory Bit) (base n : Nat) : List Bit :=
  (List.range n).map fun k => readBit m (base + k)

/-- `MemRead(LLR_MEM, base, n)`, each element as the signed value `sext_8` of its byte (00_scope.md R12). -/
def readLlrs (m : Memory Byte) (base n : Nat) : List Int :=
  (List.range n).map fun k => (readByte m (base + k)).toInt

/-! ## The command monad

The body of a command runs over the state and may end in `raise Kind` (00_scope.md R14). -/

/-- A step of a command's pseudocode: it goes on with a value, or ends the command with an error kind, each with
the state reached. -/
abbrev Cmd (α : Type) := EStateM ErrorKind State α

/-- `raise Kind`. -/
def raise {α : Type} (k : ErrorKind) : Cmd α := throw k

/-- `if c: raise Kind`. -/
def raiseIf (c : Prop) [Decidable c] (k : ErrorKind) : Cmd Unit := if c then raise k else pure ()

/-- The value of a procedure that may end in `raise Kind`. -/
def ofExcept {α : Type} : Except ErrorKind α → Cmd α
  | .ok a => pure a
  | .error k => raise k

/-! ## Writes of a command -/

/-- `phase <- p`. Only the last one of a command can be seen (log entry 12). -/
def State.setPhase (s : State) (p : Phase) : State := { s with status := { s.status with phase := p } }

/-- `VALID <- v`. -/
def State.setValid (s : State) (v : Bool) : State := { s with status := { s.status with valid := v } }

/-- `x[RES_E] <- w`. -/
def State.setResE (s : State) (w : Word) : State := { s with regs := { s.regs with resE := w } }

/-- `x[RES_A] <- w`. -/
def State.setResA (s : State) (w : Word) : State := { s with regs := { s.regs with resA := w } }

/-- `x[SR] <- w`. -/
def State.setSr (s : State) (w : Word) : State := { s with regs := { s.regs with sr := w } }

/-- `BITSEQ[base .. base+|vs|) <- vs`. -/
def State.writeBitSeq (s : State) (base : Nat) (vs : List Bit) : State :=
  { s with bitSeq := s.bitSeq.writeRange base vs }

/-- `ACK_MEM[base .. base+|vs|) <- vs`. -/
def State.writeAckMem (s : State) (base : Nat) (vs : List Bit) : State :=
  { s with ackMem := s.ackMem.writeRange base vs }

/-- `OUT_MEM[base .. base+|vs|) <- vs`. -/
def State.writeOutMem (s : State) (base : Nat) (vs : List Byte) : State :=
  { s with outMem := s.outMem.writeRange base vs }

/-- The CSI port stores `bits` behind it (10_state.md R47). -/
def State.deliverCsi (s : State) (bits : List Bit) : State :=
  { s with ports := { s.ports with csi := { s.ports.csi with delivered := some bits } } }

/-! ## The frame of a command -/

/-- What a command is, for the phase it ends in (30_encoding.md R83, column "path") and for `VALID` (10_state.md
R35). -/
inductive CommandClass where
  | encoding
  | decoding
  | service
deriving DecidableEq, Repr

/-- The class of each command: "path" `enc` of 30_encoding.md R83 is `encoding`, the eight commands of
10_state.md R35 are `decoding`. -/
def commandClass : Instr → CommandClass
  | .pucchE => .service
  | .puschAckNofBits => .service
  | .puschCsi1NofBits => .service
  | .totalBits => .service
  | .packPucch => .service
  | .unpackPucch => .service
  | .computeA => .service
  | .encode => .encoding
  | .decode => .decoding
  | .enc1Bit => .encoding
  | .dec1Bit => .decoding
  | .enc2Bit => .encoding
  | .dec2Bit => .decoding
  | .encRm => .encoding
  | .decRm => .decoding
  | .encPolar => .encoding
  | .decPolar => .decoding
  | .encPucch => .encoding
  | .decPucch => .decoding
  | .encPuschAck => .encoding
  | .decPuschAck => .decoding
  | .encPuschCsi1 => .encoding
  | .decPuschCsi1 => .decoding

/-- The commands whose rule lists `ACK_MEM` under "writes" (20_memory.md R70): R139, R303, R308. -/
def writesAckMem (i : Instr) : Bool := i = .unpackPucch || i = .decPucch || i = .decPuschAck

/-- The commands whose rule lists `SR` under "writes": R139, R303. -/
def writesSr (i : Instr) : Bool := i = .unpackPucch || i = .decPucch

/-- The start of every command (10_state.md R24): `DONE`, `ERR`, `ERRCODE` are cleared and the phase is `Idle`,
whatever error the last command ended in (60_exceptions.md R338). -/
def State.startCommand (s : State) : State :=
  { s with status := { s.status with done := false, err := false, errCode := 0, phase := .idle } }

/-- The scratch buffers become `any` (10_state.md R44; log entries 11 and 18). -/
def State.scratchAny (s : State) : State :=
  { s with
    cBuf := Memory.any Bit s.draws
    alloc := Memory.any Bit (s.draws + 1)
    dBuf := Memory.any Byte (s.draws + 2)
    draws := s.draws + 3 }

/-- The end of a command that raised nothing: `DONE` is set (10_state.md R24), the phase is `Emitted` after an
encoding command and `Idle` after any other (46_transport.md R291), and the scratch buffers hold `any` (R44). -/
def State.finishCommand (c : CommandClass) (s : State) : State :=
  { s.scratchAny with
    status :=
      { s.status with
        done := true
        phase := match c with
          | .encoding => .emitted
          | .decoding => .idle
          | .service => .idle } }

/-- The codes of the error kinds (60_exceptions.md R331). -/
def ErrorKind.code : ErrorKind → BitVec 8
  | .invalidInput => 1
  | .invalidModulation => 2
  | .invalidRate => 3
  | .invalidOccLength => 4
  | .unsupported => 5
  | .underRateMatched => 6
  | .allZeros => 7
  | .polarCodeSelectFailed => 8
  | .polarDecodeFailed => 9
  | .csiPackFailed => 10
  | .csiUnpackFailed => 11
  | .illegalCommand => 12

/-- TAKING AN EXCEPTION: `raise k` in command `i`, at the state the command had reached (60_exceptions.md R334).
`STATUS` records the kind; `VALID` is cleared by a decoding command; `RES_E`, `RES_A`, `BITSEQ`, the scratch
buffers and the command's output objects become `any`, each by a free draw of its own (log entry 11). Every other
register and memory keeps its value. -/
def State.raiseError (i : Instr) (k : ErrorKind) (s : State) : State :=
  { s with
    status :=
      { done := true
        err := true
        valid := if commandClass i = .decoding then false else s.status.valid
        phase := .error
        errCode := k.code }
    regs :=
      { s.regs with
        resE := Config.anyWord s.draws
        resA := Config.anyWord (s.draws + 1)
        sr := if writesSr i then Config.anyWord (s.draws + 2) else s.regs.sr }
    bitSeq := Memory.any Bit (s.draws + 3)
    cBuf := Memory.any Bit (s.draws + 4)
    alloc := Memory.any Bit (s.draws + 5)
    dBuf := Memory.any Byte (s.draws + 6)
    outMem := if commandClass i = .encoding then Memory.any Byte (s.draws + 7) else s.outMem
    ackMem := if writesAckMem i then Memory.any Bit (s.draws + 8) else s.ackMem
    draws := s.draws + 9 }

/-- A command word that decodes to no command raises `IllegalCommand`, which changes nothing but `DONE`, `ERR`,
`ERRCODE` and `PHASE` (30_encoding.md R85, R86; 60_exceptions.md R334). -/
def State.illegalCommand (s : State) : State :=
  { s with
    status :=
      { s.status with
        done := true
        err := true
        phase := .error
        errCode := ErrorKind.illegalCommand.code } }

/-- One command as one atomic transition (10_state.md R23, R24): start, body, then the end of a success or the
exception the body raised. -/
def runCommand (i : Instr) (body : Cmd Unit) (s : State) : Host.Outcome State Fault Refusal :=
  .next <|
    match body s.startCommand with
    | .ok _ t => t.finishCommand (commandClass i)
    | .error k t => t.raiseError i k

end Sys2Proof.Machine
end

