-- ==== Sys2Proof/Machine/Flags.lean ====
section
/-! DEFINITION. The `STATUS` word (10_state.md R24) and every computation of the flag `VALID`: the 1-bit metric
(42_small_block.md R155), the 2-bit parity check (R163), the Reed–Muller metric (43_reed_muller.md R191), the CRC
check's accumulation is in `Machine/PolarPipeline.lean`. The block has no other flags that are computed (10_state.md
R36). -/

namespace Sys2Proof.Machine

/-- The codes of the phases (10_state.md R30). -/
def Phase.code : Phase → BitVec 4
  | .idle => 0
  | .packedPayload => 1
  | .sized => 2
  | .smallBlock => 3
  | .polar => 4
  | .emitted => 5
  | .error => 6

/-- One flag at bit `pos` of a word. -/
def flagAt (pos : Nat) (b : Bool) : Word := if b then 1#32 <<< pos else 0

/-- The word a read of `STATUS` returns (10_state.md R22, R24): `DONE` bit 0, `ERR` bit 1, `VALID` bit 2, `PHASE`
bits 7:4, `ERRCODE` bits 15:8, every other bit 0. -/
def Status.word (st : Status) : Word :=
  flagAt 0 st.done ||| flagAt 1 st.err ||| flagAt 2 st.valid ||| (st.phase.code.setWidth 32 <<< 4) |||
    (st.errCode.setWidth 32 <<< 8)

/-- A sign decision at `LLR_MEM` (20_memory.md R66): a value `≥ 0` is bit 1. -/
def hardBit (v : Int) : Bit := decide (0 ≤ v)

/-- `pwr` of the 1-bit decoder over `n` samples with sum of squares `s2` (42_small_block.md R155). -/
def oneBitPwr (mode : OneBitPwrMode) (s2 : Int) (n : Nat) : ℚ :=
  match mode with
  | .sum => s2
  | .mean => s2 / n

/-- `VALID` of the 1-bit decoder (42_small_block.md R155), in its squared form. -/
def oneBitValid (mode : OneBitPwrMode) (thr : ℚ) (qm e : Nat) (corr s2 : Int) (n : Nat) : Bool :=
  decide (0 < s2) && decide (0 < corr) &&
    decide (thr ^ 2 * (e : ℚ) ^ 2 * oneBitPwr mode s2 n < ((qm : ℚ) * corr) ^ 2)

/-- `VALID` of the 2-bit decoder (42_small_block.md R163): the parity check of the three decided bits. -/
def twoBitValid (c0 c1 c2 : Bit) : Bool := c2 == (c0 ^^ c1)

/-- `VALID` of the Reed–Muller decoder (43_reed_muller.md R191), in its squared form. -/
def blockValid (thr : ℚ) (e : Nat) (corr s2 : Int) : Bool :=
  decide (0 < corr) && decide (thr ^ 2 * (e : ℚ) * (s2 : ℚ) < (corr : ℚ) ^ 2)

end Sys2Proof.Machine
end

