-- ==== Sys2Proof/Machine/Operands.lean ====
section
/-! DEFINITION. The operands of the commands. No command has an operand field (30_encoding.md R84): every operand
is a fixed register, memory or port. Here are the binary32 reading of the real-valued registers (00_scope.md R15),
the register table of 10_state.md R22 with its host accesses, the modulation order (R31), and the bit and integer
fields of a payload (41_payload.md R131). -/

namespace Sys2Proof.Machine

/-! ## Binary32 -/

/-- The exponent field of a binary32 pattern. -/
def floatExp (w : Word) : Nat := (w.extractLsb 30 23).toNat

/-- The fraction field of a binary32 pattern. -/
def floatFrac (w : Word) : Nat := (w.extractLsb 22 0).toNat

/-- The pattern is not a NaN and not an infinity. -/
def floatIsFinite (w : Word) : Bool := decide (floatExp w ≠ 255)

/-- The magnitude of a finite pattern in units of `2^-149`; an exponent field of 0 is a subnormal or a zero. -/
def floatMagnitude (w : Word) : Nat :=
  if floatExp w = 0 then floatFrac w else (2 ^ 23 + floatFrac w) * 2 ^ (floatExp w - 1)

/-- `val(w)`: the exact rational value of a finite pattern (00_scope.md R15). A NaN or an infinity has no value; that
the same formula stands for it is without effect in every state the invariant admits (log entry 19). -/
def val (w : Word) : ℚ :=
  (if w.getLsbD 31 then -1 else 1) * ((floatMagnitude w : ℚ) / 2 ^ 149)

/-- Finite positive (00_scope.md R15): not a NaN, not an infinity, and `val(w) > 0`. -/
def finitePositive (w : Word) : Bool := floatIsFinite w && decide (0 < val w)

/-- A pattern that check (4) of 40_sizing.md R108 accepts: no NaN, no infinity, not negative. A negative zero has
value 0 and is accepted (log entry 9). -/
def finiteNonNegative (w : Word) : Bool := floatIsFinite w && decide (0 ≤ val w)

/-- What a host write of `w` leaves in a threshold register (10_state.md R27). -/
def thresholdWritten (w : Word) : Word := if finitePositive w then w else 0x3F000000

/-! ## The register table -/

/-- The names of 10_state.md R22. -/
inductive Reg where
  | cmd | status | resE | resA | ctrl | blockThr | oneBitThr | argA | argE
  | oAck | oSr | nofCsi | rnti | modulation | nofLayers | rate | alpha | betaHarq | betaCsi1 | l0 | kSum
  | csiPart2Present
  | mUciSc (l : Fin 14)
  | pucchFormat | pucchNofSymbols | pucchNofPrb | pucchOccLength | pucchEnablePiBpsk | sr
deriving DecidableEq, Repr

/-- The register with number `n`; `none` for a reserved number (10_state.md R21, R22). -/
def regOfNumber (n : Nat) : Option Reg :=
  match n with
  | 0 => some .cmd
  | 1 => some .status
  | 2 => some .resE
  | 3 => some .resA
  | 4 => some .ctrl
  | 5 => some .blockThr
  | 6 => some .oneBitThr
  | 7 => some .argA
  | 8 => some .argE
  | 16 => some .oAck
  | 17 => some .oSr
  | 18 => some .nofCsi
  | 19 => some .rnti
  | 20 => some .modulation
  | 21 => some .nofLayers
  | 22 => some .rate
  | 23 => some .alpha
  | 24 => some .betaHarq
  | 25 => some .betaCsi1
  | 26 => some .l0
  | 27 => some .kSum
  | 28 => some .csiPart2Present
  | 48 => some .pucchFormat
  | 49 => some .pucchNofSymbols
  | 50 => some .pucchNofPrb
  | 51 => some .pucchOccLength
  | 52 => some .pucchEnablePiBpsk
  | 56 => some .sr
  | n => if h : 32 ≤ n ∧ n < 46 then some (.mUciSc ⟨n - 32, by omega⟩) else none

/-- What a host read of a named register returns (10_state.md R22): the write-only `CMD` reads 0 (R23). -/
def readReg (s : State) : Reg → Word
  | .cmd => 0
  | .status => s.status.word
  | .resE => s.regs.resE
  | .resA => s.regs.resA
  | .ctrl => s.regs.ctrl
  | .blockThr => s.regs.blockThr
  | .oneBitThr => s.regs.oneBitThr
  | .argA => s.regs.argA
  | .argE => s.regs.argE
  | .oAck => s.regs.oAck
  | .oSr => s.regs.oSr
  | .nofCsi => s.regs.nofCsi
  | .rnti => s.regs.rnti
  | .modulation => s.regs.modulation
  | .nofLayers => s.regs.nofLayers
  | .rate => s.regs.rate
  | .alpha => s.regs.alpha
  | .betaHarq => s.regs.betaHarq
  | .betaCsi1 => s.regs.betaCsi1
  | .l0 => s.regs.l0
  | .kSum => s.regs.kSum
  | .csiPart2Present => s.regs.csiPart2Present
  | .mUciSc l => s.regs.mUciSc[l]
  | .pucchFormat => s.regs.pucchFormat
  | .pucchNofSymbols => s.regs.pucchNofSymbols
  | .pucchNofPrb => s.regs.pucchNofPrb
  | .pucchOccLength => s.regs.pucchOccLength
  | .pucchEnablePiBpsk => s.regs.pucchEnablePiBpsk
  | .sr => s.regs.sr

/-- What a host write of `v` to a named register leaves of the register bank (10_state.md R22, R27): the read-only
registers ignore it, the thresholds substitute their default, every other register stores it whole. `CMD` stores
nothing (R23): issuing the command is `step`'s. -/
def writeReg (g : Regs) (r : Reg) (v : Word) : Regs :=
  match r with
  | .cmd => g
  | .status => g
  | .resE => g
  | .resA => g
  | .ctrl => { g with ctrl := v }
  | .blockThr => { g with blockThr := thresholdWritten v }
  | .oneBitThr => { g with oneBitThr := thresholdWritten v }
  | .argA => { g with argA := v }
  | .argE => { g with argE := v }
  | .oAck => { g with oAck := v }
  | .oSr => { g with oSr := v }
  | .nofCsi => { g with nofCsi := v }
  | .rnti => { g with rnti := v }
  | .modulation => { g with modulation := v }
  | .nofLayers => { g with nofLayers := v }
  | .rate => { g with rate := v }
  | .alpha => { g with alpha := v }
  | .betaHarq => { g with betaHarq := v }
  | .betaCsi1 => { g with betaCsi1 := v }
  | .l0 => { g with l0 := v }
  | .kSum => { g with kSum := v }
  | .csiPart2Present => { g with csiPart2Present := v }
  | .mUciSc l => { g with mUciSc := g.mUciSc.set l v }
  | .pucchFormat => { g with pucchFormat := v }
  | .pucchNofSymbols => { g with pucchNofSymbols := v }
  | .pucchNofPrb => { g with pucchNofPrb := v }
  | .pucchOccLength => { g with pucchOccLength := v }
  | .pucchEnablePiBpsk => { g with pucchEnablePiBpsk := v }
  | .sr => { g with sr := v }

/-! ## Modulation -/

/-- `Qm(m)` (10_state.md R31): 1, 2, 4, 6, 8 for the codes 0 to 4, 0 for an unknown modulation. -/
def modulationOrder (m : Word) : Nat :=
  match m.toNat with
  | 0 => 1
  | 1 => 2
  | 2 => 4
  | 3 => 6
  | 4 => 8
  | _ => 0

/-- `Qm = Qm(x[MODULATION])` (40_sizing.md R103). -/
def Regs.qm (g : Regs) : Nat := modulationOrder g.modulation

/-! ## Bit fields -/

/-- `int_to_bits(v, w)` (41_payload.md R131): most significant bit first. -/
def intToBits (v w : Nat) : List Bit :=
  (List.range w).map fun j => decide (v / 2 ^ (w - 1 - j) % 2 = 1)

/-- `bits_to_int(s)` (41_payload.md R131): `Σ_j s[j] · 2^(|s|-1-j)`. -/
def bitsToInt (s : List Bit) : Nat := s.foldl (fun acc b => 2 * acc + bitNum b) 0

/-- The byte of a coded bit: `BIT_0 = 0`, `BIT_1 = 1` (20_memory.md R65). -/
def bitByte (b : Bit) : Byte := if b then 1 else 0

/-- `BIT_REPETITION` (20_memory.md R65). -/
def repByte : Byte := 2

/-- `BIT_PLACEHOLDER` (20_memory.md R65). -/
def phByte : Byte := 3

end Sys2Proof.Machine
end

