-- ==== Sys2Proof/Machine/Sizing.lean ====
section
/-! DEFINITION. Rate computation, 40_sizing.md: the helper functions R102 to R116 and the commands `PUCCH_E` (R106),
`PUSCH_ACK_NOF_BITS` (R112), `PUSCH_CSI1_NOF_BITS` (R117), `TOTAL_BITS` (R119). Counts are naturals and the
real-valued parameters exact rationals; nothing wraps (R100, R101). -/

namespace Sys2Proof.Machine

/-- The largest count a register holds, `2^32 - 1` (R101). -/
def countMax : Nat := 2 ^ 32 - 1

/-- The CRC length rule (R102). -/
def crcLen (a : Nat) : Nat := if a ≤ 11 then 0 else if a ≤ 19 then 6 else 11

/-! ## PUCCH -/

/-- The per-symbol factor of formats 3 and 4 (R104): 12 with pi/2-BPSK, else 24. -/
def piFactor (pi : Bool) : Nat := if pi then 12 else 24

/-- `pucch_E(format, nof_symbols, nof_prb, occ_length, pi_bpsk)` (R104). -/
def pucchE (format nofSymbols nofPrb occLength : Nat) (pi : Bool) : Except ErrorKind Nat :=
  if format = 2 then .ok (16 * nofSymbols * nofPrb)
  else if format = 3 then .ok (piFactor pi * nofSymbols * nofPrb)
  else if format = 4 then
    if occLength = 1 ∨ occLength = 2 then .ok (piFactor pi / occLength * nofSymbols)
    else .error .invalidOccLength
  else .error .invalidInput

/-- `pucch_E` of the five resource registers (R106, 46_transport.md R300). -/
def resourceE (g : Regs) : Except ErrorKind Nat :=
  pucchE g.pucchFormat.toNat g.pucchNofSymbols.toNat g.pucchNofPrb.toNat g.pucchOccLength.toNat
    (g.pucchEnablePiBpsk.getLsbD 0)

/-! ## PUSCH -/

/-- `M_sum` (R107). -/
def mSum (g : Regs) : Nat := (g.mUciSc.toList.map BitVec.toNat).sum

/-- `M_l0_sum` (R107): the entries from `l0` on; 0 when `l0 ≥ 14`. -/
def mL0Sum (g : Regs) : Nat := ((g.mUciSc.toList.drop g.l0.toNat).map BitVec.toNat).sum

/-- The parameter checks of R108 in their order; `withCsi1` adds `BETA_CSI1` to check (4). -/
def puschChecks (withCsi1 : Bool) (g : Regs) : Except ErrorKind Unit :=
  if g.nofLayers = 0 then .error .invalidInput
  else if g.qm = 0 then .error .invalidModulation
  else if !finitePositive g.rate then .error .invalidRate
  else if !finiteNonNegative g.alpha || !finiteNonNegative g.betaHarq ||
      (withCsi1 && !finiteNonNegative g.betaCsi1) then .error .invalidInput
  else .ok ()

/-- The first argument of the `min` of R109 and of the first and third case of R113: `bits` payload and CRC bits
scaled by `beta`, as `ceil(bits·beta/(Qm·R))` when `K_SUM = 0`, else as `ceil(bits·beta·M_sum/K_SUM)`. -/
def scaledSymbols (g : Regs) (bits : Nat) (beta : ℚ) : Int :=
  if g.kSum = 0 then ⌈(bits : ℚ) * beta / ((g.qm : ℚ) * val g.rate)⌉
  else ⌈(bits : ℚ) * beta * (mSum g : ℚ) / (g.kSum.toNat : ℚ)⌉

/-- `Q_ack(O)` (R109), the bound rounded down (R110). -/
def qAck (g : Regs) (o : Nat) : Int :=
  min (scaledSymbols g (o + crcLen o) (val g.betaHarq)) ⌊val g.alpha * (mL0Sum g : ℚ)⌋

/-- `E_ack(O) = Q_ack(O) · nof_layers · Qm` (R111). -/
def eAck (g : Regs) (o : Nat) : Nat := (qAck g o).toNat * g.nofLayers.toNat * g.qm

/-- The bound `b` of R113, by its three cases; it can be negative in the second (R114). -/
def csi1Bound (g : Regs) : Int :=
  let qa := qAck g (max 2 g.oAck.toNat)
  if g.kSum = 0 ∧ g.csiPart2Present.getLsbD 0 = true then ⌊val g.alpha * (mSum g : ℚ) - (qa : ℚ)⌋
  else if g.kSum = 0 then (mSum g : Int) - qa
  else ⌈val g.alpha * (mSum g : ℚ)⌉ - qa

/-- `Q_csi1(O_csi1)` (R113) for a bound that is not negative. -/
def qCsi1 (g : Regs) (o : Nat) : Int :=
  if g.kSum = 0 ∧ g.csiPart2Present.getLsbD 0 = false then csi1Bound g
  else min (scaledSymbols g (o + crcLen o) (val g.betaCsi1)) (csi1Bound g)

/-- `E_csi1(O_csi1) = Q_csi1(O_csi1) · nof_layers · Qm` (R115). The reservation term of R113 reads `O_ACK`, which raises
`InvalidInput` above 1706 (10_state.md R29; log entry 15 for the place of the check); a negative bound raises it too
(R114). -/
def eCsi1 (g : Regs) (o : Nat) : Except ErrorKind Nat :=
  if aMax < g.oAck.toNat then .error .invalidInput
  else if csi1Bound g < 0 then .error .invalidInput
  else .ok ((qCsi1 g o).toNat * g.nofLayers.toNat * g.qm)

/-! ## Steps of the commands -/

/-- `E = pucch_E(resource registers)`, raising `InvalidInput` when it does not fit a register (R101). -/
def sizePucch : Cmd Nat := do
  let s ← get
  let e ← ofExcept (resourceE s.regs)
  raiseIf (countMax < e) .invalidInput
  return e

/-- The checks of R108, then `E = E_ack(o)`, raising `InvalidInput` when it does not fit a register (R101). -/
def sizePuschAck (o : Nat) : Cmd Nat := do
  let s ← get
  ofExcept (puschChecks false s.regs)
  raiseIf (countMax < eAck s.regs o) .invalidInput
  return eAck s.regs o

/-- The checks of R108 with `BETA_CSI1`, then `E = E_csi1(csi.nof_bits())` (R116), raising `InvalidInput` when it
does not fit a register (R101). -/
def sizePuschCsi1 : Cmd Nat := do
  let s ← get
  ofExcept (puschChecks true s.regs)
  let e ← ofExcept (eCsi1 s.regs s.ports.csi.nofBits)
  raiseIf (countMax < e) .invalidInput
  return e

/-- `x[RES_E] <- n`. -/
def putResE (n : Nat) : Cmd Unit := modify fun s => s.setResE (BitVec.ofNat 32 n)

/-- `x[RES_A] <- n`. -/
def putResA (n : Nat) : Cmd Unit := modify fun s => s.setResA (BitVec.ofNat 32 n)

/-- `phase <- p`. -/
def putPhase (p : Phase) : Cmd Unit := modify fun s => s.setPhase p

/-! ## The commands -/

/-- The body of `PUCCH_E` (R106). -/
def pucchEBody : Cmd Unit := do
  let e ← sizePucch
  putResE e

/-- The body of `PUSCH_ACK_NOF_BITS` (R112). -/
def puschAckNofBitsBody : Cmd Unit := do
  let s ← get
  let e ← sizePuschAck s.regs.argA.toNat
  putResE e

/-- The body of `PUSCH_CSI1_NOF_BITS` (R117). -/
def puschCsi1NofBitsBody : Cmd Unit := do
  let e ← sizePuschCsi1
  putResE e

/-- `total_bits` (R118). No range is checked: R119 says so. -/
def totalBits (s : State) : Nat := s.regs.oAck.toNat + s.regs.oSr.toNat + s.ports.csi.nofBits

/-- The body of `TOTAL_BITS` (R119). -/
def totalBitsBody : Cmd Unit := do
  let s ← get
  raiseIf (countMax < totalBits s) .invalidInput
  putResE (totalBits s)

/-- `PUCCH_E` (R106). -/
def execPucchE (s : State) : Host.Outcome State Fault Refusal := runCommand .pucchE pucchEBody s

/-- `PUSCH_ACK_NOF_BITS` (R112). -/
def execPuschAckNofBits (s : State) : Host.Outcome State Fault Refusal :=
  runCommand .puschAckNofBits puschAckNofBitsBody s

/-- `PUSCH_CSI1_NOF_BITS` (R117). -/
def execPuschCsi1NofBits (s : State) : Host.Outcome State Fault Refusal :=
  runCommand .puschCsi1NofBits puschCsi1NofBitsBody s

/-- `TOTAL_BITS` (R119). -/
def execTotalBits (s : State) : Host.Outcome State Fault Refusal := runCommand .totalBits totalBitsBody s

end Sys2Proof.Machine
end

