-- ==== Sys2Proof/Machine/Payload.lean ====
section
/-! DEFINITION. The payload packer and unpacker, 41_payload.md: the modes (R130), the input checks (R132), and the
commands `PACK_PUCCH` (R135), `UNPACK_PUCCH` (R139), `COMPUTE_A` (R142). -/

namespace Sys2Proof.Machine

/-- The payload modes of R130. -/
inductive PayloadMode where
  | ackSr | csiOnly | combined
deriving DecidableEq, Repr

/-- The payload mode (R130), by its three tests in order. -/
def payloadMode (oCsi oAck oSr : Nat) : PayloadMode :=
  if oCsi = 0 then .ackSr
  else if oAck = 0 ∧ oSr = 0 then .csiOnly
  else .combined

/-- The payload mode of a state: `O_csi` from the port, `o_ack` and `o_sr` from the registers. -/
def State.mode (s : State) : PayloadMode :=
  payloadMode s.ports.csi.nofBits s.regs.oAck.toNat s.regs.oSr.toNat

/-- `csi.pack(max)` (10_state.md R47): the port's type returns at most `max` bits, so an answer on record that is
longer is `Fail` (log entry 3). -/
def csiPack (p : CsiPort) (max : Nat) : Option (List Bit) :=
  match p.packed with
  | none => none
  | some bits => if bits.length ≤ max then some bits else none

/-- `csi.pack(max)`, raising `CsiPackFailed` on `Fail` (R133). -/
def packCsi (max : Nat) : Cmd (List Bit) := do
  let s ← get
  match csiPack s.ports.csi max with
  | none => raise .csiPackFailed
  | some bits => return bits

/-- `csi.unpack(bits)`, raising `CsiUnpackFailed` on `Fail`; on `Ok` the port stores what it was given (R136,
10_state.md R47). -/
def unpackCsi (bits : List Bit) : Cmd Unit := do
  let s ← get
  raiseIf (s.ports.csi.unpackOk = false) .csiUnpackFailed
  modify fun s => s.deliverCsi bits

/-- Checks (1) and (2) of R132. -/
def payloadRangeChecks : Cmd Unit := do
  let s ← get
  raiseIf (aMax < s.regs.oAck.toNat) .invalidInput
  raiseIf (32 < s.regs.oSr.toNat) .invalidInput

/-- The ACK bits and the SR field of a payload, in that order (R133). -/
def ackSrBits (s : State) : List Bit :=
  readBits s.ackMem 0 s.regs.oAck.toNat ++ intToBits s.regs.sr.toNat s.regs.oSr.toNat

/-- `pack_pucch` (R133): writes the payload to `BITSEQ` and returns `A`. -/
def packPayload : Cmd Nat := do
  payloadRangeChecks
  let s ← get
  let oAck := s.regs.oAck.toNat
  let oSr := s.regs.oSr.toNat
  raiseIf (2 ^ oSr ≤ s.regs.sr.toNat) .invalidInput
  raiseIf (aMax < oAck + oSr) .invalidInput
  match s.mode with
  | .ackSr => do
    modify fun t => t.writeBitSeq 0 (ackSrBits s)
    return oAck + oSr
  | .csiOnly => do
    let bits ← packCsi aMax
    modify fun t => t.writeBitSeq 0 bits
    return bits.length
  | .combined => do
    modify fun t => t.writeBitSeq 0 (ackSrBits s)
    let bits ← packCsi (aMax - oAck - oSr)
    modify fun t => t.writeBitSeq (oAck + oSr) bits
    return oAck + oSr + bits.length

/-- The stores of unpacking: `ACK_MEM[0..o_ack)` and `SR` from `BITSEQ` (R136). -/
def unpackAckSr (s : State) : State :=
  let oAck := s.regs.oAck.toNat
  let field := readBits s.bitSeq oAck s.regs.oSr.toNat
  (s.writeAckMem 0 (readBits s.bitSeq 0 oAck)).setSr (BitVec.ofNat 32 (bitsToInt field))

/-- `unpack_pucch` (R136). -/
def unpackPayload : Cmd Unit := do
  payloadRangeChecks
  let s ← get
  let oCsi := s.ports.csi.nofBits
  raiseIf (aMax < s.regs.oAck.toNat + s.regs.oSr.toNat + oCsi) .invalidInput
  match s.mode with
  | .ackSr => modify unpackAckSr
  | .csiOnly => raise .unsupported
  | .combined => do
    modify unpackAckSr
    unpackCsi (readBits s.bitSeq (s.regs.oAck.toNat + s.regs.oSr.toNat) oCsi)

/-- `compute_A` (R140). -/
def computePayloadSize : Cmd Nat := do
  payloadRangeChecks
  let s ← get
  match s.mode with
  | .ackSr => do
    raiseIf (aMax < s.regs.oAck.toNat + s.regs.oSr.toNat) .invalidInput
    return s.regs.oAck.toNat + s.regs.oSr.toNat
  | .csiOnly => do
    raiseIf (aMax < s.ports.csi.nofBits) .invalidInput
    return s.ports.csi.nofBits
  | .combined => raise .unsupported

/-- The body of `PACK_PUCCH` (R135). -/
def packPucchBody : Cmd Unit := do
  let a ← packPayload
  putResA a

/-- The body of `UNPACK_PUCCH` (R139). -/
def unpackPucchBody : Cmd Unit := unpackPayload

/-- The body of `COMPUTE_A` (R142). -/
def computeABody : Cmd Unit := do
  let a ← computePayloadSize
  putResA a

/-- `PACK_PUCCH` (R135). -/
def execPackPucch (s : State) : Host.Outcome State Fault Refusal := runCommand .packPucch packPucchBody s

/-- `UNPACK_PUCCH` (R139). -/
def execUnpackPucch (s : State) : Host.Outcome State Fault Refusal :=
  runCommand .unpackPucch unpackPucchBody s

/-- `COMPUTE_A` (R142). -/
def execComputeA (s : State) : Host.Outcome State Fault Refusal := runCommand .computeA computeABody s

end Sys2Proof.Machine
end

