-- ==== Sys2Proof/Machine/SmallBlock.lean ====
section
/-! DEFINITION. The 1-bit and 2-bit coders, 42_small_block.md: the patterns (R152, R159), the samples (R154, R162),
and the commands `ENC_1BIT` (R152), `DEC_1BIT` (R156), `ENC_2BIT` (R161), `DEC_2BIT` (R165). -/

namespace Sys2Proof.Machine

/-- `ceil(a / b)` for `b > 0`. -/
def ceilDiv (a b : Nat) : Nat := (a + b - 1) / b

/-- The common checks of R151 for an allocation of `e` positions. -/
def smallBlockChecks (e : Nat) : Cmd Unit := do
  let s ← get
  raiseIf (e < 1) .invalidInput
  raiseIf (s.params.eMax < e) .invalidInput
  raiseIf (s.regs.qm = 0) .invalidModulation

/-! ## 1 bit -/

/-- Output element `k` of the 1-bit encoder (R152). -/
def oneBitByte (qm : Nat) (c0 : Bit) (k : Nat) : Byte :=
  if k % qm = 0 then bitByte c0 else if k % qm = 1 then repByte else phByte

/-- The samples `s_j = LLR_MEM[j·Qm]`, `j < ceil(E/Qm)`, of the 1-bit decoder (R154). -/
def oneBitSamples (qm : Nat) (llrs : List Int) : List Int :=
  (List.range (ceilDiv llrs.length qm)).map fun j => llrs.getD (j * qm) 0

/-- `Σ v` over a list of soft values. -/
def sumOf (xs : List Int) : Int := xs.foldl (· + ·) 0

/-- `Σ v²` over a list of soft values. -/
def sumSq (xs : List Int) : Int := xs.foldl (fun acc v => acc + v * v) 0

/-- The 1-bit encoder's body (R152) for `e` positions. -/
def encodeOneBit (e : Nat) : Cmd Unit := do
  smallBlockChecks e
  let s ← get
  let c0 := readBit s.bitSeq 0
  modify fun t => t.writeOutMem 0 ((List.range e).map (oneBitByte s.regs.qm c0))
  putResE e
  putPhase .emitted

/-- The 1-bit decoder's body (R156) for `e` positions: it stores the bit and returns the validity. -/
def decodeOneBit (e : Nat) : Cmd Bool := do
  smallBlockChecks e
  let s ← get
  let samples := oneBitSamples s.regs.qm (readLlrs s.llrMem 0 e)
  let corr := sumOf samples
  modify fun t => t.writeBitSeq 0 [hardBit corr]
  return oneBitValid s.params.oneBitPwrMode (val s.regs.oneBitThr) s.regs.qm e corr (sumSq samples)
    samples.length

/-! ## 2 bits -/

/-- The pattern `P(Qm)` of R159 for the payload bits `b0`, `b1` (R158). -/
def twoBitPattern (qm : Nat) (b0 b1 : Bit) : List Byte :=
  let c0 := bitByte b0
  let c1 := bitByte b1
  let c2 := bitByte (b0 ^^ b1)
  if qm ≤ 2 then [c0, c1, c2]
  else
    let pad := List.replicate (qm - 2) phByte
    [c0, c1] ++ pad ++ [c2, c0] ++ pad ++ [c1, c2] ++ pad

/-- The samples of the 2-bit decoder in the order it takes them (R162): every LLR for `Qm = 1`, else the first two
of each group of `Qm`, the second only when it is inside the allocation. -/
def twoBitSamples (qm : Nat) (llrs : List Int) : List Int :=
  if qm = 1 then llrs
  else
    (List.range (ceilDiv llrs.length qm)).flatMap fun g =>
      if g * qm + 1 < llrs.length then [llrs.getD (g * qm) 0, llrs.getD (g * qm + 1) 0]
      else [llrs.getD (g * qm) 0]

/-- One store of the 2-bit decoder's rotating cells: sample number `j` overwrites cell `j mod 3` (R162). -/
def storeCell (cells : Int × Int × Int) (j : Nat) (v : Int) : Int × Int × Int :=
  if j % 3 = 0 then (v, cells.2.1, cells.2.2)
  else if j % 3 = 1 then (cells.1, v, cells.2.2)
  else (cells.1, cells.2.1, v)

/-- The cells `corr[0..3)` after all samples, from cells of 0 (R162). -/
def twoBitCells (samples : List Int) : Int × Int × Int :=
  samples.zipIdx.foldl (fun cells x => storeCell cells x.2 x.1) (0, 0, 0)

/-- The 2-bit encoder's body (R161) for `e` positions. -/
def encodeTwoBit (e : Nat) : Cmd Unit := do
  smallBlockChecks e
  let s ← get
  let p := twoBitPattern s.regs.qm (readBit s.bitSeq 0) (readBit s.bitSeq 1)
  modify fun t => t.writeOutMem 0 ((List.range e).map fun k => p.getD (k % p.length) 0)
  putResE e
  putPhase .emitted

/-- The 2-bit decoder's body (R165) for `e` positions: it stores the two bits and returns the validity. -/
def decodeTwoBit (e : Nat) : Cmd Bool := do
  smallBlockChecks e
  let s ← get
  let cells := twoBitCells (twoBitSamples s.regs.qm (readLlrs s.llrMem 0 e))
  let c0 := hardBit cells.1
  let c1 := hardBit cells.2.1
  let c2 := hardBit cells.2.2
  modify fun t => t.writeBitSeq 0 [c0, c1]
  return twoBitValid c0 c1 c2

/-! ## The commands -/

/-- `VALID <- v`. -/
def putValid (v : Bool) : Cmd Unit := modify fun s => s.setValid v

/-- The body of `ENC_1BIT` (R152). -/
def enc1BitBody : Cmd Unit := do
  let s ← get
  encodeOneBit s.regs.argE.toNat

/-- The body of `DEC_1BIT` (R156). -/
def dec1BitBody : Cmd Unit := do
  let s ← get
  let v ← decodeOneBit s.regs.argE.toNat
  putValid v

/-- The body of `ENC_2BIT` (R161). -/
def enc2BitBody : Cmd Unit := do
  let s ← get
  encodeTwoBit s.regs.argE.toNat

/-- The body of `DEC_2BIT` (R165). -/
def dec2BitBody : Cmd Unit := do
  let s ← get
  let v ← decodeTwoBit s.regs.argE.toNat
  putValid v

/-- `ENC_1BIT` (R152). -/
def execEnc1Bit (s : State) : Host.Outcome State Fault Refusal := runCommand .enc1Bit enc1BitBody s

/-- `DEC_1BIT` (R156). -/
def execDec1Bit (s : State) : Host.Outcome State Fault Refusal := runCommand .dec1Bit dec1BitBody s

/-- `ENC_2BIT` (R161). -/
def execEnc2Bit (s : State) : Host.Outcome State Fault Refusal := runCommand .enc2Bit enc2BitBody s

/-- `DEC_2BIT` (R165). -/
def execDec2Bit (s : State) : Host.Outcome State Fault Refusal := runCommand .dec2Bit dec2BitBody s

end Sys2Proof.Machine
end

