-- ==== Sys2Proof/Machine/ReedMuller.lean ====
section
/-! DEFINITION. The Reed–Muller block code of 3 to 11 bits, 43_reed_muller.md: the code (R180), its rate matching
(R181), combining (R189), the maximum-likelihood search (R190), and the commands `ENC_RM` (R185) and `DEC_RM`
(R191). -/

namespace Sys2Proof.Machine

/-- Codeword bit `d_i` of a payload of `a` bits (R180): `(Σ_{k<a} a_k · M[i][k]) mod 2`. -/
def rmBit (basis : List (List Bit)) (a : Nat) (payload : List Bit) (i : Nat) : Bit :=
  let row := basis.getD i []
  decide (((List.range a).map fun k => bitNum (payload.getD k false && row.getD k false)).sum % 2 = 1)

/-- The codeword `d_0 … d_31` (R180). -/
def rmCodeword (basis : List (List Bit)) (a : Nat) (payload : List Bit) : List Bit :=
  (List.range 32).map (rmBit basis a payload)

/-- The folded soft values `acc[0..32)` (R189). -/
def rmFold (llrs : List Int) : List Int :=
  (List.range 32).map fun i =>
    sumOf ((llrs.zipIdx.filter fun x => decide (x.2 % 32 = i)).map Prod.fst)

/-- The payload with number `g = Σ_k g_k · 2^k`: bit `k` of `g` is payload bit `k` (R190). -/
def rmCandidate (a g : Nat) : List Bit := (List.range a).map fun k => g.testBit k

/-- `corr(g) = Σ_i (2·d_i(g) - 1) · acc[i]` (R190). -/
def rmCorr (basis : List (List Bit)) (a : Nat) (acc : List Int) (g : Nat) : Int :=
  sumOf ((List.zip (rmCodeword basis a (rmCandidate a g)) acc).map fun x => if x.1 then x.2 else -x.2)

/-- The first number below `bound` of greatest score, with that score (R190: ties to the smallest number). -/
def firstBest (score : Nat → Int) : Nat → Nat × Int
  | 0 => (0, score 0)
  | n + 1 =>
    let best := firstBest score n
    if best.2 < score (n + 1) then (n + 1, score (n + 1)) else best

/-- The candidate of greatest correlation and its correlation, over all `2^a` payloads (R190). -/
def rmSearch (basis : List (List Bit)) (a : Nat) (acc : List Int) : Nat × Int :=
  firstBest (rmCorr basis a acc) (2 ^ a - 1)

/-- The common checks of R184. -/
def rmChecks (a e : Nat) : Cmd Unit := do
  let s ← get
  raiseIf (a < 3 ∨ 11 < a) .invalidInput
  raiseIf (e < 1) .invalidInput
  raiseIf (s.params.eMax < e) .invalidInput

/-- The block encoder's body (R185) for `a` payload bits and `e` positions; output `k` is `d_(k mod 32)` (R181). -/
def encodeRm (a e : Nat) : Cmd Unit := do
  rmChecks a e
  let s ← get
  let d := rmCodeword s.params.rmBasis a (readBits s.bitSeq 0 a)
  modify fun t => t.writeOutMem 0 ((List.range e).map fun k => bitByte (d.getD (k % 32) false))
  putResE e
  putPhase .emitted

/-- The block decoder's body (R191) for `a` payload bits and `e` positions: it stores the payload and returns the
validity. -/
def decodeRm (a e : Nat) : Cmd Bool := do
  rmChecks a e
  raiseIf (a = 11 ∧ e ≤ 16) .underRateMatched
  let s ← get
  let llrs := readLlrs s.llrMem 0 e
  let s2 := sumSq llrs
  raiseIf (s2 = 0) .allZeros
  let best := rmSearch s.params.rmBasis a (rmFold llrs)
  modify fun t => t.writeBitSeq 0 (rmCandidate a best.1)
  return blockValid (val s.regs.blockThr) e best.2 s2

/-- The body of `ENC_RM` (R185). -/
def encRmBody : Cmd Unit := do
  let s ← get
  encodeRm s.regs.argA.toNat s.regs.argE.toNat

/-- The body of `DEC_RM` (R191). -/
def decRmBody : Cmd Unit := do
  let s ← get
  let v ← decodeRm s.regs.argA.toNat s.regs.argE.toNat
  putValid v

/-- `ENC_RM` (R185). -/
def execEncRm (s : State) : Host.Outcome State Fault Refusal := runCommand .encRm encRmBody s

/-- `DEC_RM` (R191). -/
def execDecRm (s : State) : Host.Outcome State Fault Refusal := runCommand .decRm decRmBody s

end Sys2Proof.Machine
end

