-- ==== Sys2Proof/Machine/Crc.lean ====
section
/-! DEFINITION. The CRC, 44_polar_code.md section 6: checksum (R240), parity order and attach (R241), check
(R242). -/

namespace Sys2Proof.Machine

/-- The generator polynomial of an `l`-bit CRC, its leading term as bit `l` (R240). -/
def crcPoly (p : Params) (l : Nat) : Nat := if l = 6 then p.crc6Poly else p.crc11Poly

/-- One step of the `l`+1 bit wide division register (R240). -/
def crcStep (poly l reg : Nat) (b : Bit) : Nat :=
  let shifted := (reg * 2 + bitNum b) % 2 ^ (l + 1)
  if shifted.testBit l then shifted ^^^ poly else shifted

/-- `checksum(m, l)` (R240): the remainder of `m(D)·D^l` by the generator. -/
def crcChecksum (poly l : Nat) (m : List Bit) : Nat :=
  (m ++ List.replicate l false).foldl (crcStep poly l) 0

/-- The parity bits `p_j`, most significant first (R241). -/
def crcParity (poly l : Nat) (m : List Bit) : List Bit :=
  (List.range l).map fun j => (crcChecksum poly l m).testBit (l - 1 - j)

/-- `attach(m, l)` (R241). -/
def crcAttach (poly l : Nat) (m : List Bit) : List Bit := m ++ crcParity poly l m

/-- `crc_ok(c, s, l)` (R242): the `l` bits after the first `s` are the parity of the first `s`. -/
def crcOk (poly s l : Nat) (c : List Bit) : Bool :=
  (c.drop s).take l == crcParity poly l (c.take s)

end Sys2Proof.Machine
end

