-- ==== Sys2Proof/Machine/PolarCode.lean ====
section
/-! DEFINITION. The polar code table, 44_polar_code.md sections 1 and 3: the record's invariants (R211, 10_state.md
R48) and the default `POLAR_SELECT` (R214 to R221). -/

namespace Sys2Proof.Machine

/-! ## The invariants of a code record -/

/-- The invariants of 10_state.md R48 on an `Ok` answer to `POLAR_SELECT(k, _, nMax)`. -/
def codeAccepted (k nMax : Nat) (c : PolarCode) : Bool :=
  c.N == 2 ^ c.n && decide (5 ≤ c.n) && decide (c.n ≤ nMax) && c.K == k &&
    strictlyRising c.kSet && c.kSet.length == c.K + c.nPC && c.kSet.all (fun i => decide (i < c.N)) &&
    strictlyRising c.pcSet && c.pcSet.length == c.nPC && c.pcSet.all (fun i => c.kSet.contains i) &&
    c.fSet == (List.range c.N).filter (fun i => !c.kSet.contains i) &&
    c.fSetSize == c.N - c.K - c.nPC

/-! ## The default table -/

/-- The least `c' ≥ c` with `2^c' ≥ x`, within `fuel` trials. -/
def clog2From (x : Nat) : Nat → Nat → Nat
  | 0, c => c
  | fuel + 1, c => if x ≤ 2 ^ c then c else clog2From x fuel (c + 1)

/-- `ceil(log2 x)`: the least `c` with `2^c ≥ x` (R215). -/
def clog2 (x : Nat) : Nat := clog2From x x 0

/-- The code exponent `n` (R215). The test `8·E ≤ 9·2^(cl-1)` is written `16·E ≤ 9·2^cl`, which is the same for
every `cl ≥ 0` (log entry 16). -/
def polarExponent (k e nMax : Nat) : Nat :=
  let cl := clog2 e
  let n1 := if 16 * e ≤ 9 * 2 ^ cl ∧ 16 * k < 9 * e then cl - 1 else cl
  let n2 := clog2 (8 * k)
  max (min n1 (min n2 nMax)) 5

/-- The sub-block interleaver index `J(m)` for a code of length `n` (R217). -/
def subblockIndex (p : Params) (n m : Nat) : Nat :=
  p.subblockP.getD (32 * m / n) 0 * (n / 32) + m % (n / 32)

/-- The bound of the second part of `F_tmp` under puncturing (R218): `ceil(3N/4 - E/2)` or `ceil(9N/16 - E/4)`. -/
def punctureBound (n e : Nat) : Nat :=
  if 3 * n ≤ 4 * e then ceilDiv (3 * n - 2 * e) 4 else ceilDiv (9 * n - 4 * e) 16

/-- The pre-frozen positions `F_tmp` (R218). -/
def preFrozen (p : Params) (n k e : Nat) : List Nat :=
  if n ≤ e then []
  else if 16 * k ≤ 7 * e then
    (List.range (n - e)).map (subblockIndex p n) ++ List.range (punctureBound n e)
  else
    (List.range (n - e)).map fun m => subblockIndex p n (m + e)

/-- The number of parity-check bits `nPC` (R220). -/
def parityCount (k : Nat) : Nat := if 18 ≤ k ∧ k ≤ 25 then 3 else 0

/-- `nPC_wm` (R220): `E - K + 3 > 192`, with three parity-check bits. -/
def parityCountWm (k e : Nat) : Nat := if parityCount k = 3 ∧ 192 + k < e + 3 then 1 else 0

/-- The number of 1 bits of a position below `2^16`: the exponent of its row weight in `G_N` (R220). -/
def onesOf (i : Nat) : Nat := (List.range 16).countP fun b => i.testBit b

/-- Of a list of positions by increasing reliability, the last of those with the fewest 1 bits (R220). -/
def lightestLast : List Nat → Option Nat
  | [] => none
  | i :: rest =>
    match lightestLast rest with
    | none => some i
    | some j => if onesOf i < onesOf j then some i else some j

/-- The parity-check positions, by the rule of R220, among the chosen positions `qI` in reliability order. -/
def parityPositions (k e : Nat) (qI : List Nat) : List Nat :=
  let nPC := parityCount k
  let wm := parityCountWm k e
  qI.take (nPC - wm) ++ (if wm = 1 then (lightestLast (qI.drop nPC)).toList else [])

/-- The members of `s` below `n`, sorted increasingly. -/
def sortedBelow (n : Nat) (s : List Nat) : List Nat := (List.range n).filter fun i => s.contains i

/-- The answer of the default table once tests (1) to (3) of R214 have passed (R215 to R221, test (4)). -/
def polarBuild (p : Params) (k e nMax : Nat) : Option PolarCode :=
  let n := polarExponent k e nMax
  let len := 2 ^ n
  let nPC := parityCount k
  let frozen := preFrozen p len k e
  let iTmp := p.polarQ.filter fun i => decide (i < len) && !frozen.contains i
  if iTmp.length < k + nPC then none
  else
    let qI := iTmp.drop (iTmp.length - (k + nPC))
    some
      { N := len
        n := n
        K := k
        nPC := nPC
        kSet := sortedBelow len qI
        pcSet := sortedBelow len (parityPositions k e qI)
        fSet := (List.range len).filter fun i => !qI.contains i
        fSetSize := len - k - nPC }

/-- The default `POLAR_SELECT(K, E, n_max)` (R214); `none` is `Fail`. -/
def polarTable (p : Params) (k e nMax : Nat) : Option PolarCode :=
  if k < 18 ∨ (25 < k ∧ k < 31) ∨ 1023 < k then none
  else if e < k + parityCount k then none
  else if p.ePolarMax < e then none
  else polarBuild p k e nMax

/-- The bound `POLAR_SELECT` port (10_state.md R48). -/
def polarSelect (p : Params) (port : PolarSelectPort) (k e nMax : Nat) : Option PolarCode :=
  match port with
  | .table => polarTable p k e nMax
  | .answer code => code

/-- The code lookup of 45_polar_pipeline.md R264. -/
def polarLookup (p : Params) (port : PolarSelectPort) (k e : Nat) : Except ErrorKind PolarCode :=
  match polarSelect p port k e polarNMax with
  | none => .error .polarCodeSelectFailed
  | some code => if codeAccepted k polarNMax code then .ok code else .error .polarCodeSelectFailed

end Sys2Proof.Machine
end

