-- ==== Sys2Proof/Machine/PolarCoding.lean ====
section
/-! DEFINITION. The polar transform (44_polar_code.md R212), channel allocation and its inverse (R230, R231), and
the decoder port (10_state.md R49, 44_polar_code.md R246, R247). -/

namespace Sys2Proof.Machine

/-- Element-wise exclusive or of two bit sequences. -/
def xorBits (a b : List Bit) : List Bit := List.zipWith (fun x y => x ^^ y) a b

/-- `polar_transform(u)` for `2^n` bits, in the butterfly form of R212: the stage that joins the two halves, then
each half by itself (log entry 16). -/
def polarTransform : Nat → List Bit → List Bit
  | 0, u => u
  | n + 1, u =>
    polarTransform n (xorBits (u.take (2 ^ n)) (u.drop (2 ^ n))) ++ polarTransform n (u.drop (2 ^ n))

/-- The `m`-th steps of R230's loop over the positions given, with the shift register `y` (bit `i` is `y[i]`) and
the message bits not yet placed. -/
def allocateFrom (code : PolarCode) : List Nat → BitVec 5 → List Bit → List Bit
  | [], _, _ => []
  | m :: ms, y0, c =>
    let y := if 0 < code.nPC then y0.rotateRight 1 else y0
    if code.kSet.contains m then
      if code.pcSet.contains m then y.getLsbD 0 :: allocateFrom code ms y c
      else
        let b := c.headD false
        let y1 := if 0 < code.nPC then y ^^^ (if b then 1 else 0) else y
        b :: allocateFrom code ms y1 c.tail
    else false :: allocateFrom code ms y c

/-- `chanalloc_tx(c, code)` (R230). -/
def chanallocTx (code : PolarCode) (c : List Bit) : List Bit :=
  allocateFrom code (List.range code.N) 0 c

/-- The positions of `K_set` that are not in `PC_set`, increasing: those that carry message bits. -/
def messagePositions (code : PolarCode) : List Nat := code.kSet.filter fun m => !code.pcSet.contains m

/-- `chanalloc_rx(u, code)` (R231). -/
def chanallocRx (code : PolarCode) (u : List Bit) : List Bit :=
  (messagePositions code).map fun m => u.getD m false

/-- The hard-decision reference decoder (R247). -/
def referenceDecode (code : PolarCode) (s : List Int) : List Bit :=
  polarTransform code.n (s.map fun v => decide (v < 0))

/-- `POLAR_DECODE(code, s)` in its call for segment `r` (10_state.md R49); `none` is `Fail`. The port's type
returns `N` bits, so an answer on record of another length is cut or filled up with zeros (log entry 3). -/
def polarDecode (port : PolarDecodePort) (r : Nat) (code : PolarCode) (s : List Int) : Option (List Bit) :=
  match port with
  | .reference => some (referenceDecode code s)
  | .answers perSegment =>
    (perSegment.getD r none).map fun u => (List.range code.N).map fun m => u.getD m false

end Sys2Proof.Machine
end

