-- ==== Sys2Proof/Machine/RateMatch.lean ====
section
/-! DEFINITION. The polar rate matcher and its inverse, 44_polar_code.md section 5: sub-block interleaving (R234),
bit selection (R235), the triangular interleaver (R236), `rm_tx` (R237) and `rm_rx` (R238). -/

namespace Sys2Proof.Machine

/-- The least `T' ≥ t` with `T'·(T'+1)/2 ≥ e`, within `fuel` trials. -/
def triangleFrom (e : Nat) : Nat → Nat → Nat
  | 0, t => t
  | fuel + 1, t => if e ≤ t * (t + 1) / 2 then t else triangleFrom e fuel (t + 1)

/-- `T` of R236: the least natural with `T·(T+1)/2 ≥ E`. -/
def triangleSize (e : Nat) : Nat := triangleFrom e e 0

/-- The number of the first cell of row `i` of a triangle with rows of `t`, `t - 1`, … cells (R236). -/
def triangleRowStart (t i : Nat) : Nat := i * t - i * (i - 1) / 2

/-- The index sequence `src_E(0), src_E(1), …` of the coded-bit interleaver (R236): the triangle, filled row by row,
is read column by column and its empty cells are skipped. -/
def triangleSrc (e : Nat) : List Nat :=
  let t := triangleSize e
  (List.range t).flatMap fun j =>
    ((List.range (t - j)).map fun i => triangleRowStart t i + j).filter fun k => decide (k < e)

/-- The three cases of bit selection (R235). -/
inductive MatchMode where
  | repetition | puncturing | shortening
deriving DecidableEq, Repr

/-- The case of bit selection for a code of length `n` with `k` message bits and `e` positions (R235). -/
def matchMode (n k e : Nat) : MatchMode :=
  if n ≤ e then .repetition else if 16 * k ≤ 7 * e then .puncturing else .shortening

/-- The index map of bit selection: `e_k = y_(sel(k))` (R235). -/
def bitSelect (n k e i : Nat) : Nat :=
  match matchMode n k e with
  | .repetition => i % n
  | .puncturing => i + n - e
  | .shortening => i

/-- `rm_tx(d, code, E)` (R237): `f_k = d_(J(sel(src_E(k))))`. -/
def rateMatch (p : Params) (code : PolarCode) (e : Nat) (d : List Bit) : List Bit :=
  (triangleSrc e).map fun t => d.getD (subblockIndex p code.N (bitSelect code.N code.K e t)) false

/-- `clamp(v)` (R238). It is applied where R238 writes it and nowhere else (log entry 21). -/
def clampLlr (p : Params) (v : Int) : Int := max (-(p.llrSat : Int)) (min (p.llrSat : Int) v)

/-- The scatter `x[idx k] = v k` over a list of values, from `len` elements `init` (R238). -/
def scatter (len : Nat) (init : Int) (idx : List Nat) (vs : List Int) : List Int :=
  (List.zip idx vs).foldl (fun acc x => acc.set x.1 x.2) (List.replicate len init)

/-- The combining of repeated positions (R238): saturating addition in increasing `k`. -/
def combineRepeats (p : Params) (n : Nat) (e : List Int) : List Int :=
  e.zipIdx.foldl (fun y x => y.set (x.2 % n) (clampLlr p (y.getD (x.2 % n) 0 + x.1))) (List.replicate n 0)

/-- The values before the sub-block interleaver, `y[0..N)`, from the de-interleaved ones (R238). -/
def deselect (p : Params) (code : PolarCode) (e : List Int) : List Int :=
  match matchMode code.N code.K e.length with
  | .repetition => combineRepeats p code.N e
  | .puncturing => List.replicate (code.N - e.length) 0 ++ e
  | .shortening => e ++ List.replicate (code.N - e.length) (p.llrSat : Int)

/-- `rm_rx(s, code, E)` with `E = |s|` (R238). -/
def rateDematch (p : Params) (code : PolarCode) (s : List Int) : List Int :=
  let e := scatter s.length 0 (triangleSrc s.length) s
  let y := deselect p code e
  scatter code.N 0 ((List.range code.N).map (subblockIndex p code.N)) y

end Sys2Proof.Machine
end

