-- ==== Sys2Proof/Machine/PolarPipeline.lean ====
section
/-! DEFINITION. The segmented polar encoder and decoder, 45_polar_pipeline.md: segmentation (R261), the checks
(R263), one segment of each direction (R265, R266, R273, R274), and the commands `ENC_POLAR` (R268) and `DEC_POLAR`
(R275). -/

namespace Sys2Proof.Machine

/-- The segmentation parameters of R261. -/
structure SegParams where
  /-- Segment count. -/
  C : Nat
  /-- Padded length `A'`. -/
  padded : Nat
  /-- CRC length. -/
  L : Nat
  /-- Info bits of a segment. -/
  S : Nat
  /-- Info and CRC bits of a segment. -/
  kR : Nat
  /-- Coded bits of a segment. -/
  eR : Nat
deriving DecidableEq, Repr

/-- `segparams(A, E)` (R261). -/
def segParams (a e : Nat) : SegParams :=
  let c := if (360 ≤ a ∧ 1088 ≤ e) ∨ 1013 ≤ a then 2 else 1
  let padded := ceilDiv a c * c
  let s := padded / c
  { C := c, padded := padded, L := crcLen a, S := s, kR := s + crcLen a, eR := e / c }

/-- `pad_r` (R265): the zero bits before segment `r`. -/
def segPad (a : Nat) (g : SegParams) (r : Nat) : Nat := if r = 0 then g.padded - a else 0

/-- The source position at which segment `r` begins (R265): `pos` after the segments before it. -/
def segStart (a : Nat) (g : SegParams) (r : Nat) : Nat := if r = 0 then 0 else r * g.S - segPad a g 0

/-- The common checks of R263. -/
def polarChecks (a e : Nat) : Cmd Unit := do
  let s ← get
  raiseIf (a < 12 ∨ 1705 < a) .invalidInput
  raiseIf (e < 1) .invalidInput
  raiseIf (s.params.eMax < e) .invalidInput

/-- The lookup of R264 with the ports and parameters of the state. -/
def lookupCode (g : SegParams) : Cmd PolarCode := do
  let s ← get
  ofExcept (polarLookup s.params s.ports.polarSelect g.kR g.eR)

/-! ## Encoder -/

/-- The info bits `seg_r` of segment `r` of the payload (R265): the pad, then `S - pad_r` source bits. -/
def segInfo (a : Nat) (g : SegParams) (payload : List Bit) (r : Nat) : List Bit :=
  List.replicate (segPad a g r) false ++ (payload.drop (segStart a g r)).take (g.S - segPad a g r)

/-- The coded bits `f_r` of a segment with info bits `info` (R265, R266). What D0's buffers `C_BUF`, `ALLOC` and `D_BUF`
hold on the way is the value passed from one procedure to the next (log entry 18). -/
def encodeSegment (p : Params) (code : PolarCode) (g : SegParams) (info : List Bit) : List Bit :=
  rateMatch p code g.eR
    (polarTransform code.n (chanallocTx code (crcAttach (crcPoly p g.L) g.L info)))

/-- The output `OUT_MEM[0 .. C·E_r)` of the encoder (R266, R267). -/
def polarOutput (p : Params) (code : PolarCode) (a : Nat) (g : SegParams) (payload : List Bit) : List Bit :=
  (List.range g.C).flatMap fun r => encodeSegment p code g (segInfo a g payload r)

/-- The polar encoder's body (R268) for `a` payload bits and `e` positions. -/
def encodePolar (a e : Nat) : Cmd Unit := do
  polarChecks a e
  let code ← lookupCode (segParams a e)
  let s ← get
  let payload := readBits s.bitSeq 0 a
  modify fun t => t.writeOutMem 0 ((polarOutput s.params code a (segParams a e) payload).map bitByte)
  putResE e
  putPhase .emitted

/-! ## Decoder -/

/-- The sign flip `neg` of R273, saturating at −128. -/
def negLlr (v : Int) : Int := if v = -128 then 127 else -v

/-- The `K_r` bits `ĉ` the decoder finds in segment `r` (R273, R274), or the port's failure. -/
def decodeSegment (p : Params) (port : PolarDecodePort) (code : PolarCode) (r : Nat) (llrs : List Int) :
    Except ErrorKind (List Bit) :=
  match polarDecode port r code (rateDematch p code (llrs.map negLlr)) with
  | none => .error .polarDecodeFailed
  | some u => .ok (chanallocRx code u)

/-- Segment `r` of the decode loop (R274): it stores the info bits without the pad and returns whether the CRC
matched. -/
def decodeSegmentStep (code : PolarCode) (a : Nat) (g : SegParams) (r : Nat) : Cmd Bool := do
  let s ← get
  let c ← ofExcept
    (decodeSegment s.params s.ports.polarDecode code r (readLlrs s.llrMem (g.eR * r) g.eR))
  modify fun t => t.writeBitSeq (segStart a g r) ((c.take g.S).drop (segPad a g r))
  return crcOk (crcPoly s.params g.L) g.S g.L c

/-- The decode loop over the segments `r, r+1, …` of which `count` remain; the validity accumulates with AND
(R272). -/
def decodeSegments (code : PolarCode) (a : Nat) (g : SegParams) : Nat → Nat → Bool → Cmd Bool
  | _, 0, valid => pure valid
  | r, count + 1, valid => do
    let ok ← decodeSegmentStep code a g r
    decodeSegments code a g (r + 1) count (valid && ok)

/-- The polar decoder's body (R275) for `a` payload bits and `e` positions: it stores the payload and returns the
validity. -/
def decodePolar (a e : Nat) : Cmd Bool := do
  polarChecks a e
  let code ← lookupCode (segParams a e)
  decodeSegments code a (segParams a e) 0 (segParams a e).C true

/-! ## The commands -/

/-- The body of `ENC_POLAR` (R268). -/
def encPolarBody : Cmd Unit := do
  let s ← get
  encodePolar s.regs.argA.toNat s.regs.argE.toNat

/-- The body of `DEC_POLAR` (R275). -/
def decPolarBody : Cmd Unit := do
  let s ← get
  let v ← decodePolar s.regs.argA.toNat s.regs.argE.toNat
  putValid v

/-- `ENC_POLAR` (R268). -/
def execEncPolar (s : State) : Host.Outcome State Fault Refusal := runCommand .encPolar encPolarBody s

/-- `DEC_POLAR` (R275). -/
def execDecPolar (s : State) : Host.Outcome State Fault Refusal := runCommand .decPolar decPolarBody s

end Sys2Proof.Machine
end

