-- ==== Sys2Proof/Machine/Transport.lean ====
section
/-! DEFINITION. The size dispatch and the six façades, 46_transport.md: dispatch (R290, R293), `ENCODE` (R294),
`DECODE` (R296), `ENC_PUCCH` (R300), `DEC_PUCCH` (R303), the `A = 2` coercion (R305), `ENC_PUSCH_ACK` (R306),
`DEC_PUSCH_ACK` (R308), `ENC_PUSCH_CSI1` (R310), `DEC_PUSCH_CSI1` (R312). -/

namespace Sys2Proof.Machine

/-! ## Dispatch -/

/-- The phase of the family R290 selects. -/
def familyPhase (a : Nat) : Phase := if a ≤ 11 then .smallBlock else .polar

/-- `encode_core(A, E)` (R293): the encoder body that R290 selects, with its own checks. -/
def encodeCore (a e : Nat) : Cmd Unit :=
  if a = 1 then encodeOneBit e
  else if a = 2 then encodeTwoBit e
  else if a ≤ 11 then encodeRm a e
  else encodePolar a e

/-- `decode_core(A, E)` (R293): the decoder body that R290 selects, with its own checks. -/
def decodeCore (a e : Nat) : Cmd Bool :=
  if a = 1 then decodeOneBit e
  else if a = 2 then decodeTwoBit e
  else if a ≤ 11 then decodeRm a e
  else decodePolar a e

/-- The dispatch every encoder ends in: reject an unknown size, set the phase, run the body (R290, R294). -/
def encodeDispatch (a e : Nat) : Cmd Unit := do
  raiseIf (a = 0 ∨ 1706 ≤ a) .invalidInput
  putPhase (familyPhase a)
  encodeCore a e

/-- The dispatch every decoder goes through (R290, R296). -/
def decodeDispatch (a e : Nat) : Cmd Bool := do
  raiseIf (a = 0 ∨ 1706 ≤ a) .invalidInput
  putPhase (familyPhase a)
  decodeCore a e

/-- The body of `ENCODE` (R294). -/
def encodeBody : Cmd Unit := do
  let s ← get
  encodeDispatch s.regs.argA.toNat s.regs.argE.toNat
  putResE s.regs.argE.toNat
  putPhase .emitted

/-- The body of `DECODE` (R296). -/
def decodeBody : Cmd Unit := do
  let s ← get
  let v ← decodeDispatch s.regs.argA.toNat s.regs.argE.toNat
  putValid v
  putPhase .idle

/-! ## PUCCH -/

/-- The body of `ENC_PUCCH` (R300, R301). -/
def encPucchBody : Cmd Unit := do
  let s ← get
  let e ← sizePucch
  putPhase .sized
  let a ← packPayload
  putPhase .packedPayload
  raiseIf (s.mode = .combined ∧ a ≤ 11) .unsupported
  encodeDispatch a e
  putResA a
  putResE e
  putPhase .emitted

/-- The body of `DEC_PUCCH` (R303). -/
def decPucchBody : Cmd Unit := do
  let e ← sizePucch
  let a ← computePayloadSize
  let v ← decodeDispatch a e
  unpackPayload
  putValid v
  putResA a
  putResE e
  putPhase .idle

/-! ## PUSCH HARQ-ACK -/

/-- The `A = 2` coercion's test (R305): configuration and port only. -/
def coerces (s : State) : Bool :=
  decide (s.regs.kSum = 0) && decide (1 < s.regs.nofCsi.toNat) && !s.ports.csi.hasPart2 &&
    decide (s.regs.oAck.toNat < 2)

/-- `A` of the HARQ-ACK façades (R305). -/
def ackSize (s : State) : Nat := if coerces s then 2 else s.regs.oAck.toNat

/-- The payload the HARQ-ACK encoder places in `BITSEQ` (R306). -/
def ackPayload (s : State) : List Bit :=
  if coerces s then [if s.regs.oAck.toNat = 0 then false else readBit s.ackMem 0, false]
  else readBits s.ackMem 0 s.regs.oAck.toNat

/-- The end of a façade that found nothing to code (R306, R308, R310, R312). -/
def nothingToCode (p : Phase) : Cmd Unit := do
  putResA 0
  putResE 0
  putPhase p

/-- The body of `ENC_PUSCH_ACK` (R306). -/
def encPuschAckBody : Cmd Unit := do
  let s ← get
  raiseIf (aMax < s.regs.oAck.toNat) .invalidInput
  if ackSize s = 0 then nothingToCode .emitted
  else do
    modify fun t => t.writeBitSeq 0 (ackPayload s)
    putPhase .packedPayload
    let e ← sizePuschAck (ackSize s)
    putPhase .sized
    encodeDispatch (ackSize s) e
    putResA (ackSize s)
    putResE e
    putPhase .emitted

/-- The body of `DEC_PUSCH_ACK` (R308). -/
def decPuschAckBody : Cmd Unit := do
  let s ← get
  raiseIf (aMax < s.regs.oAck.toNat) .invalidInput
  if ackSize s = 0 then do
    putValid true
    nothingToCode .idle
  else do
    let e ← sizePuschAck (ackSize s)
    let v ← decodeDispatch (ackSize s) e
    modify fun t => t.writeAckMem 0 (readBits t.bitSeq 0 (ackSize s))
    putValid v
    putResA (ackSize s)
    putResE e
    putPhase .idle

/-! ## PUSCH CSI part 1 -/

/-- The body of `ENC_PUSCH_CSI1` (R310). -/
def encPuschCsi1Body : Cmd Unit := do
  let bits ← packCsi aMax
  modify fun t => t.writeBitSeq 0 bits
  if bits.length = 0 then nothingToCode .emitted
  else do
    putPhase .packedPayload
    let e ← sizePuschCsi1
    putPhase .sized
    encodeDispatch bits.length e
    putResA bits.length
    putResE e
    putPhase .emitted

/-- The body of `DEC_PUSCH_CSI1` (R312). -/
def decPuschCsi1Body : Cmd Unit := do
  let s ← get
  let a := s.ports.csi.nofBits
  if a = 0 then do
    putValid true
    nothingToCode .idle
  else do
    let e ← sizePuschCsi1
    let v ← decodeDispatch a e
    let t ← get
    unpackCsi (readBits t.bitSeq 0 a)
    putValid v
    putResA a
    putResE e
    putPhase .idle

/-! ## The commands -/

/-- `ENCODE` (R294). -/
def execEncode (s : State) : Host.Outcome State Fault Refusal := runCommand .encode encodeBody s

/-- `DECODE` (R296). -/
def execDecode (s : State) : Host.Outcome State Fault Refusal := runCommand .decode decodeBody s

/-- `ENC_PUCCH` (R300). -/
def execEncPucch (s : State) : Host.Outcome State Fault Refusal := runCommand .encPucch encPucchBody s

/-- `DEC_PUCCH` (R303). -/
def execDecPucch (s : State) : Host.Outcome State Fault Refusal := runCommand .decPucch decPucchBody s

/-- `ENC_PUSCH_ACK` (R306). -/
def execEncPuschAck (s : State) : Host.Outcome State Fault Refusal :=
  runCommand .encPuschAck encPuschAckBody s

/-- `DEC_PUSCH_ACK` (R308). -/
def execDecPuschAck (s : State) : Host.Outcome State Fault Refusal :=
  runCommand .decPuschAck decPuschAckBody s

/-- `ENC_PUSCH_CSI1` (R310). -/
def execEncPuschCsi1 (s : State) : Host.Outcome State Fault Refusal :=
  runCommand .encPuschCsi1 encPuschCsi1Body s

/-- `DEC_PUSCH_CSI1` (R312). -/
def execDecPuschCsi1 (s : State) : Host.Outcome State Fault Refusal :=
  runCommand .decPuschCsi1 decPuschCsi1Body s

end Sys2Proof.Machine
end

