-- ==== Sys2Proof/Machine/HostPort.lean ====
section
/-! DEFINITION. What the host and the platform do to the block between commands: register and memory accesses
(30_encoding.md R89, 20_memory.md R61), the reset event (70_reset_and_hazards.md R360), a change behind the ports
(10_state.md R46). The host's transactions stand in `State.pending`, the next one first; `step` takes them one by
one (log entry 1). -/

namespace Sys2Proof.Machine

/-- The command word a transaction issues: a write of register 0, `CMD` (10_state.md R23). -/
def issuedWord : HostOp → Option Word
  | .wr n v => if n = 0 then some v else none
  | .rd _ => none
  | .wmBit _ _ _ => none
  | .wmByte _ _ _ => none
  | .rmBit _ _ => none
  | .rmByte _ _ => none
  | .reset => none
  | .bindPorts _ => none

/-- The number of register numbers (10_state.md R21); an access beyond is refused (log entry 6). -/
def regCount : Nat := 64

/-- `WR n, v` (10_state.md R21, R22): a reserved number ignores the write. -/
def hostWriteReg (s : State) (n : Nat) (v : Word) : State :=
  match regOfNumber n with
  | none => s
  | some r => { s with regs := writeReg s.regs r v }

/-- `RD n` (10_state.md R21, R22): a reserved number reads 0. -/
def hostReadReg (s : State) (n : Nat) : Word :=
  match regOfNumber n with
  | none => 0
  | some r => readReg s r

/-- The state after the reset event (70_reset_and_hazards.md R360, R361): registers and `STATUS` at their reset
values and every memory `any` by fresh draws. The parameters are the hardware's, the ports stay bound, and the
host's transactions go on (log entry 8). -/
def State.resetEvent (s : State) : State :=
  { State.reset with
    ackMem := Memory.any Bit s.draws
    bitSeq := Memory.any Bit (s.draws + 1)
    llrMem := Memory.any Byte (s.draws + 2)
    outMem := Memory.any Byte (s.draws + 3)
    cBuf := Memory.any Bit (s.draws + 4)
    alloc := Memory.any Bit (s.draws + 5)
    dBuf := Memory.any Byte (s.draws + 6)
    params := s.params
    ports := s.ports
    pending := s.pending
    busRead := s.busRead
    draws := s.draws + 7 }

/-- The number of elements of a host-visible memory of bits; `none` for an internal one (10_state.md R38). -/
def hostBitSize : BitSpace → Option Nat
  | .ackMem => some aMax
  | .bitSeq => some aMax
  | .cBuf => none
  | .alloc => none

/-- The number of elements of a host-visible memory of bytes; `none` for an internal one (10_state.md R38). -/
def hostByteSize (p : Params) : ByteSpace → Option Nat
  | .llrMem => some p.eMax
  | .outMem => some p.eMax
  | .dBuf => none

/-- A host access to element `i` of a memory of `size` elements (20_memory.md R61): it has no meaning, and is
refused, outside the memory and in an internal one (`size` is `none`). -/
def elementAccess (size : Option Nat) (i : Nat) (t : State) : Host.Outcome State Fault Refusal :=
  match size with
  | none => .refused .internalSpace
  | some n => if i < n then .next t else .refused .outsideSpace

/-- A host write of one bit; internal spaces are never reached through here. -/
def hostWriteBit (s : State) (sp : BitSpace) (i : Nat) (v : Bit) : State :=
  match sp with
  | .ackMem => { s with ackMem := s.ackMem.writeRange i [v] }
  | .bitSeq => { s with bitSeq := s.bitSeq.writeRange i [v] }
  | .cBuf => s
  | .alloc => s

/-- A host write of one byte; the internal space is never reached through here. -/
def hostWriteByte (s : State) (sp : ByteSpace) (i : Nat) (v : Byte) : State :=
  match sp with
  | .llrMem => { s with llrMem := s.llrMem.writeRange i [v] }
  | .outMem => { s with outMem := s.outMem.writeRange i [v] }
  | .dBuf => s

/-- The memory of bits with a name. -/
def State.bitMem (s : State) : BitSpace → Memory Bit
  | .ackMem => s.ackMem
  | .bitSeq => s.bitSeq
  | .cBuf => s.cBuf
  | .alloc => s.alloc

/-- The memory of bytes with a name. -/
def State.byteMem (s : State) : ByteSpace → Memory Byte
  | .llrMem => s.llrMem
  | .outMem => s.outMem
  | .dBuf => s.dBuf

/-- The host's last read returned `v`, an element of a memory zero-extended (log entry 13). -/
def State.setBusRead (s : State) (v : Word) : State := { s with busRead := v }

/-- A transaction that issues no command. -/
def hostAccess (op : HostOp) (s : State) : Host.Outcome State Fault Refusal :=
  match op with
  | .wr n v => if n < regCount then .next (hostWriteReg s n v) else .refused .outsideSpace
  | .rd n => if n < regCount then .next (s.setBusRead (hostReadReg s n)) else .refused .outsideSpace
  | .wmBit sp i v => elementAccess (hostBitSize sp) i (hostWriteBit s sp i v)
  | .wmByte sp i v => elementAccess (hostByteSize s.params sp) i (hostWriteByte s sp i v)
  | .rmBit sp i => elementAccess (hostBitSize sp) i (s.setBusRead (BitVec.ofNat 32 (bitNum (readBit (s.bitMem sp) i))))
  | .rmByte sp i => elementAccess (hostByteSize s.params sp) i (s.setBusRead ((readByte (s.byteMem sp) i).setWidth 32))
  | .reset => .next s.resetEvent
  | .bindPorts p => .next { s with ports := p }

/-- `CMD M` (R89): the transaction that issues a command. -/
def cmdOp (i : Instr) : HostOp := .wr 0 (encodeWord i)

end Sys2Proof.Machine
end

