-- ==== Sys2Proof/Machine/Dispatch.lean ====
section
/-! DEFINITION. One arm per command (30_encoding.md R83), each a call of the command's own meaning. -/

namespace Sys2Proof.Machine

def exec (i : Instr) (s : State) : Host.Outcome State Fault Refusal :=
  match i with
  | .pucchE => Sys2Proof.Machine.execPucchE s
  | .puschAckNofBits => Sys2Proof.Machine.execPuschAckNofBits s
  | .puschCsi1NofBits => Sys2Proof.Machine.execPuschCsi1NofBits s
  | .totalBits => Sys2Proof.Machine.execTotalBits s
  | .packPucch => Sys2Proof.Machine.execPackPucch s
  | .unpackPucch => Sys2Proof.Machine.execUnpackPucch s
  | .computeA => Sys2Proof.Machine.execComputeA s
  | .encode => Sys2Proof.Machine.execEncode s
  | .decode => Sys2Proof.Machine.execDecode s
  | .enc1Bit => Sys2Proof.Machine.execEnc1Bit s
  | .dec1Bit => Sys2Proof.Machine.execDec1Bit s
  | .enc2Bit => Sys2Proof.Machine.execEnc2Bit s
  | .dec2Bit => Sys2Proof.Machine.execDec2Bit s
  | .encRm => Sys2Proof.Machine.execEncRm s
  | .decRm => Sys2Proof.Machine.execDecRm s
  | .encPolar => Sys2Proof.Machine.execEncPolar s
  | .decPolar => Sys2Proof.Machine.execDecPolar s
  | .encPucch => Sys2Proof.Machine.execEncPucch s
  | .decPucch => Sys2Proof.Machine.execDecPucch s
  | .encPuschAck => Sys2Proof.Machine.execEncPuschAck s
  | .decPuschAck => Sys2Proof.Machine.execDecPuschAck s
  | .encPuschCsi1 => Sys2Proof.Machine.execEncPuschCsi1 s
  | .decPuschCsi1 => Sys2Proof.Machine.execDecPuschCsi1 s

end Sys2Proof.Machine
end

