-- ==== Sys2Proof/Machine/Step.lean ====
section
/-! DEFINITION. One step of the machine: the host's next transaction. A write of `CMD` executes the command its word
encodes as one atomic transition (10_state.md R23), or raises `IllegalCommand` (30_encoding.md R85, R86); with no
transaction pending the block stays as it is (60_exceptions.md R348; log entry 7). -/

namespace Sys2Proof.Machine

/-- The word `w` written to `CMD` (30_encoding.md R82). -/
def runWord (w : Word) (s : State) : Host.Outcome State Fault Refusal :=
  match decodeWord w with
  | .ok i => exec i s
  | .error _ => .next s.illegalCommand

/-- The step. -/
def step (s : State) : Host.Outcome State Fault Refusal :=
  match s.pending with
  | [] => .next s
  | op :: rest =>
    match issuedWord op with
    | some w => runWord w { s with pending := rest }
    | none => hostAccess op { s with pending := rest }

/-- The state in which the very next step executes the command word `w`: the host writes it to `CMD` next. -/
def State.withFetchWord (s : State) (nbits w : Nat) : State :=
  { s with pending := .wr 0 (tableWord nbits w) :: s.pending }

end Sys2Proof.Machine
end

