-- ==== Sys2Proof/Machine/DecoderContract.lean ====
section
/-! DEFINITION. Contract PD1 of the polar decoder port, 44_polar_code.md R246: what the spec lets a statement about
`DEC_POLAR` suppose of `POLAR_DECODE`. The block itself supposes nothing of the port (10_state.md R49): no meaning
uses this file. -/

namespace Sys2Proof.Machine

/-- The set `X` of punctured positions (R246): `{ J(m) : m < N - E }` in the puncturing case of R235, else empty. -/
def puncturedPositions (p : Params) (code : PolarCode) (e : Nat) : List Nat :=
  match matchMode code.N code.K e with
  | .repetition => []
  | .puncturing => (List.range (code.N - e)).map (subblockIndex p code.N)
  | .shortening => []

/-- `s` is a noiseless soft vector of the coded bits `d` (R246), positive for a 0 and negative for a 1, with no
information at the punctured positions. -/
def NoiselessImage (p : Params) (code : PolarCode) (e : Nat) (d : List Bit) (s : List Int) : Prop :=
  s.length = code.N ∧
    ∀ j, j < code.N →
      if j ∈ puncturedPositions p code e then s.getD j 0 = 0
      else if d.getD j false = true then s.getD j 0 < 0
      else 0 < s.getD j 0

/-- PD1 at one call of the port, for segment `r` with soft vector `s` (R246): if `s` is the noiseless image of some
message's coded bits, the port answers `Ok` with the message's polar input at every position of `K_set`. The vectors
`u` of R246 are those `chanalloc_tx` makes of a message of `K` bits. A port on record answers the calls of one command
(log entry 3), so a statement supposes PD1 of each call the command makes. -/
def MeetsContractAt (p : Params) (port : PolarDecodePort) (r : Nat) (code : PolarCode) (e : Nat) (s : List Int) :
    Prop :=
  ∀ c : List Bit, c.length = code.K →
    NoiselessImage p code e (polarTransform code.n (chanallocTx code c)) s →
      ∃ u, polarDecode port r code s = some u ∧
        ∀ m ∈ code.kSet, u.getD m false = (chanallocTx code c).getD m false

/-- The fact 44_polar_code.md R238 relies on: a coded bit that shortening does not transmit is 0, whatever the
message. -/
def ZeroWhereShortened (p : Params) (code : PolarCode) (e : Nat) : Prop :=
  matchMode code.N code.K e = .shortening →
    ∀ c : List Bit, c.length = code.K → ∀ m, e ≤ m → m < code.N →
      (polarTransform code.n (chanallocTx code c)).getD (subblockIndex p code.N m) false = false

end Sys2Proof.Machine
end

