-- ==== Sys2Proof/WellFormed.lean ====
section
/-! DEFINITION. Well-formedness: of commands (trivial: no operands, 30_encoding.md R84), of command words (R82), and
of the parameter record (00_scope.md R10). -/

namespace Sys2Proof

/-- No command has an operand that could be ill formed (R84). -/
def Instr.wellFormed (_i : Instr) : Bool := true

/-- The opcodes of R83. -/
def knownOpcodes : List Nat :=
  [0x01, 0x02, 0x03, 0x04, 0x08, 0x09, 0x0A, 0x10, 0x11, 0x12, 0x13, 0x14, 0x15, 0x16, 0x17, 0x18, 0x19,
   0x20, 0x21, 0x22, 0x23, 0x24, 0x25]

/-- A word that is a command (R82): bits 31:8 zero and bits 7:0 an opcode of R83. -/
def commandWordWellFormed (w : Word) : Bool := decide (w.toNat < 256) && knownOpcodes.contains w.toNat

/-- A list of `n` numbers that holds each of `0 .. n-1` once: as many entries as that, and the set of them, as a mask
of bits, is that of all `n`. -/
def isPermutation (n : Nat) (xs : List Nat) : Bool :=
  xs.length == n && xs.foldl (fun seen x => seen ||| 1 <<< x) 0 == 2 ^ n - 1

/-- The shapes R10 gives the parameters: `E_MAX ≥ 1` (92_eei_decisions.md D4), a 32 by 11 basis, polynomials with
their leading term, a permutation of 0..1023 and one of 0..31, and a saturation magnitude an 8-bit soft value
holds. -/
def Params.wellFormed (p : Params) : Bool :=
  decide (1 ≤ p.eMax) && p.rmBasis.length == 32 && p.rmBasis.all (fun row => row.length == 11) &&
    decide (p.crc6Poly / 2 ^ 6 = 1) && decide (p.crc11Poly / 2 ^ 11 = 1) &&
    isPermutation 1024 p.polarQ && isPermutation 32 p.subblockP &&
    decide (1 ≤ p.llrSat) && decide (p.llrSat ≤ 127)

end Sys2Proof
end

