-- ==== Sys2Proof/Safety.lean ====
section
/-! DEFINITION. What counts as a safe state, and the terms in which statements about the block are made: the
invariant every step keeps, what is stored and what is kept in a memory, how a command that raised nothing ends
(`Completes`), how a command that raised an error ends (`Raises`), the results of the size dispatch as functions of a
payload and of soft values alone (`codedBytes`, `decodedBits`), how many elements and which registers a command writes
(`writtenOut` and its neighbours), and the polar code's procedures element by element. -/

namespace Sys2Proof.Machine

/-! ## The invariant -/

/-- The fields of `STATUS` fit together: `ERRCODE` is 0 exactly without an error (10_state.md R24), no code above 12
(60_exceptions.md R331), the phase is `Error` exactly with an error and otherwise `Idle` or `Emitted` (10_state.md
R30), and before the first command has completed everything is as reset left it (R24). -/
structure Status.Consistent (st : Status) : Prop where
  errCode_zero : st.err = false ↔ st.errCode = 0
  errCode_range : st.errCode.toNat ≤ 12
  phase_error : st.err = true ↔ st.phase = .error
  phase_final : st.err = false → st.phase = .idle ∨ st.phase = .emitted
  not_done : st.done = false → st = Status.reset

/-- The invariant: every memory is in canonical form inside its capacity (10_state.md R38), the two thresholds are
finite positive (R27), and `STATUS` is consistent. -/
structure Inv (s : State) : Prop where
  ackMem : s.ackMem.wf aMax = true
  bitSeq : s.bitSeq.wf aMax = true
  llrMem : s.llrMem.wf s.params.eMax = true
  outMem : s.outMem.wf s.params.eMax = true
  cBuf : s.cBuf.wf cBufSize = true
  alloc : s.alloc.wf polarBufSize = true
  dBuf : s.dBuf.wf polarBufSize = true
  blockThr : finitePositive s.regs.blockThr = true
  oneBitThr : finitePositive s.regs.oneBitThr = true
  status : s.status.Consistent

/-! ## Memories, before and after -/

/-- Every element of a memory of bits reads as before. -/
def BitsKept (m m' : Memory Bit) : Prop := ∀ a, readBit m' a = readBit m a

/-- Every element of a memory of bytes reads as before. -/
def BytesKept (m m' : Memory Byte) : Prop := ∀ a, readByte m' a = readByte m a

/-- Elements `0 .. |vs|` of a memory of bits read as `vs`, every other element as before. -/
def BitsStored (m m' : Memory Bit) (vs : List Bit) : Prop := ∀ a, readBit m' a = vs.getD a (readBit m a)

/-- Elements `0 .. |vs|` of a memory of bytes read as `vs`, every other element as before. -/
def BytesStored (m m' : Memory Byte) (vs : List Byte) : Prop := ∀ a, readByte m' a = vs.getD a (readByte m a)

/-- Every element of a memory of bits is a free value of one draw among those made between `s` and `t`
(00_scope.md R14, `any`). -/
def BitsFree (s t : State) (m : Memory Bit) : Prop :=
  ∃ d, s.draws ≤ d ∧ d < t.draws ∧ ∀ a, readBit m a = Config.anyBit d a

/-- Every element of a memory of bytes is a free value of one draw among those made between `s` and `t`. -/
def BytesFree (s t : State) (m : Memory Byte) : Prop :=
  ∃ d, s.draws ≤ d ∧ d < t.draws ∧ ∀ a, readByte m a = Config.anyByte d a

/-- A register is a free value of one draw among those made between `s` and `t`. -/
def WordFree (s t : State) (w : Word) : Prop := ∃ d, s.draws ≤ d ∧ d < t.draws ∧ w = Config.anyWord d

/-- What no command touches: the soft values (10_state.md R41), the parameters, the host's transactions. -/
structure InputsKept (s t : State) : Prop where
  llrMem : BytesKept s.llrMem t.llrMem
  params : t.params = s.params
  pending : t.pending = s.pending
  busRead : t.busRead = s.busRead

/-! ## How a command ends -/

/-- What a command that raises nothing leaves: `VALID`, the whole register bank, and what it stores from element 0
on in `ACK_MEM`, `BITSEQ` and `OUT_MEM`, and behind the CSI port. -/
structure Effect where
  valid : Bool
  regs : Regs
  ack : List Bit
  bits : List Bit
  out : List Byte
  csi : Option (List Bit)

/-- The effect of a command that writes nothing but `STATUS`. -/
def Effect.nothing (s : State) : Effect where
  valid := s.status.valid
  regs := s.regs
  ack := []
  bits := []
  out := []
  csi := none

/-- The ports after `csi.unpack` stored `stored` behind the CSI port. -/
def portsAfterUnpack (p : Ports) (stored : Option (List Bit)) : Ports :=
  match stored with
  | none => p
  | some bits => { p with csi := { p.csi with delivered := some bits } }

/-- The phase after success (10_state.md R30). -/
def finalPhase (i : Instr) : Phase := if commandClass i = .encoding then .emitted else .idle

/-- Command `i` run at `s` ended in `t` without an error and with effect `x`: `STATUS` as 60_exceptions.md R339
says, the register bank `x.regs`, and every element of every memory outside the scratch buffers (which hold `any`,
10_state.md R44) as `x` says or as before. -/
structure Ended (i : Instr) (s t : State) (x : Effect) : Prop where
  status : t.status = { done := true, err := false, valid := x.valid, phase := finalPhase i, errCode := 0 }
  regs : t.regs = x.regs
  ackMem : BitsStored s.ackMem t.ackMem x.ack
  bitSeq : BitsStored s.bitSeq t.bitSeq x.bits
  outMem : BytesStored s.outMem t.outMem x.out
  ports : t.ports = portsAfterUnpack s.ports x.csi
  inputs : InputsKept s t

/-- Command `i` answers a next state from `s`, without an error and with effect `x`. -/
def Completes (i : Instr) (s : State) (x : Effect) : Prop := ∃ t, exec i s = .next t ∧ Ended i s t x

/-- Command `i` run at `s` ended in `t` with the error `k`, as 60_exceptions.md R334 says. That `BITSEQ` is free after
every raise, of a command that does not write it too, is R334's list against a sentence of its prose (log entry 11). -/
structure Raised (i : Instr) (k : ErrorKind) (s t : State) : Prop where
  status :
    t.status =
      { done := true
        err := true
        valid := if commandClass i = .decoding then false else s.status.valid
        phase := .error
        errCode := k.code }
  regs : t.regs = { s.regs with resE := t.regs.resE, resA := t.regs.resA, sr := t.regs.sr }
  resE : WordFree s t t.regs.resE
  resA : WordFree s t t.regs.resA
  sr : if writesSr i then WordFree s t t.regs.sr else t.regs.sr = s.regs.sr
  bitSeq : BitsFree s t t.bitSeq
  cBuf : BitsFree s t t.cBuf
  alloc : BitsFree s t t.alloc
  dBuf : BytesFree s t t.dBuf
  ackMem : if writesAckMem i then BitsFree s t t.ackMem else BitsKept s.ackMem t.ackMem
  outMem : if commandClass i = .encoding then BytesFree s t t.outMem else BytesKept s.outMem t.outMem
  ports : t.ports = s.ports
  inputs : InputsKept s t

/-- Command `i` answers a next state from `s` in which it has ended with the error `k`. -/
def Raises (i : Instr) (k : ErrorKind) (s : State) : Prop := ∃ t, exec i s = .next t ∧ Raised i k s t

/-- The error kinds a command can raise (60_exceptions.md R332). -/
def mayRaise : Instr → List ErrorKind
  | .pucchE => [.invalidInput, .invalidOccLength]
  | .puschAckNofBits => [.invalidInput, .invalidModulation, .invalidRate]
  | .puschCsi1NofBits => [.invalidInput, .invalidModulation, .invalidRate]
  | .totalBits => [.invalidInput]
  | .packPucch => [.invalidInput, .csiPackFailed]
  | .unpackPucch => [.invalidInput, .unsupported, .csiUnpackFailed]
  | .computeA => [.invalidInput, .unsupported]
  | .encode => [.invalidInput, .invalidModulation, .polarCodeSelectFailed]
  | .decode =>
    [.invalidInput, .invalidModulation, .underRateMatched, .allZeros, .polarCodeSelectFailed, .polarDecodeFailed]
  | .enc1Bit => [.invalidInput, .invalidModulation]
  | .dec1Bit => [.invalidInput, .invalidModulation]
  | .enc2Bit => [.invalidInput, .invalidModulation]
  | .dec2Bit => [.invalidInput, .invalidModulation]
  | .encRm => [.invalidInput]
  | .decRm => [.invalidInput, .underRateMatched, .allZeros]
  | .encPolar => [.invalidInput, .polarCodeSelectFailed]
  | .decPolar => [.invalidInput, .polarCodeSelectFailed, .polarDecodeFailed]
  | .encPucch =>
    [.invalidInput, .invalidModulation, .invalidOccLength, .unsupported, .polarCodeSelectFailed, .csiPackFailed]
  | .decPucch =>
    [.invalidInput, .invalidModulation, .invalidOccLength, .unsupported, .underRateMatched, .allZeros,
      .polarCodeSelectFailed, .polarDecodeFailed, .csiUnpackFailed]
  | .encPuschAck => [.invalidInput, .invalidModulation, .invalidRate, .polarCodeSelectFailed]
  | .decPuschAck =>
    [.invalidInput, .invalidModulation, .invalidRate, .underRateMatched, .allZeros, .polarCodeSelectFailed,
      .polarDecodeFailed]
  | .encPuschCsi1 => [.invalidInput, .invalidModulation, .invalidRate, .polarCodeSelectFailed, .csiPackFailed]
  | .decPuschCsi1 =>
    [.invalidInput, .invalidModulation, .invalidRate, .underRateMatched, .allZeros, .polarCodeSelectFailed,
      .polarDecodeFailed, .csiUnpackFailed]

/-- The commands that write `BITSEQ` when they end without an error (20_memory.md R70). -/
def writesBitSeq (i : Instr) : Bool :=
  commandClass i = .decoding || i = .packPucch || i = .encPucch || i = .encPuschAck || i = .encPuschCsi1

/-! ## The coders as functions

What the size dispatch of 46_transport.md R290 and R293 computes from a payload or from soft values alone. -/

/-- The output of the encoder the dispatch selects for `a` payload bits and `e` positions, or the error it raises
(46_transport.md R290, R293; 42_small_block.md R151; 45_polar_pipeline.md R264). -/
def codedBytes (p : Params) (port : PolarSelectPort) (qm a e : Nat) (payload : List Bit) :
    Except ErrorKind (List Byte) :=
  if a = 0 ∨ 1706 ≤ a ∨ e < 1 ∨ p.eMax < e then .error .invalidInput
  else if a ≤ 2 ∧ qm = 0 then .error .invalidModulation
  else if a = 1 then .ok ((List.range e).map (oneBitByte qm (payload.getD 0 false)))
  else if a = 2 then
    let pattern := twoBitPattern qm (payload.getD 0 false) (payload.getD 1 false)
    .ok ((List.range e).map fun k => pattern.getD (k % pattern.length) 0)
  else if a ≤ 11 then
    .ok ((List.range e).map fun k => bitByte (rmBit p.rmBasis a payload (k % 32)))
  else
    match polarLookup p port (segParams a e).kR (segParams a e).eR with
    | .error k => .error k
    | .ok code => .ok ((polarOutput p code a (segParams a e) payload).map bitByte)

/-- The segments the polar decoder finds in the soft values, or the failure of its port
(45_polar_pipeline.md R274). -/
def decodedSegments (p : Params) (port : PolarDecodePort) (code : PolarCode) (g : SegParams) (llrs : List Int) :
    Except ErrorKind (List (List Bit)) :=
  (List.range g.C).mapM fun r => decodeSegment p port code r ((llrs.drop (g.eR * r)).take g.eR)

/-- The info bits of all segments, the pad left out (45_polar_pipeline.md R274). -/
def segmentBits (a : Nat) (g : SegParams) (segments : List (List Bit)) : List Bit :=
  segments.zipIdx.flatMap fun c => (c.1.take g.S).drop (segPad a g c.2)

/-- The payload and the validity the decoder the dispatch selects finds in `e` soft values, or the error it raises
(46_transport.md R290, R293; 43_reed_muller.md R187, R188; 45_polar_pipeline.md R264, R274). -/
def decodedBits (p : Params) (ports : Ports) (qm : Nat) (oneThr blockThr : ℚ) (a : Nat) (llrs : List Int) :
    Except ErrorKind (List Bit × Bool) :=
  if a = 0 ∨ 1706 ≤ a ∨ llrs.length < 1 ∨ p.eMax < llrs.length then .error .invalidInput
  else if a ≤ 2 ∧ qm = 0 then .error .invalidModulation
  else if a = 1 then
    let samples := oneBitSamples qm llrs
    .ok
      ([hardBit (sumOf samples)],
        oneBitValid p.oneBitPwrMode oneThr qm llrs.length (sumOf samples) (sumSq samples) samples.length)
  else if a = 2 then
    let cells := twoBitCells (twoBitSamples qm llrs)
    .ok
      ([hardBit cells.1, hardBit cells.2.1],
        twoBitValid (hardBit cells.1) (hardBit cells.2.1) (hardBit cells.2.2))
  else if a ≤ 11 then
    if a = 11 ∧ llrs.length ≤ 16 then .error .underRateMatched
    else if sumSq llrs = 0 then .error .allZeros
    else
      let best := rmSearch p.rmBasis a (rmFold llrs)
      .ok (rmCandidate a best.1, blockValid blockThr llrs.length best.2 (sumSq llrs))
  else
    let g := segParams a llrs.length
    match polarLookup p ports.polarSelect g.kR g.eR with
    | .error k => .error k
    | .ok code =>
      match decodedSegments p ports.polarDecode code g llrs with
      | .error k => .error k
      | .ok segments =>
        .ok (segmentBits a g segments, segments.all fun c => crcOk (crcPoly p g.L) g.S g.L c)

/-- `codedBytes` with the parameters, the code table and the modulation of a state. -/
def State.coded (s : State) (a e : Nat) (payload : List Bit) : Except ErrorKind (List Byte) :=
  codedBytes s.params s.ports.polarSelect s.regs.qm a e payload

/-- `decodedBits` with the parameters, the ports, the modulation, the thresholds and the first `e` soft values of a
state. -/
def State.decoded (s : State) (a e : Nat) : Except ErrorKind (List Bit × Bool) :=
  decodedBits s.params s.ports s.regs.qm (val s.regs.oneBitThr) (val s.regs.blockThr) a (readLlrs s.llrMem 0 e)

/-! ## Payloads and sizes of the façades -/

/-- The payload `pack_pucch` builds, or the error it raises (41_payload.md R130, R132, R133). -/
def pucchPayload (s : State) : Except ErrorKind (List Bit) :=
  let oAck := s.regs.oAck.toNat
  let oSr := s.regs.oSr.toNat
  if 1706 < oAck ∨ 32 < oSr ∨ 2 ^ oSr ≤ s.regs.sr.toNat ∨ 1706 < oAck + oSr then .error .invalidInput
  else if s.ports.csi.nofBits = 0 then .ok (ackSrBits s)
  else
    match csiPack s.ports.csi (1706 - (oAck + oSr)) with
    | none => .error .csiPackFailed
    | some bits => .ok (ackSrBits s ++ bits)

/-- `A` of `compute_A`, or the error it raises (41_payload.md R140). -/
def pucchSize (s : State) : Except ErrorKind Nat :=
  let oAck := s.regs.oAck.toNat
  let oSr := s.regs.oSr.toNat
  let oCsi := s.ports.csi.nofBits
  if 1706 < oAck ∨ 32 < oSr then .error .invalidInput
  else if 0 < oCsi ∧ 0 < oAck + oSr then .error .unsupported
  else if 1706 < oAck + oSr + oCsi then .error .invalidInput
  else .ok (oAck + oSr + oCsi)

/-- The parameter checks of the PUSCH HARQ-ACK sizing pass (40_sizing.md R108). -/
structure PuschReady (g : Regs) : Prop where
  layers : g.nofLayers ≠ 0
  modulation : g.qm ≠ 0
  rate : 0 < g.rate.toNat ∧ g.rate.toNat < 0x7F800000
  alpha : floatExp g.alpha ≠ 255 ∧ 0 ≤ val g.alpha
  betaHarq : floatExp g.betaHarq ≠ 255 ∧ 0 ≤ val g.betaHarq

/-- The parameter checks of the PUSCH CSI part 1 sizing pass (40_sizing.md R108). -/
structure Csi1Ready (g : Regs) : Prop extends PuschReady g where
  betaCsi1 : floatExp g.betaCsi1 ≠ 255 ∧ 0 ≤ val g.betaCsi1

/-- The commands that size a PUSCH transmission, with the condition on which they come to do so: at once
(40_sizing.md R112, R117), or when there is something to code (46_transport.md R306, R308, R310, R312). -/
def comesToPuschSizing (s : State) : Instr → Prop
  | .puschAckNofBits => True
  | .puschCsi1NofBits => True
  | .encPuschAck => s.regs.oAck.toNat ≤ 1706 ∧ ackSize s ≠ 0
  | .decPuschAck => s.regs.oAck.toNat ≤ 1706 ∧ ackSize s ≠ 0
  | .encPuschCsi1 => ∃ b bits, s.ports.csi.packed = some (b :: bits) ∧ bits.length < 1706
  | .decPuschCsi1 => s.ports.csi.nofBits ≠ 0
  | .pucchE => False
  | .totalBits => False
  | .packPucch => False
  | .unpackPucch => False
  | .computeA => False
  | .encode => False
  | .decode => False
  | .enc1Bit => False
  | .dec1Bit => False
  | .enc2Bit => False
  | .dec2Bit => False
  | .encRm => False
  | .decRm => False
  | .encPolar => False
  | .decPolar => False
  | .encPucch => False
  | .decPucch => False

/-- Whether check (4) of 40_sizing.md R108 looks at `BETA_CSI1` in a command. -/
def looksAtBetaCsi1 (i : Instr) : Bool := i = .puschCsi1NofBits || i = .encPuschCsi1 || i = .decPuschCsi1

/-! ## What a command writes

The sizes a command works with, and from them the registers and the number of elements it writes when it ends without
an error: the "writes" of its rule. -/

/-- The value of a size, 0 where computing it raises an error. -/
def sizeOr0 : Except ErrorKind Nat → Nat
  | .ok n => n
  | .error _ => 0

/-- The number of payload bits `A` of a command that codes, packs or sizes a payload (42_small_block.md R152, R161;
43_reed_muller.md R185; 45_polar_pipeline.md R268; 41_payload.md R135, R142; 46_transport.md R294, R300, R303, R305,
R310, R312); 0 for the commands that have none. -/
def payloadBits (s : State) : Instr → Nat
  | .pucchE => 0
  | .puschAckNofBits => 0
  | .puschCsi1NofBits => 0
  | .totalBits => 0
  | .packPucch => sizeOr0 ((pucchPayload s).map List.length)
  | .unpackPucch => 0
  | .computeA => sizeOr0 (pucchSize s)
  | .encode => s.regs.argA.toNat
  | .decode => s.regs.argA.toNat
  | .enc1Bit => 1
  | .dec1Bit => 1
  | .enc2Bit => 2
  | .dec2Bit => 2
  | .encRm => s.regs.argA.toNat
  | .decRm => s.regs.argA.toNat
  | .encPolar => s.regs.argA.toNat
  | .decPolar => s.regs.argA.toNat
  | .encPucch => sizeOr0 ((pucchPayload s).map List.length)
  | .decPucch => sizeOr0 (pucchSize s)
  | .encPuschAck => ackSize s
  | .decPuschAck => ackSize s
  | .encPuschCsi1 => (s.ports.csi.packed.getD []).length
  | .decPuschCsi1 => s.ports.csi.nofBits

/-- The count `E` of a command that computes or is given one: what it leaves in `RES_E` if it writes it (40_sizing.md
R106, R112, R117, R119; 46_transport.md R300, R303, R306, R308, R310, R312); 0 for the commands that have none. A
façade with nothing to code has `E = 0`. -/
def codedBits (s : State) : Instr → Nat
  | .pucchE => sizeOr0 (resourceE s.regs)
  | .puschAckNofBits => eAck s.regs s.regs.argA.toNat
  | .puschCsi1NofBits => sizeOr0 (eCsi1 s.regs s.ports.csi.nofBits)
  | .totalBits => s.regs.oAck.toNat + s.regs.oSr.toNat + s.ports.csi.nofBits
  | .packPucch => 0
  | .unpackPucch => 0
  | .computeA => 0
  | .encode => s.regs.argE.toNat
  | .decode => s.regs.argE.toNat
  | .enc1Bit => s.regs.argE.toNat
  | .dec1Bit => s.regs.argE.toNat
  | .enc2Bit => s.regs.argE.toNat
  | .dec2Bit => s.regs.argE.toNat
  | .encRm => s.regs.argE.toNat
  | .decRm => s.regs.argE.toNat
  | .encPolar => s.regs.argE.toNat
  | .decPolar => s.regs.argE.toNat
  | .encPucch => sizeOr0 (resourceE s.regs)
  | .decPucch => sizeOr0 (resourceE s.regs)
  | .encPuschAck => if ackSize s = 0 then 0 else eAck s.regs (ackSize s)
  | .decPuschAck => if ackSize s = 0 then 0 else eAck s.regs (ackSize s)
  | .encPuschCsi1 =>
    if (s.ports.csi.packed.getD []).length = 0 then 0 else sizeOr0 (eCsi1 s.regs s.ports.csi.nofBits)
  | .decPuschCsi1 => if s.ports.csi.nofBits = 0 then 0 else sizeOr0 (eCsi1 s.regs s.ports.csi.nofBits)

/-- The six façades of 46_transport.md. -/
def isFacade (i : Instr) : Bool :=
  i = .encPucch || i = .decPucch || i = .encPuschAck || i = .decPuschAck || i = .encPuschCsi1 || i = .decPuschCsi1

/-- The commands whose rule lists `RES_E` under "writes" (10_state.md R25). -/
def writesResE (i : Instr) : Bool :=
  i = .pucchE || i = .puschAckNofBits || i = .puschCsi1NofBits || i = .totalBits || commandClass i = .encoding ||
    isFacade i

/-- The commands whose rule lists `RES_A` under "writes" (10_state.md R25). -/
def writesResA (i : Instr) : Bool := i = .packPucch || i = .computeA || isFacade i

/-- How many elements of `BITSEQ` a command writes, from element 0 on (20_memory.md R70). -/
def writtenBits (s : State) (i : Instr) : Nat := if writesBitSeq i then payloadBits s i else 0

/-- How many elements of `ACK_MEM` a command writes, from element 0 on (20_memory.md R70): 41_payload.md R136,
46_transport.md R303, R308. -/
def writtenAck (s : State) (i : Instr) : Nat :=
  if i = .decPuschAck then ackSize s else if writesAckMem i then s.regs.oAck.toNat else 0

/-- How many elements of `OUT_MEM` a command writes, from element 0 on (20_memory.md R70): `E`, on the polar path
`C·E_r` (45_polar_pipeline.md R267). -/
def writtenOut (s : State) (i : Instr) : Nat :=
  if commandClass i = .encoding then
    if payloadBits s i < 12 then codedBits s i
    else (segParams (payloadBits s i) (codedBits s i)).C * (segParams (payloadBits s i) (codedBits s i)).eR
  else 0

/-- The commands that hand bits to `csi.unpack`: 41_payload.md R136, 46_transport.md R312; `DEC_PUCCH` never does
(R304). They do when the port has bits at all. -/
def deliversCsi (s : State) (i : Instr) : Bool :=
  (i = .unpackPucch || i = .decPuschCsi1) && decide (0 < s.ports.csi.nofBits)

/-! ## The polar code, element by element

What 44_polar_code.md says of each element of a sequence, without the procedure that computes it. -/

/-- `T` of R236 for `e` bits: the least natural with `T·(T+1)/2 ≥ e`. -/
def LeastTriangle (e t : Nat) : Prop := e ≤ t * (t + 1) / 2 ∧ ∀ t', t' < t → t' * (t' + 1) / 2 < e

/-- The number of cell `(i, j)` of the triangle in the order it is filled, row by row (R236): the rows above have
`t`, `t - 1`, … cells. -/
def cellNumber (t i j : Nat) : Nat := ((List.range i).map fun i' => t - i').sum + j

/-- The place of cell `(i, j)` in the order the triangle is read, column by column, empty cells skipped (R236): how
many filled cells stand in the columns before it, or above it in its own. -/
def cellPlace (t e i j : Nat) : Nat :=
  ((Finset.range t ×ˢ Finset.range t).filter fun c =>
    c.1 + c.2 < t ∧ cellNumber t c.1 c.2 < e ∧ (c.2 < j ∨ (c.2 = j ∧ c.1 < i))).card

/-- `J(m)` for a code of length `n` (R217). -/
def interleavedPosition (p : Params) (n m : Nat) : Nat := p.subblockP.getD (32 * m / n) 0 * (n / 32) + m % (n / 32)

/-- Which element of the interleaved codeword of `n` bits the `q`-th selected bit is (R235). -/
def selectedPosition (n k e q : Nat) : Nat := if n ≤ e then q % n else if 16 * k ≤ 7 * e then q + (n - e) else q

/-- Positions that carry message bits: in `K_set` and not in `PC_set` (R230). -/
def isMessagePosition (code : PolarCode) (m : Nat) : Bool := code.kSet.contains m && !code.pcSet.contains m

/-- `u` is the allocation of the message `c` (R230): 0 at a frozen position; at a message position the next message
bit; at a parity-check position the head of the 5-stage cyclic register, which holds the exclusive or of the message
bits before it at positions congruent to it modulo 5. -/
structure Allocated (code : PolarCode) (c u : List Bit) : Prop where
  length : u.length = code.N
  frozen : ∀ m, m < code.N → m ∉ code.kSet → u.getD m false = false
  message : ∀ m, m < code.N → isMessagePosition code m = true →
    u.getD m false = c.getD ((List.range m).countP (isMessagePosition code)) false
  parity : ∀ m ∈ code.pcSet,
    u.getD m false =
      decide
        (((List.range m).countP fun i => isMessagePosition code i && decide (i % 5 = m % 5) && u.getD i false) % 2 = 1)

/-- `f` is `d` rate matched to `e` bits (R234 to R237): the cell of the triangle that is filled with number `q` and
read at place `k` makes `f_k` the element `J(sel(q))` of `d`. -/
structure RateMatched (p : Params) (code : PolarCode) (e : Nat) (d f : List Bit) : Prop where
  length : f.length = e
  element : ∀ t i j, LeastTriangle e t → i + j < t → cellNumber t i j < e →
    f.getD (cellPlace t e i j) false =
      d.getD (interleavedPosition p code.N (selectedPosition code.N code.K e (cellNumber t i j))) false

/-- The coding of one segment (45_polar_pipeline.md R265, R266): `c` is `info` with its parity bits, the most
significant bit of the checksum first (R241), `u` its allocation (R230), `d` the transform (R212), `f` the output
(R237). -/
structure SegmentCoded (p : Params) (code : PolarCode) (g : SegParams) (info c u d f : List Bit) : Prop where
  attached : c = info ++ (List.range g.L).map fun j => (crcChecksum (crcPoly p g.L) g.L info).testBit (g.L - 1 - j)
  allocated : Allocated code c u
  transformed : d.length = code.N ∧ ∀ j, j < code.N →
    d.getD j false = decide (((List.range code.N).countP fun i => decide (i &&& j = j) && u.getD i false) % 2 = 1)
  matched : RateMatched p code g.eR d f

/-- `dl` is the soft vector `x` inverse rate matched (R238): `e` de-interleaved, `y` with repeated positions combined
by saturating addition in increasing order, 0 at punctured and `+LLR_SAT` at shortened positions, `dl` with the
sub-block interleaver undone. -/
structure Dematched (p : Params) (code : PolarCode) (x : List Int) (e y : Nat → Int) (dl : List Int) : Prop where
  length : dl.length = code.N
  deinterleaved : ∀ t i j, LeastTriangle x.length t → i + j < t → cellNumber t i j < x.length →
    e (cellNumber t i j) = x.getD (cellPlace t x.length i j) 0
  combined : ∀ m, m < code.N →
    y m =
      if code.N ≤ x.length then
        ((List.range x.length).filter fun k => decide (k % code.N = m)).foldl
          (fun v k => max (-(p.llrSat : Int)) (min (p.llrSat : Int) (v + e k))) 0
      else if 16 * code.K ≤ 7 * x.length then if m < code.N - x.length then 0 else e (m - (code.N - x.length))
      else if m < x.length then e m else p.llrSat
  placed : ∀ m, m < code.N → dl.getD (interleavedPosition p code.N m) 0 = y m

/-! ## The default code table, as sets -/

/-- The code exponent of the default table with `n_max = 10` (R215). -/
def tableExponent (k e : Nat) : Nat :=
  let cl := Nat.clog 2 e
  let n1 := if 8 * e ≤ 9 * 2 ^ (cl - 1) ∧ 16 * k < 9 * e then cl - 1 else cl
  max (min (min n1 (Nat.clog 2 (8 * k))) 10) 5

/-- `nPC` of the default table (R220). -/
def tableParityCount (k : Nat) : Nat := if 18 ≤ k ∧ k ≤ 25 then 3 else 0

/-- `F_tmp` of the default table for length `n` (R218). -/
def tableFrozen (p : Params) (n k e : Nat) : Finset Nat :=
  if n ≤ e then ∅
  else if 16 * k ≤ 7 * e then
    (Finset.range (n - e)).image (interleavedPosition p n) ∪
      Finset.range ⌈if 3 * n ≤ 4 * e then (3 * n / 4 - e / 2 : ℚ) else (9 * n / 16 - e / 4 : ℚ)⌉₊
  else (Finset.Ico e n).image (interleavedPosition p n)

/-- The candidates `I_tmp` of the default table (R219), as a set. -/
def tableCandidates (p : Params) (n k e : Nat) : Finset Nat := Finset.range n \ tableFrozen p n k e

/-- How many positions of a set are less reliable than `i` (R216). -/
def lessReliable (p : Params) (s : Finset Nat) (i : Nat) : Nat :=
  (s.filter fun j => p.polarQ.idxOf j < p.polarQ.idxOf i).card

/-- The `count` most reliable positions of a set (R219). -/
def mostReliable (p : Params) (s : Finset Nat) (count : Nat) : Finset Nat :=
  s.filter fun i => s.card < lessReliable p s i + count + 1

/-- The parity-check positions among the chosen positions `s` (R220): the least reliable ones, and with `wm = 1` one of
the others but for the `nPC` least reliable: of those with the fewest 1 bits the most reliable. -/
def tableParityPositions (p : Params) (s : Finset Nat) (nPC wm : Nat) : Finset Nat :=
  s.filter fun i =>
    lessReliable p s i < nPC - wm ∨
      (wm = 1 ∧ nPC ≤ lessReliable p s i ∧
        ∀ j ∈ s, nPC ≤ lessReliable p s j →
          (Nat.digits 2 i).sum < (Nat.digits 2 j).sum ∨
            ((Nat.digits 2 i).sum = (Nat.digits 2 j).sum ∧ p.polarQ.idxOf j ≤ p.polarQ.idxOf i))

/-! ## Host accesses -/

/-- The register numbers a host write stores to (10_state.md R22: access `RW`). -/
def hostWritableNumbers : List Nat :=
  [4, 5, 6, 7, 8, 16, 17, 18, 19, 20, 21, 22, 23, 24, 25, 26, 27, 28, 32, 33, 34, 35, 36, 37, 38, 39, 40, 41, 42,
    43, 44, 45, 48, 49, 50, 51, 52, 56]

/-- A host access that 20_memory.md R61 gives no meaning: outside its space, or to an internal space. -/
def meaningless (p : Params) : HostOp → Prop
  | .wr n _ => 64 ≤ n
  | .rd n => 64 ≤ n
  | .wmBit .ackMem i _ => 1706 ≤ i
  | .wmBit .bitSeq i _ => 1706 ≤ i
  | .wmBit .cBuf _ _ => True
  | .wmBit .alloc _ _ => True
  | .rmBit .ackMem i => 1706 ≤ i
  | .rmBit .bitSeq i => 1706 ≤ i
  | .rmBit .cBuf _ => True
  | .rmBit .alloc _ => True
  | .wmByte .llrMem i _ => p.eMax ≤ i
  | .wmByte .outMem i _ => p.eMax ≤ i
  | .wmByte .dBuf _ _ => True
  | .rmByte .llrMem i => p.eMax ≤ i
  | .rmByte .outMem i => p.eMax ≤ i
  | .rmByte .dBuf _ => True
  | .reset => False
  | .bindPorts _ => False

/-! ## Safe steps -/

/-- A step is safe from `s` when it answers a next state that meets the invariant. -/
def SafeStep (s : State) : Prop := ∃ t, step s = .next t ∧ Inv t

end Sys2Proof.Machine
end

