-- ==== Sys2Proof/Certificates/Slice0/Obligations.lean ====
section
/-! DEFINITION. The statements for the provers. A docstring names the rule of the spec a statement formalises. A
command's statement says when it completes (`Completes`, with the whole register bank, everything it stores and
everything it keeps) and, where it can, which error it raises otherwise (`Raises`). -/

open Sys2Proof Sys2Proof.Machine

/-! ## Command words -/

/-- Some words of 30_encoding.md R83 and what they decode to, with one of each way to be illegal. -/
def Obligations.WrittenWordsDecode : Prop :=
  decodeWord 0x00000001 = .ok .pucchE ∧ decodeWord 0x00000003 = .ok .puschCsi1NofBits ∧
    decodeWord 0x00000009 = .ok .unpackPucch ∧ decodeWord 0x00000010 = .ok .encode ∧
    decodeWord 0x00000013 = .ok .dec1Bit ∧ decodeWord 0x00000016 = .ok .encRm ∧
    decodeWord 0x00000019 = .ok .decPolar ∧ decodeWord 0x00000020 = .ok .encPucch ∧
    decodeWord 0x00000025 = .ok .decPuschCsi1 ∧ decodeWord 0x00000005 = .error .unknownOpcode ∧
    decodeWord 0x00000116 = .error .reservedBits

/-- 30_encoding.md R82: of every word, whether it is a command and which, or in which way it is illegal. -/
def Obligations.EveryWordIsOneCommandOrIllegal : Prop :=
  ∀ w : Word,
    (∀ i, decodeWord w = .ok i ↔ w = encodeWord i) ∧
      (decodeWord w = .error .reservedBits ↔ 256 ≤ w.toNat) ∧
      (decodeWord w = .error .unknownOpcode ↔ w.toNat < 256 ∧ ∀ i, w ≠ encodeWord i)

/-- 10_state.md R23: a write of `CMD` executes the command the word encodes as one step, in the state with the host's
next transaction taken off; the register stores nothing and reads 0. -/
def Obligations.CommandWriteExecutesItsCommand : Prop :=
  ∀ (s : State) (w : Word) (rest : List HostOp), s.pending = .wr 0 w :: rest →
    (∀ i, decodeWord w = .ok i → step s = exec i { s with pending := rest }) ∧
      (∀ e, decodeWord w = .error e → step s = .next (State.illegalCommand { s with pending := rest })) ∧
      hostReadReg s 0 = 0

/-- 30_encoding.md R85, R86: a word with a bit of 31:8 set, or an opcode outside the map, raises `IllegalCommand`,
which changes nothing but `DONE`, `ERR`, `ERRCODE` and `PHASE`. -/
def Obligations.IllegalWordChangesOnlyStatus : Prop :=
  ∀ (s : State) (w : Word) (rest : List HostOp), s.pending = .wr 0 w :: rest →
    (256 ≤ w.toNat ∨ w.toNat = 0 ∨ (0x05 ≤ w.toNat ∧ w.toNat ≤ 0x07) ∨ (0x0B ≤ w.toNat ∧ w.toNat ≤ 0x0F) ∨
        (0x1A ≤ w.toNat ∧ w.toNat ≤ 0x1F) ∨ 0x26 ≤ w.toNat) →
      step s =
        .next
          { s with
            pending := rest
            status := { done := true, err := true, valid := s.status.valid, phase := .error, errCode := 12 } }

/-! ## The host -/

/-- 10_state.md R21, R22, R27: what every register reads after a host write of register `n`. A read-only or reserved
number ignores the write, a threshold takes only a finite positive binary32 pattern (the patterns from 1 to
0x7F7FFFFF) and else 0.5, any other register takes the word. -/
def Obligations.HostRegisterWrite : Prop :=
  ∀ (s : State) (n : Nat) (v : Word) (rest : List HostOp), s.pending = .wr n v :: rest → 0 < n → n < 64 →
    ∃ t, step s = .next t ∧ t = { s with pending := rest, regs := t.regs } ∧
      ∀ m, m < 64 →
        hostReadReg t m =
          if m = n ∧ n ∈ hostWritableNumbers then
            if n = 5 ∨ n = 6 then if 0 < v.toNat ∧ v.toNat < 0x7F800000 then v else 0x3F000000 else v
          else hostReadReg s m

/-- 20_memory.md R61, R69: a host write of one element of a host-visible memory changes that element and nothing
else. -/
def Obligations.HostMemoryWrite : Prop :=
  ∀ (s : State) (i : Nat) (rest : List HostOp),
    (∀ v, s.pending = .wmBit .ackMem i v :: rest → i < 1706 →
        ∃ t, step s = .next t ∧ t = { s with pending := rest, ackMem := t.ackMem } ∧
          ∀ a, readBit t.ackMem a = if a = i then v else readBit s.ackMem a) ∧
      (∀ v, s.pending = .wmBit .bitSeq i v :: rest → i < 1706 →
        ∃ t, step s = .next t ∧ t = { s with pending := rest, bitSeq := t.bitSeq } ∧
          ∀ a, readBit t.bitSeq a = if a = i then v else readBit s.bitSeq a) ∧
      (∀ v, s.pending = .wmByte .llrMem i v :: rest → i < s.params.eMax →
        ∃ t, step s = .next t ∧ t = { s with pending := rest, llrMem := t.llrMem } ∧
          ∀ a, readByte t.llrMem a = if a = i then v else readByte s.llrMem a) ∧
      (∀ v, s.pending = .wmByte .outMem i v :: rest → i < s.params.eMax →
        ∃ t, step s = .next t ∧ t = { s with pending := rest, outMem := t.outMem } ∧
          ∀ a, readByte t.outMem a = if a = i then v else readByte s.outMem a)

/-- 20_memory.md R69: a host read returns the register or the element and changes nothing ("All reads are
idempotent"). `busRead` is the model's own record of the word returned (log entry 1). -/
def Obligations.HostReadChangesNothing : Prop :=
  ∀ (s : State) (i : Nat) (rest : List HostOp),
    (s.pending = .rd i :: rest → i < 64 → step s = .next { s with pending := rest, busRead := hostReadReg s i }) ∧
      (s.pending = .rmBit .ackMem i :: rest → i < 1706 →
        step s = .next { s with pending := rest, busRead := if readBit s.ackMem i then 1 else 0 }) ∧
      (s.pending = .rmBit .bitSeq i :: rest → i < 1706 →
        step s = .next { s with pending := rest, busRead := if readBit s.bitSeq i then 1 else 0 }) ∧
      (s.pending = .rmByte .llrMem i :: rest → i < s.params.eMax →
        step s = .next { s with pending := rest, busRead := (readByte s.llrMem i).setWidth 32 }) ∧
      (s.pending = .rmByte .outMem i :: rest → i < s.params.eMax →
        step s = .next { s with pending := rest, busRead := (readByte s.outMem i).setWidth 32 })

/-- 20_memory.md R72 with R61: a step answers a next state, unless the next transaction is a host access that names
no existing register or element, or an internal space; then it is refused. Two clauses are the model's choice: that a
register number of 64 or more is refused (log entry 6), and that with no transaction pending a step changes nothing
(log entry 7). -/
def Obligations.OnlyMeaninglessAccessesAreRefused : Prop :=
  ∀ s : State,
    (s.pending = [] → step s = .next s) ∧
      ∀ op rest, s.pending = op :: rest →
        (meaningless s.params op → ∃ r, step s = .refused r) ∧ (¬meaningless s.params op → ∃ t, step s = .next t)

/-! ## Reset -/

/-- 10_state.md R50, with R22: after reset every register reads 0 but for the two thresholds, which read the pattern
of 0.5, and every element of every memory is a free value. -/
def Obligations.ResetLeavesMemoriesFree : Prop :=
  (∀ n, n < 64 → hostReadReg State.reset n = if n = 5 ∨ n = 6 then 0x3F000000 else 0) ∧
    (∃ d, ∀ a, readBit State.reset.ackMem a = Config.anyBit d a) ∧
    (∃ d, ∀ a, readBit State.reset.bitSeq a = Config.anyBit d a) ∧
    (∃ d, ∀ a, readByte State.reset.llrMem a = Config.anyByte d a) ∧
    (∃ d, ∀ a, readByte State.reset.outMem a = Config.anyByte d a) ∧
    (∃ d, ∀ a, readBit State.reset.cBuf a = Config.anyBit d a) ∧
    (∃ d, ∀ a, readBit State.reset.alloc a = Config.anyBit d a) ∧
    ∃ d, ∀ a, readByte State.reset.dBuf a = Config.anyByte d a

/-- 70_reset_and_hazards.md R360, R361: the reset event in any state. That the ports stay bound and the host's
transactions go on is the model's choice (log entry 8). -/
def Obligations.ResetEventRestoresRegisters : Prop :=
  ∀ (s : State) (rest : List HostOp), s.pending = .reset :: rest →
    ∃ t, step s = .next t ∧ t.status.word = 0 ∧
      (∀ n, n < 64 → hostReadReg t n = if n = 5 ∨ n = 6 then 0x3F000000 else 0) ∧
      BitsFree s t t.ackMem ∧ BitsFree s t t.bitSeq ∧ BytesFree s t t.llrMem ∧ BytesFree s t t.outMem ∧
      BitsFree s t t.cBuf ∧ BitsFree s t t.alloc ∧ BytesFree s t t.dBuf ∧
      t.params = s.params ∧ t.ports = s.ports ∧ t.pending = rest ∧ t.busRead = s.busRead

/-! ## The invariant -/

/-- The invariant holds after reset (70_reset_and_hazards.md R361). -/
def Obligations.ResetMeetsTheInvariant : Prop := Inv State.reset

/-- Every step keeps the invariant: memories stay canonical and inside their capacities (10_state.md R38,
46_transport.md R292), the thresholds stay finite positive (10_state.md R27), `STATUS` stays consistent (R24, R30,
60_exceptions.md R331). -/
def Obligations.StepKeepsTheInvariant : Prop := ∀ s t : State, Inv s → step s = .next t → Inv t

/-- Whatever word the host writes to `CMD`, the step is safe (70_reset_and_hazards.md R373, 30_encoding.md R82). -/
def Obligations.CommandWriteIsASafeStep : Prop :=
  ∀ (s : State) (w : Word) (rest : List HostOp), Inv s → s.pending = .wr 0 w :: rest → SafeStep s

/-! ## STATUS and errors -/

/-- 10_state.md R24, R30: the layout of the word a read of `STATUS` returns. -/
def Obligations.StatusWordLayout : Prop :=
  ∀ s : State,
    (hostReadReg s 1).getLsbD 0 = s.status.done ∧ (hostReadReg s 1).getLsbD 1 = s.status.err ∧
      (hostReadReg s 1).getLsbD 2 = s.status.valid ∧ (hostReadReg s 1).getLsbD 3 = false ∧
      (hostReadReg s 1).extractLsb' 4 4 =
        (match s.status.phase with
        | .idle => 0
        | .packedPayload => 1
        | .sized => 2
        | .smallBlock => 3
        | .polar => 4
        | .emitted => 5
        | .error => 6) ∧
      (hostReadReg s 1).extractLsb' 8 8 = s.status.errCode ∧ (hostReadReg s 1).extractLsb' 16 16 = 0

/-- 60_exceptions.md R334: what a command that ends with an error leaves, for every command and every error it
reaches, and which errors those can be (R332); and the exception R334 makes for `IllegalCommand`. That `BITSEQ` is free
after every raise, of a command that does not write it too, is the model's choice (log entry 11): R334's list makes it
`any`, R334's prose keeps every memory the command's rule does not list under "writes". -/
def Obligations.ErrorEntry : Prop :=
  (∀ (i : Instr) (s t : State), exec i s = .next t → t.status.err = true → ∃ k ∈ mayRaise i, Raised i k s t) ∧
    ∀ (w : Word) (e : DecodeError) (s : State), decodeWord w = .error e →
      runWord w s =
        .next
          { s with
            status := { done := true, err := true, valid := s.status.valid, phase := .error, errCode := 12 } }

/-- 70_reset_and_hazards.md R373 and 20_memory.md R70: every command answers a next state, and when it has raised no
error it has written only what its rule lists: `STATUS`, with `VALID` changed by a decoding command alone (10_state.md
R35); `RES_E` and `RES_A` in the commands that write them, with the command's `E` and `A` (R25); `SR` in the two that
unpack it; the first `writtenAck` elements of `ACK_MEM`, `writtenBits` of `BITSEQ`, `writtenOut` of `OUT_MEM`, all inside
the capacities; and behind the CSI port `csi.nof_bits()` bits, in the two commands that call `csi.unpack`. -/
def Obligations.SuccessWritesOnlyItsOutputs : Prop :=
  ∀ (i : Instr) (s : State), ∃ t, exec i s = .next t ∧
    (t.status.err = false →
      t.status = { done := true, err := false, valid := t.status.valid, phase := finalPhase i, errCode := 0 } ∧
        (commandClass i ≠ .decoding → t.status.valid = s.status.valid) ∧
        t.regs =
          { s.regs with
            resE := if writesResE i then BitVec.ofNat 32 (codedBits s i) else s.regs.resE
            resA := if writesResA i then BitVec.ofNat 32 (payloadBits s i) else s.regs.resA
            sr := if writesSr i then t.regs.sr else s.regs.sr } ∧
        (writtenAck s i ≤ 1706 ∧ ∀ a, writtenAck s i ≤ a → readBit t.ackMem a = readBit s.ackMem a) ∧
        (writtenBits s i ≤ 1706 ∧ ∀ a, writtenBits s i ≤ a → readBit t.bitSeq a = readBit s.bitSeq a) ∧
        (writtenOut s i ≤ s.params.eMax ∧ ∀ a, writtenOut s i ≤ a → readByte t.outMem a = readByte s.outMem a) ∧
        (∃ stored : Option (List Bit),
          t.ports = portsAfterUnpack s.ports stored ∧
            stored.map List.length = if deliversCsi s i then some s.ports.csi.nofBits else none) ∧
        InputsKept s t)

/-- 10_state.md R36 and 60_exceptions.md R338: no command reads `STATUS`. Whatever it held before, the state after is
the same, but for `VALID` after a command that is not a decoding one, which keeps it. -/
def Obligations.StatusIsNeverRead : Prop :=
  ∀ (i : Instr) (s : State) (st : Status), ∃ t, exec i s = .next t ∧
    exec i { s with status := st } =
      .next
        (if commandClass i = .decoding then t
        else { t with status := { t.status with valid := st.valid } })

/-- 70_reset_and_hazards.md R372 and 10_state.md R29: `CTRL` and `RNTI` change no result of any command. -/
def Obligations.CtrlAndRntiAreNeverRead : Prop :=
  ∀ (i : Instr) (s : State) (c r : Word), ∃ t, exec i s = .next t ∧
    exec i { s with regs := { s.regs with ctrl := c, rnti := r } } =
      .next { t with regs := { t.regs with ctrl := c, rnti := r } }

/-- 10_state.md R42, R44: no command reads `OUT_MEM` or a scratch buffer it has not itself written. Whatever these
held before, everything after is the same, but for the elements of `OUT_MEM` the command did not write. -/
def Obligations.OutputAndScratchAreNeverRead : Prop :=
  ∀ (i : Instr) (s : State) (m : Memory Byte) (c b : Memory Bit) (d : Memory Byte),
    ∃ t t', exec i s = .next t ∧
      exec i { s with outMem := m, cBuf := c, alloc := b, dBuf := d } = .next t' ∧
      t' = { t with outMem := t'.outMem } ∧
      ∀ a, readByte t'.outMem a = readByte t.outMem a ∨
        (readByte t.outMem a = readByte s.outMem a ∧ readByte t'.outMem a = readByte m a)

/-! ## Sizing -/

/-- 40_sizing.md R104, R106: `PUCCH_E` over the five resource registers. -/
def Obligations.PucchEResult : Prop :=
  ∀ (s : State) (format symbols prb occ : Nat), s.regs.pucchFormat.toNat = format →
    s.regs.pucchNofSymbols.toNat = symbols → s.regs.pucchNofPrb.toNat = prb → s.regs.pucchOccLength.toNat = occ →
      (∀ e,
          (format = 2 ∧ e = 16 * symbols * prb) ∨
              (format = 3 ∧ e = (if s.regs.pucchEnablePiBpsk.getLsbD 0 then 12 else 24) * symbols * prb) ∨
              (format = 4 ∧ (occ = 1 ∨ occ = 2) ∧
                e = (if s.regs.pucchEnablePiBpsk.getLsbD 0 then 12 else 24) / occ * symbols) →
            (e < 2 ^ 32 →
                Completes .pucchE s
                  { Effect.nothing s with regs := { s.regs with resE := BitVec.ofNat 32 e } }) ∧
              (2 ^ 32 ≤ e → Raises .pucchE .invalidInput s)) ∧
        (format = 4 → occ ≠ 1 → occ ≠ 2 → Raises .pucchE .invalidOccLength s) ∧
        (format ≠ 2 → format ≠ 3 → format ≠ 4 → Raises .pucchE .invalidInput s)

/-- 40_sizing.md R107: the two sums over `M_UCI_SC`; the second is 0 when `l0 ≥ 14`. -/
def Obligations.UciResourceSums : Prop :=
  ∀ g : Regs,
    mSum g = ∑ l : Fin 14, (g.mUciSc[l]).toNat ∧
      mL0Sum g = ∑ l : Fin 14, if g.l0.toNat ≤ l then (g.mUciSc[l]).toNat else 0

/-- 40_sizing.md R109, R110, R111, R112: `PUSCH_ACK_NOF_BITS`, by the exact formula; and the operands this and the
other PUSCH and small-block formulas read: `Qm` of every `MODULATION` code (10_state.md R31, 40_sizing.md R103), and
the exact value of every finite binary32 pattern (00_scope.md R15), normal or subnormal, an exponent field of 255 being
no finite one. -/
def Obligations.PuschAckSizeResult : Prop :=
  (∀ (s : State) (o l : Nat), s.regs.argA.toNat = o → PuschReady s.regs →
    l = (if o ≤ 11 then 0 else if o ≤ 19 then 6 else 11) →
      ∃ q : Nat,
        (q : ℤ) =
            min
              (if s.regs.kSum = 0 then ⌈((o + l : ℕ) : ℚ) * val s.regs.betaHarq / (s.regs.qm * val s.regs.rate)⌉
              else ⌈((o + l : ℕ) : ℚ) * val s.regs.betaHarq * mSum s.regs / s.regs.kSum.toNat⌉)
              ⌊val s.regs.alpha * mL0Sum s.regs⌋ ∧
          (q * s.regs.nofLayers.toNat * s.regs.qm < 2 ^ 32 →
            Completes .puschAckNofBits s
              { Effect.nothing s with
                regs := { s.regs with resE := BitVec.ofNat 32 (q * s.regs.nofLayers.toNat * s.regs.qm) } }) ∧
          (2 ^ 32 ≤ q * s.regs.nofLayers.toNat * s.regs.qm → Raises .puschAckNofBits .invalidInput s)) ∧
    (∀ g : Regs, g.qm = ([1, 2, 4, 6, 8] : List Nat).getD g.modulation.toNat 0) ∧
    ∀ (w : Word) (sign x f : Nat), w.toNat = sign * 2 ^ 31 + x * 2 ^ 23 + f → x < 256 → f < 2 ^ 23 →
      floatExp w = x ∧
        (x < 255 →
          val w = (-1) ^ sign * if x = 0 then (f : ℚ) / 2 ^ 149 else (1 + (f : ℚ) / 2 ^ 23) * 2 ^ ((x : ℤ) - 127))

/-- 40_sizing.md R112 (D0's property): the HARQ-ACK size grows with the number of bits and with every `M_UCI_SC`. -/
def Obligations.PuschAckSizeIsMonotone : Prop :=
  ∀ (g : Regs) (m : Vector Word 14) (o o' : Nat), PuschReady g → o ≤ o' →
    (∀ l : Fin 14, (g.mUciSc[l]).toNat ≤ (m[l]).toNat) → eAck g o ≤ eAck { g with mUciSc := m } o'

/-- 40_sizing.md R113 to R117: `PUSCH_CSI1_NOF_BITS`, by the exact formula in its three cases, with `Q_ack` taken at
`max(2, O_ACK)`; an `O_ACK` above 1706 raises `InvalidInput` (10_state.md R29), and so does a negative bound. -/
def Obligations.PuschCsi1SizeResult : Prop :=
  ∀ (s : State) (o l : Nat) (qa b q : ℤ), s.ports.csi.nofBits = o → Csi1Ready s.regs →
    (1706 < s.regs.oAck.toNat → Raises .puschCsi1NofBits .invalidInput s) ∧
      (s.regs.oAck.toNat ≤ 1706 →
        l = (if o ≤ 11 then 0 else if o ≤ 19 then 6 else 11) → qa = qAck s.regs (max 2 s.regs.oAck.toNat) →
        (s.regs.kSum = 0 ∧ s.regs.csiPart2Present.getLsbD 0 = true ∧ b = ⌊val s.regs.alpha * mSum s.regs - qa⌋ ∧
              q = min ⌈((o + l : ℕ) : ℚ) * val s.regs.betaCsi1 / (s.regs.qm * val s.regs.rate)⌉ b) ∨
            (s.regs.kSum = 0 ∧ s.regs.csiPart2Present.getLsbD 0 = false ∧ b = mSum s.regs - qa ∧ q = b) ∨
            (s.regs.kSum ≠ 0 ∧ b = ⌈val s.regs.alpha * mSum s.regs⌉ - qa ∧
              q = min ⌈((o + l : ℕ) : ℚ) * val s.regs.betaCsi1 * mSum s.regs / s.regs.kSum.toNat⌉ b) →
          (b < 0 → Raises .puschCsi1NofBits .invalidInput s) ∧
            (0 ≤ b →
              0 ≤ q ∧
                (q * s.regs.nofLayers.toNat * s.regs.qm < 2 ^ 32 →
                  Completes .puschCsi1NofBits s
                    { Effect.nothing s with
                      regs := { s.regs with resE := BitVec.ofInt 32 (q * s.regs.nofLayers.toNat * s.regs.qm) } }) ∧
                (2 ^ 32 ≤ q * s.regs.nofLayers.toNat * s.regs.qm → Raises .puschCsi1NofBits .invalidInput s)))

/-- 40_sizing.md R108: the parameter checks, in their order, of every command that comes to size a PUSCH
transmission. That the range check of `O_ACK` (10_state.md R29) in the three CSI part 1 commands comes after them is the
model's choice (log entry 15). -/
def Obligations.PuschChecksInOrder : Prop :=
  ∀ (i : Instr) (s : State), comesToPuschSizing s i →
    (s.regs.nofLayers = 0 → Raises i .invalidInput s) ∧
      (s.regs.nofLayers ≠ 0 → 5 ≤ s.regs.modulation.toNat → Raises i .invalidModulation s) ∧
      (s.regs.nofLayers ≠ 0 → s.regs.modulation.toNat < 5 →
        ¬(0 < s.regs.rate.toNat ∧ s.regs.rate.toNat < 0x7F800000) → Raises i .invalidRate s) ∧
      (s.regs.nofLayers ≠ 0 → s.regs.modulation.toNat < 5 →
        0 < s.regs.rate.toNat ∧ s.regs.rate.toNat < 0x7F800000 →
          floatExp s.regs.alpha = 255 ∨ val s.regs.alpha < 0 ∨ floatExp s.regs.betaHarq = 255 ∨
              val s.regs.betaHarq < 0 ∨
              (looksAtBetaCsi1 i = true ∧ (floatExp s.regs.betaCsi1 = 255 ∨ val s.regs.betaCsi1 < 0)) →
            Raises i .invalidInput s)

/-- 40_sizing.md R118, R119: `TOTAL_BITS`. -/
def Obligations.TotalBitsResult : Prop :=
  ∀ (s : State) (total : Nat), total = s.regs.oAck.toNat + s.regs.oSr.toNat + s.ports.csi.nofBits →
    (total < 2 ^ 32 →
        Completes .totalBits s { Effect.nothing s with regs := { s.regs with resE := BitVec.ofNat 32 total } }) ∧
      (2 ^ 32 ≤ total → Raises .totalBits .invalidInput s)

/-! ## Payload -/

/-- 41_payload.md R130 to R135: `PACK_PUCCH` in its three modes. The SR field is most significant bit first. -/
def Obligations.PackPucchResult : Prop :=
  ∀ (s : State) (oAck oSr sr : Nat) (field : List Bit), s.regs.oAck.toNat = oAck → s.regs.oSr.toNat = oSr →
    s.regs.sr.toNat = sr →
    field = readBits s.ackMem 0 oAck ++ (List.range oSr).map (fun j => sr.testBit (oSr - 1 - j)) →
      (oAck ≤ 1706 → oSr ≤ 32 → sr < 2 ^ oSr → oAck + oSr ≤ 1706 →
          (s.ports.csi.nofBits = 0 →
              Completes .packPucch s
                { Effect.nothing s with
                  bits := field, regs := { s.regs with resA := BitVec.ofNat 32 (oAck + oSr) } }) ∧
            (0 < s.ports.csi.nofBits →
              (∀ csi, s.ports.csi.packed = some csi → oAck + oSr + csi.length ≤ 1706 →
                  Completes .packPucch s
                    { Effect.nothing s with
                      bits := field ++ csi
                      regs := { s.regs with resA := BitVec.ofNat 32 (oAck + oSr + csi.length) } }) ∧
                (s.ports.csi.packed = none → Raises .packPucch .csiPackFailed s))) ∧
        (1706 < oAck ∨ 32 < oSr ∨ 2 ^ oSr ≤ sr ∨ 1706 < oAck + oSr → Raises .packPucch .invalidInput s)

/-- 41_payload.md R132, R136, R137, R139: `UNPACK_PUCCH` in its three modes. The value of the SR field is the sum of
its bits, the first one the most significant. -/
def Obligations.UnpackPucchResult : Prop :=
  ∀ (s : State) (oAck oSr oCsi value : Nat), s.regs.oAck.toNat = oAck → s.regs.oSr.toNat = oSr →
    s.ports.csi.nofBits = oCsi →
    value = ((List.range oSr).map fun j => if readBit s.bitSeq (oAck + j) then 2 ^ (oSr - 1 - j) else 0).sum →
      (oAck ≤ 1706 → oSr ≤ 32 → oAck + oSr + oCsi ≤ 1706 →
          (oCsi = 0 →
              Completes .unpackPucch s
                { Effect.nothing s with
                  ack := readBits s.bitSeq 0 oAck, regs := { s.regs with sr := BitVec.ofNat 32 value } }) ∧
            (0 < oCsi → oAck = 0 → oSr = 0 → Raises .unpackPucch .unsupported s) ∧
            (0 < oCsi → 0 < oAck + oSr → s.ports.csi.unpackOk = true →
              Completes .unpackPucch s
                { Effect.nothing s with
                  ack := readBits s.bitSeq 0 oAck
                  regs := { s.regs with sr := BitVec.ofNat 32 value }
                  csi := some (readBits s.bitSeq (oAck + oSr) oCsi) }) ∧
            (0 < oCsi → 0 < oAck + oSr → s.ports.csi.unpackOk = false →
              Raises .unpackPucch .csiUnpackFailed s)) ∧
        (1706 < oAck ∨ 32 < oSr ∨ 1706 < oAck + oSr + oCsi → Raises .unpackPucch .invalidInput s)

/-- 41_payload.md R140, R142: `COMPUTE_A` in its three modes. -/
def Obligations.ComputeAResult : Prop :=
  ∀ (s : State) (oAck oSr oCsi : Nat), s.regs.oAck.toNat = oAck → s.regs.oSr.toNat = oSr →
    s.ports.csi.nofBits = oCsi →
      (oAck ≤ 1706 → oSr ≤ 32 →
          (oCsi = 0 ∨ (oAck = 0 ∧ oSr = 0) →
              (oAck + oSr + oCsi ≤ 1706 →
                  Completes .computeA s
                    { Effect.nothing s with
                      regs := { s.regs with resA := BitVec.ofNat 32 (oAck + oSr + oCsi) } }) ∧
                (1706 < oAck + oSr + oCsi → Raises .computeA .invalidInput s)) ∧
            (0 < oCsi → 0 < oAck + oSr → Raises .computeA .unsupported s)) ∧
        (1706 < oAck ∨ 32 < oSr → Raises .computeA .invalidInput s)

/-! ## 1-bit and 2-bit coders -/

/-- 42_small_block.md R151, R152: `ENC_1BIT`. `Qm` is 1, 2, 4, 6, 8 for the `MODULATION` codes 0 to 4 and 0 for any
other (10_state.md R31). -/
def Obligations.Enc1BitResult : Prop :=
  ∀ (s : State) (e qm : Nat), s.regs.argE.toNat = e →
    qm = ([1, 2, 4, 6, 8] : List Nat).getD s.regs.modulation.toNat 0 →
    (e < 1 ∨ s.params.eMax < e → Raises .enc1Bit .invalidInput s) ∧
      (1 ≤ e → e ≤ s.params.eMax → qm = 0 → Raises .enc1Bit .invalidModulation s) ∧
      (1 ≤ e → e ≤ s.params.eMax → qm ≠ 0 →
        Completes .enc1Bit s
          { Effect.nothing s with
            regs := { s.regs with resE := s.regs.argE }
            out := (List.range e).map fun k =>
              if k % qm = 0 then if readBit s.bitSeq 0 then 1 else 0 else if k % qm = 1 then 2 else 3 })

/-- 42_small_block.md R151, R154, R155, R156: `DEC_1BIT`. The samples are the soft values at the multiples of `Qm`
below `E`; the bit is 1 when their sum is not negative, the validity the squared form of the metric's test. `Qm` as in
10_state.md R31. -/
def Obligations.Dec1BitResult : Prop :=
  ∀ (s : State) (e qm : Nat), s.regs.argE.toNat = e →
    qm = ([1, 2, 4, 6, 8] : List Nat).getD s.regs.modulation.toNat 0 →
    (e < 1 ∨ s.params.eMax < e → Raises .dec1Bit .invalidInput s) ∧
      (1 ≤ e → e ≤ s.params.eMax → qm = 0 → Raises .dec1Bit .invalidModulation s) ∧
      (1 ≤ e → e ≤ s.params.eMax → qm ≠ 0 → ∀ (samples : List Int) (corr s2 : Int),
        samples = ((List.range e).filter fun k => k % qm = 0).map (fun k => (readByte s.llrMem k).toInt) →
        corr = samples.sum → s2 = (samples.map fun v => v ^ 2).sum →
          Completes .dec1Bit s
            { Effect.nothing s with
              bits := [decide (0 ≤ corr)]
              valid := decide
                (0 < s2 ∧ 0 < corr ∧
                  val s.regs.oneBitThr ^ 2 * (e : ℚ) ^ 2 *
                      (match s.params.oneBitPwrMode with
                      | .sum => (s2 : ℚ)
                      | .mean => (s2 : ℚ) / samples.length) <
                    ((qm : ℚ) * corr) ^ 2) })

/-- 42_small_block.md R151, R158, R159, R161: `ENC_2BIT`, with the four patterns written out and `Qm` as in 10_state.md
R31. -/
def Obligations.Enc2BitResult : Prop :=
  ∀ (s : State) (e qm : Nat), s.regs.argE.toNat = e →
    qm = ([1, 2, 4, 6, 8] : List Nat).getD s.regs.modulation.toNat 0 →
    (e < 1 ∨ s.params.eMax < e → Raises .enc2Bit .invalidInput s) ∧
      (1 ≤ e → e ≤ s.params.eMax → qm = 0 → Raises .enc2Bit .invalidModulation s) ∧
      (1 ≤ e → e ≤ s.params.eMax → ∀ (c0 c1 c2 : Byte) (pattern : List Byte),
        c0 = (if readBit s.bitSeq 0 then 1 else 0) → c1 = (if readBit s.bitSeq 1 then 1 else 0) →
        c2 = (if readBit s.bitSeq 0 = readBit s.bitSeq 1 then 0 else 1) →
        ((qm = 1 ∨ qm = 2) ∧ pattern = [c0, c1, c2]) ∨
            (qm = 4 ∧ pattern = [c0, c1, 3, 3, c2, c0, 3, 3, c1, c2, 3, 3]) ∨
            (qm = 6 ∧ pattern = [c0, c1, 3, 3, 3, 3, c2, c0, 3, 3, 3, 3, c1, c2, 3, 3, 3, 3]) ∨
            (qm = 8 ∧
              pattern = [c0, c1, 3, 3, 3, 3, 3, 3, c2, c0, 3, 3, 3, 3, 3, 3, c1, c2, 3, 3, 3, 3, 3, 3]) →
          Completes .enc2Bit s
            { Effect.nothing s with
              regs := { s.regs with resE := s.regs.argE }
              out := (List.range e).map fun k => pattern.getD (k % pattern.length) 0 })

/-- 42_small_block.md R151, R162, R163, R165: `DEC_2BIT`. Each of the three cells holds the last sample whose number
among the sampled positions is its own modulo 3, or 0; the decided bits are the signs. `Qm` as in 10_state.md R31. -/
def Obligations.Dec2BitResult : Prop :=
  ∀ (s : State) (e qm : Nat), s.regs.argE.toNat = e →
    qm = ([1, 2, 4, 6, 8] : List Nat).getD s.regs.modulation.toNat 0 →
    (e < 1 ∨ s.params.eMax < e → Raises .dec2Bit .invalidInput s) ∧
      (1 ≤ e → e ≤ s.params.eMax → qm = 0 → Raises .dec2Bit .invalidModulation s) ∧
      (1 ≤ e → e ≤ s.params.eMax → qm ≠ 0 → ∀ (positions : List Nat) (cell : Nat → Int),
        positions = (List.range e).filter (fun k => qm = 1 ∨ k % qm < 2) →
        (∀ c, c < 3 →
          cell c =
            (((positions.zipIdx.filter fun x => x.2 % 3 = c).map fun x =>
              (readByte s.llrMem x.1).toInt).getLast?).getD 0) →
          Completes .dec2Bit s
            { Effect.nothing s with
              bits := [decide (0 ≤ cell 0), decide (0 ≤ cell 1)]
              valid := decide (0 ≤ cell 2) == (decide (0 ≤ cell 0) ^^ decide (0 ≤ cell 1)) })

/-- 42_small_block.md R166, R164, R155: the round trip of the 2-bit code when at least three samples exist, and of the
1-bit code, with the `VALID` its metric gives for `n` samples of one magnitude: `t` is a state after the encoder, `u`
one whose soft values are the image of its output. -/
def Obligations.SmallBlockRoundTrip : Prop :=
  ∀ (s t u : State) (e qm : Nat) (σ : Int), s.regs.argE.toNat = e → s.regs.qm = qm → qm ≠ 0 → 1 ≤ e →
    e ≤ s.params.eMax → u.params = s.params → u.regs.argE = s.regs.argE → u.regs.modulation = s.regs.modulation →
    1 ≤ σ → σ ≤ 127 →
    (∀ k, k < e →
      (readByte t.outMem k = 1 → (readByte u.llrMem k).toInt = σ) ∧
        (readByte t.outMem k = 0 → (readByte u.llrMem k).toInt = -σ)) →
      (exec .enc2Bit s = .next t → (if qm ≤ 2 then 3 ≤ e else qm + 1 ≤ e) →
          Completes .dec2Bit u { Effect.nothing u with bits := readBits s.bitSeq 0 2, valid := true }) ∧
        (exec .enc1Bit s = .next t → ∀ n : Nat, n = (e + qm - 1) / qm →
          Completes .dec1Bit u
            { Effect.nothing u with
              bits := readBits s.bitSeq 0 1
              valid :=
                readBit s.bitSeq 0 &&
                  decide
                    (val u.regs.oneBitThr ^ 2 * (e : ℚ) ^ 2 *
                        (match u.params.oneBitPwrMode with
                        | .sum => (n : ℚ) * σ ^ 2
                        | .mean => (σ : ℚ) ^ 2) <
                      ((qm : ℚ) * n * σ) ^ 2) })

/-! ## Reed–Muller -/

/-- 43_reed_muller.md R180, R181, R184, R185: `ENC_RM`. -/
def Obligations.EncRmResult : Prop :=
  ∀ (s : State) (a e : Nat), s.regs.argA.toNat = a → s.regs.argE.toNat = e →
    (a < 3 ∨ 11 < a ∨ e < 1 ∨ s.params.eMax < e → Raises .encRm .invalidInput s) ∧
      (3 ≤ a → a ≤ 11 → 1 ≤ e → e ≤ s.params.eMax →
        Completes .encRm s
          { Effect.nothing s with
            regs := { s.regs with resE := s.regs.argE }
            out := (List.range e).map fun k =>
              if ((List.range a).countP fun j =>
                  readBit s.bitSeq j && (s.params.rmBasis.getD (k % 32) []).getD j false) % 2 = 1 then 1 else 0 })

/-- 43_reed_muller.md R184, R187 to R191: `DEC_RM`. The decoder returns the payload of greatest correlation, of
several such the one with the smallest number, and the validity is the squared form of the metric's test. -/
def Obligations.DecRmResult : Prop :=
  ∀ (s : State) (a e : Nat) (s2 : Int), s.regs.argA.toNat = a → s.regs.argE.toNat = e →
    s2 = ((List.range e).map fun k => (readByte s.llrMem k).toInt ^ 2).sum →
    (a < 3 ∨ 11 < a ∨ e < 1 ∨ s.params.eMax < e → Raises .decRm .invalidInput s) ∧
      (a = 11 → 1 ≤ e → e ≤ 16 → e ≤ s.params.eMax → Raises .decRm .underRateMatched s) ∧
      (3 ≤ a → a ≤ 11 → 1 ≤ e → e ≤ s.params.eMax → ¬(a = 11 ∧ e ≤ 16) → s2 = 0 → Raises .decRm .allZeros s) ∧
      (3 ≤ a → a ≤ 11 → 1 ≤ e → e ≤ s.params.eMax → ¬(a = 11 ∧ e ≤ 16) → s2 ≠ 0 → ∀ acc corr : Nat → Int,
        (∀ i, acc i =
          (((List.range e).filter fun k => k % 32 = i).map fun k => (readByte s.llrMem k).toInt).sum) →
        (∀ g, corr g =
          ((List.range 32).map fun i =>
            if ((List.range a).countP fun j => g.testBit j && (s.params.rmBasis.getD i []).getD j false) % 2 = 1 then
              acc i
            else -acc i).sum) →
          ∃ g, g < 2 ^ a ∧ (∀ h, h < 2 ^ a → corr h ≤ corr g ∧ (h < g → corr h < corr g)) ∧
            Completes .decRm s
              { Effect.nothing s with
                bits := (List.range a).map fun j => g.testBit j
                valid := decide (0 < corr g ∧ val s.regs.blockThr ^ 2 * e * s2 < (corr g : ℚ) ^ 2) })

/-- 43_reed_muller.md R193, with the default table of R182: for `E ≥ 32` a noiseless image of the encoder's output
decodes to the payload, with `VALID = 1` for any threshold below 1. -/
def Obligations.ReedMullerRoundTrip : Prop :=
  ∀ (s t u : State) (a e : Nat) (σ : Int), s.params.rmBasis = rmBasisDefault → s.regs.argA.toNat = a →
    s.regs.argE.toNat = e → 3 ≤ a → a ≤ 11 → 32 ≤ e → e ≤ s.params.eMax → exec .encRm s = .next t →
    u.params = s.params → u.regs.argA = s.regs.argA → u.regs.argE = s.regs.argE →
    0 < val u.regs.blockThr → val u.regs.blockThr < 1 → 1 ≤ σ → σ ≤ 127 →
    (∀ k, k < e → (readByte u.llrMem k).toInt = if readByte t.outMem k = 1 then σ else -σ) →
      Completes .decRm u { Effect.nothing u with bits := readBits s.bitSeq 0 a, valid := true }

/-! ## Polar -/

/-- 45_polar_pipeline.md R261, R263 to R268: `ENC_POLAR`, one segment or two; the pad is the first bit of segment 0.
What each step of a segment makes of each bit is said by `SegmentCoded`: CRC attach (44_polar_code.md R241), allocation
with its parity-check bits (R230), transform (R212), rate matching (R234 to R237). A code that breaks an invariant of
10_state.md R48 is no code. -/
def Obligations.EncPolarResult : Prop :=
  ∀ (s : State) (a e : Nat) (g : SegParams), s.regs.argA.toNat = a → s.regs.argE.toNat = e → g = segParams a e →
    (a < 12 ∨ 1705 < a ∨ e < 1 ∨ s.params.eMax < e → Raises .encPolar .invalidInput s) ∧
      (12 ≤ a → a ≤ 1705 → 1 ≤ e → e ≤ s.params.eMax →
        (∀ code, polarSelect s.params s.ports.polarSelect g.kR g.eR 10 = some code →
            codeAccepted g.kR 10 code = false) →
          Raises .encPolar .polarCodeSelectFailed s) ∧
      (12 ≤ a → a ≤ 1705 → 1 ≤ e → e ≤ s.params.eMax →
        ∀ (code : PolarCode) (payload : List Bit) (info : Nat → List Bit),
          polarSelect s.params s.ports.polarSelect g.kR g.eR 10 = some code → codeAccepted g.kR 10 code = true →
          payload = readBits s.bitSeq 0 a →
          (∀ r, info r =
            if g.C = 1 then payload
            else if r = 0 then List.replicate (g.padded - a) false ++ payload.take (g.S - (g.padded - a))
            else payload.drop (g.S - (g.padded - a))) →
            ∃ c u d f : Nat → List Bit,
              (∀ r, r < g.C → SegmentCoded s.params code g (info r) (c r) (u r) (d r) (f r)) ∧
                Completes .encPolar s
                  { Effect.nothing s with
                    regs := { s.regs with resE := s.regs.argE }
                    out := (f 0 ++ if g.C = 2 then f 1 else []).map fun b => if b then 1 else 0 })

/-- 45_polar_pipeline.md R263, R264, R270 to R275: `DEC_POLAR`. `x r` are the negated soft values of segment `r`,
`found r` the bits the decoder port and the inverse channel allocation (44_polar_code.md R231) give for it; the parity
bits of the check are in the order of R241. The elements of `rateDematch` are in `InverseRateMatcherSaturates`. -/
def Obligations.DecPolarResult : Prop :=
  ∀ (s : State) (a e : Nat) (g : SegParams) (x : Nat → List Int), s.regs.argA.toNat = a → s.regs.argE.toNat = e →
    g = segParams a e →
    (∀ r, x r =
      (List.range g.eR).map fun k =>
        if readByte s.llrMem (g.eR * r + k) = 0x80 then 127 else -(readByte s.llrMem (g.eR * r + k)).toInt) →
    (a < 12 ∨ 1705 < a ∨ e < 1 ∨ s.params.eMax < e → Raises .decPolar .invalidInput s) ∧
      (12 ≤ a → a ≤ 1705 → 1 ≤ e → e ≤ s.params.eMax →
        (∀ code, polarSelect s.params s.ports.polarSelect g.kR g.eR 10 = some code →
            codeAccepted g.kR 10 code = false) →
          Raises .decPolar .polarCodeSelectFailed s) ∧
      (12 ≤ a → a ≤ 1705 → 1 ≤ e → e ≤ s.params.eMax → ∀ code : PolarCode,
        polarSelect s.params s.ports.polarSelect g.kR g.eR 10 = some code → codeAccepted g.kR 10 code = true →
          ((∃ r, r < g.C ∧ polarDecode s.ports.polarDecode r code (rateDematch s.params code (x r)) = none) →
              Raises .decPolar .polarDecodeFailed s) ∧
            ∀ found : Nat → List Bit,
              (∀ r, r < g.C →
                ∃ u, polarDecode s.ports.polarDecode r code (rateDematch s.params code (x r)) = some u ∧
                  found r = (code.kSet.filter fun m => decide (m ∉ code.pcSet)).map fun m => u.getD m false) →
                Completes .decPolar s
                  { Effect.nothing s with
                    bits :=
                      ((found 0).take g.S).drop (g.padded - a) ++ (if g.C = 2 then (found 1).take g.S else [])
                    valid := (List.range g.C).all fun r =>
                      ((found r).drop g.S).take g.L ==
                        (List.range g.L).map fun j =>
                          (crcChecksum (crcPoly s.params g.L) g.L ((found r).take g.S)).testBit (g.L - 1 - j) })

/-- 44_polar_code.md R212: the transform, element by element: `d_j` is the exclusive or of the `u_i` whose index has
every 1 bit of `j`. -/
def Obligations.PolarTransformElements : Prop :=
  ∀ (n : Nat) (u : List Bit), u.length = 2 ^ n →
    (polarTransform n u).length = 2 ^ n ∧
      ∀ j, j < 2 ^ n →
        (polarTransform n u).getD j false =
          decide (((List.range (2 ^ n)).countP fun i => decide (i &&& j = j) && u.getD i false) % 2 = 1)

/-- 44_polar_code.md R213: the transform is linear and its own inverse, the last element passes through, and the
first is the exclusive or of all. -/
def Obligations.PolarTransformIsItsOwnInverse : Prop :=
  ∀ (n : Nat) (u v : List Bit), u.length = 2 ^ n → v.length = 2 ^ n →
    polarTransform n (polarTransform n u) = u ∧
      polarTransform n (List.zipWith xor u v) = List.zipWith xor (polarTransform n u) (polarTransform n v) ∧
      (polarTransform n u).getD (2 ^ n - 1) false = u.getD (2 ^ n - 1) false ∧
      (polarTransform n u).getD 0 false = u.foldl xor false

/-- 44_polar_code.md R232: the inverse channel allocation gives the message back, for every code that meets the
invariants of R211 and every message of `K` bits; the allocation has `N` bits, and 0 at every frozen position
(R230). -/
def Obligations.ChannelAllocationRoundTrip : Prop :=
  ∀ (code : PolarCode) (c : List Bit), codeAccepted code.K 10 code = true → c.length = code.K →
    chanallocRx code (chanallocTx code c) = c ∧ (chanallocTx code c).length = code.N ∧
      ∀ m ∈ code.fSet, (chanallocTx code c).getD m false = false

open Polynomial in
/-- 44_polar_code.md R240: the checksum is the remainder of `m(D)·D^L` by the generator over GF(2), the first bit of
`m` being the coefficient of the highest power; the default generators. -/
def Obligations.CrcIsThePolynomialRemainder : Prop :=
  (∀ (poly l : Nat) (m : List Bit), poly / 2 ^ l = 1 →
      crcChecksum poly l m < 2 ^ l ∧
        (∑ i ∈ Finset.range m.length, if m.getD i false then (X : (ZMod 2)[X]) ^ (m.length - 1 - i + l) else 0) %ₘ
            (∑ i ∈ Finset.range (l + 1), if poly.testBit i then (X : (ZMod 2)[X]) ^ i else 0) =
          ∑ i ∈ Finset.range l, if (crcChecksum poly l m).testBit i then (X : (ZMod 2)[X]) ^ i else 0) ∧
    paramsDefault.crc6Poly = 0x61 ∧ paramsDefault.crc11Poly = 0xE21

/-- 44_polar_code.md R217, R236: both interleavers of the rate matcher are permutations: the sub-block index `J` of
`[0, N)`, for any pattern that is a permutation of `0..31`, and the triangular index of `[0, E)`. -/
def Obligations.InterleaversArePermutations : Prop :=
  (∀ (p : Params) (n : Nat), p.subblockP.Perm (List.range 32) → 5 ≤ n →
      ((List.range (2 ^ n)).map (subblockIndex p (2 ^ n))).Perm (List.range (2 ^ n))) ∧
    ∀ e, (triangleSrc e).Perm (List.range e)

/-- 44_polar_code.md R214 to R221 with 10_state.md R48, for any reliability order that is a permutation of `0..1023`:
the default table fails exactly in the cases of R214, and a code it answers meets the invariants the block requires,
which determine it from its exponent (R215), its number of parity-check bits (R220), its `K_set` (the most reliable
candidates, R218, R219) and its `PC_set` (R220). -/
def Obligations.DefaultTableAnswersAreAccepted : Prop :=
  ∀ (p : Params) (k e n nPC wm : Nat) (chosen : Finset Nat), p.polarQ.Perm (List.range 1024) →
    n = tableExponent k e → nPC = tableParityCount k → wm = (if nPC = 3 ∧ 192 + k < e + 3 then 1 else 0) →
    chosen = mostReliable p (tableCandidates p (2 ^ n) k e) (k + nPC) →
      (polarTable p k e 10 = none ↔
          k < 18 ∨ (25 < k ∧ k < 31) ∨ 1023 < k ∨ e < k + nPC ∨ p.ePolarMax < e ∨
            (tableCandidates p (2 ^ n) k e).card < k + nPC) ∧
        ∀ code, polarTable p k e 10 = some code →
          codeAccepted k 10 code = true ∧ code.n = n ∧ code.nPC = nPC ∧ code.kSet.toFinset = chosen ∧
            code.pcSet.toFinset = tableParityPositions p chosen nPC wm

/-- 44_polar_code.md R238, R239: the inverse rate matcher gives `N` values, each within the saturation magnitude when
those it is given are; which value, element by element (`Dematched`); and on a noiseless image of the rate matcher's
output it gives the sign of every transmitted bit, 0 at the punctured and `+LLR_SAT` at the shortened positions. -/
def Obligations.InverseRateMatcherSaturates : Prop :=
  (∀ (p : Params) (code : PolarCode) (x : List Int), (∀ v ∈ x, -(p.llrSat : Int) ≤ v ∧ v ≤ p.llrSat) →
    (rateDematch p code x).length = code.N ∧
      ∀ v ∈ rateDematch p code x, -(p.llrSat : Int) ≤ v ∧ v ≤ p.llrSat) ∧
    ∀ (p : Params) (code : PolarCode), p.subblockP.Perm (List.range 32) → codeAccepted code.K 10 code = true →
      (∀ x : List Int, (∀ v ∈ x, -(p.llrSat : Int) ≤ v ∧ v ≤ p.llrSat) →
        ∃ e y : Nat → Int, Dematched p code x e y (rateDematch p code x)) ∧
        ∀ (e : Nat) (d : List Bit) (σ : Int) (dl : List Int), d.length = code.N → 1 ≤ σ → σ ≤ p.llrSat →
          dl = rateDematch p code ((rateMatch p code e d).map fun b => if b then -σ else σ) →
            ∀ m j, m < code.N → j = interleavedPosition p code.N m →
              if code.N ≤ e ∨ (if 16 * code.K ≤ 7 * e then code.N - e ≤ m else m < e) then
                (d.getD j false = false → 0 < dl.getD j 0) ∧ (d.getD j false = true → dl.getD j 0 < 0)
              else dl.getD j 0 = if 16 * code.K ≤ 7 * e then 0 else (p.llrSat : Int)

/-- 45_polar_pipeline.md R277 with 44_polar_code.md R246: under PD1, supposed of each call `DEC_POLAR` makes of the
decoder port, the payload comes back with `VALID = 1` from a noiseless image of the encoder's output. R277's "every `E`
for which the lookup succeeds" supposes what R238 says of the default table, that the bits shortening drops are 0: for
another table it is the premise `ZeroWhereShortened`, for the default one `ReferenceDecoderMeetsTheContract` states it. -/
def Obligations.PolarRoundTrip : Prop :=
  ∀ (s t u : State) (a e : Nat) (g : SegParams) (code : PolarCode) (σ : Int), s.regs.argA.toNat = a →
    s.regs.argE.toNat = e → g = segParams a e → 12 ≤ a → a ≤ 1705 → 1 ≤ e → e ≤ s.params.eMax →
    polarSelect s.params s.ports.polarSelect g.kR g.eR 10 = some code → codeAccepted g.kR 10 code = true →
    s.params.subblockP.Perm (List.range 32) → ZeroWhereShortened s.params code g.eR →
    exec .encPolar s = .next t → u.params = s.params → u.ports.polarSelect = s.ports.polarSelect →
    u.regs.argA = s.regs.argA → u.regs.argE = s.regs.argE → 1 ≤ σ → σ ≤ 127 → σ ≤ s.params.llrSat →
    (∀ k, k < g.C * g.eR → (readByte u.llrMem k).toInt = if readByte t.outMem k = 1 then σ else -σ) →
    (∀ r, r < g.C →
      MeetsContractAt u.params u.ports.polarDecode r code g.eR
        (rateDematch u.params code
          ((List.range g.eR).map fun k => -(readByte u.llrMem (g.eR * r + k)).toInt))) →
      Completes .decPolar u { Effect.nothing u with bits := readBits s.bitSeq 0 a, valid := true }

/-- 44_polar_code.md R247 with R246, R238: the reference decoder meets PD1 in every call for a code of which nothing is
punctured, and in every call for a code of the default table with the default sub-block pattern, whose shortened bits
are 0. -/
def Obligations.ReferenceDecoderMeetsTheContract : Prop :=
  (∀ (p : Params) (r e : Nat) (code : PolarCode) (x : List Int), codeAccepted code.K 10 code = true →
      code.N ≤ e ∨ 7 * e < 16 * code.K → MeetsContractAt p .reference r code e x) ∧
    ∀ (p : Params) (k e : Nat) (code : PolarCode), p.subblockP = subblockPDefault →
      polarTable p k e 10 = some code → codeAccepted k 10 code = true →
        (∀ r x, MeetsContractAt p .reference r code e x) ∧ ZeroWhereShortened p code e

/-- 45_polar_pipeline.md R262: the properties and the values R262 lists of the segmentation parameters. -/
def Obligations.SegmentationProperties : Prop :=
  (∀ a e : Nat,
      (segParams a e).padded % (segParams a e).C = 0 ∧
        ((segParams a e).padded - a = 1 ↔ (segParams a e).C = 2 ∧ a % 2 = 1) ∧
        ((segParams a e).padded = a ∨ (segParams a e).padded = a + 1) ∧
        ((segParams a e).C = 2 → (segParams a e).L = 11) ∧
        (a = 1013 → (segParams a e).C = 2) ∧ (a = 1012 → e < 1088 → (segParams a e).C = 1)) ∧
    (segParams 359 1088).C = 1 ∧ (segParams 360 1087).C = 1 ∧ (segParams 360 1088).C = 2 ∧
    segParams 12 64 = ⟨1, 12, 6, 12, 18, 64⟩ ∧ segParams 19 28 = ⟨1, 19, 6, 19, 25, 28⟩ ∧
    segParams 20 31 = ⟨1, 20, 11, 20, 31, 31⟩ ∧ segParams 100 256 = ⟨1, 100, 11, 100, 111, 256⟩ ∧
    segParams 359 1088 = ⟨1, 359, 11, 359, 370, 1088⟩ ∧ segParams 360 1087 = ⟨1, 360, 11, 360, 371, 1087⟩ ∧
    segParams 360 1088 = ⟨2, 360, 11, 180, 191, 544⟩ ∧ segParams 360 1089 = ⟨2, 360, 11, 180, 191, 544⟩ ∧
    segParams 1012 2048 = ⟨2, 1012, 11, 506, 517, 1024⟩ ∧ segParams 1013 2048 = ⟨2, 1014, 11, 507, 518, 1024⟩ ∧
    segParams 1705 2048 = ⟨2, 1706, 11, 853, 864, 1024⟩ ∧ segParams 1705 8192 = ⟨2, 1706, 11, 853, 864, 4096⟩

/-! ## Dispatch -/

/-- 46_transport.md R290, R293, R294: `ENCODE`: the encoder the dispatch selects, and the same transition as that
family's own command. -/
def Obligations.EncodeResult : Prop :=
  ∀ (s : State) (a e : Nat), s.regs.argA.toNat = a → s.regs.argE.toNat = e →
    (∀ out, s.coded a e (readBits s.bitSeq 0 a) = .ok out →
        Completes .encode s { Effect.nothing s with regs := { s.regs with resE := s.regs.argE }, out := out }) ∧
      (∀ k, s.coded a e (readBits s.bitSeq 0 a) = .error k → Raises .encode k s) ∧
      (a = 1 → exec .encode s = exec .enc1Bit s) ∧ (a = 2 → exec .encode s = exec .enc2Bit s) ∧
      (3 ≤ a → a ≤ 11 → exec .encode s = exec .encRm s) ∧
      (12 ≤ a → a ≤ 1705 → exec .encode s = exec .encPolar s) ∧
      (a = 0 ∨ 1706 ≤ a → Raises .encode .invalidInput s)

/-- 46_transport.md R290, R293, R296: `DECODE`: the decoder the dispatch selects, and the same transition as that
family's own command. -/
def Obligations.DecodeResult : Prop :=
  ∀ (s : State) (a e : Nat), s.regs.argA.toNat = a → s.regs.argE.toNat = e →
    (∀ bits v, s.decoded a e = .ok (bits, v) →
        bits.length = a ∧ Completes .decode s { Effect.nothing s with bits := bits, valid := v }) ∧
      (∀ k, s.decoded a e = .error k → Raises .decode k s) ∧
      (a = 1 → exec .decode s = exec .dec1Bit s) ∧ (a = 2 → exec .decode s = exec .dec2Bit s) ∧
      (3 ≤ a → a ≤ 11 → exec .decode s = exec .decRm s) ∧
      (12 ≤ a → a ≤ 1705 → exec .decode s = exec .decPolar s) ∧
      (a = 0 ∨ 1706 ≤ a → Raises .decode .invalidInput s)

/-! ## Façades -/

/-- 46_transport.md R300, R301: `ENC_PUCCH`: sizing, packing, the small-block restriction, coding, in that order. -/
def Obligations.EncPucchResult : Prop :=
  ∀ s : State,
    (∀ k, resourceE s.regs = .error k → Raises .encPucch k s) ∧
      ∀ e, resourceE s.regs = .ok e →
        (2 ^ 32 ≤ e → Raises .encPucch .invalidInput s) ∧
          (e < 2 ^ 32 →
            (∀ k, pucchPayload s = .error k → Raises .encPucch k s) ∧
              ∀ payload, pucchPayload s = .ok payload →
                (0 < s.ports.csi.nofBits → 0 < s.regs.oAck.toNat + s.regs.oSr.toNat → payload.length ≤ 11 →
                    Raises .encPucch .unsupported s) ∧
                  (s.ports.csi.nofBits = 0 ∨ s.regs.oAck.toNat + s.regs.oSr.toNat = 0 ∨ 12 ≤ payload.length →
                    (∀ out, s.coded payload.length e payload = .ok out →
                        Completes .encPucch s
                          { Effect.nothing s with
                            bits := payload
                            out := out
                            regs :=
                              { s.regs with
                                resA := BitVec.ofNat 32 payload.length
                                resE := BitVec.ofNat 32 e } }) ∧
                      ∀ k, s.coded payload.length e payload = .error k → Raises .encPucch k s))

/-- 46_transport.md R303, R304: `DEC_PUCCH`: sizing, `compute_A`, decoding, unpacking, in that order. With CSI it
ends in `Unsupported` whatever was decoded. -/
def Obligations.DecPucchResult : Prop :=
  ∀ s : State,
    (∀ k, resourceE s.regs = .error k → Raises .decPucch k s) ∧
      ∀ e, resourceE s.regs = .ok e →
        (2 ^ 32 ≤ e → Raises .decPucch .invalidInput s) ∧
          (e < 2 ^ 32 →
            (∀ k, pucchSize s = .error k → Raises .decPucch k s) ∧
              ∀ a, pucchSize s = .ok a →
                (∀ k, s.decoded a e = .error k → Raises .decPucch k s) ∧
                  ∀ bits v, s.decoded a e = .ok (bits, v) →
                    (0 < s.ports.csi.nofBits → Raises .decPucch .unsupported s) ∧
                      (s.ports.csi.nofBits = 0 →
                        Completes .decPucch s
                          { Effect.nothing s with
                            valid := v
                            bits := bits
                            ack := bits.take s.regs.oAck.toNat
                            regs :=
                              { s.regs with
                                resA := BitVec.ofNat 32 a
                                resE := BitVec.ofNat 32 e
                                sr := BitVec.ofNat 32 (bitsToInt (bits.drop s.regs.oAck.toNat)) } }))

/-- 46_transport.md R305, R306: `ENC_PUSCH_ACK`, with the `A = 2` coercion; its sizing's own errors are in
`PuschChecksInOrder`, the case of nothing to code in `NothingToCode`. -/
def Obligations.EncPuschAckResult : Prop :=
  ∀ (s : State) (a e : Nat) (payload : List Bit),
    (1706 < s.regs.oAck.toNat → Raises .encPuschAck .invalidInput s) ∧
      (s.regs.oAck.toNat ≤ 1706 → PuschReady s.regs → a ≠ 0 →
        (s.regs.kSum = 0 ∧ 1 < s.regs.nofCsi.toNat ∧ s.ports.csi.hasPart2 = false ∧ s.regs.oAck.toNat < 2 ∧ a = 2 ∧
              payload = [decide (s.regs.oAck.toNat = 1) && readBit s.ackMem 0, false]) ∨
            (¬(s.regs.kSum = 0 ∧ 1 < s.regs.nofCsi.toNat ∧ s.ports.csi.hasPart2 = false ∧
                s.regs.oAck.toNat < 2) ∧
              a = s.regs.oAck.toNat ∧ payload = readBits s.ackMem 0 a) →
          e = eAck s.regs a →
            (2 ^ 32 ≤ e → Raises .encPuschAck .invalidInput s) ∧
              (e < 2 ^ 32 →
                (∀ out, s.coded a e payload = .ok out →
                    Completes .encPuschAck s
                      { Effect.nothing s with
                        bits := payload
                        out := out
                        regs := { s.regs with resA := BitVec.ofNat 32 a, resE := BitVec.ofNat 32 e } }) ∧
                  ∀ k, s.coded a e payload = .error k → Raises .encPuschAck k s))

/-- 46_transport.md R305, R308: `DEC_PUSCH_ACK`, with the `A = 2` coercion. -/
def Obligations.DecPuschAckResult : Prop :=
  ∀ (s : State) (a e : Nat),
    (1706 < s.regs.oAck.toNat → Raises .decPuschAck .invalidInput s) ∧
      (s.regs.oAck.toNat ≤ 1706 → PuschReady s.regs → a ≠ 0 →
        (s.regs.kSum = 0 ∧ 1 < s.regs.nofCsi.toNat ∧ s.ports.csi.hasPart2 = false ∧ s.regs.oAck.toNat < 2 ∧ a = 2) ∨
            (¬(s.regs.kSum = 0 ∧ 1 < s.regs.nofCsi.toNat ∧ s.ports.csi.hasPart2 = false ∧
                s.regs.oAck.toNat < 2) ∧
              a = s.regs.oAck.toNat) →
          e = eAck s.regs a →
            (2 ^ 32 ≤ e → Raises .decPuschAck .invalidInput s) ∧
              (e < 2 ^ 32 →
                (∀ bits v, s.decoded a e = .ok (bits, v) →
                    Completes .decPuschAck s
                      { Effect.nothing s with
                        valid := v
                        bits := bits
                        ack := bits
                        regs := { s.regs with resA := BitVec.ofNat 32 a, resE := BitVec.ofNat 32 e } }) ∧
                  ∀ k, s.decoded a e = .error k → Raises .decPuschAck k s))

/-- 46_transport.md R310: `ENC_PUSCH_CSI1`, over the bits the CSI port packed; the sizing uses `csi.nof_bits()`. An
`O_ACK` above 1706 raises `InvalidInput` (10_state.md R29). -/
def Obligations.EncPuschCsi1Result : Prop :=
  ∀ (s : State) (payload : List Bit),
    (s.ports.csi.packed = none → Raises .encPuschCsi1 .csiPackFailed s) ∧
      (s.ports.csi.packed = some payload → 0 < payload.length → payload.length ≤ 1706 → Csi1Ready s.regs →
        (1706 < s.regs.oAck.toNat → Raises .encPuschCsi1 .invalidInput s) ∧
        (∀ k, eCsi1 s.regs s.ports.csi.nofBits = .error k → Raises .encPuschCsi1 k s) ∧
          ∀ e, eCsi1 s.regs s.ports.csi.nofBits = .ok e →
            (2 ^ 32 ≤ e → Raises .encPuschCsi1 .invalidInput s) ∧
              (e < 2 ^ 32 →
                (∀ out, s.coded payload.length e payload = .ok out →
                    Completes .encPuschCsi1 s
                      { Effect.nothing s with
                        bits := payload
                        out := out
                        regs :=
                          { s.regs with
                            resA := BitVec.ofNat 32 payload.length
                            resE := BitVec.ofNat 32 e } }) ∧
                  ∀ k, s.coded payload.length e payload = .error k → Raises .encPuschCsi1 k s))

/-- 46_transport.md R312: `DEC_PUSCH_CSI1`; `csi.unpack` is called whether or not the decoder found the payload
valid. An `O_ACK` above 1706 raises `InvalidInput` (10_state.md R29). -/
def Obligations.DecPuschCsi1Result : Prop :=
  ∀ (s : State) (a : Nat), s.ports.csi.nofBits = a → a ≠ 0 → Csi1Ready s.regs →
    (1706 < s.regs.oAck.toNat → Raises .decPuschCsi1 .invalidInput s) ∧
    (∀ k, eCsi1 s.regs a = .error k → Raises .decPuschCsi1 k s) ∧
      ∀ e, eCsi1 s.regs a = .ok e →
        (2 ^ 32 ≤ e → Raises .decPuschCsi1 .invalidInput s) ∧
          (e < 2 ^ 32 →
            (∀ k, s.decoded a e = .error k → Raises .decPuschCsi1 k s) ∧
              ∀ bits v, s.decoded a e = .ok (bits, v) →
                (s.ports.csi.unpackOk = true →
                    Completes .decPuschCsi1 s
                      { Effect.nothing s with
                        valid := v
                        bits := bits
                        csi := some bits
                        regs := { s.regs with resA := BitVec.ofNat 32 a, resE := BitVec.ofNat 32 e } }) ∧
                  (s.ports.csi.unpackOk = false → Raises .decPuschCsi1 .csiUnpackFailed s))

/-- 46_transport.md R306, R308, R310, R312: the four PUSCH façades with nothing to code end at once: `RES_A` and
`RES_E` are 0, no memory changes, a decoder sets `VALID`. That the two CSI part 1 façades make no range check of `O_ACK`
(10_state.md R29) then, as they do not come to read it, is the model's choice (log entry 15). -/
def Obligations.NothingToCode : Prop :=
  ∀ (s : State) (x : Effect), x = { Effect.nothing s with regs := { s.regs with resA := 0, resE := 0 } } →
    (s.regs.oAck = 0 →
        s.regs.kSum ≠ 0 ∨ s.regs.nofCsi.toNat ≤ 1 ∨ s.ports.csi.hasPart2 = true →
          Completes .encPuschAck s x ∧ Completes .decPuschAck s { x with valid := true }) ∧
      (s.ports.csi.packed = some [] → Completes .encPuschCsi1 s x) ∧
      (s.ports.csi.nofBits = 0 → Completes .decPuschCsi1 s { x with valid := true })

/-! ## Laws across commands -/

/-- 41_payload.md R138: without CSI, `UNPACK_PUCCH` after `PACK_PUCCH` gives back the ACK bits and `SR`. -/
def Obligations.UnpackAfterPack : Prop :=
  ∀ s t : State, exec .packPucch s = .next t → t.status.err = false → s.ports.csi.nofBits = 0 →
    Completes .unpackPucch t { Effect.nothing t with ack := readBits s.ackMem 0 s.regs.oAck.toNat } ∧
      t.regs.sr = s.regs.sr ∧ BitsKept s.ackMem t.ackMem

/-- 40_sizing.md R117 (D0's property 8): with `K_SUM = 0` and no CSI part 2, and a reservation that fits (as it always
does with `alpha ≤ 1`, R114), the two PUSCH sizes, the first taken at `max(2, O_ACK)`, add up to all resources:
`nof_layers · Qm · M_sum`. An `O_ACK` above 1706 has no second size (10_state.md R29, `PuschCsi1SizeResult`). -/
def Obligations.PuschSizesFillTheResources : Prop :=
  ∀ (s : State) (total : Nat), Csi1Ready s.regs → s.regs.kSum = 0 → s.regs.csiPart2Present.getLsbD 0 = false →
    s.regs.oAck.toNat ≤ 1706 → val s.regs.alpha ≤ 1 ∨ qAck s.regs (max 2 s.regs.oAck.toNat) ≤ mSum s.regs →
    s.regs.argA.toNat = max 2 s.regs.oAck.toNat →
    total = s.regs.nofLayers.toNat * s.regs.qm * mSum s.regs → total < 2 ^ 32 →
      ∃ e₁ e₂ : Nat, e₁ + e₂ = total ∧
        Completes .puschAckNofBits s
          { Effect.nothing s with regs := { s.regs with resE := BitVec.ofNat 32 e₁ } } ∧
        Completes .puschCsi1NofBits s
          { Effect.nothing s with regs := { s.regs with resE := BitVec.ofNat 32 e₂ } }
end

