-- ==== Sys2Proof/Laws/Cmd.lean ====
section
/-! SUPPORT. How the pseudocode of a command runs: one lemma per primitive of the command monad, alone and in front of
a continuation. A proof about a command cites these and never unfolds `EStateM`. -/

namespace Sys2Proof.Machine

variable {α β : Type}

@[simp] theorem Cmd.pure_run (a : α) (s : State) : (pure a : Cmd α) s = .ok a s := rfl

@[simp] theorem Cmd.get_run (s : State) : (get : Cmd State) s = .ok s s := rfl

@[simp] theorem Cmd.modify_run (f : State → State) (s : State) :
    (modify f : Cmd PUnit) s = .ok ⟨⟩ (f s) := rfl

@[simp] theorem Cmd.raise_run (k : ErrorKind) (s : State) : (raise k : Cmd α) s = .error k s := rfl

@[simp] theorem Cmd.raiseIf_run (c : Prop) [Decidable c] (k : ErrorKind) (s : State) :
    raiseIf c k s = if c then .error k s else .ok () s := by
  unfold raiseIf
  split <;> rfl

@[simp] theorem Cmd.ofExcept_run (x : Except ErrorKind α) (s : State) :
    ofExcept x s = match x with
      | .ok a => .ok a s
      | .error k => .error k s := by
  cases x <;> rfl

/-- A sequence of two steps: the second runs when the first goes on. -/
theorem Cmd.bind_run (x : Cmd α) (f : α → Cmd β) (s : State) :
    (x >>= f) s = match x s with
      | .ok a t => f a t
      | .error k t => .error k t := by
  simp only [bind, EStateM.bind]
  cases x s <;> rfl

theorem Cmd.bind_of_ok {x : Cmd α} {s t : State} {a : α} (h : x s = .ok a t) (f : α → Cmd β) :
    (x >>= f) s = f a t := by
  rw [Cmd.bind_run, h]

theorem Cmd.bind_of_error {x : Cmd α} {s t : State} {k : ErrorKind} (h : x s = .error k t) (f : α → Cmd β) :
    (x >>= f) s = .error k t := by
  rw [Cmd.bind_run, h]

@[simp] theorem Cmd.pure_bind_run (a : α) (f : α → Cmd β) (s : State) :
    ((pure a : Cmd α) >>= f) s = f a s := Cmd.bind_of_ok rfl f

@[simp] theorem Cmd.get_bind_run (f : State → Cmd β) (s : State) :
    ((get : Cmd State) >>= f) s = f s s := Cmd.bind_of_ok rfl f

@[simp] theorem Cmd.modify_bind_run (g : State → State) (f : PUnit → Cmd β) (s : State) :
    ((modify g : Cmd PUnit) >>= f) s = f ⟨⟩ (g s) := Cmd.bind_of_ok rfl f

@[simp] theorem Cmd.raise_bind_run (k : ErrorKind) (f : α → Cmd β) (s : State) :
    ((raise k : Cmd α) >>= f) s = .error k s := Cmd.bind_of_error rfl f

@[simp] theorem Cmd.raiseIf_bind_run (c : Prop) [Decidable c] (k : ErrorKind) (f : Unit → Cmd β) (s : State) :
    (raiseIf c k >>= f) s = if c then .error k s else f () s := by
  by_cases h : c
  · rw [if_pos h]
    exact Cmd.bind_of_error (by rw [Cmd.raiseIf_run, if_pos h]) f
  · rw [if_neg h]
    exact Cmd.bind_of_ok (by rw [Cmd.raiseIf_run, if_neg h]) f

@[simp] theorem Cmd.ofExcept_bind_run (x : Except ErrorKind α) (f : α → Cmd β) (s : State) :
    (ofExcept x >>= f) s = match x with
      | .ok a => f a s
      | .error k => .error k s := by
  cases x <;> rfl

@[simp] theorem Cmd.bind_assoc_run {γ : Type} (x : Cmd α) (f : α → Cmd β) (g : β → Cmd γ) (s : State) :
    ((x >>= f) >>= g) s = (x >>= fun a => f a >>= g) s := by
  simp only [Cmd.bind_run]
  cases x s <;> rfl

@[simp] theorem Cmd.ite_run (c : Prop) [Decidable c] (x y : Cmd α) (s : State) :
    (if c then x else y) s = if c then x s else y s := by
  split <;> rfl

/-- A command goes on from a guard exactly when the guard does not hold. -/
theorem Cmd.raiseIf_eq_ok {c : Prop} [Decidable c] {k : ErrorKind} {s t : State} {u : Unit} :
    raiseIf c k s = .ok u t ↔ ¬c ∧ t = s := by
  rw [Cmd.raiseIf_run]
  split <;> simp_all [eq_comm]

/-! ## Running a whole command -/

/-- Every command ends in a next state: the end of a success, or the exception its body raised. -/
theorem runCommand_cases (i : Instr) (body : Cmd Unit) (s : State) :
    (∃ t, body s.startCommand = .ok () t ∧ runCommand i body s = .next (t.finishCommand (commandClass i))) ∨
      (∃ k t, body s.startCommand = .error k t ∧ runCommand i body s = .next (t.raiseError i k)) := by
  unfold runCommand
  cases h : body s.startCommand with
  | ok a t => exact .inl ⟨t, rfl, rfl⟩
  | error k t => exact .inr ⟨k, t, rfl, rfl⟩

theorem runCommand_of_ok {i : Instr} {body : Cmd Unit} {s t : State} (h : body s.startCommand = .ok () t) :
    runCommand i body s = .next (t.finishCommand (commandClass i)) := by
  rw [runCommand, h]

theorem runCommand_of_error {i : Instr} {body : Cmd Unit} {s t : State} {k : ErrorKind}
    (h : body s.startCommand = .error k t) : runCommand i body s = .next (t.raiseError i k) := by
  rw [runCommand, h]

end Sys2Proof.Machine
end

