-- ==== Sys2Proof/Laws/Memory.lean ====
section
/-! SUPPORT. The laws of the element memories: what a read returns after a write, and that every memory operation
keeps the canonical form. -/

namespace Sys2Proof.Machine

variable {α : Type}

/-! ## Rising lists -/

theorem risingAbove_iff (lo : Option Nat) (xs : List Nat) :
    risingAbove lo xs = true ↔ (∀ l ∈ lo, ∀ x ∈ xs, l < x) ∧ xs.Pairwise (· < ·) := by
  induction xs generalizing lo with
  | nil => simp [risingAbove]
  | cons x xs ih =>
    cases lo with
    | none => simp [risingAbove, ih, List.pairwise_cons]
    | some l =>
      simp only [risingAbove, Bool.and_eq_true, decide_eq_true_eq, ih, Option.mem_def, Option.some.injEq,
        forall_eq', List.mem_cons, forall_eq_or_imp, List.pairwise_cons]
      constructor
      · rintro ⟨h, hx, hp⟩
        exact ⟨⟨h, fun y hy => h.trans (hx y hy)⟩, hx, hp⟩
      · rintro ⟨⟨h, -⟩, hx, hp⟩
        exact ⟨h, hx, hp⟩

theorem strictlyRising_iff (xs : List Nat) : strictlyRising xs = true ↔ xs.Pairwise (· < ·) := by
  simp [strictlyRising, risingAbove_iff]

theorem Memory.wf_iff (m : Memory α) (size : Nat) :
    m.wf size = true ↔ (m.cells.map Prod.fst).Pairwise (· < ·) ∧ ∀ c ∈ m.cells, c.1 < size := by
  simp [Memory.wf, strictlyRising_iff]

/-! ## Looking up a cell -/

theorem lookupCell_append (a b : List (Nat × α)) (i : Nat) :
    lookupCell (a ++ b) i = (lookupCell a i).or (lookupCell b i) := by
  induction a with
  | nil => simp [lookupCell]
  | cons c cs ih =>
    obtain ⟨x, v⟩ := c
    by_cases h : x = i <;> simp [lookupCell, h, ih]

theorem lookupCell_filter (p : Nat → Bool) (cells : List (Nat × α)) (i : Nat) :
    lookupCell (cells.filter fun c => p c.1) i = if p i = true then lookupCell cells i else none := by
  induction cells with
  | nil => simp [lookupCell]
  | cons c cs ih =>
    obtain ⟨x, v⟩ := c
    by_cases hp : p x = true
    · by_cases hx : x = i
      · subst hx
        simp [lookupCell, hp]
      · simp [lookupCell, hp, hx, ih]
    · by_cases hx : x = i
      · subst hx
        simp [hp, ih]
      · simp [lookupCell, hp, hx, ih]

theorem lookupCell_cellsFrom (base : Nat) (vs : List α) (i : Nat) :
    lookupCell (cellsFrom base vs) i = if base ≤ i then vs[i - base]? else none := by
  induction vs generalizing base with
  | nil => simp [cellsFrom, lookupCell]
  | cons v vs ih =>
    rw [cellsFrom, lookupCell, ih]
    by_cases h : base = i
    · subst h
      simp
    · by_cases hle : base + 1 ≤ i
      · rw [if_neg h, if_pos hle, if_pos (by omega), show i - base = (i - (base + 1)) + 1 by omega,
          List.getElem?_cons_succ]
      · rw [if_neg h, if_neg hle, if_neg (by omega)]

theorem lookupCell_writeRange (m : Memory α) (base : Nat) (vs : List α) (i : Nat) :
    lookupCell (m.writeRange base vs).cells i =
      if base ≤ i ∧ i < base + vs.length then vs[i - base]? else lookupCell m.cells i := by
  rw [Memory.writeRange, lookupCell_append, lookupCell_append,
    lookupCell_filter (fun a => decide (a < base)),
    lookupCell_filter (fun a => decide (base + vs.length ≤ a)), lookupCell_cellsFrom]
  by_cases h1 : i < base
  · simp [h1, show ¬base ≤ i by omega, show ¬(base + vs.length ≤ i) by omega]
  · by_cases h2 : i < base + vs.length
    · simp [h1, show base ≤ i by omega, h2, show i - base < vs.length by omega]
    · simp [h1, show base ≤ i by omega, h2, show base + vs.length ≤ i by omega,
        show vs.length ≤ i - base by omega]

/-! ## Reading after a write -/

@[simp] theorem Memory.writeRange_fill (m : Memory α) (base : Nat) (vs : List α) :
    (m.writeRange base vs).fill = m.fill := rfl

/-- What any element reads as after a write: the value written inside the range, the old one outside. -/
theorem Memory.read_writeRange (free : Nat → Nat → α) (m : Memory α) (base : Nat) (vs : List α) (i : Nat) :
    (m.writeRange base vs).read free i =
      if h : base ≤ i ∧ i < base + vs.length then vs[i - base]'(by omega) else m.read free i := by
  unfold Memory.read
  rw [lookupCell_writeRange, Memory.writeRange_fill]
  split
  · rename_i h
    simp [List.getElem?_eq_getElem (show i - base < vs.length by omega)]
  · rfl

theorem Memory.read_writeRange_inside (free : Nat → Nat → α) (m : Memory α) (base : Nat) (vs : List α) (k : Nat)
    (h : k < vs.length) : (m.writeRange base vs).read free (base + k) = vs[k] := by
  rw [Memory.read_writeRange, dif_pos ⟨by omega, by omega⟩]
  simp

theorem Memory.read_writeRange_outside (free : Nat → Nat → α) (m : Memory α) (base : Nat) (vs : List α) (i : Nat)
    (h : i < base ∨ base + vs.length ≤ i) : (m.writeRange base vs).read free i = m.read free i := by
  rw [Memory.read_writeRange, dif_neg (by omega)]

/-- Reading back the range just written returns what was written. -/
theorem readBits_writeRange (m : Memory Bit) (base : Nat) (vs : List Bit) :
    readBits (m.writeRange base vs) base vs.length = vs := by
  apply List.ext_getElem
  · simp [readBits]
  · intro k h1 h2
    simp [readBits, readBit, Memory.read_writeRange_inside _ _ _ _ _ h2]

@[simp] theorem readBits_length (m : Memory Bit) (base n : Nat) : (readBits m base n).length = n := by
  simp [readBits]

@[simp] theorem readLlrs_length (m : Memory Byte) (base n : Nat) : (readLlrs m base n).length = n := by
  simp [readLlrs]

/-! ## The canonical form -/

theorem cellsFrom_fst (base : Nat) (vs : List α) :
    (cellsFrom base vs).map Prod.fst = List.range' base vs.length := by
  induction vs generalizing base with
  | nil => rfl
  | cons v vs ih => simp [cellsFrom, ih, List.range'_succ]

theorem mem_cellsFrom {base : Nat} {vs : List α} {c : Nat × α} (h : c ∈ cellsFrom base vs) :
    base ≤ c.1 ∧ c.1 < base + vs.length := by
  have := List.mem_map_of_mem (f := Prod.fst) h
  rw [cellsFrom_fst, List.mem_range'_1] at this
  exact this

/-- A write inside the memory keeps the canonical form. -/
theorem Memory.wf_writeRange {m : Memory α} {size base : Nat} {vs : List α} (hm : m.wf size = true)
    (hb : base + vs.length ≤ size) : (m.writeRange base vs).wf size = true := by
  rw [Memory.wf_iff] at hm ⊢
  obtain ⟨hp, hlt⟩ := hm
  have hsub (p : Nat × α → Bool) : ((m.cells.filter p).map Prod.fst).Pairwise (· < ·) :=
    hp.sublist ((List.filter_sublist).map _)
  constructor
  · simp only [Memory.writeRange, List.map_append, List.pairwise_append, cellsFrom_fst]
    refine ⟨⟨hsub _, List.pairwise_lt_range', ?_⟩, hsub _, ?_⟩
    · intro a ha b hb'
      simp only [List.mem_map, List.mem_filter, decide_eq_true_eq] at ha
      obtain ⟨c, ⟨-, hc⟩, rfl⟩ := ha
      have := (List.mem_range'_1.mp hb').1
      omega
    · intro a ha b hb'
      simp only [List.mem_map, List.mem_filter, decide_eq_true_eq] at hb'
      obtain ⟨d, ⟨-, hd⟩, rfl⟩ := hb'
      rcases List.mem_append.mp ha with ha | ha
      · simp only [List.mem_map, List.mem_filter, decide_eq_true_eq] at ha
        obtain ⟨c, ⟨-, hc⟩, rfl⟩ := ha
        omega
      · have := (List.mem_range'_1.mp ha).2
        omega
  · intro c hc
    simp only [Memory.writeRange, List.mem_append, List.mem_filter] at hc
    rcases hc with (⟨hc, -⟩ | hc) | ⟨hc, -⟩
    · exact hlt c hc
    · exact (mem_cellsFrom hc).2.trans_le hb
    · exact hlt c hc

/-- A memory left `any` has the canonical form. -/
@[simp] theorem Memory.wf_any (d size : Nat) : (Memory.any α d).wf size = true := by
  simp [Memory.any, Memory.wf, strictlyRising, risingAbove]

end Sys2Proof.Machine
end

