-- ==== Sys2Proof/Laws/State.lean ====
section
/-! SUPPORT. One lemma per field per update of the state, each true by `rfl`, so that no proof unfolds a record
update. -/

namespace Sys2Proof.Machine

variable (s : State)

@[simp] theorem State.setPhase_status (p : Phase) : (s.setPhase p).status = { s.status with phase := p } := rfl
@[simp] theorem State.setPhase_regs (p : Phase) : (s.setPhase p).regs = s.regs := rfl
@[simp] theorem State.setPhase_ackMem (p : Phase) : (s.setPhase p).ackMem = s.ackMem := rfl
@[simp] theorem State.setPhase_bitSeq (p : Phase) : (s.setPhase p).bitSeq = s.bitSeq := rfl
@[simp] theorem State.setPhase_llrMem (p : Phase) : (s.setPhase p).llrMem = s.llrMem := rfl
@[simp] theorem State.setPhase_outMem (p : Phase) : (s.setPhase p).outMem = s.outMem := rfl
@[simp] theorem State.setPhase_cBuf (p : Phase) : (s.setPhase p).cBuf = s.cBuf := rfl
@[simp] theorem State.setPhase_alloc (p : Phase) : (s.setPhase p).alloc = s.alloc := rfl
@[simp] theorem State.setPhase_dBuf (p : Phase) : (s.setPhase p).dBuf = s.dBuf := rfl
@[simp] theorem State.setPhase_params (p : Phase) : (s.setPhase p).params = s.params := rfl
@[simp] theorem State.setPhase_ports (p : Phase) : (s.setPhase p).ports = s.ports := rfl
@[simp] theorem State.setPhase_pending (p : Phase) : (s.setPhase p).pending = s.pending := rfl
@[simp] theorem State.setPhase_busRead (p : Phase) : (s.setPhase p).busRead = s.busRead := rfl
@[simp] theorem State.setPhase_draws (p : Phase) : (s.setPhase p).draws = s.draws := rfl

@[simp] theorem State.setValid_status (v : Bool) : (s.setValid v).status = { s.status with valid := v } := rfl
@[simp] theorem State.setValid_regs (v : Bool) : (s.setValid v).regs = s.regs := rfl
@[simp] theorem State.setValid_ackMem (v : Bool) : (s.setValid v).ackMem = s.ackMem := rfl
@[simp] theorem State.setValid_bitSeq (v : Bool) : (s.setValid v).bitSeq = s.bitSeq := rfl
@[simp] theorem State.setValid_llrMem (v : Bool) : (s.setValid v).llrMem = s.llrMem := rfl
@[simp] theorem State.setValid_outMem (v : Bool) : (s.setValid v).outMem = s.outMem := rfl
@[simp] theorem State.setValid_cBuf (v : Bool) : (s.setValid v).cBuf = s.cBuf := rfl
@[simp] theorem State.setValid_alloc (v : Bool) : (s.setValid v).alloc = s.alloc := rfl
@[simp] theorem State.setValid_dBuf (v : Bool) : (s.setValid v).dBuf = s.dBuf := rfl
@[simp] theorem State.setValid_params (v : Bool) : (s.setValid v).params = s.params := rfl
@[simp] theorem State.setValid_ports (v : Bool) : (s.setValid v).ports = s.ports := rfl
@[simp] theorem State.setValid_pending (v : Bool) : (s.setValid v).pending = s.pending := rfl
@[simp] theorem State.setValid_busRead (v : Bool) : (s.setValid v).busRead = s.busRead := rfl
@[simp] theorem State.setValid_draws (v : Bool) : (s.setValid v).draws = s.draws := rfl

@[simp] theorem State.setResE_status (w : Word) : (s.setResE w).status = s.status := rfl
@[simp] theorem State.setResE_regs (w : Word) : (s.setResE w).regs = { s.regs with resE := w } := rfl
@[simp] theorem State.setResE_ackMem (w : Word) : (s.setResE w).ackMem = s.ackMem := rfl
@[simp] theorem State.setResE_bitSeq (w : Word) : (s.setResE w).bitSeq = s.bitSeq := rfl
@[simp] theorem State.setResE_llrMem (w : Word) : (s.setResE w).llrMem = s.llrMem := rfl
@[simp] theorem State.setResE_outMem (w : Word) : (s.setResE w).outMem = s.outMem := rfl
@[simp] theorem State.setResE_cBuf (w : Word) : (s.setResE w).cBuf = s.cBuf := rfl
@[simp] theorem State.setResE_alloc (w : Word) : (s.setResE w).alloc = s.alloc := rfl
@[simp] theorem State.setResE_dBuf (w : Word) : (s.setResE w).dBuf = s.dBuf := rfl
@[simp] theorem State.setResE_params (w : Word) : (s.setResE w).params = s.params := rfl
@[simp] theorem State.setResE_ports (w : Word) : (s.setResE w).ports = s.ports := rfl
@[simp] theorem State.setResE_pending (w : Word) : (s.setResE w).pending = s.pending := rfl
@[simp] theorem State.setResE_busRead (w : Word) : (s.setResE w).busRead = s.busRead := rfl
@[simp] theorem State.setResE_draws (w : Word) : (s.setResE w).draws = s.draws := rfl

@[simp] theorem State.setResA_status (w : Word) : (s.setResA w).status = s.status := rfl
@[simp] theorem State.setResA_regs (w : Word) : (s.setResA w).regs = { s.regs with resA := w } := rfl
@[simp] theorem State.setResA_ackMem (w : Word) : (s.setResA w).ackMem = s.ackMem := rfl
@[simp] theorem State.setResA_bitSeq (w : Word) : (s.setResA w).bitSeq = s.bitSeq := rfl
@[simp] theorem State.setResA_llrMem (w : Word) : (s.setResA w).llrMem = s.llrMem := rfl
@[simp] theorem State.setResA_outMem (w : Word) : (s.setResA w).outMem = s.outMem := rfl
@[simp] theorem State.setResA_cBuf (w : Word) : (s.setResA w).cBuf = s.cBuf := rfl
@[simp] theorem State.setResA_alloc (w : Word) : (s.setResA w).alloc = s.alloc := rfl
@[simp] theorem State.setResA_dBuf (w : Word) : (s.setResA w).dBuf = s.dBuf := rfl
@[simp] theorem State.setResA_params (w : Word) : (s.setResA w).params = s.params := rfl
@[simp] theorem State.setResA_ports (w : Word) : (s.setResA w).ports = s.ports := rfl
@[simp] theorem State.setResA_pending (w : Word) : (s.setResA w).pending = s.pending := rfl
@[simp] theorem State.setResA_busRead (w : Word) : (s.setResA w).busRead = s.busRead := rfl
@[simp] theorem State.setResA_draws (w : Word) : (s.setResA w).draws = s.draws := rfl

@[simp] theorem State.setSr_status (w : Word) : (s.setSr w).status = s.status := rfl
@[simp] theorem State.setSr_regs (w : Word) : (s.setSr w).regs = { s.regs with sr := w } := rfl
@[simp] theorem State.setSr_ackMem (w : Word) : (s.setSr w).ackMem = s.ackMem := rfl
@[simp] theorem State.setSr_bitSeq (w : Word) : (s.setSr w).bitSeq = s.bitSeq := rfl
@[simp] theorem State.setSr_llrMem (w : Word) : (s.setSr w).llrMem = s.llrMem := rfl
@[simp] theorem State.setSr_outMem (w : Word) : (s.setSr w).outMem = s.outMem := rfl
@[simp] theorem State.setSr_cBuf (w : Word) : (s.setSr w).cBuf = s.cBuf := rfl
@[simp] theorem State.setSr_alloc (w : Word) : (s.setSr w).alloc = s.alloc := rfl
@[simp] theorem State.setSr_dBuf (w : Word) : (s.setSr w).dBuf = s.dBuf := rfl
@[simp] theorem State.setSr_params (w : Word) : (s.setSr w).params = s.params := rfl
@[simp] theorem State.setSr_ports (w : Word) : (s.setSr w).ports = s.ports := rfl
@[simp] theorem State.setSr_pending (w : Word) : (s.setSr w).pending = s.pending := rfl
@[simp] theorem State.setSr_busRead (w : Word) : (s.setSr w).busRead = s.busRead := rfl
@[simp] theorem State.setSr_draws (w : Word) : (s.setSr w).draws = s.draws := rfl

@[simp] theorem State.writeBitSeq_status (b : Nat) (vs : List Bit) : (s.writeBitSeq b vs).status = s.status := rfl
@[simp] theorem State.writeBitSeq_regs (b : Nat) (vs : List Bit) : (s.writeBitSeq b vs).regs = s.regs := rfl
@[simp] theorem State.writeBitSeq_ackMem (b : Nat) (vs : List Bit) : (s.writeBitSeq b vs).ackMem = s.ackMem := rfl
@[simp] theorem State.writeBitSeq_bitSeq (b : Nat) (vs : List Bit) : (s.writeBitSeq b vs).bitSeq = s.bitSeq.writeRange b vs := rfl
@[simp] theorem State.writeBitSeq_llrMem (b : Nat) (vs : List Bit) : (s.writeBitSeq b vs).llrMem = s.llrMem := rfl
@[simp] theorem State.writeBitSeq_outMem (b : Nat) (vs : List Bit) : (s.writeBitSeq b vs).outMem = s.outMem := rfl
@[simp] theorem State.writeBitSeq_cBuf (b : Nat) (vs : List Bit) : (s.writeBitSeq b vs).cBuf = s.cBuf := rfl
@[simp] theorem State.writeBitSeq_alloc (b : Nat) (vs : List Bit) : (s.writeBitSeq b vs).alloc = s.alloc := rfl
@[simp] theorem State.writeBitSeq_dBuf (b : Nat) (vs : List Bit) : (s.writeBitSeq b vs).dBuf = s.dBuf := rfl
@[simp] theorem State.writeBitSeq_params (b : Nat) (vs : List Bit) : (s.writeBitSeq b vs).params = s.params := rfl
@[simp] theorem State.writeBitSeq_ports (b : Nat) (vs : List Bit) : (s.writeBitSeq b vs).ports = s.ports := rfl
@[simp] theorem State.writeBitSeq_pending (b : Nat) (vs : List Bit) : (s.writeBitSeq b vs).pending = s.pending := rfl
@[simp] theorem State.writeBitSeq_busRead (b : Nat) (vs : List Bit) : (s.writeBitSeq b vs).busRead = s.busRead := rfl
@[simp] theorem State.writeBitSeq_draws (b : Nat) (vs : List Bit) : (s.writeBitSeq b vs).draws = s.draws := rfl

@[simp] theorem State.writeAckMem_status (b : Nat) (vs : List Bit) : (s.writeAckMem b vs).status = s.status := rfl
@[simp] theorem State.writeAckMem_regs (b : Nat) (vs : List Bit) : (s.writeAckMem b vs).regs = s.regs := rfl
@[simp] theorem State.writeAckMem_ackMem (b : Nat) (vs : List Bit) : (s.writeAckMem b vs).ackMem = s.ackMem.writeRange b vs := rfl
@[simp] theorem State.writeAckMem_bitSeq (b : Nat) (vs : List Bit) : (s.writeAckMem b vs).bitSeq = s.bitSeq := rfl
@[simp] theorem State.writeAckMem_llrMem (b : Nat) (vs : List Bit) : (s.writeAckMem b vs).llrMem = s.llrMem := rfl
@[simp] theorem State.writeAckMem_outMem (b : Nat) (vs : List Bit) : (s.writeAckMem b vs).outMem = s.outMem := rfl
@[simp] theorem State.writeAckMem_cBuf (b : Nat) (vs : List Bit) : (s.writeAckMem b vs).cBuf = s.cBuf := rfl
@[simp] theorem State.writeAckMem_alloc (b : Nat) (vs : List Bit) : (s.writeAckMem b vs).alloc = s.alloc := rfl
@[simp] theorem State.writeAckMem_dBuf (b : Nat) (vs : List Bit) : (s.writeAckMem b vs).dBuf = s.dBuf := rfl
@[simp] theorem State.writeAckMem_params (b : Nat) (vs : List Bit) : (s.writeAckMem b vs).params = s.params := rfl
@[simp] theorem State.writeAckMem_ports (b : Nat) (vs : List Bit) : (s.writeAckMem b vs).ports = s.ports := rfl
@[simp] theorem State.writeAckMem_pending (b : Nat) (vs : List Bit) : (s.writeAckMem b vs).pending = s.pending := rfl
@[simp] theorem State.writeAckMem_busRead (b : Nat) (vs : List Bit) : (s.writeAckMem b vs).busRead = s.busRead := rfl
@[simp] theorem State.writeAckMem_draws (b : Nat) (vs : List Bit) : (s.writeAckMem b vs).draws = s.draws := rfl

@[simp] theorem State.writeOutMem_status (b : Nat) (vs : List Byte) : (s.writeOutMem b vs).status = s.status := rfl
@[simp] theorem State.writeOutMem_regs (b : Nat) (vs : List Byte) : (s.writeOutMem b vs).regs = s.regs := rfl
@[simp] theorem State.writeOutMem_ackMem (b : Nat) (vs : List Byte) : (s.writeOutMem b vs).ackMem = s.ackMem := rfl
@[simp] theorem State.writeOutMem_bitSeq (b : Nat) (vs : List Byte) : (s.writeOutMem b vs).bitSeq = s.bitSeq := rfl
@[simp] theorem State.writeOutMem_llrMem (b : Nat) (vs : List Byte) : (s.writeOutMem b vs).llrMem = s.llrMem := rfl
@[simp] theorem State.writeOutMem_outMem (b : Nat) (vs : List Byte) : (s.writeOutMem b vs).outMem = s.outMem.writeRange b vs := rfl
@[simp] theorem State.writeOutMem_cBuf (b : Nat) (vs : List Byte) : (s.writeOutMem b vs).cBuf = s.cBuf := rfl
@[simp] theorem State.writeOutMem_alloc (b : Nat) (vs : List Byte) : (s.writeOutMem b vs).alloc = s.alloc := rfl
@[simp] theorem State.writeOutMem_dBuf (b : Nat) (vs : List Byte) : (s.writeOutMem b vs).dBuf = s.dBuf := rfl
@[simp] theorem State.writeOutMem_params (b : Nat) (vs : List Byte) : (s.writeOutMem b vs).params = s.params := rfl
@[simp] theorem State.writeOutMem_ports (b : Nat) (vs : List Byte) : (s.writeOutMem b vs).ports = s.ports := rfl
@[simp] theorem State.writeOutMem_pending (b : Nat) (vs : List Byte) : (s.writeOutMem b vs).pending = s.pending := rfl
@[simp] theorem State.writeOutMem_busRead (b : Nat) (vs : List Byte) : (s.writeOutMem b vs).busRead = s.busRead := rfl
@[simp] theorem State.writeOutMem_draws (b : Nat) (vs : List Byte) : (s.writeOutMem b vs).draws = s.draws := rfl

@[simp] theorem State.deliverCsi_status (bits : List Bit) : (s.deliverCsi bits).status = s.status := rfl
@[simp] theorem State.deliverCsi_regs (bits : List Bit) : (s.deliverCsi bits).regs = s.regs := rfl
@[simp] theorem State.deliverCsi_ackMem (bits : List Bit) : (s.deliverCsi bits).ackMem = s.ackMem := rfl
@[simp] theorem State.deliverCsi_bitSeq (bits : List Bit) : (s.deliverCsi bits).bitSeq = s.bitSeq := rfl
@[simp] theorem State.deliverCsi_llrMem (bits : List Bit) : (s.deliverCsi bits).llrMem = s.llrMem := rfl
@[simp] theorem State.deliverCsi_outMem (bits : List Bit) : (s.deliverCsi bits).outMem = s.outMem := rfl
@[simp] theorem State.deliverCsi_cBuf (bits : List Bit) : (s.deliverCsi bits).cBuf = s.cBuf := rfl
@[simp] theorem State.deliverCsi_alloc (bits : List Bit) : (s.deliverCsi bits).alloc = s.alloc := rfl
@[simp] theorem State.deliverCsi_dBuf (bits : List Bit) : (s.deliverCsi bits).dBuf = s.dBuf := rfl
@[simp] theorem State.deliverCsi_params (bits : List Bit) : (s.deliverCsi bits).params = s.params := rfl
@[simp] theorem State.deliverCsi_ports (bits : List Bit) : (s.deliverCsi bits).ports = { s.ports with csi := { s.ports.csi with delivered := some bits } } := rfl
@[simp] theorem State.deliverCsi_pending (bits : List Bit) : (s.deliverCsi bits).pending = s.pending := rfl
@[simp] theorem State.deliverCsi_busRead (bits : List Bit) : (s.deliverCsi bits).busRead = s.busRead := rfl
@[simp] theorem State.deliverCsi_draws (bits : List Bit) : (s.deliverCsi bits).draws = s.draws := rfl

@[simp] theorem State.startCommand_status : (s.startCommand).status = { s.status with done := false, err := false, errCode := 0, phase := .idle } := rfl
@[simp] theorem State.startCommand_regs : (s.startCommand).regs = s.regs := rfl
@[simp] theorem State.startCommand_ackMem : (s.startCommand).ackMem = s.ackMem := rfl
@[simp] theorem State.startCommand_bitSeq : (s.startCommand).bitSeq = s.bitSeq := rfl
@[simp] theorem State.startCommand_llrMem : (s.startCommand).llrMem = s.llrMem := rfl
@[simp] theorem State.startCommand_outMem : (s.startCommand).outMem = s.outMem := rfl
@[simp] theorem State.startCommand_cBuf : (s.startCommand).cBuf = s.cBuf := rfl
@[simp] theorem State.startCommand_alloc : (s.startCommand).alloc = s.alloc := rfl
@[simp] theorem State.startCommand_dBuf : (s.startCommand).dBuf = s.dBuf := rfl
@[simp] theorem State.startCommand_params : (s.startCommand).params = s.params := rfl
@[simp] theorem State.startCommand_ports : (s.startCommand).ports = s.ports := rfl
@[simp] theorem State.startCommand_pending : (s.startCommand).pending = s.pending := rfl
@[simp] theorem State.startCommand_busRead : (s.startCommand).busRead = s.busRead := rfl
@[simp] theorem State.startCommand_draws : (s.startCommand).draws = s.draws := rfl

@[simp] theorem State.scratchAny_status : (s.scratchAny).status = s.status := rfl
@[simp] theorem State.scratchAny_regs : (s.scratchAny).regs = s.regs := rfl
@[simp] theorem State.scratchAny_ackMem : (s.scratchAny).ackMem = s.ackMem := rfl
@[simp] theorem State.scratchAny_bitSeq : (s.scratchAny).bitSeq = s.bitSeq := rfl
@[simp] theorem State.scratchAny_llrMem : (s.scratchAny).llrMem = s.llrMem := rfl
@[simp] theorem State.scratchAny_outMem : (s.scratchAny).outMem = s.outMem := rfl
@[simp] theorem State.scratchAny_cBuf : (s.scratchAny).cBuf = Memory.any Bit s.draws := rfl
@[simp] theorem State.scratchAny_alloc : (s.scratchAny).alloc = Memory.any Bit (s.draws + 1) := rfl
@[simp] theorem State.scratchAny_dBuf : (s.scratchAny).dBuf = Memory.any Byte (s.draws + 2) := rfl
@[simp] theorem State.scratchAny_params : (s.scratchAny).params = s.params := rfl
@[simp] theorem State.scratchAny_ports : (s.scratchAny).ports = s.ports := rfl
@[simp] theorem State.scratchAny_pending : (s.scratchAny).pending = s.pending := rfl
@[simp] theorem State.scratchAny_busRead : (s.scratchAny).busRead = s.busRead := rfl
@[simp] theorem State.scratchAny_draws : (s.scratchAny).draws = s.draws + 3 := rfl

@[simp] theorem State.setBusRead_status (v : Word) : (s.setBusRead v).status = s.status := rfl
@[simp] theorem State.setBusRead_regs (v : Word) : (s.setBusRead v).regs = s.regs := rfl
@[simp] theorem State.setBusRead_ackMem (v : Word) : (s.setBusRead v).ackMem = s.ackMem := rfl
@[simp] theorem State.setBusRead_bitSeq (v : Word) : (s.setBusRead v).bitSeq = s.bitSeq := rfl
@[simp] theorem State.setBusRead_llrMem (v : Word) : (s.setBusRead v).llrMem = s.llrMem := rfl
@[simp] theorem State.setBusRead_outMem (v : Word) : (s.setBusRead v).outMem = s.outMem := rfl
@[simp] theorem State.setBusRead_cBuf (v : Word) : (s.setBusRead v).cBuf = s.cBuf := rfl
@[simp] theorem State.setBusRead_alloc (v : Word) : (s.setBusRead v).alloc = s.alloc := rfl
@[simp] theorem State.setBusRead_dBuf (v : Word) : (s.setBusRead v).dBuf = s.dBuf := rfl
@[simp] theorem State.setBusRead_params (v : Word) : (s.setBusRead v).params = s.params := rfl
@[simp] theorem State.setBusRead_ports (v : Word) : (s.setBusRead v).ports = s.ports := rfl
@[simp] theorem State.setBusRead_pending (v : Word) : (s.setBusRead v).pending = s.pending := rfl
@[simp] theorem State.setBusRead_busRead (v : Word) : (s.setBusRead v).busRead = v := rfl
@[simp] theorem State.setBusRead_draws (v : Word) : (s.setBusRead v).draws = s.draws := rfl

@[simp] theorem State.illegalCommand_status : (s.illegalCommand).status = { s.status with done := true, err := true, phase := .error, errCode := 12 } := rfl
@[simp] theorem State.illegalCommand_regs : (s.illegalCommand).regs = s.regs := rfl
@[simp] theorem State.illegalCommand_ackMem : (s.illegalCommand).ackMem = s.ackMem := rfl
@[simp] theorem State.illegalCommand_bitSeq : (s.illegalCommand).bitSeq = s.bitSeq := rfl
@[simp] theorem State.illegalCommand_llrMem : (s.illegalCommand).llrMem = s.llrMem := rfl
@[simp] theorem State.illegalCommand_outMem : (s.illegalCommand).outMem = s.outMem := rfl
@[simp] theorem State.illegalCommand_cBuf : (s.illegalCommand).cBuf = s.cBuf := rfl
@[simp] theorem State.illegalCommand_alloc : (s.illegalCommand).alloc = s.alloc := rfl
@[simp] theorem State.illegalCommand_dBuf : (s.illegalCommand).dBuf = s.dBuf := rfl
@[simp] theorem State.illegalCommand_params : (s.illegalCommand).params = s.params := rfl
@[simp] theorem State.illegalCommand_ports : (s.illegalCommand).ports = s.ports := rfl
@[simp] theorem State.illegalCommand_pending : (s.illegalCommand).pending = s.pending := rfl
@[simp] theorem State.illegalCommand_busRead : (s.illegalCommand).busRead = s.busRead := rfl
@[simp] theorem State.illegalCommand_draws : (s.illegalCommand).draws = s.draws := rfl

@[simp] theorem State.finishCommand_status_encoding :
    (s.finishCommand .encoding).status = { s.status with done := true, phase := .emitted } := rfl
@[simp] theorem State.finishCommand_status_decoding :
    (s.finishCommand .decoding).status = { s.status with done := true, phase := .idle } := rfl
@[simp] theorem State.finishCommand_status_service :
    (s.finishCommand .service).status = { s.status with done := true, phase := .idle } := rfl
@[simp] theorem State.finishCommand_regs (c : CommandClass) : (s.finishCommand c).regs = s.regs := rfl
@[simp] theorem State.finishCommand_ackMem (c : CommandClass) : (s.finishCommand c).ackMem = s.ackMem := rfl
@[simp] theorem State.finishCommand_bitSeq (c : CommandClass) : (s.finishCommand c).bitSeq = s.bitSeq := rfl
@[simp] theorem State.finishCommand_llrMem (c : CommandClass) : (s.finishCommand c).llrMem = s.llrMem := rfl
@[simp] theorem State.finishCommand_outMem (c : CommandClass) : (s.finishCommand c).outMem = s.outMem := rfl
@[simp] theorem State.finishCommand_cBuf (c : CommandClass) : (s.finishCommand c).cBuf = Memory.any Bit s.draws := rfl
@[simp] theorem State.finishCommand_alloc (c : CommandClass) : (s.finishCommand c).alloc = Memory.any Bit (s.draws + 1) := rfl
@[simp] theorem State.finishCommand_dBuf (c : CommandClass) : (s.finishCommand c).dBuf = Memory.any Byte (s.draws + 2) := rfl
@[simp] theorem State.finishCommand_params (c : CommandClass) : (s.finishCommand c).params = s.params := rfl
@[simp] theorem State.finishCommand_ports (c : CommandClass) : (s.finishCommand c).ports = s.ports := rfl
@[simp] theorem State.finishCommand_pending (c : CommandClass) : (s.finishCommand c).pending = s.pending := rfl
@[simp] theorem State.finishCommand_busRead (c : CommandClass) : (s.finishCommand c).busRead = s.busRead := rfl
@[simp] theorem State.finishCommand_draws (c : CommandClass) : (s.finishCommand c).draws = s.draws + 3 := rfl

@[simp] theorem State.raiseError_status (i : Instr) (k : ErrorKind) :
    (s.raiseError i k).status =
      { done := true, err := true, valid := if commandClass i = .decoding then false else s.status.valid,
        phase := .error, errCode := k.code } := rfl
@[simp] theorem State.raiseError_regs (i : Instr) (k : ErrorKind) :
    (s.raiseError i k).regs =
      { s.regs with
        resE := Config.anyWord s.draws
        resA := Config.anyWord (s.draws + 1)
        sr := if writesSr i then Config.anyWord (s.draws + 2) else s.regs.sr } := rfl
@[simp] theorem State.raiseError_ackMem (i : Instr) (k : ErrorKind) :
    (s.raiseError i k).ackMem = if writesAckMem i then Memory.any Bit (s.draws + 8) else s.ackMem := rfl
@[simp] theorem State.raiseError_bitSeq (i : Instr) (k : ErrorKind) :
    (s.raiseError i k).bitSeq = Memory.any Bit (s.draws + 3) := rfl
@[simp] theorem State.raiseError_llrMem (i : Instr) (k : ErrorKind) :
    (s.raiseError i k).llrMem = s.llrMem := rfl
@[simp] theorem State.raiseError_outMem (i : Instr) (k : ErrorKind) :
    (s.raiseError i k).outMem = if commandClass i = .encoding then Memory.any Byte (s.draws + 7) else s.outMem := rfl
@[simp] theorem State.raiseError_cBuf (i : Instr) (k : ErrorKind) :
    (s.raiseError i k).cBuf = Memory.any Bit (s.draws + 4) := rfl
@[simp] theorem State.raiseError_alloc (i : Instr) (k : ErrorKind) :
    (s.raiseError i k).alloc = Memory.any Bit (s.draws + 5) := rfl
@[simp] theorem State.raiseError_dBuf (i : Instr) (k : ErrorKind) :
    (s.raiseError i k).dBuf = Memory.any Byte (s.draws + 6) := rfl
@[simp] theorem State.raiseError_params (i : Instr) (k : ErrorKind) :
    (s.raiseError i k).params = s.params := rfl
@[simp] theorem State.raiseError_ports (i : Instr) (k : ErrorKind) :
    (s.raiseError i k).ports = s.ports := rfl
@[simp] theorem State.raiseError_pending (i : Instr) (k : ErrorKind) :
    (s.raiseError i k).pending = s.pending := rfl
@[simp] theorem State.raiseError_busRead (i : Instr) (k : ErrorKind) :
    (s.raiseError i k).busRead = s.busRead := rfl
@[simp] theorem State.raiseError_draws (i : Instr) (k : ErrorKind) :
    (s.raiseError i k).draws = s.draws + 9 := rfl

end Sys2Proof.Machine
end

