-- ==== Sys2Proof/Laws/Bodies.lean ====
section
/-! SUPPORT. What each shared procedure of the commands does, said once: an equation for its run from any state. A
proof about a command rewrites with these and never unfolds a procedure. -/

namespace Sys2Proof.Machine

/-! ## Writes -/

@[simp] theorem putResE_run (n : Nat) (s : State) :
    putResE n s = .ok ⟨⟩ (s.setResE (BitVec.ofNat 32 n)) := rfl

@[simp] theorem putResA_run (n : Nat) (s : State) :
    putResA n s = .ok ⟨⟩ (s.setResA (BitVec.ofNat 32 n)) := rfl

@[simp] theorem putPhase_run (p : Phase) (s : State) : putPhase p s = .ok ⟨⟩ (s.setPhase p) := rfl

@[simp] theorem putValid_run (v : Bool) (s : State) : putValid v s = .ok ⟨⟩ (s.setValid v) := rfl

@[simp] theorem putResE_bind_run {α : Type} (n : Nat) (f : Unit → Cmd α) (s : State) :
    (putResE n >>= f) s = f ⟨⟩ (s.setResE (BitVec.ofNat 32 n)) := Cmd.bind_of_ok rfl f

@[simp] theorem putResA_bind_run {α : Type} (n : Nat) (f : Unit → Cmd α) (s : State) :
    (putResA n >>= f) s = f ⟨⟩ (s.setResA (BitVec.ofNat 32 n)) := Cmd.bind_of_ok rfl f

@[simp] theorem putPhase_bind_run {α : Type} (p : Phase) (f : Unit → Cmd α) (s : State) :
    (putPhase p >>= f) s = f ⟨⟩ (s.setPhase p) := Cmd.bind_of_ok rfl f

@[simp] theorem putValid_bind_run {α : Type} (v : Bool) (f : Unit → Cmd α) (s : State) :
    (putValid v >>= f) s = f ⟨⟩ (s.setValid v) := Cmd.bind_of_ok rfl f

/-- The end of a façade that found nothing to code (46_transport.md R306). -/
theorem nothingToCode_run (p : Phase) (s : State) :
    nothingToCode p s = .ok ⟨⟩ (((s.setResA 0).setResE 0).setPhase p) := rfl

/-! ## Sizing -/

/-- `sizePucch` (40_sizing.md R104, R101). -/
theorem sizePucch_run (s : State) :
    sizePucch s = match resourceE s.regs with
      | .ok e => if countMax < e then .error .invalidInput s else .ok e s
      | .error k => .error k s := by
  simp only [sizePucch, Cmd.get_bind_run, Cmd.ofExcept_bind_run, Cmd.raiseIf_bind_run, Cmd.pure_run]
  cases resourceE s.regs <;> rfl

/-- `sizePuschAck` (40_sizing.md R108, R111, R101). -/
theorem sizePuschAck_run (o : Nat) (s : State) :
    sizePuschAck o s = match puschChecks false s.regs with
      | .ok _ => if countMax < eAck s.regs o then .error .invalidInput s else .ok (eAck s.regs o) s
      | .error k => .error k s := by
  simp only [sizePuschAck, Cmd.get_bind_run, Cmd.ofExcept_bind_run, Cmd.raiseIf_bind_run, Cmd.pure_run]
  cases puschChecks false s.regs <;> rfl

/-- `sizePuschCsi1` (40_sizing.md R108, R115, R101). -/
theorem sizePuschCsi1_run (s : State) :
    sizePuschCsi1 s = match puschChecks true s.regs with
      | .ok _ => match eCsi1 s.regs s.ports.csi.nofBits with
        | .ok e => if countMax < e then .error .invalidInput s else .ok e s
        | .error k => .error k s
      | .error k => .error k s := by
  simp only [sizePuschCsi1, Cmd.get_bind_run, Cmd.ofExcept_bind_run, Cmd.raiseIf_bind_run, Cmd.pure_run]
  cases puschChecks true s.regs with
  | error k => rfl
  | ok u => cases eCsi1 s.regs s.ports.csi.nofBits <;> rfl

/-- A sizing procedure changes nothing. -/
theorem sizePucch_state {s t : State} {e : Nat} (h : sizePucch s = .ok e t) :
    t = s ∧ resourceE s.regs = .ok e ∧ e ≤ countMax := by
  rw [sizePucch_run] at h
  split at h
  · split at h
    · cases h
    · cases h
      exact ⟨rfl, by assumption, by omega⟩
  · cases h

theorem sizePuschAck_state {s t : State} {o e : Nat} (h : sizePuschAck o s = .ok e t) :
    t = s ∧ puschChecks false s.regs = .ok () ∧ e = eAck s.regs o ∧ e ≤ countMax := by
  rw [sizePuschAck_run] at h
  split at h
  · split at h
    · cases h
    · cases h
      exact ⟨rfl, by assumption, rfl, by omega⟩
  · cases h

theorem sizePuschCsi1_state {s t : State} {e : Nat} (h : sizePuschCsi1 s = .ok e t) :
    t = s ∧ puschChecks true s.regs = .ok () ∧ eCsi1 s.regs s.ports.csi.nofBits = .ok e ∧ e ≤ countMax := by
  rw [sizePuschCsi1_run] at h
  split at h
  · split at h
    · split at h
      · cases h
      · cases h
        exact ⟨rfl, by assumption, by assumption, by omega⟩
    · cases h
  · cases h

theorem sizePucch_error {s t : State} {k : ErrorKind} (h : sizePucch s = .error k t) : t = s := by
  rw [sizePucch_run] at h
  repeat' split at h
  all_goals cases h
  all_goals rfl

theorem sizePuschAck_error {s t : State} {o : Nat} {k : ErrorKind} (h : sizePuschAck o s = .error k t) : t = s := by
  rw [sizePuschAck_run] at h
  repeat' split at h
  all_goals cases h
  all_goals rfl

theorem sizePuschCsi1_error {s t : State} {k : ErrorKind} (h : sizePuschCsi1 s = .error k t) : t = s := by
  rw [sizePuschCsi1_run] at h
  repeat' split at h
  all_goals cases h
  all_goals rfl

/-! ## Payload -/

/-- `packCsi` (10_state.md R47, 41_payload.md R133). -/
theorem packCsi_run (max : Nat) (s : State) :
    packCsi max s = match csiPack s.ports.csi max with
      | none => .error .csiPackFailed s
      | some bits => .ok bits s := by
  simp only [packCsi, Cmd.get_bind_run]
  cases csiPack s.ports.csi max <;> rfl

/-- The port returns at most `max` bits (10_state.md R47). -/
theorem csiPack_length {p : CsiPort} {max : Nat} {bits : List Bit} (h : csiPack p max = some bits) :
    bits.length ≤ max := by
  unfold csiPack at h
  split at h
  · cases h
  · split at h
    · cases h
      assumption
    · cases h

/-- `unpackCsi` (10_state.md R47, 41_payload.md R136). -/
theorem unpackCsi_run (bits : List Bit) (s : State) :
    unpackCsi bits s =
      if s.ports.csi.unpackOk = false then .error .csiUnpackFailed s else .ok ⟨⟩ (s.deliverCsi bits) := by
  simp only [unpackCsi, Cmd.get_bind_run, Cmd.raiseIf_bind_run, Cmd.modify_run]

/-- `payloadRangeChecks` (41_payload.md R132). -/
theorem payloadRangeChecks_run (s : State) :
    payloadRangeChecks s =
      if aMax < s.regs.oAck.toNat then .error .invalidInput s
      else if 32 < s.regs.oSr.toNat then .error .invalidInput s
      else .ok ⟨⟩ s := by
  simp only [payloadRangeChecks, Cmd.get_bind_run, Cmd.raiseIf_bind_run, Cmd.raiseIf_run]

theorem payloadRangeChecks_bind_run {α : Type} (f : Unit → Cmd α) (s : State) :
    (payloadRangeChecks >>= f) s =
      if aMax < s.regs.oAck.toNat then .error .invalidInput s
      else if 32 < s.regs.oSr.toNat then .error .invalidInput s
      else f ⟨⟩ s := by
  rw [Cmd.bind_run, payloadRangeChecks_run]
  by_cases h1 : aMax < s.regs.oAck.toNat
  · simp only [if_pos h1]
  · by_cases h2 : 32 < s.regs.oSr.toNat
    · simp only [if_neg h1, if_pos h2]
    · simp only [if_neg h1, if_neg h2]

/-- What `packPayload` stores and returns once its checks have passed (41_payload.md R133). -/
theorem packPayload_run (s : State) :
    packPayload s =
      if aMax < s.regs.oAck.toNat then .error .invalidInput s
      else if 32 < s.regs.oSr.toNat then .error .invalidInput s
      else if 2 ^ s.regs.oSr.toNat ≤ s.regs.sr.toNat then .error .invalidInput s
      else if aMax < s.regs.oAck.toNat + s.regs.oSr.toNat then .error .invalidInput s
      else match s.mode with
        | .ackSr => .ok (s.regs.oAck.toNat + s.regs.oSr.toNat) (s.writeBitSeq 0 (ackSrBits s))
        | .csiOnly => match csiPack s.ports.csi aMax with
          | none => .error .csiPackFailed s
          | some bits => .ok bits.length (s.writeBitSeq 0 bits)
        | .combined => match csiPack s.ports.csi (aMax - s.regs.oAck.toNat - s.regs.oSr.toNat) with
          | none => .error .csiPackFailed (s.writeBitSeq 0 (ackSrBits s))
          | some bits =>
            .ok (s.regs.oAck.toNat + s.regs.oSr.toNat + bits.length)
              ((s.writeBitSeq 0 (ackSrBits s)).writeBitSeq (s.regs.oAck.toNat + s.regs.oSr.toNat) bits) := by
  simp only [packPayload, payloadRangeChecks_bind_run, Cmd.get_bind_run, Cmd.raiseIf_bind_run]
  congr 4
  cases s.mode with
  | ackSr => rfl
  | csiOnly =>
    simp only [Cmd.bind_run, packCsi_run]
    cases csiPack s.ports.csi aMax <;> rfl
  | combined =>
    simp only [Cmd.modify_bind_run]
    simp only [Cmd.bind_run, packCsi_run, State.writeBitSeq_ports]
    cases csiPack s.ports.csi (aMax - s.regs.oAck.toNat - s.regs.oSr.toNat) <;> rfl

/-- What `unpackPayload` stores once its checks have passed (41_payload.md R136). -/
theorem unpackPayload_run (s : State) :
    unpackPayload s =
      if aMax < s.regs.oAck.toNat then .error .invalidInput s
      else if 32 < s.regs.oSr.toNat then .error .invalidInput s
      else if aMax < s.regs.oAck.toNat + s.regs.oSr.toNat + s.ports.csi.nofBits then .error .invalidInput s
      else match s.mode with
        | .ackSr => .ok ⟨⟩ (unpackAckSr s)
        | .csiOnly => .error .unsupported s
        | .combined =>
          if s.ports.csi.unpackOk = false then .error .csiUnpackFailed (unpackAckSr s)
          else .ok ⟨⟩ ((unpackAckSr s).deliverCsi
            (readBits s.bitSeq (s.regs.oAck.toNat + s.regs.oSr.toNat) s.ports.csi.nofBits)) := by
  simp only [unpackPayload, payloadRangeChecks_bind_run, Cmd.get_bind_run, Cmd.raiseIf_bind_run]
  congr 3
  cases s.mode with
  | ackSr => rfl
  | csiOnly => rfl
  | combined =>
    simp only [Cmd.modify_bind_run, unpackCsi_run]
    rfl

/-- `computePayloadSize` (41_payload.md R140). -/
theorem computePayloadSize_run (s : State) :
    computePayloadSize s =
      if aMax < s.regs.oAck.toNat then .error .invalidInput s
      else if 32 < s.regs.oSr.toNat then .error .invalidInput s
      else match s.mode with
        | .ackSr =>
          if aMax < s.regs.oAck.toNat + s.regs.oSr.toNat then .error .invalidInput s
          else .ok (s.regs.oAck.toNat + s.regs.oSr.toNat) s
        | .csiOnly =>
          if aMax < s.ports.csi.nofBits then .error .invalidInput s else .ok s.ports.csi.nofBits s
        | .combined => .error .unsupported s := by
  simp only [computePayloadSize, payloadRangeChecks_bind_run, Cmd.get_bind_run]
  congr 2
  cases s.mode with
  | ackSr => simp only [Cmd.raiseIf_bind_run, Cmd.pure_run]
  | csiOnly => simp only [Cmd.raiseIf_bind_run, Cmd.pure_run]
  | combined => rfl

/-! ## Coders -/

/-- The three writes every encoder body ends in: `OUT_MEM[0..|out|)`, `RES_E`, phase `Emitted`. -/
def encoded (s : State) (out : List Byte) (e : Nat) : State :=
  ((s.writeOutMem 0 out).setResE (BitVec.ofNat 32 e)).setPhase .emitted

theorem smallBlockChecks_bind_run {α : Type} (e : Nat) (f : Unit → Cmd α) (s : State) :
    (smallBlockChecks e >>= f) s =
      if e < 1 then .error .invalidInput s
      else if s.params.eMax < e then .error .invalidInput s
      else if s.regs.qm = 0 then .error .invalidModulation s
      else f ⟨⟩ s := by
  rw [Cmd.bind_run]
  simp only [smallBlockChecks, Cmd.get_bind_run, Cmd.raiseIf_bind_run, Cmd.raiseIf_run]
  by_cases h1 : e < 1
  · simp only [if_pos h1]
  · by_cases h2 : s.params.eMax < e
    · simp only [if_neg h1, if_pos h2]
    · by_cases h3 : s.regs.qm = 0
      · simp only [if_neg h1, if_neg h2, if_pos h3]
      · simp only [if_neg h1, if_neg h2, if_neg h3]

/-- The 1-bit encoder (42_small_block.md R151, R152). -/
theorem encodeOneBit_run (e : Nat) (s : State) :
    encodeOneBit e s =
      if e < 1 then .error .invalidInput s
      else if s.params.eMax < e then .error .invalidInput s
      else if s.regs.qm = 0 then .error .invalidModulation s
      else .ok ⟨⟩ (encoded s ((List.range e).map (oneBitByte s.regs.qm (readBit s.bitSeq 0))) e) := by
  simp only [encodeOneBit, smallBlockChecks_bind_run, Cmd.get_bind_run, Cmd.modify_bind_run, putResE_bind_run,
    putPhase_run, encoded]

/-- The 1-bit decoder (42_small_block.md R151, R154 to R156). -/
theorem decodeOneBit_run (e : Nat) (s : State) :
    decodeOneBit e s =
      if e < 1 then .error .invalidInput s
      else if s.params.eMax < e then .error .invalidInput s
      else if s.regs.qm = 0 then .error .invalidModulation s
      else
        .ok
          (oneBitValid s.params.oneBitPwrMode (val s.regs.oneBitThr) s.regs.qm e
            (sumOf (oneBitSamples s.regs.qm (readLlrs s.llrMem 0 e)))
            (sumSq (oneBitSamples s.regs.qm (readLlrs s.llrMem 0 e)))
            (oneBitSamples s.regs.qm (readLlrs s.llrMem 0 e)).length)
          (s.writeBitSeq 0 [hardBit (sumOf (oneBitSamples s.regs.qm (readLlrs s.llrMem 0 e)))]) := by
  simp only [decodeOneBit, smallBlockChecks_bind_run, Cmd.get_bind_run, Cmd.modify_bind_run, Cmd.pure_run]

/-- The 2-bit encoder (42_small_block.md R151, R161). -/
theorem encodeTwoBit_run (e : Nat) (s : State) :
    encodeTwoBit e s =
      if e < 1 then .error .invalidInput s
      else if s.params.eMax < e then .error .invalidInput s
      else if s.regs.qm = 0 then .error .invalidModulation s
      else
        .ok ⟨⟩
          (encoded s
            ((List.range e).map fun k =>
              (twoBitPattern s.regs.qm (readBit s.bitSeq 0) (readBit s.bitSeq 1)).getD
                (k % (twoBitPattern s.regs.qm (readBit s.bitSeq 0) (readBit s.bitSeq 1)).length) 0) e) := by
  simp only [encodeTwoBit, smallBlockChecks_bind_run, Cmd.get_bind_run, Cmd.modify_bind_run, putResE_bind_run,
    putPhase_run, encoded]

/-- The 2-bit decoder (42_small_block.md R151, R162, R163, R165). -/
theorem decodeTwoBit_run (e : Nat) (s : State) :
    decodeTwoBit e s =
      if e < 1 then .error .invalidInput s
      else if s.params.eMax < e then .error .invalidInput s
      else if s.regs.qm = 0 then .error .invalidModulation s
      else
        let cells := twoBitCells (twoBitSamples s.regs.qm (readLlrs s.llrMem 0 e))
        .ok (twoBitValid (hardBit cells.1) (hardBit cells.2.1) (hardBit cells.2.2))
          (s.writeBitSeq 0 [hardBit cells.1, hardBit cells.2.1]) := by
  simp only [decodeTwoBit, smallBlockChecks_bind_run, Cmd.get_bind_run, Cmd.modify_bind_run, Cmd.pure_run]

theorem rmChecks_bind_run {α : Type} (a e : Nat) (f : Unit → Cmd α) (s : State) :
    (rmChecks a e >>= f) s =
      if a < 3 ∨ 11 < a then .error .invalidInput s
      else if e < 1 then .error .invalidInput s
      else if s.params.eMax < e then .error .invalidInput s
      else f ⟨⟩ s := by
  rw [Cmd.bind_run]
  simp only [rmChecks, Cmd.get_bind_run, Cmd.raiseIf_bind_run, Cmd.raiseIf_run]
  by_cases h1 : a < 3 ∨ 11 < a
  · simp only [if_pos h1]
  · by_cases h2 : e < 1
    · simp only [if_neg h1, if_pos h2]
    · by_cases h3 : s.params.eMax < e
      · simp only [if_neg h1, if_neg h2, if_pos h3]
      · simp only [if_neg h1, if_neg h2, if_neg h3]

/-- The block encoder (43_reed_muller.md R184, R185). -/
theorem encodeRm_run (a e : Nat) (s : State) :
    encodeRm a e s =
      if a < 3 ∨ 11 < a then .error .invalidInput s
      else if e < 1 then .error .invalidInput s
      else if s.params.eMax < e then .error .invalidInput s
      else
        .ok ⟨⟩
          (encoded s
            ((List.range e).map fun k =>
              bitByte ((rmCodeword s.params.rmBasis a (readBits s.bitSeq 0 a)).getD (k % 32) false)) e) := by
  simp only [encodeRm, rmChecks_bind_run, Cmd.get_bind_run, Cmd.modify_bind_run, putResE_bind_run, putPhase_run,
    encoded]

/-- The block decoder (43_reed_muller.md R184, R187 to R191). -/
theorem decodeRm_run (a e : Nat) (s : State) :
    decodeRm a e s =
      if a < 3 ∨ 11 < a then .error .invalidInput s
      else if e < 1 then .error .invalidInput s
      else if s.params.eMax < e then .error .invalidInput s
      else if a = 11 ∧ e ≤ 16 then .error .underRateMatched s
      else if sumSq (readLlrs s.llrMem 0 e) = 0 then .error .allZeros s
      else
        let best := rmSearch s.params.rmBasis a (rmFold (readLlrs s.llrMem 0 e))
        .ok (blockValid (val s.regs.blockThr) e best.2 (sumSq (readLlrs s.llrMem 0 e)))
          (s.writeBitSeq 0 (rmCandidate a best.1)) := by
  simp only [decodeRm, rmChecks_bind_run, Cmd.raiseIf_bind_run, Cmd.get_bind_run, Cmd.modify_bind_run, Cmd.pure_run]

theorem polarChecks_bind_run {α : Type} (a e : Nat) (f : Unit → Cmd α) (s : State) :
    (polarChecks a e >>= f) s =
      if a < 12 ∨ 1705 < a then .error .invalidInput s
      else if e < 1 then .error .invalidInput s
      else if s.params.eMax < e then .error .invalidInput s
      else f ⟨⟩ s := by
  rw [Cmd.bind_run]
  simp only [polarChecks, Cmd.get_bind_run, Cmd.raiseIf_bind_run, Cmd.raiseIf_run]
  by_cases h1 : a < 12 ∨ 1705 < a
  · simp only [if_pos h1]
  · by_cases h2 : e < 1
    · simp only [if_neg h1, if_pos h2]
    · by_cases h3 : s.params.eMax < e
      · simp only [if_neg h1, if_neg h2, if_pos h3]
      · simp only [if_neg h1, if_neg h2, if_neg h3]

/-- The lookup answers a code exactly when the port answers it and it meets the invariants
(45_polar_pipeline.md R264). -/
theorem polarLookup_eq_ok {p : Params} {port : PolarSelectPort} {k e : Nat} {code : PolarCode} :
    polarLookup p port k e = .ok code ↔
      polarSelect p port k e 10 = some code ∧ codeAccepted k 10 code = true := by
  unfold polarLookup
  rw [show polarNMax = 10 from rfl]
  cases polarSelect p port k e 10 with
  | none => simp
  | some c =>
    by_cases h : codeAccepted k 10 c = true
    · simp only [h, if_true, Except.ok.injEq, Option.some.injEq]
      constructor
      · rintro rfl
        exact ⟨rfl, h⟩
      · exact And.left
    · simp only [h, Option.some.injEq]
      constructor
      · intro hc
        cases hc
      · rintro ⟨rfl, h'⟩
        exact absurd h' h

theorem lookupCode_bind_run {α : Type} (g : SegParams) (f : PolarCode → Cmd α) (s : State) :
    (lookupCode g >>= f) s = match polarLookup s.params s.ports.polarSelect g.kR g.eR with
      | .ok code => f code s
      | .error k => .error k s := by
  rw [Cmd.bind_run]
  simp only [lookupCode, Cmd.get_bind_run, Cmd.ofExcept_run]
  cases polarLookup s.params s.ports.polarSelect g.kR g.eR <;> rfl

/-- The polar encoder (45_polar_pipeline.md R263, R264, R268). -/
theorem encodePolar_run (a e : Nat) (s : State) :
    encodePolar a e s =
      if a < 12 ∨ 1705 < a then .error .invalidInput s
      else if e < 1 then .error .invalidInput s
      else if s.params.eMax < e then .error .invalidInput s
      else match polarLookup s.params s.ports.polarSelect (segParams a e).kR (segParams a e).eR with
        | .ok code =>
          .ok ⟨⟩
            (encoded s
              ((polarOutput s.params code a (segParams a e) (readBits s.bitSeq 0 a)).map bitByte) e)
        | .error k => .error k s := by
  simp only [encodePolar, polarChecks_bind_run, lookupCode_bind_run, Cmd.get_bind_run, Cmd.modify_bind_run,
    putResE_bind_run, putPhase_run, encoded]

/-- One segment of the decode loop (45_polar_pipeline.md R274). -/
theorem decodeSegmentStep_run (code : PolarCode) (a : Nat) (g : SegParams) (r : Nat) (s : State) :
    decodeSegmentStep code a g r s =
      match decodeSegment s.params s.ports.polarDecode code r (readLlrs s.llrMem (g.eR * r) g.eR) with
      | .ok c =>
        .ok (crcOk (crcPoly s.params g.L) g.S g.L c)
          (s.writeBitSeq (segStart a g r) ((c.take g.S).drop (segPad a g r)))
      | .error k => .error k s := by
  simp only [decodeSegmentStep, Cmd.get_bind_run, Cmd.ofExcept_bind_run, Cmd.modify_bind_run, Cmd.pure_run]
  cases decodeSegment s.params s.ports.polarDecode code r (readLlrs s.llrMem (g.eR * r) g.eR) <;> rfl

/-- The decode loop, one segment at a time (45_polar_pipeline.md R272, R275). -/
theorem decodeSegments_succ_run (code : PolarCode) (a : Nat) (g : SegParams) (r count : Nat) (valid : Bool)
    (s : State) :
    decodeSegments code a g r (count + 1) valid s =
      match decodeSegment s.params s.ports.polarDecode code r (readLlrs s.llrMem (g.eR * r) g.eR) with
      | .ok c =>
        decodeSegments code a g (r + 1) count (valid && crcOk (crcPoly s.params g.L) g.S g.L c)
          (s.writeBitSeq (segStart a g r) ((c.take g.S).drop (segPad a g r)))
      | .error k => .error k s := by
  rw [decodeSegments, Cmd.bind_run, decodeSegmentStep_run]
  cases decodeSegment s.params s.ports.polarDecode code r (readLlrs s.llrMem (g.eR * r) g.eR) <;> rfl

@[simp] theorem decodeSegments_zero_run (code : PolarCode) (a : Nat) (g : SegParams) (r : Nat) (valid : Bool)
    (s : State) : decodeSegments code a g r 0 valid s = .ok valid s := rfl

/-- The polar decoder (45_polar_pipeline.md R263, R264, R275). -/
theorem decodePolar_run (a e : Nat) (s : State) :
    decodePolar a e s =
      if a < 12 ∨ 1705 < a then .error .invalidInput s
      else if e < 1 then .error .invalidInput s
      else if s.params.eMax < e then .error .invalidInput s
      else match polarLookup s.params s.ports.polarSelect (segParams a e).kR (segParams a e).eR with
        | .ok code => decodeSegments code a (segParams a e) 0 (segParams a e).C true s
        | .error k => .error k s := by
  simp only [decodePolar, polarChecks_bind_run, lookupCode_bind_run]

/-! ## What a coder body can change -/

/-- An encoder body, when it goes on, has done exactly the three writes of `encoded`, inside `OUT_MEM`; when it
raises, it has changed nothing. -/
theorem encodeCore_cases (a e : Nat) (s : State) :
    (∃ out, encodeCore a e s = .ok ⟨⟩ (encoded s out e) ∧ 1 ≤ e ∧ e ≤ s.params.eMax) ∨
      ∃ k, encodeCore a e s = .error k s := by
  unfold encodeCore
  split
  · rw [encodeOneBit_run]
    repeat' split
    all_goals first
      | exact .inr ⟨_, rfl⟩
      | exact .inl ⟨_, rfl, by omega, by omega⟩
  · split
    · rw [encodeTwoBit_run]
      repeat' split
      all_goals first
        | exact .inr ⟨_, rfl⟩
        | exact .inl ⟨_, rfl, by omega, by omega⟩
    · split
      · rw [encodeRm_run]
        repeat' split
        all_goals first
          | exact .inr ⟨_, rfl⟩
          | exact .inl ⟨_, rfl, by omega, by omega⟩
      · rw [encodePolar_run]
        repeat' split
        all_goals first
          | exact .inr ⟨_, rfl⟩
          | exact .inl ⟨_, rfl, by omega, by omega⟩

/-- The polar decode loop changes `BITSEQ` and nothing else, whether it goes on or raises. -/
theorem decodeSegments_only_bitSeq (code : PolarCode) (a : Nat) (g : SegParams) (r count : Nat) (valid : Bool)
    (s : State) :
    (∃ v m, decodeSegments code a g r count valid s = .ok v { s with bitSeq := m }) ∨
      ∃ k m, decodeSegments code a g r count valid s = .error k { s with bitSeq := m } := by
  induction count generalizing r valid s with
  | zero => exact .inl ⟨valid, s.bitSeq, rfl⟩
  | succ count ih =>
    rw [decodeSegments_succ_run]
    cases decodeSegment s.params s.ports.polarDecode code r (readLlrs s.llrMem (g.eR * r) g.eR) with
    | error k => exact .inr ⟨k, s.bitSeq, rfl⟩
    | ok c =>
      rcases ih (r + 1) (valid && crcOk (crcPoly s.params g.L) g.S g.L c)
        (s.writeBitSeq (segStart a g r) ((c.take g.S).drop (segPad a g r))) with ⟨v, m, h⟩ | ⟨k, m, h⟩
      · exact .inl ⟨v, m, h⟩
      · exact .inr ⟨k, m, h⟩

/-- A decoder body changes `BITSEQ` and nothing else, whether it goes on or raises. -/
theorem decodeCore_only_bitSeq (a e : Nat) (s : State) :
    (∃ v m, decodeCore a e s = .ok v { s with bitSeq := m }) ∨
      ∃ k m, decodeCore a e s = .error k { s with bitSeq := m } := by
  unfold decodeCore
  split
  · rw [decodeOneBit_run]
    repeat' split
    all_goals first
      | exact .inr ⟨_, s.bitSeq, rfl⟩
      | exact .inl ⟨_, _, rfl⟩
  · split
    · rw [decodeTwoBit_run]
      repeat' split
      all_goals first
        | exact .inr ⟨_, s.bitSeq, rfl⟩
        | exact .inl ⟨_, _, rfl⟩
    · split
      · rw [decodeRm_run]
        repeat' split
        all_goals first
          | exact .inr ⟨_, s.bitSeq, rfl⟩
          | exact .inl ⟨_, _, rfl⟩
      · rw [decodePolar_run]
        repeat' split
        all_goals first
          | exact .inr ⟨_, s.bitSeq, rfl⟩
          | exact decodeSegments_only_bitSeq _ _ _ _ _ _ _

end Sys2Proof.Machine
end

