-- ==== Sys2Proof/Laws/Ending.lean ====
section
/-! SUPPORT. From a body's run to the ends of a command: what is stored by consecutive writes, when a command
`Completes` and when it `Raises`, and the size dispatch as the functions `State.coded` and `State.decoded`. A proof
about a command's end cites these and never unfolds `finishCommand` or `raiseError`. -/

namespace Sys2Proof.Machine

/-! ## Stored and kept -/

@[simp] theorem BitsKept.refl (m : Memory Bit) : BitsKept m m := fun _ => rfl

@[simp] theorem BytesKept.refl (m : Memory Byte) : BytesKept m m := fun _ => rfl

@[simp] theorem bitsStored_nil {m m' : Memory Bit} : BitsStored m m' [] ↔ BitsKept m m' := by
  simp [BitsStored, BitsKept]

@[simp] theorem bytesStored_nil {m m' : Memory Byte} : BytesStored m m' [] ↔ BytesKept m m' := by
  simp [BytesStored, BytesKept]

theorem bytesStored_write (m : Memory Byte) (vs : List Byte) : BytesStored m (m.writeRange 0 vs) vs := by
  intro a
  rw [readByte, Memory.read_writeRange]
  by_cases h : a < vs.length <;> simp [h, readByte]

/-- A write right behind what is stored extends it. -/
theorem BitsStored.append {m m' : Memory Bit} {vs : List Bit} (h : BitsStored m m' vs) {base : Nat}
    (hb : base = vs.length) (ws : List Bit) : BitsStored m (m'.writeRange base ws) (vs ++ ws) := by
  subst hb
  intro a
  rw [readBit, Memory.read_writeRange]
  by_cases h1 : a < vs.length
  · rw [dif_neg (by omega)]
    simpa [List.getD_eq_getElem?_getD, List.getElem?_append_left h1, readBit] using h a
  · by_cases h2 : a < vs.length + ws.length
    · rw [dif_pos ⟨by omega, h2⟩]
      simp [List.getElem?_append_right (Nat.le_of_not_lt h1), show a - vs.length < ws.length by omega]
    · rw [dif_neg (by omega)]
      have : Machine.readBit m' a = _ := h a
      simp only [List.getD_eq_getElem?_getD, List.getElem?_eq_none (Nat.le_of_not_lt h1)] at this
      simpa [List.getD_eq_getElem?_getD, List.getElem?_append_right (Nat.le_of_not_lt h1),
        List.getElem?_eq_none (show ws.length ≤ a - vs.length by omega), readBit] using this

theorem bitsStored_write (m : Memory Bit) (vs : List Bit) : BitsStored m (m.writeRange 0 vs) vs := by
  simpa using (bitsStored_nil.mpr (BitsKept.refl m)).append rfl vs

/-- Reading back from a stored list. -/
theorem BitsStored.readBits {m m' : Memory Bit} {vs : List Bit} (h : BitsStored m m' vs) {base n : Nat}
    (hn : base + n ≤ vs.length) : readBits m' base n = (vs.drop base).take n := by
  apply List.ext_getElem
  · simp; omega
  · intro k h1 h2
    have hk : k < n := by simpa using h1
    simp [Machine.readBits, h (base + k), show base + k < vs.length by omega]

theorem BitsStored.readBits_all {m m' : Memory Bit} {vs : List Bit} (h : BitsStored m m' vs) {n : Nat}
    (hn : n = vs.length) : Machine.readBits m' 0 n = vs := by
  subst hn
  simpa using h.readBits (base := 0) (n := vs.length) (by omega)

/-! ## The ends of a command -/

/-- A body that goes on from the start of a command in `u` with nothing but the effect `x` done makes the command
complete with `x`. -/
theorem completes_of_body {i : Instr} {body : Cmd Unit} {s u : State} {x : Effect}
    (hexec : exec i s = runCommand i body s) (hbody : body s.startCommand = .ok () u)
    (hstatus : u.status = { done := false, err := false, valid := x.valid, phase := u.status.phase, errCode := 0 })
    (hregs : u.regs = x.regs) (hack : BitsStored s.ackMem u.ackMem x.ack)
    (hbits : BitsStored s.bitSeq u.bitSeq x.bits) (hout : BytesStored s.outMem u.outMem x.out)
    (hports : u.ports = portsAfterUnpack s.ports x.csi) (hllr : u.llrMem = s.llrMem)
    (hparams : u.params = s.params) (hpending : u.pending = s.pending) (hbus : u.busRead = s.busRead) :
    Completes i s x := by
  refine ⟨_, hexec.trans (runCommand_of_ok hbody), ?_⟩
  refine ⟨?_, hregs, hack, hbits, hout, hports, fun a => by simp [hllr], hparams, hpending, hbus⟩
  have hv : u.status.valid = x.valid := by rw [hstatus]
  have he : u.status.err = false := by rw [hstatus]
  have hc : u.status.errCode = 0 := by rw [hstatus]
  unfold State.finishCommand finalPhase
  cases commandClass i <;> simp [hv, he, hc]

/-- A body that raises `k` in `u`, having changed nothing that a failed command must keep, makes the command raise
`k`. -/
theorem raises_of_body {i : Instr} {body : Cmd Unit} {s u : State} {k : ErrorKind}
    (hexec : exec i s = runCommand i body s) (hbody : body s.startCommand = .error k u)
    (hvalid : commandClass i ≠ .decoding → u.status.valid = s.status.valid)
    (hregs : u.regs = { s.regs with resE := u.regs.resE, resA := u.regs.resA, sr := u.regs.sr })
    (hsr : writesSr i = false → u.regs.sr = s.regs.sr)
    (hack : writesAckMem i = false → BitsKept s.ackMem u.ackMem)
    (hout : commandClass i ≠ .encoding → BytesKept s.outMem u.outMem)
    (hports : u.ports = s.ports) (hllr : u.llrMem = s.llrMem) (hparams : u.params = s.params)
    (hpending : u.pending = s.pending) (hbus : u.busRead = s.busRead) (hdraws : u.draws = s.draws) :
    Raises i k s := by
  refine ⟨_, hexec.trans (runCommand_of_error hbody), ?_⟩
  have hd (n : Nat) (hn : n < 9) : s.draws ≤ u.draws + n ∧ u.draws + n < u.draws + 9 := ⟨by omega, by omega⟩
  constructor
  · simp only [State.raiseError]
    by_cases h : commandClass i = .decoding
    · simp [h]
    · simp [h, hvalid h]
  · simp only [State.raiseError]
    rw [hregs]
  · exact ⟨u.draws, (hd 0 (by omega)).1, (hd 0 (by omega)).2, rfl⟩
  · exact ⟨u.draws + 1, (hd 1 (by omega)).1, (hd 1 (by omega)).2, rfl⟩
  · by_cases h : writesSr i = true
    · simp only [h, if_true, State.raiseError]
      exact ⟨u.draws + 2, (hd 2 (by omega)).1, (hd 2 (by omega)).2, rfl⟩
    · simp [State.raiseError, h, hsr (by simpa using h)]
  · exact ⟨u.draws + 3, (hd 3 (by omega)).1, (hd 3 (by omega)).2, fun a => rfl⟩
  · exact ⟨u.draws + 4, (hd 4 (by omega)).1, (hd 4 (by omega)).2, fun a => rfl⟩
  · exact ⟨u.draws + 5, (hd 5 (by omega)).1, (hd 5 (by omega)).2, fun a => rfl⟩
  · exact ⟨u.draws + 6, (hd 6 (by omega)).1, (hd 6 (by omega)).2, fun a => rfl⟩
  · by_cases h : writesAckMem i = true
    · simp only [h, if_true, State.raiseError]
      exact ⟨u.draws + 8, (hd 8 (by omega)).1, (hd 8 (by omega)).2, fun _ => rfl⟩
    · simpa [State.raiseError, h] using hack (by simpa using h)
  · by_cases h : commandClass i = .encoding
    · simp only [h, if_true, State.raiseError]
      exact ⟨u.draws + 7, (hd 7 (by omega)).1, (hd 7 (by omega)).2, fun _ => rfl⟩
    · simpa [State.raiseError, h] using hout h
  · exact hports
  · exact ⟨fun a => by simp [State.raiseError, hllr], hparams, hpending, hbus⟩

/-! ## The size dispatch -/

/-- Payload bit `k` of the first `a`, read from `BITSEQ`. -/
theorem readBits_getD (m : Memory Bit) (a k : Nat) (h : k < a) : (readBits m 0 a).getD k false = readBit m k := by
  simp [readBits, h]

/-- The selection of R290, for an encoder. -/
theorem encodeCore_run (a e : Nat) (s : State) :
    encodeCore a e s =
      if a = 1 then encodeOneBit e s
      else if a = 2 then encodeTwoBit e s
      else if a ≤ 11 then encodeRm a e s
      else encodePolar a e s := by
  unfold encodeCore
  split_ifs <;> rfl

/-- The selection of R290, for a decoder. -/
theorem decodeCore_run (a e : Nat) (s : State) :
    decodeCore a e s =
      if a = 1 then decodeOneBit e s
      else if a = 2 then decodeTwoBit e s
      else if a ≤ 11 then decodeRm a e s
      else decodePolar a e s := by
  unfold decodeCore
  split_ifs <;> rfl

/-- The encoder the dispatch selects does what `State.coded` says (46_transport.md R290, R293). -/
theorem encodeDispatch_run (a e : Nat) (s : State) :
    encodeDispatch a e s =
      match s.coded a e (readBits s.bitSeq 0 a) with
      | .ok out => .ok ⟨⟩ (encoded (s.setPhase (familyPhase a)) out e)
      | .error k => .error k (if a = 0 ∨ 1706 ≤ a then s else s.setPhase (familyPhase a)) := by
  simp only [encodeDispatch, Cmd.raiseIf_bind_run, putPhase_bind_run, State.coded, codedBytes]
  by_cases h0 : a = 0 ∨ 1706 ≤ a
  · have h0' : a = 0 ∨ 1706 ≤ a ∨ e < 1 ∨ s.params.eMax < e := by omega
    simp only [if_pos h0, if_pos h0']
  · rw [if_neg h0]
    by_cases h1 : e < 1 ∨ s.params.eMax < e
    · have h1' : a = 0 ∨ 1706 ≤ a ∨ e < 1 ∨ s.params.eMax < e := by omega
      simp only [if_pos h1', if_neg h0]
      rw [encodeCore_run, encodeOneBit_run, encodeTwoBit_run, encodeRm_run, encodePolar_run]
      simp only [State.setPhase_params]
      by_cases he : e < 1
      · simp [he]
      · have hm : s.params.eMax < e := by omega
        simp [he, hm]
    · have h1' : ¬(a = 0 ∨ 1706 ≤ a ∨ e < 1 ∨ s.params.eMax < e) := by omega
      have he : ¬e < 1 := by omega
      have hm : ¬s.params.eMax < e := by omega
      rw [if_neg h1']
      rw [encodeCore_run, encodeOneBit_run, encodeTwoBit_run, encodeRm_run, encodePolar_run]
      simp only [State.setPhase_params, State.setPhase_regs, State.setPhase_bitSeq, State.setPhase_ports, he, hm,
        if_false]
      by_cases ha1 : a = 1
      · subst ha1
        by_cases hq : s.regs.qm = 0
        · simp [hq]
        · simp only [hq, and_false, if_false, if_true, readBits_getD _ 1 0 (by omega)]
      · by_cases ha2 : a = 2
        · subst ha2
          by_cases hq : s.regs.qm = 0
          · simp [hq]
          · simp only [hq, and_false, if_false, if_true, show (2 : Nat) ≠ 1 by decide, readBits_getD _ 2 0 (by omega),
              readBits_getD _ 2 1 (by omega)]
        · have hq : ¬(a ≤ 2 ∧ s.regs.qm = 0) := by omega
          simp only [if_neg ha1, if_neg ha2, if_neg hq]
          by_cases ha : a ≤ 11
          · rw [if_pos ha, if_pos ha, if_neg (by omega)]
            have hd (k : Nat) : (rmCodeword s.params.rmBasis a (readBits s.bitSeq 0 a)).getD (k % 32) false =
                rmBit s.params.rmBasis a (readBits s.bitSeq 0 a) (k % 32) := by
              simp [rmCodeword, List.getD_eq_getElem?_getD, Nat.mod_lt]
            simp only [hd]
          · rw [if_neg ha, if_neg ha, if_neg (by omega), if_neg h0]
            cases polarLookup s.params s.ports.polarSelect (segParams a e).kR (segParams a e).eR <;> rfl

/-- An accepted code has `K` positions for message bits (10_state.md R48, 44_polar_code.md R231). -/
theorem messagePositions_length {k n : Nat} {code : PolarCode} (h : codeAccepted k n code = true) :
    (messagePositions code).length = k := by
  simp only [codeAccepted, Bool.and_eq_true, decide_eq_true_eq, beq_iff_eq, strictlyRising_iff,
    List.all_eq_true, List.contains_iff_mem] at h
  obtain ⟨⟨⟨⟨⟨⟨⟨⟨⟨⟨⟨-, -⟩, -⟩, hK⟩, hkr⟩, hkl⟩, -⟩, hpr⟩, hpl⟩, hsub⟩, -⟩, -⟩ := h
  have hperm : (code.kSet.filter fun m => code.pcSet.contains m).Perm code.pcSet := by
    rw [List.perm_ext_iff_of_nodup ((hkr.imp Nat.ne_of_lt).filter _) (hpr.imp Nat.ne_of_lt)]
    intro m
    simp only [List.mem_filter, List.contains_iff_mem]
    exact ⟨And.right, fun hm => ⟨hsub m hm, hm⟩⟩
  have hlen := List.length_eq_length_filter_add (l := code.kSet) (fun m => code.pcSet.contains m)
  rw [hperm.length_eq] at hlen
  unfold messagePositions
  omega

theorem decodeSegment_length {p : Params} {port : PolarDecodePort} {code : PolarCode} {r k : Nat} {llrs : List Int}
    {c : List Bit} (hc : codeAccepted k 10 code = true) (h : decodeSegment p port code r llrs = .ok c) :
    c.length = k := by
  unfold decodeSegment at h
  split at h
  · cases h
  · cases h
    simp [chanallocRx, messagePositions_length hc]

theorem segParams_C (a e : Nat) : (segParams a e).C = 1 ∨ (segParams a e).C = 2 := by
  simp only [segParams]
  split_ifs <;> simp

theorem readLlrs_slice (m : Memory Byte) (e base n : Nat) (h : base + n ≤ e) :
    ((readLlrs m 0 e).drop base).take n = readLlrs m base n := by
  apply List.ext_getElem
  · simp; omega
  · intro k h1 h2
    simp [readLlrs]

/-- The polar decode loop does what `decodedSegments` says (45_polar_pipeline.md R272, R274). -/
theorem decodeSegments_run (code : PolarCode) (a e : Nat) (s : State)
    (hc : codeAccepted (segParams a e).kR 10 code = true) :
    match decodedSegments s.params s.ports.polarDecode code (segParams a e) (readLlrs s.llrMem 0 e) with
    | .ok segments =>
      (segmentBits a (segParams a e) segments).length = a ∧
        ∃ m, decodeSegments code a (segParams a e) 0 (segParams a e).C true s =
            .ok (segments.all fun c => crcOk (crcPoly s.params (segParams a e).L) (segParams a e).S (segParams a e).L c)
              { s with bitSeq := m } ∧
          BitsStored s.bitSeq m (segmentBits a (segParams a e) segments)
    | .error k =>
      ∃ m, decodeSegments code a (segParams a e) 0 (segParams a e).C true s = .error k { s with bitSeq := m } := by
  have hE : (segParams a e).eR * (segParams a e).C ≤ e := by
    rcases segParams_C a e with h | h <;> simp only [segParams] at h ⊢ <;> rw [h] <;> omega
  have hS : (segParams a e).S * (segParams a e).C = (segParams a e).padded ∧ a ≤ (segParams a e).padded ∧
      (segParams a e).padded < a + 2 ∧ (segParams a e).padded - a ≤ (segParams a e).S := by
    rcases segParams_C a e with h | h <;> simp only [segParams, ceilDiv] at h ⊢ <;> rw [h] <;> omega
  have hk : (segParams a e).kR = (segParams a e).S + (segParams a e).L := rfl
  have hC := segParams_C a e
  generalize segParams a e = g at *
  unfold decodedSegments
  have hsl (r : Nat) (hr : r < g.C) :
      ((readLlrs s.llrMem 0 e).drop (g.eR * r)).take g.eR = readLlrs s.llrMem (g.eR * r) g.eR := by
    refine readLlrs_slice _ _ _ _ ?_
    calc g.eR * r + g.eR = g.eR * (r + 1) := by ring
      _ ≤ g.eR * g.C := Nat.mul_le_mul_left _ hr
      _ ≤ e := hE
  have h0 := hsl 0 (by omega)
  have hp0 : segPad a g 0 = g.padded - a := rfl
  have hp1 : segPad a g 1 = 0 := rfl
  rcases hC with h | h
  · rw [h] at hS ⊢
    rw [decodeSegments_succ_run]
    simp only [List.range_one, List.mapM_cons, List.mapM_nil, h0]
    cases hd0 : decodeSegment s.params s.ports.polarDecode code 0 (readLlrs s.llrMem (g.eR * 0) g.eR) with
    | error k => exact ⟨s.bitSeq, rfl⟩
    | ok c =>
      have hl := decodeSegment_length hc hd0
      refine ⟨?_, _, by simp; rfl, ?_⟩
      · simp [segmentBits, hp0]; omega
      · simpa [segmentBits, segStart] using bitsStored_write s.bitSeq _
  · have h1 := hsl 1 (by omega)
    rw [h] at hS ⊢
    rw [decodeSegments_succ_run]
    simp only [show List.range 2 = [0, 1] from rfl, List.mapM_cons, List.mapM_nil, h0, h1]
    cases hd0 : decodeSegment s.params s.ports.polarDecode code 0 (readLlrs s.llrMem (g.eR * 0) g.eR) with
    | error k => exact ⟨s.bitSeq, rfl⟩
    | ok c =>
      have hl := decodeSegment_length hc hd0
      simp only [decodeSegments_succ_run, State.writeBitSeq_params, State.writeBitSeq_ports, State.writeBitSeq_llrMem,
        Nat.zero_add]
      cases hd1 : decodeSegment s.params s.ports.polarDecode code 1 (readLlrs s.llrMem (g.eR * 1) g.eR) with
      | error k => exact ⟨_, rfl⟩
      | ok d =>
        have hl' := decodeSegment_length hc hd1
        refine ⟨?_, (s.bitSeq.writeRange 0 ((c.take g.S).drop (segPad a g 0))).writeRange (segStart a g 1)
          ((d.take g.S).drop (segPad a g 1)), ?_, ?_⟩
        · simp [segmentBits, hp0, hp1]; omega
        · simp [State.writeBitSeq, segStart]
        · have hb := bitsStored_write s.bitSeq ((c.take g.S).drop (segPad a g 0))
          have := hb.append (base := segStart a g 1) (by simp [segStart, hp0]; omega) ((d.take g.S).drop (segPad a g 1))
          simpa [segmentBits, segStart] using this

/-- The decoder the dispatch selects does what `State.decoded` says, to `BITSEQ` and nothing else but the phase
(46_transport.md R290, R293). -/
theorem decodeDispatch_run (a e : Nat) (s : State) :
    match s.decoded a e with
    | .ok (bits, v) =>
      bits.length = a ∧
        ∃ m, decodeDispatch a e s = .ok v { s.setPhase (familyPhase a) with bitSeq := m } ∧ BitsStored s.bitSeq m bits
    | .error k => ∃ p m, decodeDispatch a e s = .error k { s.setPhase p with bitSeq := m } := by
  simp only [decodeDispatch, Cmd.raiseIf_bind_run, putPhase_bind_run, State.decoded, decodedBits, readLlrs_length]
  by_cases h0 : a = 0 ∨ 1706 ≤ a
  · have h0' : a = 0 ∨ 1706 ≤ a ∨ e < 1 ∨ s.params.eMax < e := by omega
    simp only [if_pos h0, if_pos h0']
    exact ⟨s.status.phase, s.bitSeq, rfl⟩
  · rw [if_neg h0, decodeCore_run, decodeOneBit_run, decodeTwoBit_run, decodeRm_run, decodePolar_run]
    simp only [State.setPhase_params, State.setPhase_regs, State.setPhase_llrMem, State.setPhase_ports]
    by_cases he : e < 1
    · have h1' : a = 0 ∨ 1706 ≤ a ∨ e < 1 ∨ s.params.eMax < e := by omega
      simp only [if_pos h1']
      exact ⟨familyPhase a, s.bitSeq, by simp [he]; rfl⟩
    · by_cases hm : s.params.eMax < e
      · have h1' : a = 0 ∨ 1706 ≤ a ∨ e < 1 ∨ s.params.eMax < e := by omega
        simp only [if_pos h1']
        exact ⟨familyPhase a, s.bitSeq, by simp [he, hm]; rfl⟩
      · have h1' : ¬(a = 0 ∨ 1706 ≤ a ∨ e < 1 ∨ s.params.eMax < e) := by omega
        rw [if_neg h1']
        simp only [he, hm, if_false]
        by_cases ha1 : a = 1
        · subst ha1
          by_cases hq : s.regs.qm = 0
          · simp only [hq, and_true, if_true, show (1 : Nat) ≤ 2 by decide]
            exact ⟨familyPhase 1, s.bitSeq, rfl⟩
          · simp only [hq, and_false, if_false, if_true]
            exact ⟨rfl, _, rfl, bitsStored_write _ _⟩
        · by_cases ha2 : a = 2
          · subst ha2
            by_cases hq : s.regs.qm = 0
            · simp only [hq, and_true, if_true, le_refl, if_false, show (2 : Nat) ≠ 1 by decide]
              exact ⟨familyPhase 2, s.bitSeq, rfl⟩
            · simp only [hq, and_false, if_false, if_true, show (2 : Nat) ≠ 1 by decide]
              exact ⟨rfl, _, rfl, bitsStored_write _ _⟩
          · have hq : ¬(a ≤ 2 ∧ s.regs.qm = 0) := by omega
            simp only [if_neg ha1, if_neg ha2, if_neg hq]
            by_cases ha : a ≤ 11
            · have h3 : ¬(a < 3 ∨ 11 < a) := by omega
              simp only [if_pos ha, if_neg h3]
              by_cases hu : a = 11 ∧ e ≤ 16
              · simp only [if_pos hu]
                exact ⟨familyPhase a, s.bitSeq, rfl⟩
              · simp only [if_neg hu]
                by_cases hz : sumSq (readLlrs s.llrMem 0 e) = 0
                · simp only [hz, if_true]
                  exact ⟨familyPhase a, s.bitSeq, rfl⟩
                · simp only [hz, if_false]
                  exact ⟨by simp [rmCandidate], _, rfl, bitsStored_write _ _⟩
            · have h12 : ¬(a < 12 ∨ 1705 < a) := by omega
              simp only [if_neg ha, if_neg h12]
              cases hk : polarLookup s.params s.ports.polarSelect (segParams a e).kR (segParams a e).eR with
              | error k => exact ⟨familyPhase a, s.bitSeq, rfl⟩
              | ok code =>
                dsimp only
                have hrun := decodeSegments_run code a e (s.setPhase (familyPhase a)) (polarLookup_eq_ok.mp hk).2
                simp only [State.setPhase_params, State.setPhase_ports, State.setPhase_llrMem,
                  State.setPhase_bitSeq] at hrun
                cases hd : decodedSegments s.params s.ports.polarDecode code (segParams a e) (readLlrs s.llrMem 0 e) with
                | error k =>
                  rw [hd] at hrun
                  exact ⟨familyPhase a, hrun⟩
                | ok segments =>
                  rw [hd] at hrun
                  exact hrun

end Sys2Proof.Machine
end

