-- ==== Sys2Proof/Laws/PerInstr.lean ====
section
/-! SUPPORT. Statements made of each command as syntax, one lemma per constructor of `Instr`. -/

/-- The command is well formed, its word is well formed, and the decoder reads the command back from the word. -/
def Sys2Proof.Laws.EncodingRoundTrip.Statement (i : Sys2Proof.Instr) : Prop :=
  Sys2Proof.Instr.wellFormed i = true ∧ Sys2Proof.commandWordWellFormed (Sys2Proof.encodeWord i) = true ∧
    Sys2Proof.decodeWord (Sys2Proof.encodeWord i) = .ok i

namespace Sys2Proof.Laws.EncodingRoundTrip

theorem pucchE : Statement .pucchE := by unfold Statement; decide

theorem puschAckNofBits : Statement .puschAckNofBits := by unfold Statement; decide

theorem puschCsi1NofBits : Statement .puschCsi1NofBits := by unfold Statement; decide

theorem totalBits : Statement .totalBits := by unfold Statement; decide

theorem packPucch : Statement .packPucch := by unfold Statement; decide

theorem unpackPucch : Statement .unpackPucch := by unfold Statement; decide

theorem computeA : Statement .computeA := by unfold Statement; decide

theorem encode : Statement .encode := by unfold Statement; decide

theorem decode : Statement .decode := by unfold Statement; decide

theorem enc1Bit : Statement .enc1Bit := by unfold Statement; decide

theorem dec1Bit : Statement .dec1Bit := by unfold Statement; decide

theorem enc2Bit : Statement .enc2Bit := by unfold Statement; decide

theorem dec2Bit : Statement .dec2Bit := by unfold Statement; decide

theorem encRm : Statement .encRm := by unfold Statement; decide

theorem decRm : Statement .decRm := by unfold Statement; decide

theorem encPolar : Statement .encPolar := by unfold Statement; decide

theorem decPolar : Statement .decPolar := by unfold Statement; decide

theorem encPucch : Statement .encPucch := by unfold Statement; decide

theorem decPucch : Statement .decPucch := by unfold Statement; decide

theorem encPuschAck : Statement .encPuschAck := by unfold Statement; decide

theorem decPuschAck : Statement .decPuschAck := by unfold Statement; decide

theorem encPuschCsi1 : Statement .encPuschCsi1 := by unfold Statement; decide

theorem decPuschCsi1 : Statement .decPuschCsi1 := by unfold Statement; decide

end Sys2Proof.Laws.EncodingRoundTrip
end

