-- ==== Sys2Proof/Laws/Polar.lean ====
section
/-! SUPPORT. The polar code's procedures: their lengths, the transform as an injection, and how PD1 of one call of the
decoder port (44_polar_code.md R246) is met by one answer. -/

namespace Sys2Proof.Machine

theorem xorBits_length (a b : List Bit) : (xorBits a b).length = min a.length b.length := by
  simp [xorBits]

theorem polarTransform_length {n : Nat} {u : List Bit} (h : u.length = 2 ^ n) : (polarTransform n u).length = 2 ^ n := by
  induction n generalizing u with
  | zero => simpa [polarTransform] using h
  | succ n ih =>
    have hd : (u.drop (2 ^ n)).length = 2 ^ n := by rw [List.length_drop]; omega
    have hx : (xorBits (u.take (2 ^ n)) (u.drop (2 ^ n))).length = 2 ^ n := by
      rw [xorBits_length, List.length_take, hd]; omega
    rw [polarTransform, List.length_append, ih hx, ih hd]
    omega

/-- Adding the same bits to two sequences of their length keeps them apart. -/
theorem xorBits_right_cancel {a b c : List Bit} (ha : a.length = c.length) (hb : b.length = c.length)
    (h : xorBits a c = xorBits b c) : a = b := by
  apply List.ext_getElem (ha.trans hb.symm)
  intro k h1 h2
  have hk : (xorBits a c)[k]? = (xorBits b c)[k]? := by rw [h]
  simpa [xorBits, List.getElem?_zipWith, h1, h2, ha ▸ h1] using hk

/-- The transform keeps different sequences of `2^n` bits apart. -/
theorem polarTransform_injective {n : Nat} {u v : List Bit} (hu : u.length = 2 ^ n) (hv : v.length = 2 ^ n)
    (h : polarTransform n u = polarTransform n v) : u = v := by
  induction n generalizing u v with
  | zero => exact h
  | succ n ih =>
    have hdu : (u.drop (2 ^ n)).length = 2 ^ n := by rw [List.length_drop]; omega
    have hdv : (v.drop (2 ^ n)).length = 2 ^ n := by rw [List.length_drop]; omega
    have htu : (u.take (2 ^ n)).length = 2 ^ n := by rw [List.length_take]; omega
    have htv : (v.take (2 ^ n)).length = 2 ^ n := by rw [List.length_take]; omega
    have hxu : (xorBits (u.take (2 ^ n)) (u.drop (2 ^ n))).length = 2 ^ n := by rw [xorBits_length, htu, hdu, min_self]
    have hxv : (xorBits (v.take (2 ^ n)) (v.drop (2 ^ n))).length = 2 ^ n := by rw [xorBits_length, htv, hdv, min_self]
    obtain ⟨h1, h2⟩ := List.append_inj h ((polarTransform_length hxu).trans (polarTransform_length hxv).symm)
    have hd := ih hdu hdv h2
    have hx := ih hxu hxv h1
    rw [hd] at hx
    rw [← List.take_append_drop (2 ^ n) u, ← List.take_append_drop (2 ^ n) v, hd,
      xorBits_right_cancel (htu.trans hdv.symm) (htv.trans hdv.symm) hx]

theorem allocateFrom_length (code : PolarCode) (ms : List Nat) (y : BitVec 5) (c : List Bit) :
    (allocateFrom code ms y c).length = ms.length := by
  induction ms generalizing y c with
  | nil => rfl
  | cons m ms ih =>
    rw [allocateFrom]
    split_ifs <;> simp [ih]

@[simp] theorem chanallocTx_length (code : PolarCode) (c : List Bit) : (chanallocTx code c).length = code.N := by
  simp [chanallocTx, allocateFrom_length]

theorem chanallocRx_length (code : PolarCode) (u : List Bit) :
    (chanallocRx code u).length = (messagePositions code).length := by
  simp [chanallocRx]

/-- Where nothing is punctured, a soft vector is the noiseless image of one sequence of coded bits only. -/
theorem NoiselessImage.unique {p : Params} {code : PolarCode} {e : Nat} {d d' : List Bit} {s : List Int}
    (hX : puncturedPositions p code e = []) (hd : d.length = code.N) (hd' : d'.length = code.N)
    (h : NoiselessImage p code e d s) (h' : NoiselessImage p code e d' s) : d = d' := by
  apply List.ext_getElem (hd.trans hd'.symm)
  intro j h1 h2
  have a := h.2 j (hd ▸ h1)
  have b := h'.2 j (hd ▸ h1)
  simp only [hX, List.not_mem_nil, if_false, List.getD_eq_getElem _ _ h1, List.getD_eq_getElem _ _ h2] at a b
  cases hx : d[j] <;> cases hy : d'[j] <;> simp [hx, hy] at a b ⊢ <;> omega

/-- Where nothing is punctured, PD1 of a call is met when the port answers one message whose noiseless image the soft
vector is: no other message has that image. -/
theorem meetsContractAt_of_answer {p : Params} {port : PolarDecodePort} {r e : Nat} {code : PolarCode} {s : List Int}
    {c u : List Bit} (hN : code.N = 2 ^ code.n) (hX : puncturedPositions p code e = [])
    (himage : NoiselessImage p code e (polarTransform code.n (chanallocTx code c)) s)
    (hport : polarDecode port r code s = some u)
    (hu : ∀ m ∈ code.kSet, u.getD m false = (chanallocTx code c).getD m false) :
    MeetsContractAt p port r code e s := by
  intro c' _ h'
  have hlen (x : List Bit) : (chanallocTx code x).length = 2 ^ code.n := by rw [chanallocTx_length, hN]
  have hT (x : List Bit) : (polarTransform code.n (chanallocTx code x)).length = code.N := by
    rw [polarTransform_length (hlen x), hN]
  have heq := polarTransform_injective (hlen c) (hlen c') (himage.unique hX (hT c) (hT c') h')
  exact ⟨u, hport, fun m hm => heq ▸ hu m hm⟩

end Sys2Proof.Machine
end

