-- ==== Sys2Proof/Tests/Slice0.lean ====
section
/-! SUPPORT. The model's own tests: ill-formed terms refused, every constructor's word written out from
30_encoding.md R83, one or two steps of each command with the values of the spec's examples (the rule is named at
each), and for every statement with hypotheses a state that meets them. -/

namespace Sys2Proof.Tests

open Sys2Proof.Machine

set_option Elab.async false

/-! ## Building states -/

/-- The reset state with registers `f`. -/
def withRegs (f : Regs → Regs) : State := { State.reset with regs := f State.reset.regs }

/-- Elements `0 .. |vs|` of `BITSEQ` set to the bits of `vs`. -/
def State.bits (s : State) (vs : List Nat) : State := s.writeBitSeq 0 (vs.map fun v => decide (v = 1))

/-- Elements `0 .. |vs|` of `ACK_MEM` set to the bits of `vs`. -/
def State.acks (s : State) (vs : List Nat) : State := s.writeAckMem 0 (vs.map fun v => decide (v = 1))

/-- Elements `0 .. |vs|` of `LLR_MEM` set to the values `vs`. -/
def State.llrs (s : State) (vs : List Int) : State :=
  { s with llrMem := s.llrMem.writeRange 0 (vs.map (BitVec.ofInt 8)) }

/-- The soft values `+64` for a 1, `-64` for a 0 (95_test_vectors.md, `img`). -/
def image (vs : List Nat) : List Int := vs.map fun v => if v = 1 then 64 else -64

/-- The state after command `i`. -/
def after (i : Instr) (s : State) : State :=
  match exec i s with
  | .next t => t
  | .fault _ => s
  | .refused _ => s

/-- The first `n` elements of `OUT_MEM` as numbers. -/
def outs (n : Nat) (s : State) : List Nat := (List.range n).map fun k => (readByte s.outMem k).toNat

/-- The first `n` elements of `BITSEQ` as numbers. -/
def bitsOf (n : Nat) (s : State) : List Nat := (readBits s.bitSeq 0 n).map bitNum

/-- The first `n` elements of `ACK_MEM` as numbers. -/
def acksOf (n : Nat) (s : State) : List Nat := (readBits s.ackMem 0 n).map bitNum

/-- The digits of a number, `n` of them, the first one the most significant: a bit string as the spec prints it. -/
def digits (n v : Nat) : List Nat := (List.range n).map fun k => v / 10 ^ (n - 1 - k) % 10

/-- Whether a result is a value. -/
def okay {ε α : Type} : Except ε α → Bool
  | .ok _ => true
  | .error _ => false

theorem exists_of_okay {ε α : Type} {x : Except ε α} (h : okay x = true) : ∃ a, x = .ok a := by
  cases x with
  | ok a => exact ⟨a, rfl⟩
  | error k => cases h

theorem exec_after (i : Instr) (s : State) (h : (match exec i s with
    | .next _ => true
    | .fault _ => false
    | .refused _ => false) = true) : exec i s = .next (after i s) := by
  unfold after
  cases hx : exec i s with
  | next t => rfl
  | fault f => cases f
  | refused r => simp [hx] at h

/-! ## Well-formedness refuses what is ill formed -/

theorem test_wellformed_word : commandWordWellFormed 0x25 = true := by decide

theorem test_reserved_bit_is_ill_formed : commandWordWellFormed 0x00000116 = false := by decide

theorem test_unknown_opcode_is_ill_formed : commandWordWellFormed 0x26 = false := by decide

theorem test_default_parameters_are_well_formed : paramsDefault.wellFormed = true := by decide +kernel

theorem test_emax_zero_is_ill_formed : Params.wellFormed { paramsDefault with eMax := 0 } = false := by decide +kernel

theorem test_basis_of_31_rows_is_ill_formed :
    Params.wellFormed { paramsDefault with rmBasis := rmBasisDefault.drop 1 } = false := by decide +kernel

theorem test_short_basis_row_is_ill_formed :
    Params.wellFormed { paramsDefault with rmBasis := rmBasisDefault.map (List.drop 1) } = false := by decide +kernel

theorem test_crc6_without_leading_term_is_ill_formed :
    Params.wellFormed { paramsDefault with crc6Poly := 0x21 } = false := by decide +kernel

theorem test_crc11_without_leading_term_is_ill_formed :
    Params.wellFormed { paramsDefault with crc11Poly := 0x621 } = false := by decide +kernel

theorem test_short_reliability_order_is_ill_formed :
    Params.wellFormed { paramsDefault with polarQ := polarQDefault.drop 1 } = false := by decide +kernel

theorem test_repeated_reliability_entry_is_ill_formed :
    Params.wellFormed { paramsDefault with polarQ := 1 :: polarQDefault.drop 1 } = false := by decide +kernel

theorem test_short_subblock_pattern_is_ill_formed :
    Params.wellFormed { paramsDefault with subblockP := subblockPDefault.drop 1 } = false := by decide +kernel

theorem test_repeated_subblock_entry_is_ill_formed :
    Params.wellFormed { paramsDefault with subblockP := 1 :: subblockPDefault.drop 1 } = false := by decide +kernel

theorem test_llr_sat_zero_is_ill_formed : Params.wellFormed { paramsDefault with llrSat := 0 } = false := by
  decide +kernel

theorem test_llr_sat_128_is_ill_formed : Params.wellFormed { paramsDefault with llrSat := 128 } = false := by
  decide +kernel

/-! ## Decoding, the words written out from R83 -/

theorem test_decode_sizing :
    decodeWord 0x00000001 = .ok .pucchE ∧ decodeWord 0x00000002 = .ok .puschAckNofBits ∧
      decodeWord 0x00000003 = .ok .puschCsi1NofBits ∧ decodeWord 0x00000004 = .ok .totalBits := by decide

theorem test_decode_payload :
    decodeWord 0x00000008 = .ok .packPucch ∧ decodeWord 0x00000009 = .ok .unpackPucch ∧
      decodeWord 0x0000000A = .ok .computeA := by decide

theorem test_decode_dispatch :
    decodeWord 0x00000010 = .ok .encode ∧ decodeWord 0x00000011 = .ok .decode := by decide

theorem test_decode_families :
    decodeWord 0x00000012 = .ok .enc1Bit ∧ decodeWord 0x00000013 = .ok .dec1Bit ∧
      decodeWord 0x00000014 = .ok .enc2Bit ∧ decodeWord 0x00000015 = .ok .dec2Bit ∧
      decodeWord 0x00000016 = .ok .encRm ∧ decodeWord 0x00000017 = .ok .decRm ∧
      decodeWord 0x00000018 = .ok .encPolar ∧ decodeWord 0x00000019 = .ok .decPolar := by decide

theorem test_decode_facades :
    decodeWord 0x00000020 = .ok .encPucch ∧ decodeWord 0x00000021 = .ok .decPucch ∧
      decodeWord 0x00000022 = .ok .encPuschAck ∧ decodeWord 0x00000023 = .ok .decPuschAck ∧
      decodeWord 0x00000024 = .ok .encPuschCsi1 ∧ decodeWord 0x00000025 = .ok .decPuschCsi1 := by decide

theorem test_decode_rejects :
    decodeWord 0x00000000 = .error .unknownOpcode ∧ decodeWord 0x00000026 = .error .unknownOpcode ∧
      decodeWord 0x80000016 = .error .reservedBits := by decide

theorem test_decode_table_word :
    decodeTableWord 32 0x16 = some .encRm ∧ decodeTableWord 32 0x116 = none := by decide

theorem test_fetch_word_runs_first :
    (match step (State.reset.withFetchWord 32 0x04) with
    | .next t => decide (t.status.word = 1 ∧ t.pending = [])
    | .fault _ => false
    | .refused _ => false) = true := by decide +kernel

/-! ## Sizing (40_sizing.md) -/

/-- D0's S6 (R106): format 3, 14 symbols, 2 PRB, pi/2-BPSK. -/
def pucchState : State :=
  withRegs fun g =>
    { g with pucchFormat := 3, pucchNofSymbols := 14, pucchNofPrb := 2, pucchEnablePiBpsk := 1 }

theorem test_pucch_e_s6 : (after .pucchE pucchState).regs.resE = 336 := by decide +kernel

theorem test_pucch_e_bad_occ :
    (after .pucchE (withRegs fun g => { g with pucchFormat := 4, pucchOccLength := 3 })).status.word = 0x463 := by
  decide +kernel

/-- The configuration of the example of R112. -/
def puschState : State :=
  withRegs fun g =>
    { g with
      modulation := 1
      nofLayers := 1
      rate := 0x3F000000
      betaHarq := 0x40000000
      betaCsi1 := 0x40000000
      alpha := 0x3F800000
      mUciSc := Vector.replicate 14 12
      argA := 4
      oAck := 4 }

theorem test_pusch_ack_nof_bits_r112 : (after .puschAckNofBits puschState).regs.resE = 16 := by decide +kernel

theorem test_pusch_csi1_nof_bits_r117 : (after .puschCsi1NofBits puschState).regs.resE = 320 := by decide +kernel

/-- R29: an `O_ACK` above 1706 raises `InvalidInput`. -/
theorem test_pusch_csi1_range_r29 :
    (after .puschCsi1NofBits { puschState with regs := { puschState.regs with oAck := 1707 } }).status.word = 0x163 := by
  decide +kernel

theorem test_total_bits_r119 :
    (after .totalBits (withRegs fun g => { g with oAck := 3, oSr := 1 })).regs.resE = 4 := by decide +kernel

/-! ## Payload (41_payload.md) -/

theorem test_pack_pucch_r135 :
    let t := after .packPucch (State.acks (withRegs fun g => { g with oAck := 3, oSr := 2, sr := 2 }) [1, 0, 1])
    bitsOf 5 t = [1, 0, 1, 1, 0] ∧ t.regs.resA = 5 ∧ t.status.word = 1 := by decide +kernel

theorem test_unpack_pucch_r139 :
    let t := after .unpackPucch (State.bits (withRegs fun g => { g with oAck := 3, oSr := 2 }) [1, 0, 1, 1, 0])
    acksOf 3 t = [1, 0, 1] ∧ t.regs.sr = 2 := by decide +kernel

theorem test_compute_a_r142 :
    (after .computeA (withRegs fun g => { g with oAck := 3, oSr := 2 })).regs.resA = 5 := by decide +kernel

/-! ## 1-bit and 2-bit coders (42_small_block.md) -/

/-- D0's S1 (R152): bit 1, QPSK, `E = 8`. -/
def oneBitState : State := State.bits (withRegs fun g => { g with modulation := 1, argE := 8, argA := 1 }) [1]

theorem test_enc_1bit_s1 :
    let t := after .enc1Bit oneBitState
    outs 8 t = [1, 2, 1, 2, 1, 2, 1, 2] ∧ t.regs.resE = 8 ∧ t.status.word = 0x51 := by decide +kernel

theorem test_dec_1bit_r156_sum_and_mean :
    let s := State.llrs oneBitState (List.replicate 8 64)
    let t := after .dec1Bit s
    let u := after .dec1Bit { s with params := { s.params with oneBitPwrMode := .mean } }
    bitsOf 1 t = [1] ∧ t.status.word = 1 ∧ u.status.word = 5 := by decide +kernel

theorem test_dec_1bit_r156_zero :
    let t := after .dec1Bit (State.llrs oneBitState (List.replicate 8 (-64)))
    bitsOf 1 t = [0] ∧ t.status.word = 1 := by decide +kernel

/-- Payload `1, 0` with 16QAM and `E = 26` (R160). -/
def twoBitState : State := State.bits (withRegs fun g => { g with modulation := 2, argE := 26, argA := 2 }) [1, 0]

theorem test_enc_2bit_r160 :
    outs 26 (after .enc2Bit twoBitState) =
      [1, 0, 3, 3, 1, 1, 3, 3, 0, 1, 3, 3, 1, 0, 3, 3, 1, 1, 3, 3, 0, 1, 3, 3, 1, 0] := by decide +kernel

/-- The example of R165: BPSK, `E = 6`. -/
def dec2BitState : State :=
  State.llrs (withRegs fun g => { g with argE := 6, argA := 2 }) [64, -64, 64, 64, -64, 64]

theorem test_dec_2bit_r165 :
    let t := after .dec2Bit dec2BitState
    bitsOf 2 t = [1, 0] ∧ t.status.word = 5 := by decide +kernel

theorem test_dec_2bit_zeros_fail_parity :
    let t := after .dec2Bit (State.llrs dec2BitState (List.replicate 6 0))
    bitsOf 2 t = [1, 1] ∧ t.status.word = 1 := by decide +kernel

/-! ## Reed–Muller (43_reed_muller.md) -/

/-- The example of R185: `A = 5`, payload `1,0,1,1,0`, `E = 32`. -/
def rmState : State := State.bits (withRegs fun g => { g with argA := 5, argE := 32 }) [1, 0, 1, 1, 0]

/-- The codeword of the example of R185. -/
def rmCode : List Nat :=
  [1, 0, 0, 1, 1, 1, 0, 0, 0, 1, 0, 0, 0, 0, 1, 1, 0, 0, 0, 1, 0, 0, 1, 0, 1, 1, 1, 1, 0, 1, 1, 1]

theorem test_enc_rm_r185 : outs 32 (after .encRm rmState) = rmCode := by decide +kernel

/-- The input of the example of R191: the image of R185's output. -/
def decRmState : State := State.llrs (withRegs fun g => { g with argA := 5, argE := 32 }) (image rmCode)

theorem test_dec_rm_r191 :
    let t := after .decRm decRmState
    bitsOf 5 t = [1, 0, 1, 1, 0] ∧ t.status.word = 5 := by decide +kernel

theorem test_dec_rm_r194e_smallest_of_equals :
    let t := after .decRm (State.llrs (withRegs fun g => { g with argA := 3, argE := 32 }) (1 :: List.replicate 31 0))
    bitsOf 3 t = [1, 0, 0] ∧ t.status.word = 1 := by decide +kernel

/-! ## Polar (45_polar_pipeline.md) -/

/-- The payload of the examples of R268 and R269, `A = 12`, `E = 32`. -/
def polarState : State :=
  State.bits (withRegs fun g => { g with argA := 12, argE := 32 }) [1, 0, 1, 1, 0, 0, 1, 0, 1, 1, 1, 0]

/-- The output of R269 for `A = 12`, `E = 32`. -/
def polarCoded : List Nat := digits 32 10110101001010010000110101010100

theorem test_enc_polar_r269 : outs 32 (after .encPolar polarState) = polarCoded := by decide +kernel

/-- The image of R269's output. -/
def decPolarState : State := State.llrs (withRegs fun g => { g with argA := 12, argE := 32 }) (image polarCoded)

theorem test_dec_polar_r277 :
    let t := after .decPolar decPolarState
    bitsOf 12 t = [1, 0, 1, 1, 0, 0, 1, 0, 1, 1, 1, 0] ∧ t.status.word = 5 := by decide +kernel

/-- The code `(18, 32)` as 44_polar_code.md R222 writes it out. -/
def code1832 : PolarCode where
  N := 32
  n := 5
  K := 18
  nPC := 3
  kSet := [7, 10, 11, 12, 13, 14, 15, 18, 19, 20, 21, 22, 23, 24, 25, 26, 27, 28, 29, 30, 31]
  pcSet := [10, 12, 18]
  fSet := [0, 1, 2, 3, 4, 5, 6, 8, 9, 16, 17]
  fSetSize := 11

theorem test_polar_table_r222 :
    polarTable paramsDefault 18 32 10 = some code1832 ∧ polarTable paramsDefault 17 64 10 = none ∧
      polarTable paramsDefault 31 30 10 = none := by decide +kernel

/-- A code of length 32 with `k` message bits and no parity check, for the examples of the rate matcher. -/
def plainCode (k : Nat) : PolarCode where
  N := 32
  n := 5
  K := k
  nPC := 0
  kSet := List.range' (32 - k) k
  pcSet := []
  fSet := List.range (32 - k)
  fSetSize := 32 - k

theorem test_rate_dematch_r239 :
    rateDematch paramsDefault (plainCode 25) ((List.range 28).map fun k => (k : Int) + 1) =
      [1, 8, 14, 23, 19, 26, 28, 2, 9, 20, 27, 10, 21, 4, 17, 5, 15, 24, 3, 16, 25, 11, 22, 12, 18, 6, 13, 127, 7, 127,
        127, 127] := by decide +kernel

theorem test_rate_match_indices_r237 :
    (List.range 24).map (fun q => interleavedPosition paramsDefault 32 (selectedPosition 32 10 24 q)) =
        [8, 16, 9, 17, 10, 18, 11, 19, 12, 20, 13, 21, 14, 22, 15, 23, 24, 25, 26, 28, 27, 29, 30, 31] ∧
      (List.range 24).map (fun q => interleavedPosition paramsDefault 32 (selectedPosition 32 12 24 q)) =
        [0, 1, 2, 4, 3, 5, 6, 7, 8, 16, 9, 17, 10, 18, 11, 19, 12, 20, 13, 21, 14, 22, 15, 23] := by decide +kernel

theorem test_crc_r243 :
    (crcParity 0x61 6 ((digits 12 101100101110).map fun v => decide (v = 1))).map bitNum = digits 6 101110 ∧
      (crcParity 0xE21 11 ((digits 20 10110010111001010011).map fun v => decide (v = 1))).map bitNum =
        digits 11 01110000011 := by decide +kernel

theorem test_triangle_r236 :
    triangleSrc 6 = [0, 3, 5, 1, 4, 2] ∧ triangleSrc 7 = [0, 4, 1, 5, 2, 6, 3] ∧
      triangleSrc 10 = [0, 4, 7, 9, 1, 5, 8, 2, 6, 3] := by decide +kernel

/-! ## Dispatch and façades (46_transport.md) -/

theorem test_encode_selects_reed_muller :
    let t := after .encode rmState
    outs 32 t = rmCode ∧ t.status.word = 0x51 := by decide +kernel

theorem test_decode_r296 :
    let t := after .decode dec2BitState
    bitsOf 2 t = [1, 0] ∧ t.status.word = 5 := by decide +kernel

/-- The second example of R300: format 2, 1 symbol, 1 PRB, `O_ACK = 3`, `O_SR = 2`, `SR = 2`. -/
def encPucchState : State :=
  State.acks
    (withRegs fun g =>
      { g with pucchFormat := 2, pucchNofSymbols := 1, pucchNofPrb := 1, oAck := 3, oSr := 2, sr := 2, modulation := 1 })
    [1, 0, 1]

theorem test_enc_pucch_r300 :
    let t := after .encPucch encPucchState
    outs 16 t = [1, 0, 0, 1, 1, 1, 0, 0, 0, 1, 0, 0, 0, 0, 1, 1] ∧ t.regs.resA = 5 ∧ t.regs.resE = 16 := by
  decide +kernel

/-- The example of R303. -/
def decPucchState : State :=
  State.llrs
    (withRegs fun g => { g with pucchFormat := 2, pucchNofSymbols := 1, pucchNofPrb := 1, oAck := 3, oSr := 2 })
    (image [1, 0, 0, 1, 1, 1, 0, 0, 0, 1, 0, 0, 0, 0, 1, 1])

theorem test_dec_pucch_r303 :
    let t := after .decPucch decPucchState
    acksOf 3 t = [1, 0, 1] ∧ t.regs.sr = 2 ∧ t.status.word = 5 := by decide +kernel

/-- The example of R306. -/
def encAckState : State := State.acks puschState [1, 0, 1, 1]

theorem test_enc_pusch_ack_r306 :
    outs 16 (after .encPuschAck encAckState) = [1, 0, 0, 1, 1, 1, 0, 0, 0, 1, 0, 0, 0, 0, 1, 1] := by decide +kernel

/-- The coercion example of R307: `NOF_CSI = 2`, `O_ACK = 1`. -/
def coercedState : State :=
  State.acks { puschState with regs := { puschState.regs with nofCsi := 2, oAck := 1 } } [1]

theorem test_enc_pusch_ack_r307 :
    let t := after .encPuschAck coercedState
    outs 8 t = [1, 0, 1, 1, 0, 1, 1, 0] ∧ t.regs.resA = 2 ∧ t.regs.resE = 8 := by decide +kernel

/-- The example of R308. -/
def decAckState : State := State.llrs puschState (image [1, 0, 0, 1, 1, 1, 0, 0, 0, 1, 0, 0, 0, 0, 1, 1])

theorem test_dec_pusch_ack_r308 :
    let t := after .decPuschAck decAckState
    acksOf 4 t = [1, 0, 1, 1] ∧ t.status.word = 5 := by decide +kernel

/-- A PUSCH state whose CSI port has 4 bits `1,0,1,1`, with resources for 32 positions. -/
def csiState : State :=
  { puschState with
    regs := { puschState.regs with mUciSc := (Vector.replicate 14 0).set 0 24 }
    ports :=
      { portsDefault with
        csi := { portsDefault.csi with nofBits := 4, packed := some [true, false, true, true] } } }

theorem test_enc_pusch_csi1_r310 :
    let t := after .encPuschCsi1 csiState
    outs 32 t = digits 32 10011100010000110001001011110111 ∧ t.regs.resA = 4 ∧ t.regs.resE = 32 := by decide +kernel

/-- The image of that output. -/
def decCsiState : State := State.llrs csiState (image (digits 32 10011100010000110001001011110111))

theorem test_dec_pusch_csi1_r312 :
    let t := after .decPuschCsi1 decCsiState
    t.ports.csi.delivered = some [true, false, true, true] ∧ t.regs.resE = 32 ∧ t.status.word = 5 := by
  decide +kernel

/-! ## Errors and reset -/

theorem test_reset_then_encode_is_invalid_input : (after .encode State.reset).status.word = 0x163 := by
  decide +kernel

theorem test_error_clears_valid_of_a_decoder_only :
    (after .decRm { State.reset with status := { Status.reset with valid := true } }).status.word = 0x163 ∧
      (after .encRm { State.reset with status := { Status.reset with valid := true } }).status.word = 0x167 := by
  decide +kernel

/-! ## Witnesses

For every statement of `Certificates/Slice0/Obligations.lean` with hypotheses: a state and operands that meet them,
for each clause, at the boundary of its range where it has one. -/

/-- The reset state with one transaction pending. -/
def next (op : HostOp) : State := { State.reset with pending := [op] }

theorem witness_CommandWriteExecutesItsCommand :
    ((next (.wr 0 0x16)).pending = .wr 0 0x16 :: [] ∧ decodeWord 0x16 = .ok .encRm) ∧
      (next (.wr 0 0x26)).pending = .wr 0 0x26 :: [] ∧ decodeWord 0x26 = .error .unknownOpcode := by decide

theorem witness_IllegalWordChangesOnlyStatus :
    ([0, 0x05, 0x07, 0x0B, 0x0F, 0x1A, 0x1F, 0x26, 0xFF, 0x100, 0xFFFFFFFF] : List Word).all (fun w =>
      decide
        (256 ≤ w.toNat ∨ w.toNat = 0 ∨ (0x05 ≤ w.toNat ∧ w.toNat ≤ 0x07) ∨ (0x0B ≤ w.toNat ∧ w.toNat ≤ 0x0F) ∨
          (0x1A ≤ w.toNat ∧ w.toNat ≤ 0x1F) ∨ 0x26 ≤ w.toNat)) = true := by decide +kernel

theorem witness_HostRegisterWrite :
    ∀ n ∈ [1, 5, 6, 63], (next (.wr n 0x7F800000)).pending = .wr n 0x7F800000 :: [] ∧ 0 < n ∧ n < 64 := by
  decide +kernel

theorem witness_HostMemoryWrite :
    (next (.wmBit .ackMem 1705 true)).pending = .wmBit .ackMem 1705 true :: [] ∧ 1705 < 1706 ∧
      (next (.wmBit .bitSeq 0 true)).pending = .wmBit .bitSeq 0 true :: [] ∧
      (next (.wmByte .llrMem 16385 0x80)).pending = .wmByte .llrMem 16385 0x80 :: [] ∧
      16385 < State.reset.params.eMax ∧
      (next (.wmByte .outMem 0 9)).pending = .wmByte .outMem 0 9 :: [] ∧ 0 < State.reset.params.eMax := by
  decide +kernel

theorem witness_HostReadChangesNothing :
    (next (.rd 63)).pending = .rd 63 :: [] ∧ (next (.rmBit .ackMem 1705)).pending = .rmBit .ackMem 1705 :: [] ∧
      (next (.rmBit .bitSeq 0)).pending = .rmBit .bitSeq 0 :: [] ∧
      (next (.rmByte .llrMem 16385)).pending = .rmByte .llrMem 16385 :: [] ∧
      (next (.rmByte .outMem 0)).pending = .rmByte .outMem 0 :: [] ∧ 16385 < State.reset.params.eMax := by
  decide +kernel

theorem witness_OnlyMeaninglessAccessesAreRefused :
    (State.reset.pending = [] ∧ meaningless paramsDefault (.rd 64) ∧
        meaningless paramsDefault (.wmBit .ackMem 1706 true) ∧ meaningless paramsDefault (.rmByte .llrMem 16386) ∧
        meaningless paramsDefault (.wmByte .dBuf 0 0)) ∧
      ¬meaningless paramsDefault (.rd 63) ∧ ¬meaningless paramsDefault (.wmBit .ackMem 1705 true) ∧
        ¬meaningless paramsDefault (.rmByte .llrMem 16385) ∧ ¬meaningless paramsDefault (.wr 0 0x100) := by
  simp [meaningless, paramsDefault, State.reset]

theorem witness_ResetEventRestoresRegisters : (next .reset).pending = .reset :: [] := rfl

theorem inv_next (op : HostOp) : Inv (next op) where
  ackMem := (by decide : (Memory.any Bit 0).wf aMax = true)
  bitSeq := (by decide : (Memory.any Bit 1).wf aMax = true)
  llrMem := (by decide : (Memory.any Byte 2).wf 16386 = true)
  outMem := (by decide : (Memory.any Byte 3).wf 16386 = true)
  cBuf := (by decide : (Memory.any Bit 4).wf cBufSize = true)
  alloc := (by decide : (Memory.any Bit 5).wf polarBufSize = true)
  dBuf := (by decide : (Memory.any Byte 6).wf polarBufSize = true)
  blockThr := (by decide +kernel : finitePositive 0x3F000000 = true)
  oneBitThr := (by decide +kernel : finitePositive 0x3F000000 = true)
  status :=
    (⟨by decide, by decide, by decide, by decide, by decide⟩ : Status.Consistent Status.reset)

theorem witness_StepKeepsTheInvariant :
    Inv (next (.wmBit .ackMem 1705 true)) ∧ ∃ t, step (next (.wmBit .ackMem 1705 true)) = .next t :=
  ⟨inv_next _, _, rfl⟩

theorem witness_CommandWriteIsASafeStep : Inv (next (.wr 0 0x16)) ∧ (next (.wr 0 0x16)).pending = .wr 0 0x16 :: [] :=
  ⟨inv_next _, rfl⟩

theorem witness_ErrorEntry :
    (exec .encode State.reset = .next (after .encode State.reset) ∧
        (after .encode State.reset).status.err = true) ∧ decodeWord 0x26 = .error .unknownOpcode :=
  ⟨⟨exec_after _ _ (by decide +kernel), by decide +kernel⟩, by decide⟩

theorem witness_SuccessWritesOnlyItsOutputs :
    exec .totalBits State.reset = .next (after .totalBits State.reset) ∧
      (after .totalBits State.reset).status.err = false :=
  ⟨exec_after _ _ (by decide +kernel), by decide +kernel⟩

/-- Registers for `PUCCH_E`. -/
def pucchRegs (format symbols prb occ : Word) : Regs :=
  { Regs.reset with
    pucchFormat := format, pucchNofSymbols := symbols, pucchNofPrb := prb, pucchOccLength := occ }

theorem witness_PucchEResult :
    ((pucchRegs 2 1 1 0).pucchFormat.toNat = 2 ∧ 16 * 1 * 1 < 2 ^ 32) ∧
      ((pucchRegs 3 0 1 0).pucchFormat.toNat = 3 ∧ 24 * 0 * 1 < 2 ^ 32) ∧
      ((pucchRegs 4 14 0 1).pucchFormat.toNat = 4 ∧ (pucchRegs 4 14 0 1).pucchOccLength.toNat = 1) ∧
      ((pucchRegs 4 14 0 2).pucchFormat.toNat = 4 ∧ (pucchRegs 4 14 0 2).pucchOccLength.toNat = 2) ∧
      ((pucchRegs 2 0x10000000 1 0).pucchNofSymbols.toNat = 0x10000000 ∧ 2 ^ 32 ≤ 16 * 0x10000000 * 1) ∧
      ((pucchRegs 4 1 1 3).pucchFormat.toNat = 4 ∧ (pucchRegs 4 1 1 3).pucchOccLength.toNat = 3) ∧
      ((pucchRegs 4 1 1 0).pucchOccLength.toNat = 0) ∧ (pucchRegs 1 1 1 0).pucchFormat.toNat = 1 ∧
      (pucchRegs 5 1 1 0).pucchFormat.toNat = 5 := by decide

theorem pusch_ready : Csi1Ready puschState.regs where
  layers := by decide +kernel
  modulation := by decide +kernel
  rate := by decide +kernel
  alpha := by decide +kernel
  betaHarq := by decide +kernel
  betaCsi1 := by decide +kernel

/-- The PUSCH example with `2^28` layers: sizes from `2^32` on. -/
def manyLayers : State := { puschState with regs := { puschState.regs with nofLayers := 0x10000000 } }

theorem many_layers_ready : Csi1Ready manyLayers.regs where
  layers := by decide +kernel
  modulation := by decide +kernel
  rate := by decide +kernel
  alpha := by decide +kernel
  betaHarq := by decide +kernel
  betaCsi1 := by decide +kernel

theorem witness_PuschAckSizeResult :
    (PuschReady puschState.regs ∧ puschState.regs.argA.toNat = 4 ∧ eAck puschState.regs 4 < 2 ^ 32) ∧
      (PuschReady manyLayers.regs ∧ 2 ^ 32 ≤ eAck manyLayers.regs 4) ∧
      (0x80000001 : Word).toNat = 1 * 2 ^ 31 + 0 * 2 ^ 23 + 1 ∧
      (0x7F7FFFFF : Word).toNat = 0 * 2 ^ 31 + 254 * 2 ^ 23 + (2 ^ 23 - 1) ∧
      (0x7F800000 : Word).toNat = 0 * 2 ^ 31 + 255 * 2 ^ 23 + 0 :=
  ⟨⟨pusch_ready.toPuschReady, by decide +kernel, by decide +kernel⟩,
    ⟨many_layers_ready.toPuschReady, by decide +kernel⟩, by decide, by decide, by decide⟩

/-- The PUSCH example with a CSI part 2. -/
def part2State : State := { puschState with regs := { puschState.regs with csiPart2Present := 1 } }

/-- The PUSCH example with data: `K_SUM = 1000`. -/
def dataState : State := { puschState with regs := { puschState.regs with kSum := 1000 } }

/-- The PUSCH example with `alpha = 2` and an offset so large that the reservation exceeds all resources. -/
def overbookedState : State :=
  { puschState with regs := { puschState.regs with alpha := 0x40000000, betaHarq := 0x43000000 } }

/-- The PUSCH example with `O_ACK = w`. -/
def ackCount (w : Word) : State := { puschState with regs := { puschState.regs with oAck := w } }

/-- The parameter checks of R108 do not look at `O_ACK`. -/
theorem ack_count_ready (w : Word) : Csi1Ready (ackCount w).regs :=
  ⟨⟨pusch_ready.layers, pusch_ready.modulation, pusch_ready.rate, pusch_ready.alpha, pusch_ready.betaHarq⟩,
    pusch_ready.betaCsi1⟩

theorem witness_PuschCsi1SizeResult :
    (Csi1Ready part2State.regs ∧ part2State.regs.kSum = 0 ∧ part2State.regs.csiPart2Present.getLsbD 0 = true ∧
        0 ≤ csi1Bound part2State.regs) ∧
      (Csi1Ready puschState.regs ∧ puschState.regs.kSum = 0 ∧ puschState.regs.csiPart2Present.getLsbD 0 = false ∧
        0 ≤ csi1Bound puschState.regs ∧ eCsi1 puschState.regs 4 = .ok 320) ∧
      (Csi1Ready dataState.regs ∧ dataState.regs.kSum ≠ 0 ∧ 0 ≤ csi1Bound dataState.regs) ∧
      (Csi1Ready overbookedState.regs ∧ overbookedState.regs.kSum = 0 ∧ csi1Bound overbookedState.regs < 0) ∧
      (Csi1Ready manyLayers.regs ∧ 0 ≤ csi1Bound manyLayers.regs ∧
        2 ^ 32 ≤ (qCsi1 manyLayers.regs 4).toNat * manyLayers.regs.nofLayers.toNat * manyLayers.regs.qm) ∧
      (Csi1Ready (ackCount 1706).regs ∧ (ackCount 1706).regs.oAck.toNat ≤ 1706) ∧
      Csi1Ready (ackCount 1707).regs ∧ 1706 < (ackCount 1707).regs.oAck.toNat := by
  refine ⟨⟨⟨⟨?_, ?_, ?_, ?_, ?_⟩, ?_⟩, ?_, ?_, ?_⟩, ⟨pusch_ready, ?_, ?_, ?_, ?_⟩, ⟨⟨⟨?_, ?_, ?_, ?_, ?_⟩, ?_⟩, ?_, ?_⟩,
    ⟨⟨⟨?_, ?_, ?_, ?_, ?_⟩, ?_⟩, ?_, ?_⟩, ⟨many_layers_ready, ?_, ?_⟩, ⟨ack_count_ready _, ?_⟩, ack_count_ready _, ?_⟩ <;>
    decide +kernel

/-- A PUSCH state in which every command of R108 comes to the sizing, with registers `f`. -/
def sizingState (f : Regs → Regs) : State := { csiState with regs := f csiState.regs }

theorem witness_PuschChecksInOrder :
    (∀ f : Regs → Regs, (∀ g, (f g).oAck = g.oAck ∧ (f g).nofCsi = g.nofCsi ∧ (f g).kSum = g.kSum) →
        comesToPuschSizing (sizingState f) .puschAckNofBits ∧
          comesToPuschSizing (sizingState f) .puschCsi1NofBits ∧
          comesToPuschSizing (sizingState f) .encPuschCsi1 ∧ comesToPuschSizing (sizingState f) .decPuschCsi1) ∧
      comesToPuschSizing csiState .encPuschAck ∧ comesToPuschSizing csiState .decPuschAck ∧
      csiState.regs.nofLayers ≠ 0 ∧ csiState.regs.modulation.toNat < 5 ∧
      (0 < csiState.regs.rate.toNat ∧ csiState.regs.rate.toNat < 0x7F800000) ∧
      5 ≤ (5 : Word).toNat ∧ ¬(0 < (0 : Word).toNat) ∧ ¬((0x7F800000 : Word).toNat < 0x7F800000) ∧
      floatExp 0x7F800000 = 255 ∧ val 0xBF800000 < 0 ∧ looksAtBetaCsi1 .encPuschCsi1 = true := by
  refine ⟨fun f _ => ⟨trivial, trivial, ⟨true, [false, true, true], rfl, by decide⟩, ?_⟩, ?_, ?_, ?_, ?_, ?_, ?_, ?_,
    ?_, ?_, ?_, ?_⟩
  · show (4 : Nat) ≠ 0
    decide
  · show csiState.regs.oAck.toNat ≤ 1706 ∧ ackSize csiState ≠ 0
    decide +kernel
  · show csiState.regs.oAck.toNat ≤ 1706 ∧ ackSize csiState ≠ 0
    decide +kernel
  all_goals decide +kernel

theorem witness_TotalBitsResult :
    4294967295 + 0 + 0 < 2 ^ 32 ∧ 2 ^ 32 ≤ 4294967295 + 1 + 0 ∧
      (withRegs fun g => { g with oAck := 0xFFFFFFFF, oSr := 1 }).regs.oAck.toNat = 4294967295 := by decide +kernel

theorem witness_PackPucchResult :
    (1706 ≤ 1706 ∧ 0 ≤ 32 ∧ 0 < 2 ^ 0 ∧ 1706 + 0 ≤ 1706 ∧ State.reset.ports.csi.nofBits = 0 ∧
        (withRegs fun g => { g with oAck := 1706 }).regs.oAck.toNat = 1706) ∧
      (0 < csiState.ports.csi.nofBits ∧ csiState.ports.csi.packed = some [true, false, true, true] ∧
        csiState.regs.oAck.toNat + csiState.regs.oSr.toNat + 4 ≤ 1706 ∧
        csiState.regs.sr.toNat < 2 ^ csiState.regs.oSr.toNat) ∧
      ({ csiState.ports.csi with packed := none } : CsiPort).packed = none ∧
      1706 < (withRegs fun g => { g with oAck := 1707 }).regs.oAck.toNat ∧
      32 < (withRegs fun g => { g with oSr := 33 }).regs.oSr.toNat ∧
      2 ^ 2 ≤ (withRegs fun g => { g with oSr := 2, sr := 4 }).regs.sr.toNat ∧ 1706 < 1700 + 7 := by decide +kernel

theorem witness_UnpackPucchResult :
    (1706 ≤ 1706 ∧ 1674 + 32 + 0 ≤ 1706 ∧ State.reset.ports.csi.nofBits = 0) ∧
      (0 < csiState.ports.csi.nofBits ∧ csiState.regs.oAck.toNat = 4 ∧ csiState.regs.oSr.toNat = 0 ∧
        csiState.ports.csi.unpackOk = true ∧ 4 + 0 + 4 ≤ 1706) ∧
      (sizingState fun g => { g with oAck := 0 }).regs.oAck.toNat = 0 ∧
      ({ csiState.ports.csi with unpackOk := false } : CsiPort).unpackOk = false ∧
      1706 < 1703 + 0 + csiState.ports.csi.nofBits := by decide +kernel

theorem witness_ComputeAResult :
    (State.reset.ports.csi.nofBits = 0 ∧ 1706 + 0 + 0 ≤ 1706 ∧ 1706 < 1706 + 1 + 0) ∧
      ((sizingState fun g => { g with oAck := 0 }).regs.oAck.toNat = 0 ∧
        (sizingState fun g => { g with oAck := 0 }).regs.oSr.toNat = 0) ∧
      0 < csiState.ports.csi.nofBits ∧ 0 < csiState.regs.oAck.toNat + csiState.regs.oSr.toNat ∧
      32 < (withRegs fun g => { g with oSr := 33 }).regs.oSr.toNat := by decide +kernel

/-- The conditions the four small-block commands complete under. -/
def smallBlockReady (s : State) : Bool :=
  decide (1 ≤ s.regs.argE.toNat ∧ s.regs.argE.toNat ≤ s.params.eMax ∧ s.regs.qm ≠ 0)

theorem witness_SmallBlockResults :
    smallBlockReady oneBitState = true ∧ smallBlockReady twoBitState = true ∧ smallBlockReady dec2BitState = true ∧
      smallBlockReady (withRegs fun g => { g with argE := 1 }) = true ∧
      smallBlockReady (withRegs fun g => { g with argE := 16386, modulation := 4 }) = true := by decide +kernel

theorem witness_Enc2BitResult :
    ([0, 1, 2, 3, 4] : List Word).map modulationOrder = [1, 2, 4, 6, 8] := by decide +kernel

theorem witness_Dec1BitResult :
    ∃ samples corr s2,
      samples = ((List.range 8).filter fun k => k % 2 = 0).map (fun k => (readByte decAckState.llrMem k).toInt) ∧
        corr = samples.sum ∧ s2 = (samples.map fun v => v ^ 2).sum := ⟨_, _, _, rfl, rfl, rfl⟩

theorem witness_Dec2BitResult :
    ∃ (positions : List Nat) (cell : Nat → Int),
      positions = (List.range 6).filter (fun k => 1 = 1 ∨ k % 1 < 2) ∧
        ∀ c, c < 3 →
          cell c =
            (((positions.zipIdx.filter fun x => x.2 % 3 = c).map fun x =>
              (readByte dec2BitState.llrMem x.1).toInt).getLast?).getD 0 := ⟨_, _, rfl, fun _ _ => rfl⟩

theorem witness_SmallBlockErrors :
    (withRegs id).regs.argE.toNat < 1 ∧
      (withRegs id).params.eMax < (withRegs fun g => { g with argE := 16387 }).regs.argE.toNat ∧
      5 ≤ (withRegs fun g => { g with argE := 1, modulation := 5 }).regs.modulation.toNat := by decide +kernel

/-- The 16QAM example of R160 cut to `E = 5`, the least with three samples, and the image of its output. -/
def shortTwoBit : State := State.bits (withRegs fun g => { g with modulation := 2, argE := 5, argA := 2 }) [1, 0]

theorem witness_SmallBlockRoundTrip_two :
    exec .enc2Bit shortTwoBit = .next (after .enc2Bit shortTwoBit) ∧ 4 + 1 ≤ shortTwoBit.regs.argE.toNat ∧
      ∀ k, k < 5 →
        (readByte (after .enc2Bit shortTwoBit).outMem k = 1 →
            (readByte (State.llrs shortTwoBit (image [1, 0, 0, 0, 1])).llrMem k).toInt = 64) ∧
          (readByte (after .enc2Bit shortTwoBit).outMem k = 0 →
            (readByte (State.llrs shortTwoBit (image [1, 0, 0, 0, 1])).llrMem k).toInt = -64) :=
  ⟨exec_after _ _ (by decide +kernel), by decide +kernel, by decide +kernel⟩

theorem witness_SmallBlockRoundTrip_one :
    exec .enc1Bit oneBitState = .next (after .enc1Bit oneBitState) ∧
      ∀ k, k < 8 →
        (readByte (after .enc1Bit oneBitState).outMem k = 1 →
            (readByte (State.llrs oneBitState (List.replicate 8 64)).llrMem k).toInt = 64) ∧
          (readByte (after .enc1Bit oneBitState).outMem k = 0 →
            (readByte (State.llrs oneBitState (List.replicate 8 64)).llrMem k).toInt = -64) :=
  ⟨exec_after _ _ (by decide +kernel), by decide +kernel⟩

theorem witness_ReedMullerResults :
    rmState.regs.argA.toNat = 5 ∧ rmState.regs.argE.toNat = 32 ∧ 32 ≤ rmState.params.eMax ∧
      decRmState.regs.argA.toNat = 5 ∧ sumSq (readLlrs decRmState.llrMem 0 32) ≠ 0 ∧ ¬(11 = 11 ∧ 17 ≤ 16) := by
  decide +kernel

theorem witness_DecRmResult :
    ∃ (acc corr : Nat → Int) (s2 : Int),
      (∀ i, acc i =
          (((List.range 32).filter fun k => k % 32 = i).map fun k => (readByte decRmState.llrMem k).toInt).sum) ∧
        (∀ g, corr g =
          ((List.range 32).map fun i =>
            if ((List.range 5).countP fun j =>
                g.testBit j && (decRmState.params.rmBasis.getD i []).getD j false) % 2 = 1 then acc i
            else -acc i).sum) ∧
        s2 = ((List.range 32).map fun k => (readByte decRmState.llrMem k).toInt ^ 2).sum ∧ s2 ≠ 0 :=
  ⟨_, _, _, fun _ => rfl, fun _ => rfl, rfl, by decide +kernel⟩

theorem witness_ReedMullerErrors :
    (2 < 3 ∧ 11 < 12 ∧ 0 < 1 ∧ State.reset.params.eMax < 16387) ∧ (11 = 11 ∧ 1 ≤ 16 ∧ 16 ≤ State.reset.params.eMax) ∧
      ∀ k, k < 17 → readByte (State.llrs State.reset (List.replicate 17 0)).llrMem k = 0 := by decide +kernel

theorem witness_PuschAckSizeIsMonotone :
    PuschReady puschState.regs ∧ ∀ l : Fin 14, (puschState.regs.mUciSc[l]).toNat ≤ ((Vector.replicate 14 (13 : Word))[l]).toNat :=
  ⟨pusch_ready.toPuschReady, by decide +kernel⟩

theorem witness_ReedMullerRoundTrip :
    rmState.params.rmBasis = rmBasisDefault ∧ exec .encRm rmState = .next (after .encRm rmState) ∧
      decRmState.params = rmState.params ∧ decRmState.regs.argA = rmState.regs.argA ∧
      decRmState.regs.argE = rmState.regs.argE ∧ 0 < val decRmState.regs.blockThr ∧
      val decRmState.regs.blockThr < 1 ∧
      ∀ k, k < 32 → (readByte decRmState.llrMem k).toInt =
        if readByte (after .encRm rmState).outMem k = 1 then 64 else -64 :=
  ⟨rfl, exec_after _ _ (by decide +kernel), rfl, by decide +kernel, by decide +kernel, by decide +kernel,
    by decide +kernel, by decide +kernel⟩

theorem witness_EncPolarResult :
    12 ≤ polarState.regs.argA.toNat ∧ polarState.regs.argE.toNat = 32 ∧
      polarSelect polarState.params polarState.ports.polarSelect (segParams 12 32).kR (segParams 12 32).eR 10 =
        some code1832 ∧
      codeAccepted (segParams 12 32).kR 10 code1832 = true ∧
      ∃ info : Nat → List Bit, ∀ r, info r =
        if (segParams 12 32).C = 1 then readBits polarState.bitSeq 0 12
        else if r = 0 then
          List.replicate ((segParams 12 32).padded - 12) false ++
            (readBits polarState.bitSeq 0 12).take ((segParams 12 32).S - ((segParams 12 32).padded - 12))
        else (readBits polarState.bitSeq 0 12).drop ((segParams 12 32).S - ((segParams 12 32).padded - 12)) :=
  ⟨by decide +kernel, by decide +kernel, by decide +kernel, by decide +kernel, _, fun _ => rfl⟩

/-- A code for two segments of 180 bits, from a code table other than the default one. -/
def twoSegmentCode : PolarCode where
  N := 256
  n := 8
  K := 191
  nPC := 0
  kSet := List.range' 65 191
  pcSet := []
  fSet := List.range 65
  fSetSize := 65

theorem witness_EncPolarResult_two_segments :
    (segParams 360 1088).C = 2 ∧
      codeAccepted (segParams 360 1088).kR 10 twoSegmentCode = true := by decide +kernel

theorem witness_DecPolarResult :
    ∃ (x : Nat → List Int) (found : Nat → List Bit),
      (∀ r, x r =
        (List.range (segParams 12 32).eR).map fun k =>
          if readByte decPolarState.llrMem ((segParams 12 32).eR * r + k) = 0x80 then 127
          else -(readByte decPolarState.llrMem ((segParams 12 32).eR * r + k)).toInt) ∧
        polarSelect decPolarState.params decPolarState.ports.polarSelect (segParams 12 32).kR (segParams 12 32).eR 10 =
          some code1832 ∧
        codeAccepted (segParams 12 32).kR 10 code1832 = true ∧
        ∀ r, r < (segParams 12 32).C →
          ∃ u,
            polarDecode decPolarState.ports.polarDecode r code1832
                (rateDematch decPolarState.params code1832 (x r)) = some u ∧
              found r = (code1832.kSet.filter fun m => decide (m ∉ code1832.pcSet)).map fun m => u.getD m false :=
  ⟨_, _, fun _ => rfl, by decide +kernel, by decide +kernel, fun r _ => ⟨_, rfl, rfl⟩⟩

theorem witness_PolarErrors :
    (11 < 12 ∧ 1705 < 1706) ∧ polarSelect paramsDefault .table (segParams 12 20).kR (segParams 12 20).eR 10 = none ∧
      (∃ code, polarSelect paramsDefault .table (segParams 12 32).kR (segParams 12 32).eR 10 = some code ∧
        codeAccepted (segParams 12 32).kR 10 code = true) ∧
      polarDecode (.answers [none]) 0 twoSegmentCode [] = none ∧ 0 < (segParams 12 32).C := by
  refine ⟨by omega, by decide +kernel, ?_, rfl, by decide +kernel⟩
  obtain ⟨code, h⟩ :=
    exists_of_okay (x := polarLookup paramsDefault .table (segParams 12 32).kR (segParams 12 32).eR) (by decide +kernel)
  exact ⟨code, polarLookup_eq_ok.mp h⟩

theorem witness_PolarTransform : [true, false].length = 2 ^ 1 ∧ [true].length = 2 ^ 0 := by decide

theorem witness_ChannelAllocationRoundTrip :
    ∃ code : PolarCode, codeAccepted code.K 10 code = true ∧ (List.replicate code.K true).length = code.K := by
  obtain ⟨-, -, ⟨code, -, h⟩, -⟩ := witness_PolarErrors
  have hK : code.K = (segParams 12 32).kR := by
    simp only [codeAccepted, Bool.and_eq_true, beq_iff_eq] at h
    tauto
  exact ⟨code, by rw [hK]; exact h, List.length_replicate⟩

theorem witness_CrcIsThePolynomialRemainder : 0x61 / 2 ^ 6 = 1 ∧ 0xE21 / 2 ^ 11 = 1 ∧ 1 / 2 ^ 0 = 1 := by decide

theorem witness_InterleaversArePermutations : paramsDefault.subblockP.Perm (List.range 32) := by decide +kernel

theorem witness_DefaultTableAnswersAreAccepted :
    paramsDefault.polarQ.Perm (List.range 1024) ∧ polarTable paramsDefault 18 32 10 = some code1832 ∧
      polarTable paramsDefault 1024 2000 10 = none :=
  ⟨by decide +kernel, by decide +kernel, by decide +kernel⟩

theorem witness_InverseRateMatcherSaturates :
    (∀ v ∈ ([127, -127, 0] : List Int), -(paramsDefault.llrSat : Int) ≤ v ∧ v ≤ paramsDefault.llrSat) ∧
      paramsDefault.subblockP.Perm (List.range 32) ∧
      (∀ k ∈ [10, 12, 32], codeAccepted (plainCode k).K 10 (plainCode k) = true ∧ (plainCode k).N = 32) ∧
      (polarTransform 5 (List.replicate 32 true)).length = 32 ∧ (127 : Int) ≤ paramsDefault.llrSat := by
  decide +kernel

/-- The soft values of the decoder's example after the sign flip. -/
def decPolarSoft : List Int := (List.range 32).map fun k => -(readByte decPolarState.llrMem (32 * 0 + k)).toInt

/-- The message of the example of R269: the payload and its six parity bits. -/
def polarMessage : List Bit := crcAttach 0x61 6 (readBits polarState.bitSeq 0 12)

theorem noiseless_dec_polar :
    NoiselessImage paramsDefault code1832 32 (polarTransform 5 (chanallocTx code1832 polarMessage))
      (rateDematch paramsDefault code1832 decPolarSoft) := by
  constructor <;> decide +kernel

theorem contract_dec_polar :
    MeetsContractAt paramsDefault .reference 0 code1832 32 (rateDematch paramsDefault code1832 decPolarSoft) :=
  meetsContractAt_of_answer (by decide) rfl noiseless_dec_polar rfl (by decide +kernel)

theorem witness_PolarRoundTrip :
    (segParams 12 32).C = 1 ∧ (segParams 12 32).eR = 32 ∧
      polarSelect polarState.params polarState.ports.polarSelect (segParams 12 32).kR (segParams 12 32).eR 10 =
        some code1832 ∧
      codeAccepted (segParams 12 32).kR 10 code1832 = true ∧
      polarState.params.subblockP.Perm (List.range 32) ∧ (64 : Int) ≤ polarState.params.llrSat ∧
      ZeroWhereShortened polarState.params code1832 32 ∧
      exec .encPolar polarState = .next (after .encPolar polarState) ∧ decPolarState.params = polarState.params ∧
      decPolarState.ports.polarSelect = polarState.ports.polarSelect ∧
      decPolarState.regs.argA = polarState.regs.argA ∧ decPolarState.regs.argE = polarState.regs.argE ∧
      (∀ k, k < 32 → (readByte decPolarState.llrMem k).toInt =
        if readByte (after .encPolar polarState).outMem k = 1 then 64 else -64) ∧
      ∀ r, r < 1 →
        MeetsContractAt decPolarState.params decPolarState.ports.polarDecode r code1832 32
          (rateDematch decPolarState.params code1832
            ((List.range 32).map fun k => -(readByte decPolarState.llrMem (32 * r + k)).toInt)) := by
  refine ⟨by decide +kernel, by decide +kernel, by decide +kernel, by decide +kernel, by decide +kernel,
    by decide +kernel, fun h => ?_, exec_after _ _ (by decide +kernel), rfl, rfl, rfl, rfl, by decide +kernel,
    fun r hr => ?_⟩
  · cases h
  · obtain rfl : r = 0 := by omega
    exact contract_dec_polar

theorem witness_ReferenceDecoderMeetsTheContract :
    (codeAccepted (plainCode 12).K 10 (plainCode 12) = true ∧ (plainCode 12).N ≤ 32 ∧ 7 * 24 < 16 * (plainCode 12).K) ∧
      polarTable paramsDefault 18 32 10 = some code1832 ∧ codeAccepted 18 10 code1832 = true ∧
      (∃ code, polarTable paramsDefault 18 43 10 = some code ∧ matchMode code.N code.K 43 = .puncturing) ∧
      NoiselessImage paramsDefault code1832 32 (polarTransform 5 (chanallocTx code1832 polarMessage))
        (rateDematch paramsDefault code1832 decPolarSoft) := by
  refine ⟨by decide +kernel, by decide +kernel, by decide +kernel, ?_, noiseless_dec_polar⟩
  exact ⟨(polarTable paramsDefault 18 43 10).get (by decide +kernel), (Option.some_get _).symm, by decide +kernel⟩

theorem witness_EncodeResult :
    (∃ out, rmState.coded 5 32 (readBits rmState.bitSeq 0 5) = .ok out) ∧
      (∃ out, polarState.coded 12 32 (readBits polarState.bitSeq 0 12) = .ok out) ∧
      State.reset.coded 0 0 [] = .error .invalidInput ∧ State.reset.coded 1706 1 [] = .error .invalidInput :=
  ⟨exists_of_okay (by decide +kernel), exists_of_okay (by decide +kernel), by decide +kernel,
    by decide +kernel⟩

theorem witness_DecodeResult :
    (∃ r, decRmState.decoded 5 32 = .ok r) ∧ (∃ r, decPolarState.decoded 12 32 = .ok r) ∧
      (∃ r, oneBitState.decoded 1 8 = .ok r) ∧ State.reset.decoded 1706 1 = .error .invalidInput :=
  ⟨exists_of_okay (by decide +kernel), exists_of_okay (by decide +kernel), exists_of_okay (by decide +kernel),
    by decide +kernel⟩

theorem witness_EncPucchResult :
    (resourceE encPucchState.regs = .ok 16 ∧ encPucchState.ports.csi.nofBits = 0 ∧
        ∃ payload, pucchPayload encPucchState = .ok payload ∧ payload.length = 5 ∧
          ∃ out, encPucchState.coded payload.length 16 payload = .ok out) ∧
      resourceE (pucchRegs 4 1 1 3) = .error .invalidOccLength ∧
      resourceE (pucchRegs 2 0x10000000 1 0) = .ok 0x100000000 ∧
      pucchPayload { csiState with ports.csi.packed := none } = .error .csiPackFailed ∧
      ∃ payload, pucchPayload csiState = .ok payload ∧ payload.length ≤ 11 := by
  refine ⟨⟨by decide +kernel, rfl, ackSrBits encPucchState, by decide +kernel, by decide +kernel,
    exists_of_okay (by decide +kernel)⟩, by decide +kernel, by decide +kernel, by decide +kernel,
    ackSrBits csiState ++ [true, false, true, true], ?_, ?_⟩
  · unfold pucchPayload
    rw [if_neg (by decide +kernel), if_neg (by decide +kernel)]
    rfl
  · rw [List.length_append]
    have : (ackSrBits csiState).length = 4 := by simp [ackSrBits, intToBits]; decide +kernel
    simp [this]

theorem witness_DecPucchResult :
    (resourceE decPucchState.regs = .ok 16 ∧ pucchSize decPucchState = .ok 5 ∧ decPucchState.ports.csi.nofBits = 0 ∧
        ∃ r, decPucchState.decoded 5 16 = .ok r) ∧
      pucchSize csiState = .error .unsupported ∧
      pucchSize (sizingState fun g => { g with oAck := 0 }) = .ok 4 ∧ 0 < csiState.ports.csi.nofBits :=
  ⟨⟨by decide +kernel, by decide +kernel, rfl, exists_of_okay (by decide +kernel)⟩, by decide +kernel,
    by decide +kernel, by decide +kernel⟩

theorem witness_EncPuschAckResult :
    (PuschReady encAckState.regs ∧ encAckState.regs.oAck.toNat = 4 ∧ encAckState.regs.nofCsi.toNat = 0 ∧
        ∃ out, encAckState.coded 4 (eAck encAckState.regs 4) (readBits encAckState.ackMem 0 4) = .ok out) ∧
      (coercedState.regs.kSum = 0 ∧ 1 < coercedState.regs.nofCsi.toNat ∧
        coercedState.ports.csi.hasPart2 = false ∧ coercedState.regs.oAck.toNat < 2 ∧
        ∃ out, coercedState.coded 2 (eAck coercedState.regs 2) [true, false] = .ok out) ∧
      2 ^ 32 ≤ eAck manyLayers.regs 4 ∧ 1706 < (withRegs fun g => { g with oAck := 1707 }).regs.oAck.toNat :=
  ⟨⟨pusch_ready.toPuschReady, by decide +kernel, by decide +kernel, exists_of_okay (by decide +kernel)⟩,
    ⟨by decide +kernel, by decide +kernel, by decide +kernel, by decide +kernel, exists_of_okay (by decide +kernel)⟩,
    by decide +kernel, by decide +kernel⟩

theorem witness_DecPuschAckResult :
    PuschReady decAckState.regs ∧ decAckState.regs.oAck.toNat = 4 ∧ decAckState.regs.nofCsi.toNat = 0 ∧
      ∃ r, decAckState.decoded 4 (eAck decAckState.regs 4) = .ok r :=
  ⟨pusch_ready.toPuschReady, by decide +kernel, by decide +kernel, exists_of_okay (by decide +kernel)⟩

theorem csi_ready : Csi1Ready csiState.regs where
  layers := by decide +kernel
  modulation := by decide +kernel
  rate := by decide +kernel
  alpha := by decide +kernel
  betaHarq := by decide +kernel
  betaCsi1 := by decide +kernel

theorem csi_range_ready : Csi1Ready (sizingState fun g => { g with oAck := 1707 }).regs :=
  ⟨⟨csi_ready.layers, csi_ready.modulation, csi_ready.rate, csi_ready.alpha, csi_ready.betaHarq⟩, csi_ready.betaCsi1⟩

theorem witness_EncPuschCsi1Result :
    csiState.ports.csi.packed = some [true, false, true, true] ∧ Csi1Ready csiState.regs ∧
      eCsi1 csiState.regs 4 = .ok 32 ∧ (∃ out, csiState.coded 4 32 [true, false, true, true] = .ok out) ∧
      eCsi1 overbookedState.regs 4 = .error .invalidInput ∧
      (sizingState fun g => { g with oAck := 1707 }).ports.csi.packed = some [true, false, true, true] ∧
      Csi1Ready (sizingState fun g => { g with oAck := 1707 }).regs ∧
      1706 < (sizingState fun g => { g with oAck := 1707 }).regs.oAck.toNat :=
  ⟨rfl, csi_ready, by decide +kernel, exists_of_okay (by decide +kernel), by decide +kernel, rfl, csi_range_ready,
    by decide +kernel⟩

theorem witness_DecPuschCsi1Result :
    decCsiState.ports.csi.nofBits = 4 ∧ Csi1Ready decCsiState.regs ∧ eCsi1 decCsiState.regs 4 = .ok 32 ∧
      decCsiState.ports.csi.unpackOk = true ∧ (∃ r, decCsiState.decoded 4 32 = .ok r) ∧
      (sizingState fun g => { g with oAck := 1707 }).ports.csi.nofBits = 4 ∧
      Csi1Ready (sizingState fun g => { g with oAck := 1707 }).regs ∧
      1706 < (sizingState fun g => { g with oAck := 1707 }).regs.oAck.toNat :=
  ⟨rfl, csi_ready, by decide +kernel, rfl, exists_of_okay (by decide +kernel), rfl, csi_range_ready, by decide +kernel⟩

theorem witness_NothingToCode :
    (State.reset.regs.oAck = 0 ∧ State.reset.regs.nofCsi.toNat ≤ 1) ∧
      State.reset.ports.csi.packed = some [] ∧ State.reset.ports.csi.nofBits = 0 := by decide +kernel

theorem witness_UnpackAfterPack :
    exec .packPucch encPucchState = .next (after .packPucch encPucchState) ∧
      (after .packPucch encPucchState).status.err = false ∧ encPucchState.ports.csi.nofBits = 0 :=
  ⟨exec_after _ _ (by decide +kernel), by decide +kernel, rfl⟩

/-- The PUSCH example with `alpha = 2` and a reservation that still fits. -/
def roomyState : State := { puschState with regs := { puschState.regs with alpha := 0x40000000 } }

theorem witness_PuschSizesFillTheResources :
    (Csi1Ready puschState.regs ∧ puschState.regs.kSum = 0 ∧ puschState.regs.csiPart2Present.getLsbD 0 = false ∧
        puschState.regs.oAck.toNat ≤ 1706 ∧ val puschState.regs.alpha ≤ 1 ∧ puschState.regs.argA.toNat = max 2 puschState.regs.oAck.toNat ∧
        puschState.regs.nofLayers.toNat * puschState.regs.qm * mSum puschState.regs < 2 ^ 32) ∧
      Csi1Ready roomyState.regs ∧ roomyState.regs.oAck.toNat ≤ 1706 ∧ 1 < val roomyState.regs.alpha ∧
        qAck roomyState.regs (max 2 roomyState.regs.oAck.toNat) ≤ mSum roomyState.regs :=
  ⟨⟨pusch_ready, by decide +kernel, by decide +kernel, by decide +kernel, by decide +kernel, by decide +kernel,
      by decide +kernel⟩,
    ⟨⟨by decide +kernel, by decide +kernel, by decide +kernel, by decide +kernel, by decide +kernel⟩, by decide +kernel⟩,
    by decide +kernel, by decide +kernel, by decide +kernel⟩

end Sys2Proof.Tests
end

