-- ==== Sys2Proof/Proofs/Host.lean ====
section
/-! PROOFS. The host's accesses: the binary32 patterns a threshold takes, what every register reads after a write of
one, writes of memory elements, the layout of `STATUS`, the state after reset. -/

namespace Sys2Proof.Machine

set_option Elab.async false

/-! ## Binary32 patterns -/

theorem floatExp_eq (w : Word) : floatExp w = w.toNat / 2 ^ 23 % 256 := by
  simp [floatExp, BitVec.extractLsb, BitVec.extractLsb'_toNat, Nat.shiftRight_eq_div_pow]

theorem floatFrac_eq (w : Word) : floatFrac w = w.toNat % 2 ^ 23 := by
  simp [floatFrac, BitVec.extractLsb, BitVec.extractLsb'_toNat]

theorem signBit_iff (w : Word) : w.getLsbD 31 = true ↔ 2 ^ 31 ≤ w.toNat := by
  have h := w.isLt
  rw [BitVec.getLsbD, Nat.testBit_eq_decide_div_mod_eq]
  simp only [decide_eq_true_eq]
  omega

/-- A pattern has magnitude 0 exactly when all its bits but the sign are 0. -/
theorem floatMagnitude_pos_iff (w : Word) : 0 < floatMagnitude w ↔ w.toNat % 2 ^ 31 ≠ 0 := by
  rw [floatMagnitude, floatExp_eq, floatFrac_eq]
  split
  · omega
  · have : 0 < (2 ^ 23 + w.toNat % 2 ^ 23) * 2 ^ (w.toNat / 2 ^ 23 % 256 - 1) := by positivity
    omega

theorem val_pos_iff (w : Word) : 0 < val w ↔ w.toNat < 2 ^ 31 ∧ 0 < floatMagnitude w := by
  have hm : (0 : ℚ) < (floatMagnitude w : ℚ) / 2 ^ 149 ↔ 0 < floatMagnitude w := by
    rw [div_pos_iff_of_pos_right (by positivity)]
    exact Nat.cast_pos
  have h0 : (0 : ℚ) ≤ (floatMagnitude w : ℚ) / 2 ^ 149 := by positivity
  unfold val
  by_cases hs : w.getLsbD 31 = true
  · have := (signBit_iff w).mp hs
    rw [if_pos hs]
    constructor
    · intro h
      linarith
    · omega
  · have : ¬2 ^ 31 ≤ w.toNat := fun h => hs ((signBit_iff w).mpr h)
    rw [if_neg hs, one_mul, hm]
    omega

/-- The finite positive patterns are those from 1 to `0x7F7FFFFF` (00_scope.md R15). -/
theorem finitePositive_iff (w : Word) : finitePositive w = true ↔ 0 < w.toNat ∧ w.toNat < 0x7F800000 := by
  have h := w.isLt
  simp only [finitePositive, floatIsFinite, Bool.and_eq_true, decide_eq_true_eq, val_pos_iff, floatMagnitude_pos_iff,
    floatExp_eq]
  omega

theorem finitePositive_default : finitePositive 0x3F000000 = true := by
  rw [finitePositive_iff]
  decide

theorem thresholdWritten_eq (w : Word) :
    thresholdWritten w = if 0 < w.toNat ∧ w.toNat < 0x7F800000 then w else 0x3F000000 := by
  simp only [thresholdWritten, finitePositive_iff]

/-- What a host write leaves in a threshold register is finite positive (10_state.md R27). -/
theorem finitePositive_thresholdWritten (w : Word) : finitePositive (thresholdWritten w) = true := by
  unfold thresholdWritten
  split
  · assumption
  · exact finitePositive_default

/-! ## The register table -/

/-- The number of a register (10_state.md R22). -/
def regNumber : Reg → Nat
  | .cmd => 0
  | .status => 1
  | .resE => 2
  | .resA => 3
  | .ctrl => 4
  | .blockThr => 5
  | .oneBitThr => 6
  | .argA => 7
  | .argE => 8
  | .oAck => 16
  | .oSr => 17
  | .nofCsi => 18
  | .rnti => 19
  | .modulation => 20
  | .nofLayers => 21
  | .rate => 22
  | .alpha => 23
  | .betaHarq => 24
  | .betaCsi1 => 25
  | .l0 => 26
  | .kSum => 27
  | .csiPart2Present => 28
  | .mUciSc l => 32 + l
  | .pucchFormat => 48
  | .pucchNofSymbols => 49
  | .pucchNofPrb => 50
  | .pucchOccLength => 51
  | .pucchEnablePiBpsk => 52
  | .sr => 56

theorem regNumber_of_regOfNumber : ∀ n < 64, ∀ r ∈ regOfNumber n, regNumber r = n := by decide

/-- The registers a host write stores to (10_state.md R22, access `RW`). -/
def hostWritable (r : Reg) : Bool := r ≠ .cmd && r ≠ .status && r ≠ .resE && r ≠ .resA

theorem mem_hostWritableNumbers :
    ∀ n < 64, (n ∈ hostWritableNumbers ↔ ∃ r ∈ regOfNumber n, hostWritable r = true) := by decide

/-- What a host write of `v` stores in a register that takes it (10_state.md R27). -/
def valueWritten (r : Reg) (v : Word) : Word := if r = .blockThr ∨ r = .oneBitThr then thresholdWritten v else v

/-- Reading any register after a host write of one. -/
theorem readReg_writeReg (s : State) (rest : List HostOp) (r q : Reg) (v : Word) :
    readReg { s with pending := rest, regs := writeReg s.regs r v } q =
      if q = r ∧ hostWritable r = true then valueWritten r v else readReg s q := by
  cases r with
  | mUciSc l =>
    cases q with
    | mUciSc k =>
      by_cases h : k = l
      · subst h
        simp [readReg, writeReg, hostWritable, valueWritten]
      · have h' : (l : Nat) ≠ k := fun e => h (Fin.ext e.symm)
        simp [readReg, writeReg, h, h']
    | _ => rfl
  | _ => cases q <;> rfl

theorem step_of_hostAccess {s : State} {op : HostOp} {rest : List HostOp} (hp : s.pending = op :: rest)
    (hw : issuedWord op = none) : step s = hostAccess op { s with pending := rest } := by
  rw [step, hp]
  simp only [hw]

theorem hostReadReg_writeReg {s : State} {rest : List HostOp} {r : Reg} {n : Nat} (v : Word) (hn : n < 64)
    (hr : regOfNumber n = some r) {m : Nat} (hm : m < 64) :
    hostReadReg { s with pending := rest, regs := writeReg s.regs r v } m =
      if m = n ∧ hostWritable r = true then valueWritten r v else hostReadReg s m := by
  unfold hostReadReg
  cases hq : regOfNumber m with
  | none =>
    have : m ≠ n := by
      rintro rfl
      rw [hr] at hq
      cases hq
    simp [this]
  | some q =>
    have hmn : m = n ↔ q = r := by
      constructor
      · rintro rfl
        exact Option.some.inj (hq.symm.trans hr)
      · rintro rfl
        exact (regNumber_of_regOfNumber m hm q hq).symm.trans (regNumber_of_regOfNumber n hn q hr)
    simp only [readReg_writeReg, hmn]

theorem isThreshold_iff :
    ∀ n < 64, ∀ r ∈ regOfNumber n, ((r = .blockThr ∨ r = .oneBitThr) ↔ (n = 5 ∨ n = 6)) := by decide

/-- Settles O5: the register table is an injection of numbers into registers, and each register is a field of its
own. -/
theorem hostRegisterWrite : Obligations.HostRegisterWrite := by
  intro s n v rest hp hpos hn
  have hw : issuedWord (.wr n v) = none := by simp [issuedWord, Nat.ne_of_gt hpos]
  have hstep : step s = .next (hostWriteReg { s with pending := rest } n v) := by
    rw [step_of_hostAccess hp hw, hostAccess, if_pos (show n < regCount from hn)]
  refine ⟨_, hstep, ?_⟩
  unfold hostWriteReg
  cases hr : regOfNumber n with
  | none =>
    have hnot : n ∉ hostWritableNumbers := by
      rw [mem_hostWritableNumbers n hn, hr]
      rintro ⟨r, hr', -⟩
      cases hr'
    exact ⟨rfl, fun m _ => by rw [if_neg (fun h => hnot h.2)]; rfl⟩
  | some r =>
    refine ⟨rfl, fun m hm => ?_⟩
    have hmem : n ∈ hostWritableNumbers ↔ hostWritable r = true := by
      rw [mem_hostWritableNumbers n hn, hr]
      simp
    have hthr := isThreshold_iff n hn r hr
    simp only [hostReadReg_writeReg v hn hr hm, hmem, valueWritten, thresholdWritten_eq, hthr]

/-! ## Memory accesses -/

theorem readBit_writeOne (m : Memory Bit) (i a : Nat) (v : Bit) :
    readBit (m.writeRange i [v]) a = if a = i then v else readBit m a := by
  by_cases h : a = i
  · subst h
    simpa [readBit] using Memory.read_writeRange_inside Config.anyBit m a [v] 0 (by simp)
  · rw [if_neg h]
    exact Memory.read_writeRange_outside _ _ _ _ _ (by simp only [List.length_singleton]; omega)

theorem readByte_writeOne (m : Memory Byte) (i a : Nat) (v : Byte) :
    readByte (m.writeRange i [v]) a = if a = i then v else readByte m a := by
  by_cases h : a = i
  · subst h
    simpa [readByte] using Memory.read_writeRange_inside Config.anyByte m a [v] 0 (by simp)
  · rw [if_neg h]
    exact Memory.read_writeRange_outside _ _ _ _ _ (by simp only [List.length_singleton]; omega)

theorem elementAccess_inside {n i : Nat} (h : i < n) (t : State) : elementAccess (some n) i t = .next t := by
  simp [elementAccess, h]

/-- Settles O6: an access inside a memory is accepted and writes a range of one element. -/
theorem hostMemoryWrite : Obligations.HostMemoryWrite := by
  intro s i rest
  refine ⟨fun v hp hi => ?_, fun v hp hi => ?_, fun v hp hi => ?_, fun v hp hi => ?_⟩
  · exact ⟨_, (step_of_hostAccess hp rfl).trans (elementAccess_inside hi _), rfl, fun a => readBit_writeOne _ _ _ _⟩
  · exact ⟨_, (step_of_hostAccess hp rfl).trans (elementAccess_inside hi _), rfl, fun a => readBit_writeOne _ _ _ _⟩
  · exact ⟨_, (step_of_hostAccess hp rfl).trans (elementAccess_inside hi _), rfl, fun a => readByte_writeOne _ _ _ _⟩
  · exact ⟨_, (step_of_hostAccess hp rfl).trans (elementAccess_inside hi _), rfl, fun a => readByte_writeOne _ _ _ _⟩

/-! ## Command words -/

theorem step_of_command {s : State} {w : Word} {rest : List HostOp} (hp : s.pending = .wr 0 w :: rest) :
    step s = runWord w { s with pending := rest } := by
  rw [step, hp]
  rfl

theorem runWord_of_ok {w : Word} {i : Instr} (h : decodeWord w = .ok i) (s : State) : runWord w s = exec i s := by
  rw [runWord, h]

theorem runWord_of_error {w : Word} {e : DecodeError} (h : decodeWord w = .error e) (s : State) :
    runWord w s = .next s.illegalCommand := by
  rw [runWord, h]

/-- Settles O3: a step with a write of `CMD` next runs the word written. -/
theorem commandWriteExecutesItsCommand : Obligations.CommandWriteExecutesItsCommand := by
  intro s w rest hp
  exact ⟨fun i h => (step_of_command hp).trans (runWord_of_ok h _),
    fun e h => (step_of_command hp).trans (runWord_of_error h _), rfl⟩

/-! ## STATUS -/

theorem getLsbD_flagAt (pos : Nat) (b : Bool) (k : Nat) (hk : k < 32) :
    (flagAt pos b).getLsbD k = (b && decide (k = pos)) := by
  cases b
  · simp [flagAt]
  · simp only [flagAt, if_true, BitVec.getLsbD_shiftLeft, BitVec.getLsbD_one, Bool.true_and]
    by_cases h : k < pos
    · simp [h, Nat.ne_of_lt h]
    · simp [h, hk]
      omega

/-- Each bit of the word of `STATUS` comes from one field (10_state.md R24). -/
theorem getLsbD_statusWord (st : Status) (k : Nat) (hk : k < 32) :
    st.word.getLsbD k =
      (st.done && decide (k = 0) || st.err && decide (k = 1) || st.valid && decide (k = 2) ||
        decide (4 ≤ k) && st.phase.code.getLsbD (k - 4) || decide (8 ≤ k) && st.errCode.getLsbD (k - 8)) := by
  simp only [Status.word, BitVec.getLsbD_or, getLsbD_flagAt _ _ k hk, BitVec.getLsbD_shiftLeft, BitVec.getLsbD_setWidth,
    hk, decide_true, Bool.true_and]
  grind

/-- From bit 4 on: the phase code, then the error code. -/
theorem getLsbD_statusWord_high (st : Status) (k : Nat) (h4 : 4 ≤ k) (hk : k < 32) :
    st.word.getLsbD k =
      (decide (k < 8) && st.phase.code.getLsbD (k - 4) || decide (8 ≤ k) && st.errCode.getLsbD (k - 8)) := by
  rw [getLsbD_statusWord st k hk]
  by_cases h8 : k < 8
  · simp [show k ≠ 0 by omega, show k ≠ 1 by omega, show k ≠ 2 by omega, h4, h8]
  · simp [show k ≠ 0 by omega, show k ≠ 1 by omega, show k ≠ 2 by omega, h8,
      BitVec.getLsbD_of_ge st.phase.code (k - 4) (by omega)]

theorem phaseField_statusWord (st : Status) : st.word.extractLsb' 4 4 = st.phase.code := by
  apply BitVec.eq_of_getLsbD_eq
  intro k hk
  rw [BitVec.getLsbD_extractLsb', getLsbD_statusWord_high st _ (by omega) (by omega)]
  simp [hk, show 4 + k < 8 by omega]

theorem errCodeField_statusWord (st : Status) : st.word.extractLsb' 8 8 = st.errCode := by
  apply BitVec.eq_of_getLsbD_eq
  intro k hk
  rw [BitVec.getLsbD_extractLsb', getLsbD_statusWord_high st _ (by omega) (by omega)]
  simp [hk]

theorem upperHalf_statusWord (st : Status) : st.word.extractLsb' 16 16 = 0 := by
  apply BitVec.eq_of_getLsbD_eq
  intro k hk
  rw [BitVec.getLsbD_extractLsb', getLsbD_statusWord_high st _ (by omega) (by omega),
    BitVec.getLsbD_of_ge st.errCode _ (by omega)]
  simp [show ¬16 + k < 8 by omega]

/-- Settles O14: the fields of `STATUS` stand at places of their own. -/
theorem statusWordLayout : Obligations.StatusWordLayout := by
  intro s
  rw [show hostReadReg s 1 = s.status.word from rfl]
  refine ⟨?_, ?_, ?_, ?_, ?_, errCodeField_statusWord _, upperHalf_statusWord _⟩
  · rw [getLsbD_statusWord _ 0 (by omega)]
    simp
  · rw [getLsbD_statusWord _ 1 (by omega)]
    simp
  · rw [getLsbD_statusWord _ 2 (by omega)]
    simp
  · rw [getLsbD_statusWord _ 3 (by omega)]
    simp
  · rw [phaseField_statusWord]
    cases s.status.phase <;> rfl

/-! ## Reset -/

/-- Settles O9: a memory with no listed element reads as the values of its draw. -/
theorem resetLeavesMemoriesFree : Obligations.ResetLeavesMemoriesFree :=
  ⟨by decide, ⟨0, fun _ => rfl⟩, ⟨1, fun _ => rfl⟩, ⟨2, fun _ => rfl⟩, ⟨3, fun _ => rfl⟩, ⟨4, fun _ => rfl⟩,
    ⟨5, fun _ => rfl⟩, ⟨6, fun _ => rfl⟩⟩

theorem Status.consistent_reset : Status.reset.Consistent where
  errCode_zero := by decide
  errCode_range := by decide
  phase_error := by decide
  phase_final := fun _ => .inl rfl
  not_done := fun _ => rfl

/-- Settles O11: `any` memories are canonical and the thresholds hold 0.5. -/
theorem resetMeetsTheInvariant : Obligations.ResetMeetsTheInvariant where
  ackMem := Memory.wf_any _ _
  bitSeq := Memory.wf_any _ _
  llrMem := Memory.wf_any _ _
  outMem := Memory.wf_any _ _
  cBuf := Memory.wf_any _ _
  alloc := Memory.wf_any _ _
  dBuf := Memory.wf_any _ _
  blockThr := finitePositive_default
  oneBitThr := finitePositive_default
  status := Status.consistent_reset

end Sys2Proof.Machine
end

