-- ==== Sys2Proof/Proofs/Payloads.lean ====
section
/-! PROOFS. Consecutive memory writes as one, the size a command stores in a register, and the payload commands run:
what packing and sizing answer (40_sizing.md, 41_payload.md). -/

namespace Sys2Proof.Machine

set_option Elab.async false

/-! ## Writes that make one -/

theorem cellsFrom_append {α : Type} (base : Nat) (vs ws : List α) :
    cellsFrom base (vs ++ ws) = cellsFrom base vs ++ cellsFrom (base + vs.length) ws := by
  induction vs generalizing base with
  | nil => rfl
  | cons v vs ih => simp [cellsFrom, ih, Nat.add_assoc, Nat.add_comm 1]

/-- A write right behind another is one write of both. -/
theorem Memory.writeRange_writeRange {α : Type} (m : Memory α) (base : Nat) (vs ws : List α) :
    (m.writeRange base vs).writeRange (base + vs.length) ws = m.writeRange base (vs ++ ws) := by
  have hin {c : Nat × α} (h : c ∈ cellsFrom base vs) := mem_cellsFrom h
  have h1 : (cellsFrom base vs).filter (fun c => decide (c.1 < base + vs.length)) = cellsFrom base vs :=
    List.filter_eq_self.mpr fun c hc => by simpa using (hin hc).2
  have h2 : (cellsFrom base vs).filter (fun c => decide (base + vs.length + ws.length ≤ c.1)) = [] :=
    List.filter_eq_nil_iff.mpr fun c hc => by have := (hin hc).2; simp; omega
  simp only [Memory.writeRange, List.filter_append, List.filter_filter, h1, h2, cellsFrom_append, List.length_append,
    List.append_assoc]
  congr 1
  have h3 : (m.cells.filter fun c => decide (c.1 < base + vs.length) && decide (c.1 < base)) =
      m.cells.filter fun c => decide (c.1 < base) :=
    List.filter_congr fun c _ => by by_cases h : c.1 < base <;> simp [h]; omega
  have h4 : (m.cells.filter fun c => decide (c.1 < base + vs.length) && decide (base + vs.length ≤ c.1)) = [] :=
    List.filter_eq_nil_iff.mpr fun c _ => by simp
  have h5 : (m.cells.filter fun c => decide (base + vs.length + ws.length ≤ c.1) && decide (c.1 < base)) = [] :=
    List.filter_eq_nil_iff.mpr fun c _ => by simp; omega
  have h6 : (m.cells.filter fun c =>
        decide (base + vs.length + ws.length ≤ c.1) && decide (base + vs.length ≤ c.1)) =
      m.cells.filter fun c => decide (base + (vs.length + ws.length) ≤ c.1) :=
    List.filter_congr fun c _ => by rw [Bool.eq_iff_iff]; simp; omega
  rw [h3, h4, h5, h6]
  simp

@[simp] theorem Memory.writeRange_nil {α : Type} (m : Memory α) : m.writeRange 0 [] = m := by
  simp [Memory.writeRange, cellsFrom]

/-! ## Sizes -/

/-- A count that a register has to hold (40_sizing.md R101). -/
def fitsRegister (n : Nat) : Except ErrorKind Nat := if countMax < n then .error .invalidInput else .ok n

/-- The count `E` of `PUCCH_E` and the PUCCH façades. -/
def pucchCount (s : State) : Except ErrorKind Nat := resourceE s.regs >>= fitsRegister

/-- The count `E` of a HARQ-ACK transmission of `o` bits. -/
def puschAckCount (s : State) (o : Nat) : Except ErrorKind Nat :=
  puschChecks false s.regs >>= fun _ => fitsRegister (eAck s.regs o)

/-- The count `E` of a CSI part 1 transmission. -/
def puschCsi1Count (s : State) : Except ErrorKind Nat :=
  puschChecks true s.regs >>= fun _ => eCsi1 s.regs s.ports.csi.nofBits >>= fitsRegister

theorem sizePucch_bind_run {α : Type} (f : Nat → Cmd α) (s : State) :
    (sizePucch >>= f) s = match pucchCount s with
      | .ok e => f e s
      | .error k => .error k s := by
  rw [Cmd.bind_run, sizePucch_run, pucchCount]
  cases resourceE s.regs with
  | error k => rfl
  | ok e => by_cases h : countMax < e <;> simp [bind, Except.bind, fitsRegister, h]

theorem sizePuschAck_bind_run {α : Type} (o : Nat) (f : Nat → Cmd α) (s : State) :
    (sizePuschAck o >>= f) s = match puschAckCount s o with
      | .ok e => f e s
      | .error k => .error k s := by
  rw [Cmd.bind_run, sizePuschAck_run, puschAckCount]
  cases puschChecks false s.regs with
  | error k => rfl
  | ok u => by_cases h : countMax < eAck s.regs o <;> simp [bind, Except.bind, fitsRegister, h]

theorem sizePuschCsi1_bind_run {α : Type} (f : Nat → Cmd α) (s : State) :
    (sizePuschCsi1 >>= f) s = match puschCsi1Count s with
      | .ok e => f e s
      | .error k => .error k s := by
  rw [Cmd.bind_run, sizePuschCsi1_run, puschCsi1Count]
  cases puschChecks true s.regs with
  | error k => rfl
  | ok u =>
    cases h : eCsi1 s.regs s.ports.csi.nofBits with
    | error k => rfl
    | ok e => by_cases h : countMax < e <;> simp [bind, Except.bind, fitsRegister, h]

/-! ## Payloads -/

/-- The three modes of a payload, by the counts (41_payload.md R130). -/
theorem mode_cases (s : State) :
    (s.mode = .ackSr ∧ s.ports.csi.nofBits = 0) ∨
      (s.mode = .csiOnly ∧ s.ports.csi.nofBits ≠ 0 ∧ s.regs.oAck.toNat = 0 ∧ s.regs.oSr.toNat = 0) ∨
      (s.mode = .combined ∧ s.ports.csi.nofBits ≠ 0 ∧ ¬(s.regs.oAck.toNat = 0 ∧ s.regs.oSr.toNat = 0)) := by
  unfold State.mode payloadMode
  split_ifs with h1 h2
  · exact .inl ⟨rfl, h1⟩
  · exact .inr (.inl ⟨rfl, h1, h2⟩)
  · exact .inr (.inr ⟨rfl, h1, h2⟩)

theorem ackSrBits_length (s : State) : (ackSrBits s).length = s.regs.oAck.toNat + s.regs.oSr.toNat := by
  simp [ackSrBits, intToBits]

/-- `pack_pucch` writes the payload as `pucchPayload` says, or raises having changed nothing but `BITSEQ`. -/
theorem packPayload_pucchPayload (s : State) :
    match pucchPayload s with
    | .ok bits => packPayload s = .ok bits.length (s.writeBitSeq 0 bits)
    | .error k => ∃ m, packPayload s = .error k { s with bitSeq := m } := by
  rw [packPayload_run, pucchPayload]
  simp only [show aMax = 1706 from rfl]
  by_cases hchecks : 1706 < s.regs.oAck.toNat ∨ 32 < s.regs.oSr.toNat ∨ 2 ^ s.regs.oSr.toNat ≤ s.regs.sr.toNat ∨
      1706 < s.regs.oAck.toNat + s.regs.oSr.toNat
  · simp only [if_pos hchecks]
    refine ⟨s.bitSeq, ?_⟩
    split_ifs <;> first | rfl | omega
  · rw [if_neg hchecks]
    obtain ⟨h1, h2, h3, h4⟩ := not_or.mp hchecks |>.imp_right fun h => not_or.mp h |>.imp_right not_or.mp
    rw [if_neg h1, if_neg h2, if_neg h3, if_neg h4]
    rcases mode_cases s with ⟨hm, hc⟩ | ⟨hm, hc, ha, hs⟩ | ⟨hm, hc, -⟩
    · simp only [hm, hc, if_true, ackSrBits_length]
    · have hnil : ackSrBits s = [] := List.eq_nil_of_length_eq_zero (by rw [ackSrBits_length, ha, hs])
      simp only [hm, hc, if_false, ha, hs, Nat.add_zero, Nat.sub_zero, hnil, List.nil_append]
      cases csiPack s.ports.csi 1706 with
      | none => exact ⟨s.bitSeq, rfl⟩
      | some bits => rfl
    · simp only [hm, hc, if_false, Nat.sub_sub]
      cases csiPack s.ports.csi (1706 - (s.regs.oAck.toNat + s.regs.oSr.toNat)) with
      | none => exact ⟨_, rfl⟩
      | some bits =>
        have := Memory.writeRange_writeRange s.bitSeq 0 (ackSrBits s) bits
        rw [ackSrBits_length, Nat.zero_add] at this
        simp only [List.length_append, ackSrBits_length, State.writeBitSeq, this]

theorem computePayloadSize_bind_run {α : Type} (f : Nat → Cmd α) (s : State) :
    (computePayloadSize >>= f) s = match pucchSize s with
      | .ok a => f a s
      | .error k => .error k s := by
  rw [Cmd.bind_run, computePayloadSize_run, pucchSize]
  simp only [show aMax = 1706 from rfl]
  by_cases hchecks : 1706 < s.regs.oAck.toNat ∨ 32 < s.regs.oSr.toNat
  · simp only [if_pos hchecks]
    split_ifs <;> first | rfl | omega
  · rw [if_neg hchecks, if_neg (fun h => hchecks (.inl h)), if_neg (fun h => hchecks (.inr h))]
    rcases mode_cases s with ⟨hm, hc⟩ | ⟨hm, hc, ha, hs⟩ | ⟨hm, hc, has⟩
    · simp only [hm, hc, Nat.lt_irrefl, false_and, if_false, Nat.add_zero]
      split_ifs <;> rfl
    · simp only [hm, ha, hs, Nat.lt_irrefl, and_false, if_false, Nat.zero_add, Nat.add_zero]
      split_ifs <;> rfl
    · have : 0 < s.ports.csi.nofBits ∧ 0 < s.regs.oAck.toNat + s.regs.oSr.toNat := by omega
      simp only [hm, if_pos this]

end Sys2Proof.Machine
end

