-- ==== Sys2Proof/Proofs/Coders.lean ====
section
/-! PROOFS. What the encoders, the decoders and the small-code dispatch answer, as one equation each (46_transport.md
R290 to R296): the coded or decoded word where there is one, the error where there is none. -/

namespace Sys2Proof.Machine

set_option Elab.async false

/-! ## Encoders -/

/-- The 1-bit encoder is the dispatch's at `A = 1`. -/
theorem encodeOneBit_coded (e : Nat) (s : State) :
    encodeOneBit e s = match s.coded 1 e (readBits s.bitSeq 0 1) with
      | .ok out => .ok ⟨⟩ (encoded s out e)
      | .error k => .error k s := by
  rw [encodeOneBit_run, State.coded, codedBytes, readBits_getD _ 1 0 (by omega)]
  by_cases h1 : e < 1
  · simp [h1]
  · by_cases h2 : s.params.eMax < e
    · simp [h1, h2]
    · by_cases h3 : s.regs.qm = 0 <;> simp [h1, h2, h3]

/-- The 2-bit encoder is the dispatch's at `A = 2`. -/
theorem encodeTwoBit_coded (e : Nat) (s : State) :
    encodeTwoBit e s = match s.coded 2 e (readBits s.bitSeq 0 2) with
      | .ok out => .ok ⟨⟩ (encoded s out e)
      | .error k => .error k s := by
  rw [encodeTwoBit_run, State.coded, codedBytes, readBits_getD _ 2 0 (by omega), readBits_getD _ 2 1 (by omega)]
  by_cases h1 : e < 1
  · simp [h1]
  · by_cases h2 : s.params.eMax < e
    · simp [h1, h2]
    · by_cases h3 : s.regs.qm = 0 <;> simp [h1, h2, h3]

/-- The block encoder is the dispatch's at 3 to 11 bits. -/
theorem encodeRm_coded (a e : Nat) (s : State) (ha : ¬(a < 3 ∨ 11 < a)) :
    encodeRm a e s = match s.coded a e (readBits s.bitSeq 0 a) with
      | .ok out => .ok ⟨⟩ (encoded s out e)
      | .error k => .error k s := by
  have hd (k : Nat) : (rmCodeword s.params.rmBasis a (readBits s.bitSeq 0 a)).getD (k % 32) false =
      rmBit s.params.rmBasis a (readBits s.bitSeq 0 a) (k % 32) := by
    simp [rmCodeword, List.getD_eq_getElem?_getD, Nat.mod_lt]
  rw [encodeRm_run, State.coded, codedBytes, if_neg ha]
  by_cases h1 : e < 1
  · simp [h1]
  · by_cases h2 : s.params.eMax < e
    · simp [h1, h2]
    · have hrange : ¬(a = 0 ∨ 1706 ≤ a ∨ e < 1 ∨ s.params.eMax < e) := by omega
      rw [if_neg hrange]
      simp only [h1, h2, hd, show ¬a ≤ 2 by omega, show a ≠ 1 by omega, show a ≠ 2 by omega,
        show a ≤ 11 by omega, false_and, if_false, if_true]

/-- The polar encoder is the dispatch's from 12 bits on. -/
theorem encodePolar_coded (a e : Nat) (s : State) (ha : ¬a < 12) :
    encodePolar a e s = match s.coded a e (readBits s.bitSeq 0 a) with
      | .ok out => .ok ⟨⟩ (encoded s out e)
      | .error k => .error k s := by
  rw [encodePolar_run, State.coded, codedBytes]
  by_cases h0 : 1705 < a
  · simp [h0, show 1706 ≤ a by omega]
  · by_cases h1 : e < 1
    · simp [h1]
    · by_cases h2 : s.params.eMax < e
      · simp [h1, h2]
      · rw [if_neg (by omega), if_neg h1, if_neg h2, if_neg (by omega), if_neg (by omega), if_neg (by omega),
          if_neg (by omega), if_neg (by omega)]
        cases polarLookup s.params s.ports.polarSelect (segParams a e).kR (segParams a e).eR <;> rfl

/-! ## Decoders -/

/-- A list that fills the range just written is the list written. -/
theorem BitsStored.eq_of_write {m : Memory Bit} {vs ws : List Bit} (h : BitsStored m (m.writeRange 0 vs) ws)
    (hlen : ws.length = vs.length) : ws = vs := by
  rw [← h.readBits_all rfl, hlen, readBits_writeRange]

/-- The segments of a polar payload are written one behind the other, from element 0 on. -/
theorem decodeSegments_writes {code : PolarCode} {a e : Nat} {s t : State} {v : Bool}
    (hc : codeAccepted (segParams a e).kR 10 code = true)
    (h : decodeSegments code a (segParams a e) 0 (segParams a e).C true s = .ok v t) :
    ∃ bits, bits.length = a ∧ t = s.writeBitSeq 0 bits := by
  have hS : (segParams a e).S * (segParams a e).C = (segParams a e).padded ∧ a ≤ (segParams a e).padded ∧
      (segParams a e).padded < a + 2 ∧ (segParams a e).padded - a ≤ (segParams a e).S := by
    rcases segParams_C a e with h | h <;> simp only [segParams, ceilDiv] at h ⊢ <;> rw [h] <;> omega
  have hk : (segParams a e).kR = (segParams a e).S + (segParams a e).L := rfl
  have hC := segParams_C a e
  generalize segParams a e = g at *
  have hp0 : segPad a g 0 = g.padded - a := rfl
  have hp1 : segPad a g 1 = 0 := rfl
  rcases hC with hC | hC <;> rw [hC] at h hS <;> rw [decodeSegments_succ_run] at h
  · cases hd0 : decodeSegment s.params s.ports.polarDecode code 0 (readLlrs s.llrMem (g.eR * 0) g.eR) with
    | error k => rw [hd0] at h; cases h
    | ok c =>
      have hl := decodeSegment_length hc hd0
      simp only [hd0, decodeSegments_zero_run, EStateM.Result.ok.injEq] at h
      exact ⟨(c.take g.S).drop (segPad a g 0), by simp [hp0]; omega, h.2.symm⟩
  · cases hd0 : decodeSegment s.params s.ports.polarDecode code 0 (readLlrs s.llrMem (g.eR * 0) g.eR) with
    | error k => rw [hd0] at h; cases h
    | ok c =>
      have hl := decodeSegment_length hc hd0
      simp only [hd0, decodeSegments_succ_run, State.writeBitSeq_params, State.writeBitSeq_ports,
        State.writeBitSeq_llrMem, Nat.zero_add] at h
      cases hd1 : decodeSegment s.params s.ports.polarDecode code 1 (readLlrs s.llrMem (g.eR * 1) g.eR) with
      | error k => rw [hd1] at h; cases h
      | ok d =>
        have hl' := decodeSegment_length hc hd1
        simp only [hd1, decodeSegments_zero_run, EStateM.Result.ok.injEq] at h
        have h1 : segStart a g 1 = ((c.take g.S).drop (segPad a g 0)).length := by
          simp [segStart, hp0]
          omega
        refine ⟨(c.take g.S).drop (segPad a g 0) ++ (d.take g.S).drop (segPad a g 1), by simp [hp0, hp1]; omega, ?_⟩
        have := Memory.writeRange_writeRange s.bitSeq 0 ((c.take g.S).drop (segPad a g 0))
          ((d.take g.S).drop (segPad a g 1))
        rw [Nat.zero_add, ← h1] at this
        rw [← h.2, show segStart a g 0 = 0 from rfl, State.writeBitSeq, State.writeBitSeq, State.writeBitSeq, ← this]

/-- What a decoder body that finds `r` in the soft values does: it writes the payload, or raises having changed nothing
but `BITSEQ`. -/
def Decodes (a : Nat) (s : State) (run : EStateM.Result ErrorKind State Bool) :
    Except ErrorKind (List Bit × Bool) → Prop
  | .ok x => x.1.length = a ∧ run = .ok x.2 (s.writeBitSeq 0 x.1)
  | .error k => ∃ m, run = .error k { s with bitSeq := m }

/-- The 1-bit decoder is the dispatch's at `A = 1`. -/
theorem decodeOneBit_decoded (e : Nat) (s : State) : Decodes 1 s (decodeOneBit e s) (s.decoded 1 e) := by
  rw [decodeOneBit_run, State.decoded, decodedBits, readLlrs_length]
  by_cases h1 : e < 1
  · simpa [h1] using ⟨s.bitSeq, rfl⟩
  · by_cases h2 : s.params.eMax < e
    · simpa [h1, h2] using ⟨s.bitSeq, rfl⟩
    · by_cases h3 : s.regs.qm = 0
      · simpa [h1, h2, h3] using ⟨s.bitSeq, rfl⟩
      · simp [Decodes, h1, h2, h3]

/-- The 2-bit decoder is the dispatch's at `A = 2`. -/
theorem decodeTwoBit_decoded (e : Nat) (s : State) : Decodes 2 s (decodeTwoBit e s) (s.decoded 2 e) := by
  rw [decodeTwoBit_run, State.decoded, decodedBits, readLlrs_length]
  by_cases h1 : e < 1
  · simpa [h1] using ⟨s.bitSeq, rfl⟩
  · by_cases h2 : s.params.eMax < e
    · simpa [h1, h2] using ⟨s.bitSeq, rfl⟩
    · by_cases h3 : s.regs.qm = 0
      · simpa [h1, h2, h3] using ⟨s.bitSeq, rfl⟩
      · simp [Decodes, h1, h2, h3]

/-- The block decoder is the dispatch's at 3 to 11 bits. -/
theorem decodeRm_decoded (a e : Nat) (s : State) (ha : ¬(a < 3 ∨ 11 < a)) :
    Decodes a s (decodeRm a e s) (s.decoded a e) := by
  rw [decodeRm_run, State.decoded, decodedBits, readLlrs_length, if_neg ha]
  by_cases h1 : e < 1
  · simpa [h1] using ⟨s.bitSeq, rfl⟩
  · by_cases h2 : s.params.eMax < e
    · simpa [h1, h2] using ⟨s.bitSeq, rfl⟩
    · have hrange : ¬(a = 0 ∨ 1706 ≤ a ∨ e < 1 ∨ s.params.eMax < e) := by omega
      rw [if_neg hrange]
      simp only [h1, h2, show ¬a ≤ 2 by omega, show a ≠ 1 by omega, show a ≠ 2 by omega,
        show a ≤ 11 by omega, false_and, if_false, if_true]
      by_cases h3 : a = 11 ∧ e ≤ 16
      · rw [if_pos h3, if_pos h3]
        exact ⟨s.bitSeq, rfl⟩
      · rw [if_neg h3, if_neg h3]
        by_cases h4 : sumSq (readLlrs s.llrMem 0 e) = 0
        · rw [if_pos h4, if_pos h4]
          exact ⟨s.bitSeq, rfl⟩
        · rw [if_neg h4, if_neg h4]
          exact ⟨by simp [rmCandidate], rfl⟩

/-- The polar decoder is the dispatch's from 12 bits on. -/
theorem decodePolar_decoded (a e : Nat) (s : State) (ha : ¬a < 12) :
    Decodes a s (decodePolar a e s) (s.decoded a e) := by
  rw [decodePolar_run, State.decoded, decodedBits, readLlrs_length]
  by_cases h0 : a < 12 ∨ 1705 < a
  · rw [if_pos h0, if_pos (by omega)]
    exact ⟨s.bitSeq, rfl⟩
  · rw [if_neg h0]
    by_cases h1 : e < 1
    · simpa [h1] using ⟨s.bitSeq, rfl⟩
    · by_cases h2 : s.params.eMax < e
      · simpa [h1, h2] using ⟨s.bitSeq, rfl⟩
      · have hrange : ¬(a = 0 ∨ 1706 ≤ a ∨ e < 1 ∨ s.params.eMax < e) := by omega
        rw [if_neg hrange]
        simp only [h1, h2, show ¬a ≤ 2 by omega, show a ≠ 1 by omega, show a ≠ 2 by omega,
          show ¬a ≤ 11 by omega, false_and, if_false]
        cases hk : polarLookup s.params s.ports.polarSelect (segParams a e).kR (segParams a e).eR with
        | error k => exact ⟨s.bitSeq, rfl⟩
        | ok code =>
          have hc := (polarLookup_eq_ok.mp hk).2
          have hrun := decodeSegments_run code a e s hc
          cases hd : decodedSegments s.params s.ports.polarDecode code (segParams a e) (readLlrs s.llrMem 0 e) with
          | error k =>
            rw [hd] at hrun
            simpa [hk, hd, Decodes] using hrun
          | ok segments =>
            rw [hd] at hrun
            obtain ⟨hlen, m, hrun, hstored⟩ := hrun
            obtain ⟨bits, hbits, heq⟩ := decodeSegments_writes hc hrun
            have hm : m = s.bitSeq.writeRange 0 bits := congrArg State.bitSeq heq
            rw [hm] at hstored
            have := hstored.eq_of_write (hlen.trans hbits.symm)
            simp only [hd, Decodes, hrun, heq, ← this]
            exact ⟨hlen, trivial⟩

/-- The selection of R290 finds what its family's decoder finds. -/
theorem decodeCore_decoded (a e : Nat) (s : State) (ha : a ≠ 0) : Decodes a s (decodeCore a e s) (s.decoded a e) := by
  rw [decodeCore_run]
  by_cases h1 : a = 1
  · subst h1
    exact decodeOneBit_decoded e s
  · by_cases h2 : a = 2
    · subst h2
      exact decodeTwoBit_decoded e s
    · rw [if_neg h1, if_neg h2]
      by_cases h11 : a ≤ 11
      · rw [if_pos h11]
        exact decodeRm_decoded a e s (by omega)
      · rw [if_neg h11]
        exact decodePolar_decoded a e s (by omega)

/-- The decoder the dispatch selects, exactly (46_transport.md R290, R293). -/
theorem decodeDispatch_decoded (a e : Nat) (s : State) :
    match s.decoded a e with
    | .ok (bits, v) =>
      bits.length = a ∧ a < 1706 ∧ decodeDispatch a e s = .ok v ((s.setPhase (familyPhase a)).writeBitSeq 0 bits)
    | .error k => ∃ p m, decodeDispatch a e s = .error k { s.setPhase p with bitSeq := m } := by
  by_cases ha : a = 0 ∨ 1706 ≤ a
  · have herr : s.decoded a e = .error .invalidInput := by
      rw [State.decoded, decodedBits, if_pos (by omega)]
    rw [herr, decodeDispatch, Cmd.raiseIf_bind_run, if_pos ha]
    exact ⟨s.status.phase, s.bitSeq, rfl⟩
  · have hrun : decodeDispatch a e s = decodeCore a e (s.setPhase (familyPhase a)) := by
      rw [decodeDispatch, Cmd.raiseIf_bind_run, if_neg ha, putPhase_bind_run]
    have hcore := decodeCore_decoded a e (s.setPhase (familyPhase a)) (fun h => ha (.inl h))
    rw [show (s.setPhase (familyPhase a)).decoded a e = s.decoded a e from rfl, ← hrun] at hcore
    cases hd : s.decoded a e with
    | error k =>
      rw [hd] at hcore
      exact ⟨_, hcore⟩
    | ok x =>
      rw [hd] at hcore
      exact ⟨hcore.1, by omega, hcore.2⟩

end Sys2Proof.Machine
end

