-- ==== Sys2Proof/Proofs/Commands.lean ====
section
/-! PROOFS. The effect of every command, and `exec_eq`: `exec` answers the state that effect leaves, or the one the error
entry of 60_exceptions.md R334 leaves. -/

namespace Sys2Proof.Machine

set_option Elab.async false

/-! ## The effect of each command -/

/-- The effect of a command that stores a count in `RES_E`. -/
def Effect.counts (s : State) (e : Nat) : Effect :=
  { Effect.nothing s with regs := { s.regs with resE := BitVec.ofNat 32 e } }

/-- The effect of an encoder: the coded bytes and their count. -/
def Effect.codes (s : State) (e : Nat) (out : List Byte) : Effect :=
  { Effect.nothing s with regs := { s.regs with resE := BitVec.ofNat 32 e }, out := out }

/-- The effect of a decoder: the payload and its validity. -/
def Effect.decodes (s : State) (x : List Bit × Bool) : Effect :=
  { Effect.nothing s with bits := x.1, valid := x.2 }

/-- The registers after a façade with payload size `a` and count `e`. -/
def Regs.sized (g : Regs) (a e : Nat) : Regs := { g with resA := BitVec.ofNat 32 a, resE := BitVec.ofNat 32 e }

/-- `SR` as unpacked from a payload (41_payload.md R136). -/
def unpackedSr (s : State) (payload : List Bit) : Word :=
  BitVec.ofNat 32 (bitsToInt ((payload.drop s.regs.oAck.toNat).take s.regs.oSr.toNat))

/-- `UNPACK_PUCCH`, by its checks and modes (41_payload.md R136). -/
def unpackPucchEffect (s : State) : Except ErrorKind Effect :=
  let payload := readBits s.bitSeq 0 (s.regs.oAck.toNat + s.regs.oSr.toNat + s.ports.csi.nofBits)
  let unpacked : Effect :=
    { Effect.nothing s with
      ack := payload.take s.regs.oAck.toNat
      regs := { s.regs with sr := unpackedSr s payload } }
  if aMax < s.regs.oAck.toNat ∨ 32 < s.regs.oSr.toNat ∨
      aMax < s.regs.oAck.toNat + s.regs.oSr.toNat + s.ports.csi.nofBits then .error .invalidInput
  else match s.mode with
    | .ackSr => .ok unpacked
    | .csiOnly => .error .unsupported
    | .combined =>
      if s.ports.csi.unpackOk = false then .error .csiUnpackFailed
      else .ok { unpacked with csi := some (payload.drop (s.regs.oAck.toNat + s.regs.oSr.toNat)) }

/-- `ENC_PUCCH` (46_transport.md R300). -/
def encPucchEffect (s : State) : Except ErrorKind Effect := do
  let e ← pucchCount s
  let payload ← pucchPayload s
  if s.mode = .combined ∧ payload.length ≤ 11 then .error .unsupported
  else
    let out ← s.coded payload.length e payload
    .ok { Effect.nothing s with regs := s.regs.sized payload.length e, bits := payload, out := out }

/-- `DEC_PUCCH` (46_transport.md R303): only a payload without CSI comes to be unpacked. -/
def decPucchEffect (s : State) : Except ErrorKind Effect := do
  let e ← pucchCount s
  let a ← pucchSize s
  let x ← s.decoded a e
  if s.ports.csi.nofBits ≠ 0 then .error .unsupported
  else
    .ok
      { Effect.nothing s with
        valid := x.2
        regs := { s.regs.sized a e with sr := unpackedSr s x.1 }
        bits := x.1
        ack := x.1.take s.regs.oAck.toNat }

/-- `ENC_PUSCH_ACK` (46_transport.md R306). -/
def encPuschAckEffect (s : State) : Except ErrorKind Effect :=
  if aMax < s.regs.oAck.toNat then .error .invalidInput
  else if ackSize s = 0 then .ok { Effect.nothing s with regs := s.regs.sized 0 0 }
  else do
    let e ← puschAckCount s (ackSize s)
    let out ← s.coded (ackSize s) e (ackPayload s)
    .ok { Effect.nothing s with regs := s.regs.sized (ackSize s) e, bits := ackPayload s, out := out }

/-- `DEC_PUSCH_ACK` (46_transport.md R308). -/
def decPuschAckEffect (s : State) : Except ErrorKind Effect :=
  if aMax < s.regs.oAck.toNat then .error .invalidInput
  else if ackSize s = 0 then .ok { Effect.nothing s with valid := true, regs := s.regs.sized 0 0 }
  else do
    let e ← puschAckCount s (ackSize s)
    let x ← s.decoded (ackSize s) e
    .ok { Effect.nothing s with valid := x.2, regs := s.regs.sized (ackSize s) e, bits := x.1, ack := x.1 }

/-- `ENC_PUSCH_CSI1` (46_transport.md R310). -/
def encPuschCsi1Effect (s : State) : Except ErrorKind Effect :=
  match csiPack s.ports.csi aMax with
  | none => .error .csiPackFailed
  | some payload =>
    if payload.length = 0 then .ok { Effect.nothing s with regs := s.regs.sized 0 0 }
    else do
      let e ← puschCsi1Count s
      let out ← s.coded payload.length e payload
      .ok { Effect.nothing s with regs := s.regs.sized payload.length e, bits := payload, out := out }

/-- `DEC_PUSCH_CSI1` (46_transport.md R312). -/
def decPuschCsi1Effect (s : State) : Except ErrorKind Effect :=
  if s.ports.csi.nofBits = 0 then .ok { Effect.nothing s with valid := true, regs := s.regs.sized 0 0 }
  else do
    let e ← puschCsi1Count s
    let x ← s.decoded s.ports.csi.nofBits e
    if s.ports.csi.unpackOk = false then .error .csiUnpackFailed
    else
      .ok
        { Effect.nothing s with
          valid := x.2
          regs := s.regs.sized s.ports.csi.nofBits e
          bits := x.1
          csi := some x.1 }

/-- What command `i` does at `s`: its effect, or the error it raises. -/
def effectOf (s : State) : Instr → Except ErrorKind Effect
  | .pucchE => (pucchCount s).map (Effect.counts s)
  | .puschAckNofBits => (puschAckCount s s.regs.argA.toNat).map (Effect.counts s)
  | .puschCsi1NofBits => (puschCsi1Count s).map (Effect.counts s)
  | .totalBits => (fitsRegister (totalBits s)).map (Effect.counts s)
  | .packPucch =>
    (pucchPayload s).map fun bits =>
      { Effect.nothing s with regs := { s.regs with resA := BitVec.ofNat 32 bits.length }, bits := bits }
  | .unpackPucch => unpackPucchEffect s
  | .computeA =>
    (pucchSize s).map fun a => { Effect.nothing s with regs := { s.regs with resA := BitVec.ofNat 32 a } }
  | .encode =>
    (s.coded s.regs.argA.toNat s.regs.argE.toNat (readBits s.bitSeq 0 s.regs.argA.toNat)).map
      (Effect.codes s s.regs.argE.toNat)
  | .decode => (s.decoded s.regs.argA.toNat s.regs.argE.toNat).map (Effect.decodes s)
  | .enc1Bit => (s.coded 1 s.regs.argE.toNat (readBits s.bitSeq 0 1)).map (Effect.codes s s.regs.argE.toNat)
  | .dec1Bit => (s.decoded 1 s.regs.argE.toNat).map (Effect.decodes s)
  | .enc2Bit => (s.coded 2 s.regs.argE.toNat (readBits s.bitSeq 0 2)).map (Effect.codes s s.regs.argE.toNat)
  | .dec2Bit => (s.decoded 2 s.regs.argE.toNat).map (Effect.decodes s)
  | .encRm =>
    if s.regs.argA.toNat < 3 ∨ 11 < s.regs.argA.toNat then .error .invalidInput
    else
      (s.coded s.regs.argA.toNat s.regs.argE.toNat (readBits s.bitSeq 0 s.regs.argA.toNat)).map
        (Effect.codes s s.regs.argE.toNat)
  | .decRm =>
    if s.regs.argA.toNat < 3 ∨ 11 < s.regs.argA.toNat then .error .invalidInput
    else (s.decoded s.regs.argA.toNat s.regs.argE.toNat).map (Effect.decodes s)
  | .encPolar =>
    if s.regs.argA.toNat < 12 then .error .invalidInput
    else
      (s.coded s.regs.argA.toNat s.regs.argE.toNat (readBits s.bitSeq 0 s.regs.argA.toNat)).map
        (Effect.codes s s.regs.argE.toNat)
  | .decPolar =>
    if s.regs.argA.toNat < 12 then .error .invalidInput
    else (s.decoded s.regs.argA.toNat s.regs.argE.toNat).map (Effect.decodes s)
  | .encPucch => encPucchEffect s
  | .decPucch => decPucchEffect s
  | .encPuschAck => encPuschAckEffect s
  | .decPuschAck => decPuschAckEffect s
  | .encPuschCsi1 => encPuschCsi1Effect s
  | .decPuschCsi1 => decPuschCsi1Effect s

/-! ## The state a command leaves -/

/-- A memory with `vs` written from element 0 on; as it was when there is nothing to write. -/
def Memory.store {α : Type} (m : Memory α) : List α → Memory α
  | [] => m
  | v :: vs => m.writeRange 0 (v :: vs)

theorem Memory.store_eq {α : Type} (m : Memory α) (vs : List α) : m.store vs = m.writeRange 0 vs := by
  cases vs with
  | nil => exact (Memory.writeRange_nil m).symm
  | cons v vs => rfl

/-- The state inside a command that has done the effect `x` and stands in phase `p`. -/
def State.inside (s : State) (x : Effect) (p : Phase) : State :=
  { s with
    status := { done := false, err := false, valid := x.valid, phase := p, errCode := 0 }
    regs := x.regs
    ackMem := s.ackMem.store x.ack
    bitSeq := s.bitSeq.store x.bits
    outMem := s.outMem.store x.out
    ports := portsAfterUnpack s.ports x.csi }

/-- The state after command `i` with the effect, or the error, given. -/
def State.afterCommand (s : State) (i : Instr) : Except ErrorKind Effect → State
  | .ok x =>
    { (s.inside x .idle).scratchAny with
      status := { done := true, err := false, valid := x.valid, phase := finalPhase i, errCode := 0 } }
  | .error k => s.raiseError i k

theorem startCommand_eq_inside (s : State) : s.startCommand = s.inside (Effect.nothing s) .idle := rfl

theorem finishCommand_inside (s : State) (i : Instr) (x : Effect) (p : Phase) :
    (s.inside x p).finishCommand (commandClass i) = s.afterCommand i (.ok x) := by
  unfold State.finishCommand State.afterCommand finalPhase
  cases commandClass i <;> rfl

section
variable (s : State) (x : Effect) (p : Phase)

theorem inside_setResE (n : Nat) :
    (s.inside x p).setResE (BitVec.ofNat 32 n) =
      s.inside { x with regs := { x.regs with resE := BitVec.ofNat 32 n } } p := rfl

theorem inside_writeBitSeq (hx : x.bits = []) (vs : List Bit) :
    (s.inside x p).writeBitSeq 0 vs = s.inside { x with bits := vs } p := by
  simp [State.inside, State.writeBitSeq, hx, Memory.store_eq]

theorem inside_writeAckMem (hx : x.ack = []) (vs : List Bit) :
    (s.inside x p).writeAckMem 0 vs = s.inside { x with ack := vs } p := by
  simp [State.inside, State.writeAckMem, hx, Memory.store_eq]

theorem inside_encoded (hx : x.out = []) (out : List Byte) (e : Nat) :
    encoded (s.inside x p) out e =
      s.inside { x with out := out, regs := { x.regs with resE := BitVec.ofNat 32 e } } .emitted := by
  simp [State.inside, encoded, State.writeOutMem, State.setResE, State.setPhase, hx, Memory.store_eq]

/-- Nothing of a body's work is left by an error but what `raiseError` erases: `BITSEQ` and the phase. -/
theorem raiseError_inside (i : Instr) (k : ErrorKind) (hv : x.valid = s.status.valid) (hr : x.regs = s.regs)
    (ha : x.ack = []) (ho : x.out = []) (hc : x.csi = none) :
    (s.inside x p).raiseError i k = s.raiseError i k := by
  simp [State.inside, State.raiseError, hv, hr, ha, ho, hc, portsAfterUnpack, Memory.store_eq]

theorem inside_deliverCsi (hx : x.csi = none) (bits : List Bit) :
    (s.inside x p).deliverCsi bits = s.inside { x with csi := some bits } p := by
  simp [State.inside, State.deliverCsi, hx, portsAfterUnpack]

end

/-- The run of a body in command `i` from the start of the command at `s` ends as `r` says: it goes on with the effect
done, or it raises the error having changed nothing a failed command keeps. -/
def EndsAs (i : Instr) (s : State) (run : EStateM.Result ErrorKind State Unit) : Except ErrorKind Effect → Prop
  | .ok x => ∃ p, run = .ok () (s.inside x p)
  | .error k => ∃ t, run = .error k t ∧ t.raiseError i k = s.raiseError i k

theorem runCommand_of_endsAs {i : Instr} {s : State} {body : Cmd Unit} {r : Except ErrorKind Effect}
    (h : EndsAs i s (body (s.inside (Effect.nothing s) .idle)) r) :
    runCommand i body s = .next (s.afterCommand i r) := by
  rw [← startCommand_eq_inside] at h
  cases r with
  | ok x =>
    obtain ⟨p, h⟩ := h
    rw [runCommand_of_ok h, finishCommand_inside]
  | error k =>
    obtain ⟨t, h, ht⟩ := h
    rw [runCommand_of_error h, ht, State.afterCommand]

/-! ## Sizing commands -/

theorem raiseError_start (i : Instr) (s : State) (p : Phase) (k : ErrorKind) :
    (s.inside (Effect.nothing s) p).raiseError i k = s.raiseError i k :=
  raiseError_inside s _ p i k rfl rfl rfl rfl rfl

theorem pucchE_endsAs (s : State) :
    EndsAs .pucchE s (pucchEBody (s.inside (Effect.nothing s) .idle)) (effectOf s .pucchE) := by
  rw [pucchEBody, sizePucch_bind_run, effectOf, show pucchCount (s.inside _ _) = pucchCount s from rfl]
  cases pucchCount s with
  | error k => exact ⟨_, rfl, raiseError_start _ s _ _⟩
  | ok e => exact ⟨_, rfl⟩

theorem puschAckNofBits_endsAs (s : State) :
    EndsAs .puschAckNofBits s (puschAckNofBitsBody (s.inside (Effect.nothing s) .idle))
      (effectOf s .puschAckNofBits) := by
  rw [puschAckNofBitsBody, Cmd.get_bind_run, sizePuschAck_bind_run, effectOf,
    show puschAckCount (s.inside _ _) _ = puschAckCount s s.regs.argA.toNat from rfl]
  cases puschAckCount s s.regs.argA.toNat with
  | error k => exact ⟨_, rfl, raiseError_start _ s _ _⟩
  | ok e => exact ⟨_, rfl⟩

theorem puschCsi1NofBits_endsAs (s : State) :
    EndsAs .puschCsi1NofBits s (puschCsi1NofBitsBody (s.inside (Effect.nothing s) .idle))
      (effectOf s .puschCsi1NofBits) := by
  rw [puschCsi1NofBitsBody, sizePuschCsi1_bind_run, effectOf,
    show puschCsi1Count (s.inside _ _) = puschCsi1Count s from rfl]
  cases puschCsi1Count s with
  | error k => exact ⟨_, rfl, raiseError_start _ s _ _⟩
  | ok e => exact ⟨_, rfl⟩

theorem totalBits_endsAs (s : State) :
    EndsAs .totalBits s (totalBitsBody (s.inside (Effect.nothing s) .idle)) (effectOf s .totalBits) := by
  rw [totalBitsBody, Cmd.get_bind_run, Cmd.raiseIf_bind_run, effectOf, fitsRegister,
    show Machine.totalBits (s.inside _ _) = Machine.totalBits s from rfl]
  by_cases h : countMax < Machine.totalBits s
  · rw [if_pos h, if_pos h]
    exact ⟨_, rfl, raiseError_start _ s _ _⟩
  · rw [if_neg h, if_neg h]
    exact ⟨_, rfl⟩

/-! ## Payload commands -/

theorem packPucch_endsAs (s : State) :
    EndsAs .packPucch s (packPucchBody (s.inside (Effect.nothing s) .idle)) (effectOf s .packPucch) := by
  have hpack := packPayload_pucchPayload (s.inside (Effect.nothing s) .idle)
  rw [show pucchPayload (s.inside _ _) = pucchPayload s from rfl] at hpack
  rw [packPucchBody, effectOf]
  cases h : pucchPayload s with
  | error k =>
    rw [h] at hpack
    obtain ⟨m, hpack⟩ := hpack
    exact ⟨_, Cmd.bind_of_error hpack _, raiseError_start _ s _ _⟩
  | ok bits =>
    rw [h] at hpack
    refine ⟨.idle, (Cmd.bind_of_ok hpack _).trans ?_⟩
    rw [inside_writeBitSeq _ _ _ rfl]
    rfl

theorem computeA_endsAs (s : State) :
    EndsAs .computeA s (computeABody (s.inside (Effect.nothing s) .idle)) (effectOf s .computeA) := by
  rw [computeABody, computePayloadSize_bind_run, effectOf, show pucchSize (s.inside _ _) = pucchSize s from rfl]
  cases pucchSize s with
  | error k => exact ⟨_, rfl, raiseError_start _ s _ _⟩
  | ok e => exact ⟨_, rfl⟩

/-- Reading a part of what is read. -/
theorem readBits_part (m : Memory Bit) {base n len : Nat} (h : base + n ≤ len) :
    ((readBits m 0 len).drop base).take n = readBits m base n := by
  apply List.ext_getElem
  · simp; omega
  · intro k h1 h2
    simp [readBits]

/-- The effect of unpacking `payload` inside a command with the effect `x`. -/
def Effect.unpacks (s : State) (x : Effect) (payload : List Bit) : Effect :=
  { x with ack := payload.take s.regs.oAck.toNat, regs := { x.regs with sr := unpackedSr s payload } }

theorem unpackAckSr_inside (s : State) (bits payload : List Bit) (p : Phase)
    (hread : readBits (s.bitSeq.store bits) 0 payload.length = payload)
    (hlen : s.regs.oAck.toNat + s.regs.oSr.toNat ≤ payload.length) :
    unpackAckSr (s.inside { Effect.nothing s with bits := bits } p) =
      s.inside (Effect.unpacks s { Effect.nothing s with bits := bits } payload) p := by
  have hack : readBits (s.bitSeq.store bits) 0 s.regs.oAck.toNat = payload.take s.regs.oAck.toNat := by
    rw [← readBits_part (len := payload.length) _ (by omega), hread, List.drop_zero]
  have hsr : readBits (s.bitSeq.store bits) s.regs.oAck.toNat s.regs.oSr.toNat =
      (payload.drop s.regs.oAck.toNat).take s.regs.oSr.toNat := by
    rw [← readBits_part (len := payload.length) _ (by omega), hread]
  rw [unpackAckSr, show (s.inside _ _).regs = s.regs from rfl, show (s.inside _ _).bitSeq = s.bitSeq.store bits from rfl,
    hack, hsr, inside_writeAckMem _ _ _ rfl]
  rfl

theorem unpackPucch_endsAs (s : State) :
    EndsAs .unpackPucch s (unpackPucchBody (s.inside (Effect.nothing s) .idle)) (effectOf s .unpackPucch) := by
  rw [unpackPucchBody, unpackPayload_run, effectOf, unpackPucchEffect, show (s.inside _ _).regs = s.regs from rfl,
    show (s.inside _ _).ports = s.ports from rfl, show State.mode (s.inside _ _) = s.mode from rfl]
  by_cases hchecks : aMax < s.regs.oAck.toNat ∨ 32 < s.regs.oSr.toNat ∨
      aMax < s.regs.oAck.toNat + s.regs.oSr.toNat + s.ports.csi.nofBits
  · rw [if_pos hchecks]
    refine ⟨s.inside (Effect.nothing s) .idle, ?_, raiseError_start _ s _ _⟩
    split_ifs <;> first | rfl | omega
  · have hunpack := unpackAckSr_inside s []
      (readBits s.bitSeq 0 (s.regs.oAck.toNat + s.regs.oSr.toNat + s.ports.csi.nofBits)) .idle
      (by rw [readBits_length]; rfl) (by rw [readBits_length]; omega)
    rw [if_neg hchecks, if_neg (fun h => hchecks (.inl h)), if_neg (fun h => hchecks (.inr (.inl h))),
      if_neg (fun h => hchecks (.inr (.inr h)))]
    cases s.mode with
    | ackSr => exact ⟨.idle, congrArg _ hunpack⟩
    | csiOnly => exact ⟨_, rfl, raiseError_start _ s _ _⟩
    | combined =>
      dsimp only
      by_cases hu : s.ports.csi.unpackOk = false
      · rw [if_pos hu, if_pos hu]
        exact ⟨_, rfl, rfl⟩
      · rw [if_neg hu, if_neg hu]
        refine ⟨.idle, congrArg (EStateM.Result.ok ()) ?_⟩
        have hcsi : readBits s.bitSeq (s.regs.oAck.toNat + s.regs.oSr.toNat) s.ports.csi.nofBits =
            (readBits s.bitSeq 0 (s.regs.oAck.toNat + s.regs.oSr.toNat + s.ports.csi.nofBits)).drop
              (s.regs.oAck.toNat + s.regs.oSr.toNat) := by
          rw [← readBits_part _ le_rfl, List.take_of_length_le (by simp)]
        rw [← hcsi]
        exact (congrArg (State.deliverCsi · _) hunpack).trans (inside_deliverCsi s _ _ rfl _)

/-! ## Encoders and decoders -/

/-- How a command ends that runs an encoder the dispatch could select. -/
theorem encoder_endsAs {i : Instr} {s : State} {a e : Nat} {run : EStateM.Result ErrorKind State Unit}
    (hrun : run = match s.coded a e (readBits s.bitSeq 0 a) with
      | .ok out => .ok ⟨⟩ (encoded (s.inside (Effect.nothing s) .idle) out e)
      | .error k => .error k (s.inside (Effect.nothing s) .idle)) :
    EndsAs i s run ((s.coded a e (readBits s.bitSeq 0 a)).map (Effect.codes s e)) := by
  rw [hrun]
  cases s.coded a e (readBits s.bitSeq 0 a) with
  | error k => exact ⟨_, rfl, raiseError_start _ s _ _⟩
  | ok out => exact ⟨_, congrArg _ (inside_encoded s _ _ rfl out e)⟩

theorem enc1Bit_endsAs (s : State) :
    EndsAs .enc1Bit s (enc1BitBody (s.inside (Effect.nothing s) .idle)) (effectOf s .enc1Bit) :=
  encoder_endsAs (encodeOneBit_coded _ _)

theorem enc2Bit_endsAs (s : State) :
    EndsAs .enc2Bit s (enc2BitBody (s.inside (Effect.nothing s) .idle)) (effectOf s .enc2Bit) :=
  encoder_endsAs (encodeTwoBit_coded _ _)

theorem encRm_endsAs (s : State) :
    EndsAs .encRm s (encRmBody (s.inside (Effect.nothing s) .idle)) (effectOf s .encRm) := by
  rw [effectOf]
  by_cases ha : s.regs.argA.toNat < 3 ∨ 11 < s.regs.argA.toNat
  · rw [if_pos ha]
    exact ⟨_, (encodeRm_run _ _ _).trans (if_pos ha), raiseError_start _ s _ _⟩
  · rw [if_neg ha]
    exact encoder_endsAs (encodeRm_coded _ _ _ ha)

theorem encPolar_endsAs (s : State) :
    EndsAs .encPolar s (encPolarBody (s.inside (Effect.nothing s) .idle)) (effectOf s .encPolar) := by
  rw [effectOf]
  by_cases ha : s.regs.argA.toNat < 12
  · rw [if_pos ha]
    exact ⟨_, (encodePolar_run _ _ _).trans (if_pos (.inl ha)), raiseError_start _ s _ _⟩
  · rw [if_neg ha]
    exact encoder_endsAs (encodePolar_coded _ _ _ ha)

/-- How a command ends that runs a decoder the dispatch could select and stores its validity. -/
theorem decoder_endsAs {i : Instr} {s : State} {a e : Nat} {dec : Cmd Bool}
    (hdec : Decodes a (s.inside (Effect.nothing s) .idle) (dec (s.inside (Effect.nothing s) .idle)) (s.decoded a e)) :
    EndsAs i s ((dec >>= putValid) (s.inside (Effect.nothing s) .idle)) ((s.decoded a e).map (Effect.decodes s)) := by
  cases h : s.decoded a e with
  | error k =>
    rw [h] at hdec
    obtain ⟨m, hdec⟩ := hdec
    exact ⟨_, Cmd.bind_of_error hdec _, raiseError_start _ s _ _⟩
  | ok x =>
    rw [h] at hdec
    refine ⟨.idle, (Cmd.bind_of_ok hdec.2 _).trans ?_⟩
    rw [inside_writeBitSeq _ _ _ rfl]
    rfl

theorem dec1Bit_endsAs (s : State) :
    EndsAs .dec1Bit s (dec1BitBody (s.inside (Effect.nothing s) .idle)) (effectOf s .dec1Bit) :=
  decoder_endsAs (decodeOneBit_decoded _ _)

theorem dec2Bit_endsAs (s : State) :
    EndsAs .dec2Bit s (dec2BitBody (s.inside (Effect.nothing s) .idle)) (effectOf s .dec2Bit) :=
  decoder_endsAs (decodeTwoBit_decoded _ _)

theorem decRm_endsAs (s : State) :
    EndsAs .decRm s (decRmBody (s.inside (Effect.nothing s) .idle)) (effectOf s .decRm) := by
  rw [effectOf]
  by_cases ha : s.regs.argA.toNat < 3 ∨ 11 < s.regs.argA.toNat
  · rw [if_pos ha]
    exact ⟨_, Cmd.bind_of_error ((decodeRm_run _ _ _).trans (if_pos ha)) _, raiseError_start _ s _ _⟩
  · rw [if_neg ha]
    exact decoder_endsAs (decodeRm_decoded _ _ _ ha)

theorem decPolar_endsAs (s : State) :
    EndsAs .decPolar s (decPolarBody (s.inside (Effect.nothing s) .idle)) (effectOf s .decPolar) := by
  rw [effectOf]
  by_cases ha : s.regs.argA.toNat < 12
  · rw [if_pos ha]
    exact ⟨_, Cmd.bind_of_error ((decodePolar_run _ _ _).trans (if_pos (.inl ha))) _, raiseError_start _ s _ _⟩
  · rw [if_neg ha]
    exact decoder_endsAs (decodePolar_decoded _ _ _ ha)

/-! ## Dispatch -/

theorem readBits_store (m : Memory Bit) (vs : List Bit) : readBits (m.store vs) 0 vs.length = vs := by
  rw [Memory.store_eq, readBits_writeRange]

/-- The size dispatch of an encoder inside a command that has done nothing but write the payload. -/
theorem encodeDispatch_inside (s : State) (vs : List Bit) (p : Phase) (a e : Nat) :
    match s.coded a e (readBits (s.bitSeq.store vs) 0 a) with
    | .ok out =>
      encodeDispatch a e (s.inside { Effect.nothing s with bits := vs } p) =
        .ok () (s.inside { Effect.codes s e out with bits := vs } .emitted)
    | .error k =>
      ∃ t, encodeDispatch a e (s.inside { Effect.nothing s with bits := vs } p) = .error k t ∧
        ∀ i, t.raiseError i k = s.raiseError i k := by
  have hrun := encodeDispatch_run a e (s.inside { Effect.nothing s with bits := vs } p)
  rw [show (s.inside _ _).coded a e _ = s.coded a e (readBits (s.bitSeq.store vs) 0 a) from rfl] at hrun
  cases h : s.coded a e (readBits (s.bitSeq.store vs) 0 a) with
  | error k =>
    rw [h] at hrun
    refine ⟨_, hrun, fun i => ?_⟩
    split
    · exact raiseError_inside s _ _ i k rfl rfl rfl rfl rfl
    · exact raiseError_inside s _ _ i k rfl rfl rfl rfl rfl
  | ok out =>
    rw [h] at hrun
    exact hrun.trans (congrArg (EStateM.Result.ok ())
      (inside_encoded s { Effect.nothing s with bits := vs } (familyPhase a) rfl out e))

/-- The size dispatch of a decoder inside a command that has done nothing yet. -/
theorem decodeDispatch_inside (s : State) (p : Phase) (a e : Nat) :
    match s.decoded a e with
    | .ok x =>
      x.1.length = a ∧ a < 1706 ∧
        decodeDispatch a e (s.inside (Effect.nothing s) p) =
          .ok x.2 (s.inside { Effect.nothing s with bits := x.1 } (familyPhase a))
    | .error k =>
      ∃ t, decodeDispatch a e (s.inside (Effect.nothing s) p) = .error k t ∧
        ∀ i, t.raiseError i k = s.raiseError i k := by
  have hrun := decodeDispatch_decoded a e (s.inside (Effect.nothing s) p)
  rw [show (s.inside _ _).decoded a e = s.decoded a e from rfl] at hrun
  cases h : s.decoded a e with
  | error k =>
    rw [h] at hrun
    obtain ⟨q, m, hrun⟩ := hrun
    exact ⟨_, hrun, fun i => raiseError_start i s q k⟩
  | ok x =>
    rw [h] at hrun
    obtain ⟨hlen, hlt, hrun⟩ := hrun
    exact ⟨hlen, hlt, hrun.trans (congrArg _ (inside_writeBitSeq s _ (familyPhase a) rfl x.1))⟩

/-- A command that goes on with `rest` from what the dispatched decoder found. -/
theorem decodeDispatch_endsAs {i : Instr} {s : State} {p : Phase} {a e : Nat} {rest : Bool → Cmd Unit}
    {f : List Bit × Bool → Except ErrorKind Effect}
    (hrest : ∀ x : List Bit × Bool, x.1.length = a →
      EndsAs i s (rest x.2 (s.inside { Effect.nothing s with bits := x.1 } (familyPhase a))) (f x)) :
    EndsAs i s ((decodeDispatch a e >>= rest) (s.inside (Effect.nothing s) p)) (s.decoded a e >>= f) := by
  have hrun := decodeDispatch_inside s p a e
  cases h : s.decoded a e with
  | error k =>
    rw [h] at hrun
    obtain ⟨t, hrun, ht⟩ := hrun
    exact ⟨t, Cmd.bind_of_error hrun _, ht _⟩
  | ok x =>
    rw [h] at hrun
    obtain ⟨hlen, -, hrun⟩ := hrun
    rw [Cmd.bind_of_ok hrun]
    exact hrest x hlen

theorem encode_endsAs (s : State) :
    EndsAs .encode s (encodeBody (s.inside (Effect.nothing s) .idle)) (effectOf s .encode) := by
  have hrun := encodeDispatch_inside s [] .idle s.regs.argA.toNat s.regs.argE.toNat
  rw [show readBits (s.bitSeq.store []) _ _ = readBits s.bitSeq 0 s.regs.argA.toNat from rfl] at hrun
  rw [encodeBody, Cmd.get_bind_run, effectOf]
  cases h : s.coded s.regs.argA.toNat s.regs.argE.toNat (readBits s.bitSeq 0 s.regs.argA.toNat) with
  | error k =>
    rw [h] at hrun
    obtain ⟨t, hrun, ht⟩ := hrun
    exact ⟨t, Cmd.bind_of_error hrun _, ht _⟩
  | ok out =>
    rw [h] at hrun
    exact ⟨.emitted, Cmd.bind_of_ok hrun _⟩

theorem decode_endsAs (s : State) :
    EndsAs .decode s (decodeBody (s.inside (Effect.nothing s) .idle)) (effectOf s .decode) := by
  rw [decodeBody, Cmd.get_bind_run]
  exact decodeDispatch_endsAs (f := fun x => .ok (Effect.decodes s x)) fun x _ => ⟨.idle, rfl⟩

/-! ## Façades -/

theorem ackPayload_length (s : State) : (ackPayload s).length = ackSize s := by
  unfold ackPayload ackSize
  split <;> simp

/-- The tail of every encoding façade, after its payload `vs` is written and its count `e` computed. -/
theorem encoderTail_endsAs (i : Instr) (s : State) (vs : List Bit) (p : Phase) (e : Nat) :
    EndsAs i s
      ((encodeDispatch vs.length e >>= fun _ => putResA vs.length >>= fun _ => putResE e >>= fun _ =>
        putPhase .emitted) (s.inside { Effect.nothing s with bits := vs } p))
      (s.coded vs.length e vs >>= fun out =>
        .ok { Effect.nothing s with regs := s.regs.sized vs.length e, bits := vs, out := out }) := by
  have hrun := encodeDispatch_inside s vs p vs.length e
  rw [readBits_store] at hrun
  cases h : s.coded vs.length e vs with
  | error k =>
    rw [h] at hrun
    obtain ⟨t, hrun, ht⟩ := hrun
    exact ⟨t, Cmd.bind_of_error hrun _, ht _⟩
  | ok out =>
    rw [h] at hrun
    exact ⟨.emitted, Cmd.bind_of_ok hrun _⟩

theorem encPuschAck_endsAs (s : State) :
    EndsAs .encPuschAck s (encPuschAckBody (s.inside (Effect.nothing s) .idle)) (effectOf s .encPuschAck) := by
  rw [encPuschAckBody, Cmd.get_bind_run, Cmd.raiseIf_bind_run, Cmd.ite_run, effectOf, encPuschAckEffect,
    show (s.inside _ _).regs = s.regs from rfl, show ackSize (s.inside _ _) = ackSize s from rfl,
    show ackPayload (s.inside _ _) = ackPayload s from rfl]
  by_cases hrange : aMax < s.regs.oAck.toNat
  · rw [if_pos hrange, if_pos hrange]
    exact ⟨_, rfl, raiseError_start _ s _ _⟩
  · rw [if_neg hrange, if_neg hrange]
    by_cases h0 : ackSize s = 0
    · rw [if_pos h0, if_pos h0]
      exact ⟨.emitted, nothingToCode_run _ _⟩
    · rw [if_neg h0, if_neg h0, Cmd.modify_bind_run, inside_writeBitSeq _ _ _ rfl, putPhase_bind_run,
        sizePuschAck_bind_run,
        show puschAckCount (State.setPhase (s.inside _ _) _) _ = puschAckCount s (ackSize s) from rfl]
      cases puschAckCount s (ackSize s) with
      | error k => exact ⟨_, rfl, raiseError_inside s _ _ _ _ rfl rfl rfl rfl rfl⟩
      | ok e =>
        have htail := encoderTail_endsAs .encPuschAck s (ackPayload s) .sized e
        rw [ackPayload_length] at htail
        exact htail

theorem encPuschCsi1_endsAs (s : State) :
    EndsAs .encPuschCsi1 s (encPuschCsi1Body (s.inside (Effect.nothing s) .idle)) (effectOf s .encPuschCsi1) := by
  rw [encPuschCsi1Body, Cmd.bind_run, packCsi_run, effectOf, encPuschCsi1Effect,
    show (s.inside _ _).ports = s.ports from rfl]
  cases csiPack s.ports.csi aMax with
  | none => exact ⟨_, rfl, raiseError_start _ s _ _⟩
  | some payload =>
    dsimp only
    rw [Cmd.modify_bind_run, inside_writeBitSeq _ _ _ rfl, Cmd.ite_run]
    by_cases h0 : payload.length = 0
    · obtain rfl := List.eq_nil_of_length_eq_zero h0
      exact ⟨.emitted, nothingToCode_run _ _⟩
    · rw [if_neg h0, if_neg h0, putPhase_bind_run, sizePuschCsi1_bind_run,
        show puschCsi1Count (State.setPhase (s.inside _ _) _) = puschCsi1Count s from rfl]
      cases puschCsi1Count s with
      | error k => exact ⟨_, rfl, raiseError_inside s _ _ _ _ rfl rfl rfl rfl rfl⟩
      | ok e => exact encoderTail_endsAs .encPuschCsi1 s payload .sized e

theorem encPucch_endsAs (s : State) :
    EndsAs .encPucch s (encPucchBody (s.inside (Effect.nothing s) .idle)) (effectOf s .encPucch) := by
  rw [encPucchBody, Cmd.get_bind_run, sizePucch_bind_run, effectOf, encPucchEffect,
    show pucchCount (s.inside _ _) = pucchCount s from rfl]
  cases pucchCount s with
  | error k => exact ⟨_, rfl, raiseError_start _ s _ _⟩
  | ok e =>
    have hpack := packPayload_pucchPayload (s.inside (Effect.nothing s) .sized)
    rw [show pucchPayload (s.inside _ _) = pucchPayload s from rfl] at hpack
    dsimp only
    rw [putPhase_bind_run, show State.setPhase (s.inside _ _) _ = s.inside (Effect.nothing s) .sized from rfl]
    cases h : pucchPayload s with
    | error k =>
      rw [h] at hpack
      obtain ⟨m, hpack⟩ := hpack
      exact ⟨_, Cmd.bind_of_error hpack _, raiseError_start _ s _ _⟩
    | ok payload =>
      rw [h] at hpack
      dsimp only at hpack
      rw [Cmd.bind_of_ok hpack, inside_writeBitSeq _ _ _ rfl, putPhase_bind_run, Cmd.raiseIf_bind_run,
        show State.mode (s.inside _ _) = s.mode from rfl]
      show EndsAs _ _ _ (if s.mode = .combined ∧ payload.length ≤ 11 then _ else _)
      by_cases hu : s.mode = .combined ∧ payload.length ≤ 11
      · rw [if_pos hu, if_pos hu]
        exact ⟨_, rfl, raiseError_inside s _ _ _ _ rfl rfl rfl rfl rfl⟩
      · rw [if_neg hu, if_neg hu]
        exact encoderTail_endsAs .encPucch s payload .packedPayload e

theorem decPuschAck_endsAs (s : State) :
    EndsAs .decPuschAck s (decPuschAckBody (s.inside (Effect.nothing s) .idle)) (effectOf s .decPuschAck) := by
  rw [decPuschAckBody, Cmd.get_bind_run, Cmd.raiseIf_bind_run, Cmd.ite_run, effectOf, decPuschAckEffect,
    show (s.inside _ _).regs = s.regs from rfl, show ackSize (s.inside _ _) = ackSize s from rfl]
  by_cases hrange : aMax < s.regs.oAck.toNat
  · rw [if_pos hrange, if_pos hrange]
    exact ⟨_, rfl, raiseError_start _ s _ _⟩
  · rw [if_neg hrange, if_neg hrange]
    by_cases h0 : ackSize s = 0
    · rw [if_pos h0, if_pos h0, putValid_bind_run]
      exact ⟨.idle, nothingToCode_run _ _⟩
    · rw [if_neg h0, if_neg h0, sizePuschAck_bind_run,
        show puschAckCount (s.inside _ _) _ = puschAckCount s (ackSize s) from rfl]
      cases puschAckCount s (ackSize s) with
      | error k => exact ⟨_, rfl, raiseError_start _ s _ _⟩
      | ok e =>
        refine decodeDispatch_endsAs fun x hlen => ⟨.idle, ?_⟩
        rw [Cmd.modify_bind_run, ← hlen, show (s.inside _ _).bitSeq = s.bitSeq.store x.1 from rfl, readBits_store,
          inside_writeAckMem _ _ _ rfl]
        rfl

theorem decPuschCsi1_endsAs (s : State) :
    EndsAs .decPuschCsi1 s (decPuschCsi1Body (s.inside (Effect.nothing s) .idle)) (effectOf s .decPuschCsi1) := by
  rw [decPuschCsi1Body, Cmd.get_bind_run, effectOf, decPuschCsi1Effect, show (s.inside _ _).ports = s.ports from rfl]
  dsimp only
  rw [Cmd.ite_run]
  by_cases h0 : s.ports.csi.nofBits = 0
  · rw [if_pos h0, if_pos h0, putValid_bind_run]
    exact ⟨.idle, nothingToCode_run _ _⟩
  · rw [if_neg h0, if_neg h0, sizePuschCsi1_bind_run, show puschCsi1Count (s.inside _ _) = puschCsi1Count s from rfl]
    cases puschCsi1Count s with
    | error k => exact ⟨_, rfl, raiseError_start _ s _ _⟩
    | ok e =>
      refine decodeDispatch_endsAs fun x hlen => ?_
      rw [Cmd.get_bind_run, ← hlen, show (s.inside _ _).bitSeq = s.bitSeq.store x.1 from rfl, readBits_store,
        Cmd.bind_run, unpackCsi_run, show (s.inside _ _).ports = s.ports from rfl]
      by_cases hu : s.ports.csi.unpackOk = false
      · rw [if_pos hu, if_pos hu]
        exact ⟨_, rfl, raiseError_inside s _ _ _ _ rfl rfl rfl rfl rfl⟩
      · rw [if_neg hu, if_neg hu]
        exact ⟨.idle, rfl⟩

theorem pucchSize_eq_ok {s : State} {a : Nat} (h : pucchSize s = .ok a) :
    s.regs.oAck.toNat ≤ 1706 ∧ s.regs.oSr.toNat ≤ 32 ∧
      a = s.regs.oAck.toNat + s.regs.oSr.toNat + s.ports.csi.nofBits ∧ a ≤ 1706 ∧
      (s.ports.csi.nofBits = 0 ∨ s.regs.oAck.toNat + s.regs.oSr.toNat = 0) := by
  unfold pucchSize at h
  dsimp only at h
  split_ifs at h
  cases h
  omega

theorem decPucch_endsAs (s : State) :
    EndsAs .decPucch s (decPucchBody (s.inside (Effect.nothing s) .idle)) (effectOf s .decPucch) := by
  rw [decPucchBody, sizePucch_bind_run, effectOf, decPucchEffect, show pucchCount (s.inside _ _) = pucchCount s from rfl]
  cases pucchCount s with
  | error k => exact ⟨_, rfl, raiseError_start _ s _ _⟩
  | ok e =>
    dsimp only
    rw [computePayloadSize_bind_run, show pucchSize (s.inside _ _) = pucchSize s from rfl]
    cases ha : pucchSize s with
    | error k => exact ⟨_, rfl, raiseError_start _ s _ _⟩
    | ok a =>
      obtain ⟨hack, hsr, hlen, hmax, hcsi⟩ := pucchSize_eq_ok ha
      refine decodeDispatch_endsAs fun x hx => ?_
      have hunpack := unpackAckSr_inside s x.1 x.1 (familyPhase a) (readBits_store _ _) (by omega)
      rw [Cmd.bind_run, unpackPayload_run, show (s.inside _ _).regs = s.regs from rfl,
        show (s.inside _ _).ports = s.ports from rfl, show State.mode (s.inside _ _) = s.mode from rfl,
        if_neg (show ¬aMax < s.regs.oAck.toNat from not_lt.mpr hack), if_neg (not_lt.mpr hsr),
        if_neg (show ¬aMax < s.regs.oAck.toNat + s.regs.oSr.toNat + s.ports.csi.nofBits from
          not_lt.mpr (hlen ▸ hmax))]
      rcases mode_cases s with ⟨hm, hc⟩ | ⟨hm, hc, -⟩ | ⟨hm, hc, hpos⟩
      · rw [hm, if_neg (not_not.mpr hc), hunpack]
        exact ⟨.idle, rfl⟩
      · rw [hm, if_pos hc]
        exact ⟨_, rfl, raiseError_inside s _ _ _ _ rfl rfl rfl rfl rfl⟩
      · omega

/-! ## All commands -/

/-- What `exec` answers, for every command: the state its effect, or its error, leaves. -/
theorem exec_eq (i : Instr) (s : State) : exec i s = .next (s.afterCommand i (effectOf s i)) := by
  cases i with
  | pucchE => exact runCommand_of_endsAs (pucchE_endsAs s)
  | puschAckNofBits => exact runCommand_of_endsAs (puschAckNofBits_endsAs s)
  | puschCsi1NofBits => exact runCommand_of_endsAs (puschCsi1NofBits_endsAs s)
  | totalBits => exact runCommand_of_endsAs (totalBits_endsAs s)
  | packPucch => exact runCommand_of_endsAs (packPucch_endsAs s)
  | unpackPucch => exact runCommand_of_endsAs (unpackPucch_endsAs s)
  | computeA => exact runCommand_of_endsAs (computeA_endsAs s)
  | encode => exact runCommand_of_endsAs (encode_endsAs s)
  | decode => exact runCommand_of_endsAs (decode_endsAs s)
  | enc1Bit => exact runCommand_of_endsAs (enc1Bit_endsAs s)
  | dec1Bit => exact runCommand_of_endsAs (dec1Bit_endsAs s)
  | enc2Bit => exact runCommand_of_endsAs (enc2Bit_endsAs s)
  | dec2Bit => exact runCommand_of_endsAs (dec2Bit_endsAs s)
  | encRm => exact runCommand_of_endsAs (encRm_endsAs s)
  | decRm => exact runCommand_of_endsAs (decRm_endsAs s)
  | encPolar => exact runCommand_of_endsAs (encPolar_endsAs s)
  | decPolar => exact runCommand_of_endsAs (decPolar_endsAs s)
  | encPucch => exact runCommand_of_endsAs (encPucch_endsAs s)
  | decPucch => exact runCommand_of_endsAs (decPucch_endsAs s)
  | encPuschAck => exact runCommand_of_endsAs (encPuschAck_endsAs s)
  | decPuschAck => exact runCommand_of_endsAs (decPuschAck_endsAs s)
  | encPuschCsi1 => exact runCommand_of_endsAs (encPuschCsi1_endsAs s)
  | decPuschCsi1 => exact runCommand_of_endsAs (decPuschCsi1_endsAs s)

end Sys2Proof.Machine
end

