-- ==== Sys2Proof/Proofs/Errors.lean ====
section
/-! PROOFS. Which errors a command can raise (60_exceptions.md R332), and what an error leaves (R334). -/

namespace Sys2Proof.Machine

set_option Elab.async false

/-! ## The ends of a command, from its effect -/

theorem bitsStored_store (m : Memory Bit) (vs : List Bit) : BitsStored m (m.store vs) vs := by
  rw [Memory.store_eq]
  exact bitsStored_write m vs

theorem bytesStored_store (m : Memory Byte) (vs : List Byte) : BytesStored m (m.store vs) vs := by
  rw [Memory.store_eq]
  exact bytesStored_write m vs

theorem runCommand_pureEffect (i : Instr) (s : State) (x : Effect) :
    runCommand i (modify fun _ => s.inside x .idle) s = .next (s.afterCommand i (.ok x)) := by
  rw [runCommand_of_ok (Cmd.modify_run _ _), finishCommand_inside]

/-- A command with an effect completes with it. -/
theorem completes_of_effect {i : Instr} {s : State} {x : Effect} (h : effectOf s i = .ok x) : Completes i s x := by
  have hexec : exec i s = runCommand i (modify fun _ => s.inside x .idle) s := by
    rw [exec_eq, h, runCommand_pureEffect]
  exact completes_of_body hexec rfl rfl rfl (bitsStored_store _ _) (bitsStored_store _ _) (bytesStored_store _ _)
    rfl rfl rfl rfl rfl

/-- A command without an effect raises its error. -/
theorem raises_of_effect {i : Instr} {s : State} {k : ErrorKind} (h : effectOf s i = .error k) : Raises i k s := by
  have hexec : exec i s = runCommand i (raise k) s := by rw [exec_eq, h]; rfl
  exact raises_of_body hexec rfl (fun _ => rfl) rfl (fun _ => rfl) (fun _ _ => rfl) (fun _ _ => rfl) rfl rfl rfl rfl rfl
    rfl

/-! ## Sequences of computations -/

section
variable {α β : Type} {x : Except ErrorKind α} {k : ErrorKind}

theorem Except.bind_eq_ok_iff {f : α → Except ErrorKind β} {b : β} :
    x >>= f = .ok b ↔ ∃ a, x = .ok a ∧ f a = .ok b := by
  cases x <;> simp [bind, Except.bind]

theorem Except.bind_eq_error_iff {f : α → Except ErrorKind β} :
    x >>= f = .error k ↔ x = .error k ∨ ∃ a, x = .ok a ∧ f a = .error k := by
  cases x <;> simp [bind, Except.bind]

theorem Except.map_eq_ok_iff {f : α → β} {b : β} : x.map f = .ok b ↔ ∃ a, x = .ok a ∧ f a = b := by
  cases x <;> simp [Except.map]

theorem Except.map_eq_error_iff {f : α → β} : x.map f = .error k ↔ x = .error k := by
  cases x <;> simp [Except.map]

end

/-! ## Errors of the parts -/

theorem fitsRegister_eq_ok {n e : Nat} (h : fitsRegister n = .ok e) : e = n ∧ n ≤ countMax := by
  unfold fitsRegister at h
  split_ifs at h with hn
  cases h
  exact ⟨rfl, not_lt.mp hn⟩

theorem fitsRegister_error {n : Nat} {k : ErrorKind} (h : fitsRegister n = .error k) : k = .invalidInput := by
  unfold fitsRegister at h
  split_ifs at h
  cases h
  rfl

theorem pucchCount_eq_ok {s : State} {e : Nat} (h : pucchCount s = .ok e) : resourceE s.regs = .ok e := by
  obtain ⟨n, hn, hf⟩ := Except.bind_eq_ok_iff.mp h
  rw [hn, (fitsRegister_eq_ok hf).1]

theorem puschAckCount_eq_ok {s : State} {o e : Nat} (h : puschAckCount s o = .ok e) : e = eAck s.regs o := by
  obtain ⟨_, -, hf⟩ := Except.bind_eq_ok_iff.mp h
  exact (fitsRegister_eq_ok hf).1

theorem puschCsi1Count_eq_ok {s : State} {e : Nat} (h : puschCsi1Count s = .ok e) :
    eCsi1 s.regs s.ports.csi.nofBits = .ok e := by
  obtain ⟨_, -, h⟩ := Except.bind_eq_ok_iff.mp h
  obtain ⟨n, hn, hf⟩ := Except.bind_eq_ok_iff.mp h
  rw [hn, (fitsRegister_eq_ok hf).1]

theorem pucchCount_error {s : State} {k : ErrorKind} (h : pucchCount s = .error k) :
    k = .invalidInput ∨ k = .invalidOccLength := by
  rcases Except.bind_eq_error_iff.mp h with h | ⟨_, -, h⟩
  · simp only [resourceE, pucchE] at h
    split_ifs at h <;> cases h <;> simp
  · exact .inl (fitsRegister_error h)

theorem puschChecks_error {b : Bool} {g : Regs} {k : ErrorKind} (h : puschChecks b g = .error k) :
    k = .invalidInput ∨ k = .invalidModulation ∨ k = .invalidRate := by
  unfold puschChecks at h
  split_ifs at h <;> cases h <;> simp

theorem eCsi1_error {g : Regs} {o : Nat} {k : ErrorKind} (h : eCsi1 g o = .error k) : k = .invalidInput := by
  unfold eCsi1 at h
  split_ifs at h <;> cases h <;> rfl

theorem puschAckCount_error {s : State} {o : Nat} {k : ErrorKind} (h : puschAckCount s o = .error k) :
    k = .invalidInput ∨ k = .invalidModulation ∨ k = .invalidRate := by
  rcases Except.bind_eq_error_iff.mp h with h | ⟨_, -, h⟩
  · exact puschChecks_error h
  · exact .inl (fitsRegister_error h)

theorem puschCsi1Count_error {s : State} {k : ErrorKind} (h : puschCsi1Count s = .error k) :
    k = .invalidInput ∨ k = .invalidModulation ∨ k = .invalidRate := by
  rcases Except.bind_eq_error_iff.mp h with h | ⟨_, -, h⟩
  · exact puschChecks_error h
  · rcases Except.bind_eq_error_iff.mp h with h | ⟨_, -, h⟩
    · exact .inl (eCsi1_error h)
    · exact .inl (fitsRegister_error h)

theorem pucchPayload_error {s : State} {k : ErrorKind} (h : pucchPayload s = .error k) :
    k = .invalidInput ∨ k = .csiPackFailed := by
  unfold pucchPayload at h
  dsimp only at h
  split at h
  · cases h
    exact .inl rfl
  · split at h
    · cases h
    · split at h <;> cases h
      exact .inr rfl

theorem pucchSize_error {s : State} {k : ErrorKind} (h : pucchSize s = .error k) :
    k = .invalidInput ∨ k = .unsupported := by
  unfold pucchSize at h
  dsimp only at h
  split_ifs at h <;> cases h <;> simp

theorem polarLookup_error {p : Params} {port : PolarSelectPort} {n e : Nat} {k : ErrorKind}
    (h : polarLookup p port n e = .error k) : k = .polarCodeSelectFailed := by
  unfold polarLookup at h
  split at h
  · cases h
    rfl
  · split at h <;> cases h
    rfl

/-- The errors of an encoder, by the family of its size. -/
theorem coded_error {s : State} {a e : Nat} {payload : List Bit} {k : ErrorKind} (h : s.coded a e payload = .error k) :
    k = .invalidInput ∨ (a ≤ 2 ∧ k = .invalidModulation) ∨ (12 ≤ a ∧ k = .polarCodeSelectFailed) := by
  rw [State.coded, codedBytes] at h
  split at h
  · cases h
    exact .inl rfl
  · split at h
    · cases h
      exact .inr (.inl ⟨by omega, rfl⟩)
    · split at h
      · cases h
      · split at h
        · cases h
        · split at h
          · cases h
          · split at h
            · next hk =>
              cases h
              exact .inr (.inr ⟨by omega, polarLookup_error hk⟩)
            · cases h

theorem decodeSegment_error {p : Params} {port : PolarDecodePort} {code : PolarCode} {r : Nat} {llrs : List Int}
    {k : ErrorKind} (h : decodeSegment p port code r llrs = .error k) : k = .polarDecodeFailed := by
  unfold decodeSegment at h
  split at h <;> cases h
  rfl

theorem decodedSegments_error {p : Params} {port : PolarDecodePort} {code : PolarCode} {g : SegParams} {llrs : List Int}
    {k : ErrorKind} (h : decodedSegments p port code g llrs = .error k) : k = .polarDecodeFailed := by
  unfold decodedSegments at h
  generalize List.range g.C = rs at h
  induction rs with
  | nil => cases h
  | cons r rs ih =>
    rw [List.mapM_cons] at h
    rcases Except.bind_eq_error_iff.mp h with h | ⟨c, -, h⟩
    · exact decodeSegment_error h
    · rcases Except.bind_eq_error_iff.mp h with h | ⟨cs, -, h⟩
      · exact ih h
      · cases h

/-- The errors of a decoder, by the family of its size. -/
theorem decoded_error {s : State} {a e : Nat} {k : ErrorKind} (h : s.decoded a e = .error k) :
    k = .invalidInput ∨ (a ≤ 2 ∧ k = .invalidModulation) ∨
      (3 ≤ a ∧ a ≤ 11 ∧ (k = .underRateMatched ∨ k = .allZeros)) ∨
      (12 ≤ a ∧ (k = .polarCodeSelectFailed ∨ k = .polarDecodeFailed)) := by
  rw [State.decoded, decodedBits] at h
  dsimp only at h
  by_cases hrange : a = 0 ∨ 1706 ≤ a ∨ (readLlrs s.llrMem 0 e).length < 1 ∨
      s.params.eMax < (readLlrs s.llrMem 0 e).length
  · rw [if_pos hrange] at h
    cases h
    exact .inl rfl
  · rw [if_neg hrange] at h
    by_cases hm : a ≤ 2 ∧ s.regs.qm = 0
    · rw [if_pos hm] at h
      cases h
      exact .inr (.inl ⟨hm.1, rfl⟩)
    · rw [if_neg hm] at h
      by_cases h1 : a = 1
      · rw [if_pos h1] at h
        cases h
      · by_cases h2 : a = 2
        · rw [if_neg h1, if_pos h2] at h
          cases h
        · rw [if_neg h1, if_neg h2] at h
          by_cases h11 : a ≤ 11
          · rw [if_pos h11] at h
            split_ifs at h
            · cases h
              exact .inr (.inr (.inl ⟨by omega, h11, .inl rfl⟩))
            · cases h
              exact .inr (.inr (.inl ⟨by omega, h11, .inr rfl⟩))
          · rw [if_neg h11] at h
            split at h
            · next hk =>
              cases h
              exact .inr (.inr (.inr ⟨by omega, .inl (polarLookup_error hk)⟩))
            · split at h
              · next hk =>
                cases h
                exact .inr (.inr (.inr ⟨by omega, .inr (decodedSegments_error hk)⟩))
              · cases h

/-- The dispatch can raise the errors of every family. -/
theorem coded_error_mem {s : State} {a e : Nat} {payload : List Bit} {k : ErrorKind}
    (h : s.coded a e payload = .error k) : k ∈ mayRaise .encode := by
  rcases coded_error h with rfl | ⟨-, rfl⟩ | ⟨-, rfl⟩ <;> decide

theorem decoded_error_mem {s : State} {a e : Nat} {k : ErrorKind} (h : s.decoded a e = .error k) :
    k ∈ mayRaise .decode := by
  rcases decoded_error h with rfl | ⟨-, rfl⟩ | ⟨-, -, rfl | rfl⟩ | ⟨-, rfl | rfl⟩ <;> decide

/-! ## Errors of the façades -/

section
variable {s : State} {k : ErrorKind}

theorem unpackPucchEffect_error_mem (h : unpackPucchEffect s = .error k) : k ∈ mayRaise .unpackPucch := by
  rw [unpackPucchEffect] at h
  dsimp only at h
  split at h
  · cases h; decide
  · split at h
    · cases h
    · cases h; decide
    · split at h <;> cases h; decide

theorem encPucchEffect_error_mem (h : encPucchEffect s = .error k) : k ∈ mayRaise .encPucch := by
  rcases Except.bind_eq_error_iff.mp h with h | ⟨e, -, h⟩
  · rcases pucchCount_error h with rfl | rfl <;> decide
  · rcases Except.bind_eq_error_iff.mp h with h | ⟨payload, -, h⟩
    · rcases pucchPayload_error h with rfl | rfl <;> decide
    · split at h
      · cases h; decide
      · rcases Except.bind_eq_error_iff.mp h with h | ⟨_, -, h⟩
        · exact (by decide : mayRaise .encode ⊆ mayRaise .encPucch) (coded_error_mem h)
        · cases h

theorem decPucchEffect_error_mem (h : decPucchEffect s = .error k) : k ∈ mayRaise .decPucch := by
  rcases Except.bind_eq_error_iff.mp h with h | ⟨e, -, h⟩
  · rcases pucchCount_error h with rfl | rfl <;> decide
  · rcases Except.bind_eq_error_iff.mp h with h | ⟨a, -, h⟩
    · rcases pucchSize_error h with rfl | rfl <;> decide
    · rcases Except.bind_eq_error_iff.mp h with h | ⟨_, -, h⟩
      · exact (by decide : mayRaise .decode ⊆ mayRaise .decPucch) (decoded_error_mem h)
      · split at h <;> cases h; decide

theorem encPuschAckEffect_error_mem (h : encPuschAckEffect s = .error k) : k ∈ mayRaise .encPuschAck := by
  rw [encPuschAckEffect] at h
  split at h
  · cases h; decide
  · split at h
    · cases h
    · rcases Except.bind_eq_error_iff.mp h with h | ⟨e, -, h⟩
      · rcases puschAckCount_error h with rfl | rfl | rfl <;> decide
      · rcases Except.bind_eq_error_iff.mp h with h | ⟨_, -, h⟩
        · exact (by decide : mayRaise .encode ⊆ mayRaise .encPuschAck) (coded_error_mem h)
        · cases h

theorem decPuschAckEffect_error_mem (h : decPuschAckEffect s = .error k) : k ∈ mayRaise .decPuschAck := by
  rw [decPuschAckEffect] at h
  split at h
  · cases h; decide
  · split at h
    · cases h
    · rcases Except.bind_eq_error_iff.mp h with h | ⟨e, -, h⟩
      · rcases puschAckCount_error h with rfl | rfl | rfl <;> decide
      · rcases Except.bind_eq_error_iff.mp h with h | ⟨_, -, h⟩
        · exact (by decide : mayRaise .decode ⊆ mayRaise .decPuschAck) (decoded_error_mem h)
        · cases h

theorem encPuschCsi1Effect_error_mem (h : encPuschCsi1Effect s = .error k) : k ∈ mayRaise .encPuschCsi1 := by
  rw [encPuschCsi1Effect] at h
  split at h
  · cases h; decide
  · split at h
    · cases h
    · rcases Except.bind_eq_error_iff.mp h with h | ⟨e, -, h⟩
      · rcases puschCsi1Count_error h with rfl | rfl | rfl <;> decide
      · rcases Except.bind_eq_error_iff.mp h with h | ⟨_, -, h⟩
        · exact (by decide : mayRaise .encode ⊆ mayRaise .encPuschCsi1) (coded_error_mem h)
        · cases h

theorem decPuschCsi1Effect_error_mem (h : decPuschCsi1Effect s = .error k) : k ∈ mayRaise .decPuschCsi1 := by
  rw [decPuschCsi1Effect] at h
  split at h
  · cases h
  · rcases Except.bind_eq_error_iff.mp h with h | ⟨e, -, h⟩
    · rcases puschCsi1Count_error h with rfl | rfl | rfl <;> decide
    · rcases Except.bind_eq_error_iff.mp h with h | ⟨_, -, h⟩
      · exact (by decide : mayRaise .decode ⊆ mayRaise .decPuschCsi1) (decoded_error_mem h)
      · split at h <;> cases h; decide

/-! ## Errors of the coders -/

/-- A coder of one or two bits comes to no code table. -/
theorem coded_small_error_mem {a e : Nat} {payload : List Bit} (ha : a < 3) (h : s.coded a e payload = .error k) :
    k ∈ mayRaise .enc1Bit := by
  rcases coded_error h with rfl | ⟨-, rfl⟩ | ⟨hlarge, -⟩
  · decide
  · decide
  · omega

theorem decoded_small_error_mem {a e : Nat} (ha : a < 3) (h : s.decoded a e = .error k) : k ∈ mayRaise .dec1Bit := by
  rcases decoded_error h with rfl | ⟨-, rfl⟩ | ⟨hlarge, -⟩ | ⟨hlarge, -⟩
  · decide
  · decide
  · omega
  · omega

theorem encRm_error_mem (h : effectOf s .encRm = .error k) : k ∈ mayRaise .encRm := by
  rw [effectOf] at h
  split at h
  · cases h; decide
  · rcases coded_error (Except.map_eq_error_iff.mp h) with rfl | ⟨ha, -⟩ | ⟨ha, -⟩
    · decide
    · omega
    · omega

theorem decRm_error_mem (h : effectOf s .decRm = .error k) : k ∈ mayRaise .decRm := by
  rw [effectOf] at h
  split at h
  · cases h; decide
  · rcases decoded_error (Except.map_eq_error_iff.mp h) with rfl | ⟨ha, -⟩ | ⟨-, -, rfl | rfl⟩ | ⟨ha, -⟩
    · decide
    · omega
    · decide
    · decide
    · omega

theorem encPolar_error_mem (h : effectOf s .encPolar = .error k) : k ∈ mayRaise .encPolar := by
  rw [effectOf] at h
  split at h
  · cases h; decide
  · rcases coded_error (Except.map_eq_error_iff.mp h) with rfl | ⟨ha, -⟩ | ⟨-, rfl⟩
    · decide
    · omega
    · decide

theorem decPolar_error_mem (h : effectOf s .decPolar = .error k) : k ∈ mayRaise .decPolar := by
  rw [effectOf] at h
  split at h
  · cases h; decide
  · rcases decoded_error (Except.map_eq_error_iff.mp h) with rfl | ⟨ha, -⟩ | ⟨-, ha, -⟩ | ⟨-, rfl | rfl⟩
    · decide
    · omega
    · omega
    · decide
    · decide

end

/-! ## What an error leaves -/

/-- A command raises only the kinds the table of 60_exceptions.md R332 allows it. -/
theorem effectOf_error_mem {i : Instr} {s : State} {k : ErrorKind} (h : effectOf s i = .error k) : k ∈ mayRaise i := by
  cases i with
  | pucchE => rcases pucchCount_error (Except.map_eq_error_iff.mp h) with rfl | rfl <;> decide
  | puschAckNofBits => rcases puschAckCount_error (Except.map_eq_error_iff.mp h) with rfl | rfl | rfl <;> decide
  | puschCsi1NofBits => rcases puschCsi1Count_error (Except.map_eq_error_iff.mp h) with rfl | rfl | rfl <;> decide
  | totalBits => rw [fitsRegister_error (Except.map_eq_error_iff.mp h)]; decide
  | packPucch => rcases pucchPayload_error (Except.map_eq_error_iff.mp h) with rfl | rfl <;> decide
  | unpackPucch => exact unpackPucchEffect_error_mem h
  | computeA => rcases pucchSize_error (Except.map_eq_error_iff.mp h) with rfl | rfl <;> decide
  | encode => exact coded_error_mem (Except.map_eq_error_iff.mp h)
  | decode => exact decoded_error_mem (Except.map_eq_error_iff.mp h)
  | enc1Bit | enc2Bit => exact coded_small_error_mem (by decide) (Except.map_eq_error_iff.mp h)
  | dec1Bit | dec2Bit => exact decoded_small_error_mem (by decide) (Except.map_eq_error_iff.mp h)
  | encRm => exact encRm_error_mem h
  | decRm => exact decRm_error_mem h
  | encPolar => exact encPolar_error_mem h
  | decPolar => exact decPolar_error_mem h
  | encPucch => exact encPucchEffect_error_mem h
  | decPucch => exact decPucchEffect_error_mem h
  | encPuschAck => exact encPuschAckEffect_error_mem h
  | decPuschAck => exact decPuschAckEffect_error_mem h
  | encPuschCsi1 => exact encPuschCsi1Effect_error_mem h
  | decPuschCsi1 => exact decPuschCsi1Effect_error_mem h

/-- Settles O15: a command that ends with `ERR = 1` has no effect but an error, which `mayRaise` lists. -/
theorem errorEntry : Obligations.ErrorEntry := by
  refine ⟨fun i s t hexec herr => ?_, fun w e s hw => runWord_of_error hw s⟩
  rw [exec_eq] at hexec
  cases h : effectOf s i with
  | ok x =>
    rw [h] at hexec
    cases hexec
    cases herr
  | error k =>
    obtain ⟨t', hexec', hraised⟩ := raises_of_effect h
    rw [exec_eq, hexec] at hexec'
    cases hexec'
    exact ⟨k, effectOf_error_mem h, hraised⟩

end Sys2Proof.Machine
end

