-- ==== Sys2Proof/Proofs/Outputs.lean ====
section
/-! PROOFS. How far a command writes, what it does not read, and the invariant every step keeps (10_state.md R24, R27,
R38, R42, R331). -/

namespace Sys2Proof.Machine

set_option Elab.async false

/-! ## How much a coder writes -/

theorem triangleRowStart_succ {t i : Nat} (h : i < t) :
    triangleRowStart t (i + 1) = triangleRowStart t i + (t - i) := by
  have hsum : (i + 1) * (i + 1 - 1) / 2 = i * (i - 1) / 2 + i := by
    rw [← Nat.choose_two_right, ← Nat.choose_two_right,
      show (i + 1).choose 2 = i.choose 1 + i.choose 2 from Nat.choose_succ_succ' i 1, Nat.choose_one_right, Nat.add_comm]
  have hle : i * (i - 1) / 2 ≤ i * t :=
    (Nat.div_le_self _ _).trans (Nat.mul_le_mul_left i (by omega))
  have hmul : (i + 1) * t = i * t + t := by ring
  unfold triangleRowStart
  omega

theorem triangleRowStart_le {t i k : Nat} (hik : i ≤ k) (hk : k ≤ t) : triangleRowStart t i ≤ triangleRowStart t k := by
  induction k, hik using Nat.le_induction with
  | base => exact le_rfl
  | succ k hik ih => exact (ih (by omega)).trans (by rw [triangleRowStart_succ (by omega)]; omega)

/-- A row of the triangle ends before every later one begins. -/
theorem triangleRow_lt {t i k j j' : Nat} (hik : i < k) (hk : k ≤ t) (hj : i + j < t) :
    triangleRowStart t i + j < triangleRowStart t k + j' := by
  have := triangleRowStart_le (t := t) (show i + 1 ≤ k from hik) hk
  rw [triangleRowStart_succ (by omega)] at this
  omega

/-- Different cells of the triangle have different numbers. -/
theorem triangleCell_injective {t i i' j j' : Nat} (h : i + j < t) (h' : i' + j' < t)
    (heq : triangleRowStart t i + j = triangleRowStart t i' + j') : i = i' ∧ j = j' := by
  rcases Nat.lt_trichotomy i i' with hlt | rfl | hlt
  · have := triangleRow_lt (j' := j') hlt (by omega) h
    omega
  · exact ⟨rfl, by omega⟩
  · have := triangleRow_lt (j' := j) hlt (by omega) h'
    omega

theorem triangleSrc_nodup (e : Nat) : (triangleSrc e).Nodup := by
  unfold triangleSrc
  dsimp only
  rw [List.nodup_flatMap]
  constructor
  · intro j _
    refine (List.Nodup.map_on ?_ List.nodup_range).filter _
    intro i hi i' hi' heq
    rw [List.mem_range] at hi hi'
    exact (triangleCell_injective (by omega) (by omega) heq).1
  · refine List.nodup_range.imp_of_mem fun {j j'} _ _ hne => ?_
    intro k hk hk'
    simp only [List.mem_filter, List.mem_map, List.mem_range, decide_eq_true_eq] at hk hk'
    obtain ⟨⟨i, hi, rfl⟩, -⟩ := hk
    obtain ⟨⟨i', hi', heq⟩, -⟩ := hk'
    exact hne (triangleCell_injective (by omega) (by omega) heq.symm).2

theorem triangleSrc_length_le (e : Nat) : (triangleSrc e).length ≤ e := by
  have hsub : triangleSrc e ⊆ List.range e := by
    intro k hk
    simp only [triangleSrc, List.mem_flatMap, List.mem_filter, decide_eq_true_eq] at hk
    obtain ⟨_, _, _, hlt⟩ := hk
    exact List.mem_range.mpr hlt
  simpa using ((triangleSrc_nodup e).subperm hsub).length_le

/-- The number of elements of `OUT_MEM` an encoder of `a` bits may write (45_polar_pipeline.md R267). -/
def codedExtent (a e : Nat) : Nat := if a < 12 then e else (segParams a e).C * (segParams a e).eR

theorem codedExtent_le (a e : Nat) : codedExtent a e ≤ e := by
  unfold codedExtent
  split_ifs
  · exact le_rfl
  · exact Nat.mul_div_le e _

theorem polarOutput_length_le (p : Params) (code : PolarCode) (a : Nat) (g : SegParams) (payload : List Bit) :
    (polarOutput p code a g payload).length ≤ g.C * g.eR := by
  have hseg : ∀ r ∈ List.range g.C, (encodeSegment p code g (segInfo a g payload r)).length ≤ g.eR := fun r _ => by
    simpa [encodeSegment, rateMatch] using triangleSrc_length_le g.eR
  rw [polarOutput, List.length_flatMap]
  calc ((List.range g.C).map fun r => (encodeSegment p code g (segInfo a g payload r)).length).sum
      ≤ ((List.range g.C).map fun r => (encodeSegment p code g (segInfo a g payload r)).length).length • g.eR :=
        List.sum_le_card_nsmul _ _ (by simpa using hseg)
    _ = g.C * g.eR := by simp

/-- An encoder that succeeds has an allocation inside `OUT_MEM` and writes no more than its extent. -/
theorem coded_eq_ok {s : State} {a e : Nat} {payload : List Bit} {out : List Byte}
    (h : s.coded a e payload = .ok out) :
    0 < a ∧ a < 1706 ∧ e ≤ s.params.eMax ∧ out.length ≤ codedExtent a e := by
  rw [State.coded, codedBytes] at h
  dsimp only at h
  by_cases hrange : a = 0 ∨ 1706 ≤ a ∨ e < 1 ∨ s.params.eMax < e
  · rw [if_pos hrange] at h
    cases h
  · rw [if_neg hrange] at h
    refine ⟨by omega, by omega, by omega, ?_⟩
    unfold codedExtent
    split at h
    · cases h
    · split at h
      · cases h
        rw [if_pos (by omega)]
        simp
      · split at h
        · cases h
          rw [if_pos (by omega)]
          simp
        · split at h
          · cases h
            rw [if_pos (by omega)]
            simp
          · split at h <;> cases h
            rw [if_neg (by omega), List.length_map]
            exact polarOutput_length_le _ _ _ _ _

/-- A decoder that succeeds finds as many bits as it was asked for. -/
theorem decoded_eq_ok {s : State} {a e : Nat} {x : List Bit × Bool} (h : s.decoded a e = .ok x) :
    x.1.length = a ∧ a < 1706 := by
  have hrun := decodeDispatch_decoded a e s
  rw [h] at hrun
  exact ⟨hrun.1, hrun.2.1⟩

theorem pucchPayload_eq_ok {s : State} {bits : List Bit} (h : pucchPayload s = .ok bits) : bits.length ≤ 1706 := by
  unfold pucchPayload at h
  dsimp only at h
  split at h
  · cases h
  · split at h
    · cases h
      rw [ackSrBits_length]
      omega
    · split at h <;> cases h
      next bits hpack =>
        have := csiPack_length hpack
        rw [List.length_append, ackSrBits_length]
        omega

/-! ## What an effect may write -/

/-- An effect stays inside what the rule of its command lists under "writes". -/
structure Effect.Fits (i : Instr) (s : State) (x : Effect) : Prop where
  valid : commandClass i ≠ .decoding → x.valid = s.status.valid
  regs : x.regs =
    { s.regs with
      resE := if writesResE i then BitVec.ofNat 32 (codedBits s i) else s.regs.resE
      resA := if writesResA i then BitVec.ofNat 32 (payloadBits s i) else s.regs.resA
      sr := if writesSr i then x.regs.sr else s.regs.sr }
  ack : x.ack.length ≤ writtenAck s i ∧ writtenAck s i ≤ 1706
  bits : x.bits.length ≤ writtenBits s i ∧ writtenBits s i ≤ 1706
  out : x.out.length ≤ writtenOut s i ∧ writtenOut s i ≤ s.params.eMax
  csi : x.csi.map List.length = if deliversCsi s i then some s.ports.csi.nofBits else none

theorem sizeOr0_of_ok {x : Except ErrorKind Nat} {n : Nat} (h : x = .ok n) : sizeOr0 x = n := by rw [h]; rfl

theorem payloadSize_of_ok {s : State} {bits : List Bit} (h : pucchPayload s = .ok bits) :
    sizeOr0 ((pucchPayload s).map List.length) = bits.length := by rw [h]; rfl

/-- The effect of a command that codes `a` bits from `BITSEQ` fits it. -/
theorem codes_fits {i : Instr} {s : State} {out : List Byte}
    (hi : i = .encode ∨ i = .enc1Bit ∨ i = .enc2Bit ∨ i = .encRm ∨ i = .encPolar)
    (h : s.coded (payloadBits s i) s.regs.argE.toNat (readBits s.bitSeq 0 (payloadBits s i)) = .ok out) :
    (Effect.codes s s.regs.argE.toNat out).Fits i s := by
  obtain ⟨-, -, hE, hout⟩ := coded_eq_ok h
  have hext := codedExtent_le (payloadBits s i) s.regs.argE.toNat
  rcases hi with rfl | rfl | rfl | rfl | rfl
  all_goals
    exact
      { valid := fun _ => rfl
        regs := rfl
        ack := ⟨Nat.zero_le _, Nat.zero_le _⟩
        bits := ⟨Nat.zero_le _, Nat.zero_le _⟩
        out := ⟨hout, hext.trans hE⟩
        csi := rfl }

/-- The effect of a command that decodes `a` bits into `BITSEQ` fits it. -/
theorem decodes_fits {i : Instr} {s : State} {x : List Bit × Bool}
    (hi : i = .decode ∨ i = .dec1Bit ∨ i = .dec2Bit ∨ i = .decRm ∨ i = .decPolar)
    (h : s.decoded (payloadBits s i) s.regs.argE.toNat = .ok x) : (Effect.decodes s x).Fits i s := by
  obtain ⟨hlen, hmax⟩ := decoded_eq_ok h
  rcases hi with rfl | rfl | rfl | rfl | rfl
  all_goals
    exact
      { valid := fun hc => absurd rfl hc
        regs := rfl
        ack := ⟨Nat.zero_le _, Nat.zero_le _⟩
        bits := ⟨hlen.le, hmax.le⟩
        out := ⟨Nat.zero_le _, Nat.zero_le _⟩
        csi := rfl }

/-- The effect of a command that stores a count fits it. -/
theorem counts_fits {i : Instr} {s : State} {e : Nat}
    (hi : i = .pucchE ∨ i = .puschAckNofBits ∨ i = .puschCsi1NofBits ∨ i = .totalBits) (he : codedBits s i = e) :
    (Effect.counts s e).Fits i s := by
  subst he
  rcases hi with rfl | rfl | rfl | rfl
  all_goals
    exact
      { valid := fun _ => rfl
        regs := rfl
        ack := ⟨Nat.zero_le _, Nat.zero_le _⟩
        bits := ⟨Nat.zero_le _, Nat.zero_le _⟩
        out := ⟨Nat.zero_le _, Nat.zero_le _⟩
        csi := rfl }

theorem packPucch_fits {s : State} {x : Effect} (h : effectOf s .packPucch = .ok x) : x.Fits .packPucch s := by
  obtain ⟨bits, hbits, rfl⟩ := Except.map_eq_ok_iff.mp h
  have hlen : payloadBits s .packPucch = bits.length := payloadSize_of_ok hbits
  exact
    { valid := fun _ => rfl
      regs := by rw [hlen]; rfl
      ack := ⟨Nat.zero_le _, Nat.zero_le _⟩
      bits := ⟨hlen.ge, hlen.le.trans (pucchPayload_eq_ok hbits)⟩
      out := ⟨Nat.zero_le _, Nat.zero_le _⟩
      csi := rfl }

theorem computeA_fits {s : State} {x : Effect} (h : effectOf s .computeA = .ok x) : x.Fits .computeA s := by
  obtain ⟨a, ha, rfl⟩ := Except.map_eq_ok_iff.mp h
  have hlen : payloadBits s .computeA = a := sizeOr0_of_ok ha
  exact
    { valid := fun _ => rfl
      regs := by rw [hlen]; rfl
      ack := ⟨Nat.zero_le _, Nat.zero_le _⟩
      bits := ⟨Nat.zero_le _, Nat.zero_le _⟩
      out := ⟨Nat.zero_le _, Nat.zero_le _⟩
      csi := rfl }

theorem deliversCsi_unpackPucch (s : State) :
    deliversCsi s .unpackPucch = decide (0 < s.ports.csi.nofBits) := by simp [deliversCsi]

theorem unpackPucch_fits {s : State} {x : Effect} (h : effectOf s .unpackPucch = .ok x) : x.Fits .unpackPucch s := by
  rw [effectOf, unpackPucchEffect] at h
  dsimp only at h
  split at h
  · cases h
  · next hchecks =>
    have hack : s.regs.oAck.toNat ≤ 1706 := by
      have : ¬aMax < s.regs.oAck.toNat := fun hlt => hchecks (.inl hlt)
      exact not_lt.mp this
    have hfits {csi : Option (List Bit)} {ack : List Bit} {w : Word} (hlen : ack.length ≤ s.regs.oAck.toNat)
        (hcsi : csi.map List.length = if 0 < s.ports.csi.nofBits then some s.ports.csi.nofBits else none) :
        Effect.Fits .unpackPucch s
          { Effect.nothing s with ack := ack, regs := { s.regs with sr := w }, csi := csi } :=
      { valid := fun _ => rfl
        regs := rfl
        ack := ⟨hlen, hack⟩
        bits := ⟨Nat.zero_le _, Nat.zero_le _⟩
        out := ⟨Nat.zero_le _, Nat.zero_le _⟩
        csi := by rw [hcsi, deliversCsi_unpackPucch]; simp }
    rcases mode_cases s with ⟨hm, hc⟩ | ⟨hm, -⟩ | ⟨hm, hc, -⟩
    · rw [hm] at h
      cases h
      exact hfits (List.length_take_le _ _) (by simp [hc, Effect.nothing])
    · rw [hm] at h
      cases h
    · rw [hm] at h
      dsimp only at h
      split at h <;> cases h
      exact hfits (List.length_take_le _ _) (by simp [Nat.pos_of_ne_zero hc])

/-- The effect of a façade that found nothing to code fits it. -/
theorem sized_zero_fits {i : Instr} {s : State} {v : Bool} (hi : isFacade i = true) (hsr : writesSr i = false)
    (ha : payloadBits s i = 0) (he : codedBits s i = 0) (hcsi : deliversCsi s i = false)
    (hv : commandClass i ≠ .decoding → v = s.status.valid) (hack : writtenAck s i ≤ 1706) :
    Effect.Fits i s { Effect.nothing s with valid := v, regs := s.regs.sized 0 0 } where
  valid := hv
  regs := by
    have hE : writesResE i = true := by simp [writesResE, hi]
    have hA : writesResA i = true := by simp [writesResA, hi]
    simp [hE, hA, hsr, ha, he, Regs.sized]
  ack := ⟨Nat.zero_le _, hack⟩
  bits := ⟨Nat.zero_le _, by unfold writtenBits; split <;> omega⟩
  out := ⟨Nat.zero_le _, by unfold writtenOut; split_ifs <;> omega⟩
  csi := by rw [hcsi]; rfl

/-- The effect of an encoding façade that coded its payload fits it. -/
theorem encoderTail_fits {i : Instr} {s : State} {payload : List Bit} {out : List Byte} {e : Nat}
    (hi : i = .encPucch ∨ i = .encPuschAck ∨ i = .encPuschCsi1) (ha : payloadBits s i = payload.length)
    (he : codedBits s i = e) (h : s.coded payload.length e payload = .ok out) :
    Effect.Fits i s
      { Effect.nothing s with regs := s.regs.sized payload.length e, bits := payload, out := out } := by
  obtain ⟨-, hlt, hE, hout⟩ := coded_eq_ok h
  have hext := codedExtent_le payload.length e
  have hbits : payload.length ≤ payloadBits s i ∧ payloadBits s i ≤ 1706 := by omega
  have hout : out.length ≤ codedExtent (payloadBits s i) (codedBits s i) ∧
      codedExtent (payloadBits s i) (codedBits s i) ≤ s.params.eMax := by
    rw [ha, he]
    omega
  rcases hi with rfl | rfl | rfl
  all_goals
    exact
      { valid := fun _ => rfl
        regs := by rw [ha, he]; rfl
        ack := ⟨Nat.zero_le _, Nat.zero_le _⟩
        bits := hbits
        out := hout
        csi := rfl }

theorem encPucch_fits {s : State} {x : Effect} (h : effectOf s .encPucch = .ok x) : x.Fits .encPucch s := by
  obtain ⟨e, he, h⟩ := Except.bind_eq_ok_iff.mp h
  obtain ⟨payload, hp, h⟩ := Except.bind_eq_ok_iff.mp h
  split at h
  · cases h
  · obtain ⟨out, hout, h⟩ := Except.bind_eq_ok_iff.mp h
    cases h
    exact encoderTail_fits (.inl rfl) (payloadSize_of_ok hp) (sizeOr0_of_ok (pucchCount_eq_ok he)) hout

theorem encPuschAck_fits {s : State} {x : Effect} (h : effectOf s .encPuschAck = .ok x) : x.Fits .encPuschAck s := by
  rw [effectOf, encPuschAckEffect] at h
  split at h
  · cases h
  · split at h
    · next h0 =>
      cases h
      exact sized_zero_fits rfl rfl h0 (if_pos h0) rfl (fun _ => rfl) (Nat.zero_le _)
    · next h0 =>
      obtain ⟨e, he, h⟩ := Except.bind_eq_ok_iff.mp h
      obtain ⟨out, hout, h⟩ := Except.bind_eq_ok_iff.mp h
      cases h
      rw [← ackPayload_length] at hout ⊢
      exact encoderTail_fits (.inr (.inl rfl)) (ackPayload_length s).symm
        ((if_neg h0).trans (puschAckCount_eq_ok he).symm) hout

theorem encPuschCsi1_fits {s : State} {x : Effect} (h : effectOf s .encPuschCsi1 = .ok x) :
    x.Fits .encPuschCsi1 s := by
  rw [effectOf, encPuschCsi1Effect] at h
  split at h
  · cases h
  · next payload hp =>
    have hpacked : s.ports.csi.packed.getD [] = payload := by
      unfold csiPack at hp
      split at hp
      · cases hp
      · next bits hbits =>
        split at hp <;> cases hp
        rw [hbits, Option.getD_some]
    have ha : payloadBits s .encPuschCsi1 = payload.length := congrArg List.length hpacked
    split at h
    · next h0 =>
      cases h
      exact sized_zero_fits rfl rfl (ha.trans h0) (if_pos (ha.trans h0)) rfl (fun _ => rfl) (Nat.zero_le _)
    · next h0 =>
      obtain ⟨e, he, h⟩ := Except.bind_eq_ok_iff.mp h
      obtain ⟨out, hout, h⟩ := Except.bind_eq_ok_iff.mp h
      cases h
      exact encoderTail_fits (.inr (.inr rfl)) ha
        ((if_neg (fun hz => h0 (ha.symm.trans hz))).trans (sizeOr0_of_ok (puschCsi1Count_eq_ok he))) hout

theorem decPucch_fits {s : State} {x : Effect} (h : effectOf s .decPucch = .ok x) : x.Fits .decPucch s := by
  obtain ⟨e, he, h⟩ := Except.bind_eq_ok_iff.mp h
  obtain ⟨a, hsize, h⟩ := Except.bind_eq_ok_iff.mp h
  obtain ⟨y, hy, h⟩ := Except.bind_eq_ok_iff.mp h
  have ha : payloadBits s .decPucch = a := sizeOr0_of_ok hsize
  have hE : codedBits s .decPucch = e := sizeOr0_of_ok (pucchCount_eq_ok he)
  obtain ⟨hack, -, hsum, hmax, -⟩ := pucchSize_eq_ok hsize
  obtain ⟨hlen, -⟩ := decoded_eq_ok hy
  split at h <;> cases h
  exact
    { valid := fun hc => absurd rfl hc
      regs := by rw [ha, hE]; rfl
      ack := ⟨List.length_take_le _ _, hack⟩
      bits := ⟨(hlen.trans ha.symm).le, ha.le.trans hmax⟩
      out := ⟨Nat.zero_le _, Nat.zero_le _⟩
      csi := rfl }

theorem decPuschAck_fits {s : State} {x : Effect} (h : effectOf s .decPuschAck = .ok x) : x.Fits .decPuschAck s := by
  rw [effectOf, decPuschAckEffect] at h
  split at h
  · cases h
  · split at h
    · next h0 =>
      cases h
      exact sized_zero_fits rfl rfl h0 (if_pos h0) rfl (fun hc => absurd rfl hc) (h0.le.trans (Nat.zero_le _))
    · next h0 =>
      obtain ⟨e, he, h⟩ := Except.bind_eq_ok_iff.mp h
      obtain ⟨y, hy, h⟩ := Except.bind_eq_ok_iff.mp h
      have hE : codedBits s .decPuschAck = e := (if_neg h0).trans (puschAckCount_eq_ok he).symm
      obtain ⟨hlen, hmax⟩ := decoded_eq_ok hy
      cases h
      exact
        { valid := fun hc => absurd rfl hc
          regs := by rw [hE]; rfl
          ack := ⟨hlen.le, hmax.le⟩
          bits := ⟨hlen.le, hmax.le⟩
          out := ⟨Nat.zero_le _, Nat.zero_le _⟩
          csi := rfl }

theorem decPuschCsi1_fits {s : State} {x : Effect} (h : effectOf s .decPuschCsi1 = .ok x) :
    x.Fits .decPuschCsi1 s := by
  rw [effectOf, decPuschCsi1Effect] at h
  split at h
  · next h0 =>
    cases h
    exact sized_zero_fits rfl rfl h0 (if_pos h0) (by simp [deliversCsi, h0]) (fun hc => absurd rfl hc) (Nat.zero_le _)
  · next h0 =>
    obtain ⟨e, he, h⟩ := Except.bind_eq_ok_iff.mp h
    obtain ⟨y, hy, h⟩ := Except.bind_eq_ok_iff.mp h
    have hE : codedBits s .decPuschCsi1 = e := (if_neg h0).trans (sizeOr0_of_ok (puschCsi1Count_eq_ok he))
    obtain ⟨hlen, hmax⟩ := decoded_eq_ok hy
    split at h <;> cases h
    exact
      { valid := fun hc => absurd rfl hc
        regs := by rw [hE]; rfl
        ack := ⟨Nat.zero_le _, Nat.zero_le _⟩
        bits := ⟨hlen.le, hmax.le⟩
        out := ⟨Nat.zero_le _, Nat.zero_le _⟩
        csi := by simp [deliversCsi, Nat.pos_of_ne_zero h0, hlen] }

/-- Every effect fits its command (20_memory.md R70). -/
theorem effectOf_fits {i : Instr} {s : State} {x : Effect} (h : effectOf s i = .ok x) : x.Fits i s := by
  cases i with
  | pucchE =>
    obtain ⟨e, he, rfl⟩ := Except.map_eq_ok_iff.mp h
    exact counts_fits (by simp) (sizeOr0_of_ok (pucchCount_eq_ok he))
  | puschAckNofBits =>
    obtain ⟨e, he, rfl⟩ := Except.map_eq_ok_iff.mp h
    exact counts_fits (by simp) (puschAckCount_eq_ok he).symm
  | puschCsi1NofBits =>
    obtain ⟨e, he, rfl⟩ := Except.map_eq_ok_iff.mp h
    exact counts_fits (by simp) (sizeOr0_of_ok (puschCsi1Count_eq_ok he))
  | totalBits =>
    obtain ⟨e, he, rfl⟩ := Except.map_eq_ok_iff.mp h
    exact counts_fits (by simp) (fitsRegister_eq_ok he).1.symm
  | packPucch => exact packPucch_fits h
  | unpackPucch => exact unpackPucch_fits h
  | computeA => exact computeA_fits h
  | encode | enc1Bit | enc2Bit =>
    obtain ⟨out, hout, rfl⟩ := Except.map_eq_ok_iff.mp h
    exact codes_fits (by simp) hout
  | decode | dec1Bit | dec2Bit =>
    obtain ⟨y, hy, rfl⟩ := Except.map_eq_ok_iff.mp h
    exact decodes_fits (by simp) hy
  | encRm | encPolar =>
    rw [effectOf] at h
    split at h
    · cases h
    · obtain ⟨out, hout, rfl⟩ := Except.map_eq_ok_iff.mp h
      exact codes_fits (by simp) hout
  | decRm | decPolar =>
    rw [effectOf] at h
    split at h
    · cases h
    · obtain ⟨y, hy, rfl⟩ := Except.map_eq_ok_iff.mp h
      exact decodes_fits (by simp) hy
  | encPucch => exact encPucch_fits h
  | decPucch => exact decPucch_fits h
  | encPuschAck => exact encPuschAck_fits h
  | decPuschAck => exact decPuschAck_fits h
  | encPuschCsi1 => exact encPuschCsi1_fits h
  | decPuschCsi1 => exact decPuschCsi1_fits h

theorem BitsStored.kept {m m' : Memory Bit} {vs : List Bit} (h : BitsStored m m' vs) {n : Nat} (hn : vs.length ≤ n) :
    ∀ a, n ≤ a → readBit m' a = readBit m a := fun a ha => by
  rw [h a, List.getD_eq_default _ _ (hn.trans ha)]

theorem BytesStored.kept {m m' : Memory Byte} {vs : List Byte} (h : BytesStored m m' vs) {n : Nat}
    (hn : vs.length ≤ n) : ∀ a, n ≤ a → readByte m' a = readByte m a := fun a ha => by
  rw [h a, List.getD_eq_default _ _ (hn.trans ha)]

/-- Settles O16: `exec` is total by `exec_eq`, and the effect of a command fits it. -/
theorem successWritesOnlyItsOutputs : Obligations.SuccessWritesOnlyItsOutputs := by
  intro i s
  refine ⟨_, exec_eq i s, fun herr => ?_⟩
  cases h : effectOf s i with
  | error k =>
    rw [h] at herr
    cases herr
  | ok x =>
    have hfits := effectOf_fits h
    exact
      ⟨rfl, hfits.valid, hfits.regs, ⟨hfits.ack.2, (bitsStored_store _ _).kept hfits.ack.1⟩,
        ⟨hfits.bits.2, (bitsStored_store _ _).kept hfits.bits.1⟩,
        ⟨hfits.out.2, (bytesStored_store _ _).kept hfits.out.1⟩, ⟨x.csi, rfl, hfits.csi⟩, ⟨fun _ => rfl, rfl, rfl, rfl⟩⟩

/-! ## What an effect depends on -/

/-- No command reads `OUT_MEM` or a scratch buffer. -/
theorem effectOf_outputs (i : Instr) (s : State) (m : Memory Byte) (c b : Memory Bit) (d : Memory Byte) :
    effectOf { s with outMem := m, cBuf := c, alloc := b, dBuf := d } i = effectOf s i := by
  cases i <;> rfl

/-- Settles O19: the effect is the same, and an element of `OUT_MEM` is either in what the effect writes or kept. -/
theorem outputAndScratchAreNeverRead : Obligations.OutputAndScratchAreNeverRead := by
  intro i s m c b d
  refine ⟨_, _, exec_eq i s, exec_eq i _, ?_⟩
  rw [effectOf_outputs]
  cases effectOf s i with
  | ok x =>
    refine ⟨rfl, fun a => ?_⟩
    have hs : readByte (s.outMem.store x.out) a = _ := bytesStored_store s.outMem x.out a
    have hm : readByte (m.store x.out) a = _ := bytesStored_store m x.out a
    by_cases ha : a < x.out.length
    · rw [List.getD_eq_getElem _ _ ha] at hs hm
      exact .inl (hm.trans hs.symm)
    · rw [List.getD_eq_default _ _ (not_lt.mp ha)] at hs hm
      exact .inr ⟨hs, hm⟩
  | error k =>
    refine ⟨rfl, fun a => ?_⟩
    by_cases hi : commandClass i = .encoding
    · simp [State.afterCommand, hi]
    · simp [State.afterCommand, hi]

/-- A decoding command sets `VALID` itself. -/
theorem effectOf_status_decoding {i : Instr} (hi : commandClass i = .decoding) (s : State) (st : Status) :
    effectOf { s with status := st } i = effectOf s i := by
  cases i <;> first | rfl | cases hi

/-- The effect with another `VALID`. -/
def Effect.withValid (v : Bool) (x : Effect) : Effect := { x with valid := v }

theorem Except.map_bind {α β γ : Type} (g : β → γ) (x : Except ErrorKind α) (f : α → Except ErrorKind β) :
    (x >>= f).map g = x >>= fun a => (f a).map g := by
  cases x <;> rfl

theorem Except.map_map' {α β γ : Type} (g : β → γ) (x : Except ErrorKind α) (f : α → β) :
    (x.map f).map g = x.map fun a => g (f a) := by
  cases x <;> rfl

/-- Any other command hands `VALID` on. -/
theorem effectOf_status_other {i : Instr} (hi : commandClass i ≠ .decoding) (s : State) (st : Status) :
    effectOf { s with status := st } i = (effectOf s i).map (Effect.withValid st.valid) := by
  cases i with
  | pucchE | puschAckNofBits | puschCsi1NofBits | totalBits | packPucch | computeA | encode | enc1Bit | enc2Bit =>
    rw [effectOf, effectOf, Except.map_map']
    rfl
  | encRm | encPolar =>
    rw [effectOf, effectOf, apply_ite (Except.map _), Except.map_map']
    rfl
  | unpackPucch =>
    rw [effectOf, effectOf, unpackPucchEffect, unpackPucchEffect, apply_ite (Except.map _)]
    rw [show State.mode { s with status := st } = s.mode from rfl]
    cases s.mode with
    | ackSr => rfl
    | csiOnly => rfl
    | combined =>
      rw [apply_ite (Except.map _)]
      rfl
  | encPucch =>
    simp only [effectOf, encPucchEffect, Except.map_bind, apply_ite (Except.map _)]
    rfl
  | encPuschAck =>
    simp only [effectOf, encPuschAckEffect, Except.map_bind, apply_ite (Except.map _)]
    rfl
  | encPuschCsi1 =>
    rw [effectOf, effectOf, encPuschCsi1Effect, encPuschCsi1Effect]
    cases csiPack s.ports.csi aMax with
    | none => rfl
    | some payload =>
      simp only [Except.map_bind, apply_ite (Except.map _)]
      rfl
  | _ => exact absurd rfl hi

/-- Settles O17: `effectOf` takes nothing from `STATUS` but the `VALID` a command hands on. -/
theorem statusIsNeverRead : Obligations.StatusIsNeverRead := by
  intro i s st
  refine ⟨_, exec_eq i s, ?_⟩
  rw [exec_eq]
  by_cases hi : commandClass i = .decoding
  · rw [if_pos hi, effectOf_status_decoding hi]
    cases effectOf s i with
    | ok x => rfl
    | error k => simp [State.afterCommand, State.raiseError, hi]
  · rw [if_neg hi, effectOf_status_other hi]
    cases effectOf s i with
    | ok x => rfl
    | error k => simp [State.afterCommand, State.raiseError, hi, Except.map]

/-! ## The invariant -/

theorem Memory.wf_store {α : Type} {m : Memory α} {size : Nat} {vs : List α} (hm : m.wf size = true)
    (hlen : vs.length ≤ size) : (m.store vs).wf size = true := by
  rw [Memory.store_eq]
  exact Memory.wf_writeRange hm (by omega)

theorem finalPhase_cases (i : Instr) : finalPhase i = .idle ∨ finalPhase i = .emitted := by
  unfold finalPhase
  split <;> simp

theorem ErrorKind.code_range (k : ErrorKind) : k.code ≠ 0 ∧ k.code.toNat ≤ 12 := by
  cases k <;> decide

theorem Status.consistent_success (v : Bool) (i : Instr) :
    Status.Consistent { done := true, err := false, valid := v, phase := finalPhase i, errCode := 0 } where
  errCode_zero := iff_of_true rfl rfl
  errCode_range := Nat.zero_le _
  phase_error := iff_of_false Bool.false_ne_true fun h : finalPhase i = .error => by
    rcases finalPhase_cases i with hi | hi <;> rw [hi] at h <;> cases h
  phase_final := fun _ => finalPhase_cases i
  not_done := fun h => absurd h (Bool.noConfusion ·)

theorem Status.consistent_error (v : Bool) (k : ErrorKind) :
    Status.Consistent { done := true, err := true, valid := v, phase := .error, errCode := k.code } where
  errCode_zero := iff_of_false (Bool.noConfusion ·) k.code_range.1
  errCode_range := k.code_range.2
  phase_error := iff_of_true rfl rfl
  phase_final := fun h => absurd h (Bool.noConfusion ·)
  not_done := fun h => absurd h (Bool.noConfusion ·)

/-- A command's effect, or its error, keeps the invariant. -/
theorem inv_afterCommand {s : State} (hs : Inv s) (i : Instr) : Inv (s.afterCommand i (effectOf s i)) := by
  cases h : effectOf s i with
  | error k =>
    exact
      { ackMem := by
          show (if writesAckMem i then _ else _ : Memory Bit).wf aMax = true
          split
          · exact Memory.wf_any _ _
          · exact hs.ackMem
        bitSeq := Memory.wf_any _ _
        llrMem := hs.llrMem
        outMem := by
          show (if commandClass i = .encoding then _ else _ : Memory Byte).wf s.params.eMax = true
          split
          · exact Memory.wf_any _ _
          · exact hs.outMem
        cBuf := Memory.wf_any _ _
        alloc := Memory.wf_any _ _
        dBuf := Memory.wf_any _ _
        blockThr := hs.blockThr
        oneBitThr := hs.oneBitThr
        status := Status.consistent_error _ k }
  | ok x =>
    have hfits := effectOf_fits h
    exact
      { ackMem := Memory.wf_store hs.ackMem (hfits.ack.1.trans hfits.ack.2)
        bitSeq := Memory.wf_store hs.bitSeq (hfits.bits.1.trans hfits.bits.2)
        llrMem := hs.llrMem
        outMem := Memory.wf_store hs.outMem (hfits.out.1.trans hfits.out.2)
        cBuf := Memory.wf_any _ _
        alloc := Memory.wf_any _ _
        dBuf := Memory.wf_any _ _
        blockThr := by
          show finitePositive x.regs.blockThr = true
          rw [hfits.regs]
          exact hs.blockThr
        oneBitThr := by
          show finitePositive x.regs.oneBitThr = true
          rw [hfits.regs]
          exact hs.oneBitThr
        status := Status.consistent_success _ i }

/-- The host's own fields are no part of the invariant. -/
theorem Inv.withHost {s : State} (hs : Inv s) (p : Ports) (ops : List HostOp) (w : Word) :
    Inv { s with ports := p, pending := ops, busRead := w } where
  ackMem := hs.ackMem
  bitSeq := hs.bitSeq
  llrMem := hs.llrMem
  outMem := hs.outMem
  cBuf := hs.cBuf
  alloc := hs.alloc
  dBuf := hs.dBuf
  blockThr := hs.blockThr
  oneBitThr := hs.oneBitThr
  status := hs.status

theorem inv_illegalCommand {s : State} (hs : Inv s) : Inv s.illegalCommand where
  ackMem := hs.ackMem
  bitSeq := hs.bitSeq
  llrMem := hs.llrMem
  outMem := hs.outMem
  cBuf := hs.cBuf
  alloc := hs.alloc
  dBuf := hs.dBuf
  blockThr := hs.blockThr
  oneBitThr := hs.oneBitThr
  status := Status.consistent_error s.status.valid .illegalCommand

theorem inv_runWord {s t : State} {w : Word} (hs : Inv s) (h : runWord w s = .next t) : Inv t := by
  cases hw : decodeWord w with
  | ok i =>
    rw [runWord_of_ok hw, exec_eq] at h
    cases h
    exact inv_afterCommand hs i
  | error e =>
    rw [runWord_of_error hw] at h
    cases h
    exact inv_illegalCommand hs

theorem writeReg_thresholds {g : Regs} (hb : finitePositive g.blockThr = true) (ho : finitePositive g.oneBitThr = true)
    (r : Reg) (v : Word) :
    finitePositive (writeReg g r v).blockThr = true ∧ finitePositive (writeReg g r v).oneBitThr = true := by
  cases r with
  | blockThr => exact ⟨finitePositive_thresholdWritten v, ho⟩
  | oneBitThr => exact ⟨hb, finitePositive_thresholdWritten v⟩
  | _ => exact ⟨hb, ho⟩

theorem inv_hostWriteReg {s : State} (hs : Inv s) (n : Nat) (v : Word) : Inv (hostWriteReg s n v) := by
  unfold hostWriteReg
  split
  · exact hs
  · next r _ =>
    obtain ⟨hb, ho⟩ := writeReg_thresholds hs.blockThr hs.oneBitThr r v
    exact { hs with blockThr := hb, oneBitThr := ho }

theorem elementAccess_eq_next {size : Option Nat} {i : Nat} {u t : State} (h : elementAccess size i u = .next t) :
    u = t ∧ ∃ n ∈ size, i < n := by
  unfold elementAccess at h
  split at h
  · cases h
  · split at h <;> cases h
    exact ⟨rfl, _, rfl, by assumption⟩

theorem inv_hostWriteBit {s : State} (hs : Inv s) {sp : BitSpace} {i n : Nat} (hn : n ∈ hostBitSize sp) (hi : i < n)
    (v : Bit) : Inv (hostWriteBit s sp i v) := by
  cases sp <;> cases hn
  · exact { hs with ackMem := Memory.wf_writeRange hs.ackMem hi }
  · exact { hs with bitSeq := Memory.wf_writeRange hs.bitSeq hi }

theorem inv_hostWriteByte {s : State} (hs : Inv s) {sp : ByteSpace} {i n : Nat} (hn : n ∈ hostByteSize s.params sp)
    (hi : i < n) (v : Byte) : Inv (hostWriteByte s sp i v) := by
  cases sp <;> cases hn
  · exact { hs with llrMem := Memory.wf_writeRange hs.llrMem hi }
  · exact { hs with outMem := Memory.wf_writeRange hs.outMem hi }

theorem inv_resetEvent (s : State) : Inv s.resetEvent where
  ackMem := Memory.wf_any _ _
  bitSeq := Memory.wf_any _ _
  llrMem := Memory.wf_any _ _
  outMem := Memory.wf_any _ _
  cBuf := Memory.wf_any _ _
  alloc := Memory.wf_any _ _
  dBuf := Memory.wf_any _ _
  blockThr := finitePositive_default
  oneBitThr := finitePositive_default
  status := Status.consistent_reset

theorem inv_hostAccess {s t : State} {op : HostOp} (hs : Inv s) (h : hostAccess op s = .next t) : Inv t := by
  cases op with
  | wr n v =>
    simp only [hostAccess] at h
    split at h <;> cases h
    exact inv_hostWriteReg hs n v
  | rd n =>
    simp only [hostAccess] at h
    split at h <;> cases h
    exact hs.withHost s.ports s.pending _
  | wmBit sp i v =>
    obtain ⟨rfl, n, hn, hi⟩ := elementAccess_eq_next h
    exact inv_hostWriteBit hs hn hi v
  | wmByte sp i v =>
    obtain ⟨rfl, n, hn, hi⟩ := elementAccess_eq_next h
    exact inv_hostWriteByte hs hn hi v
  | rmBit sp i =>
    obtain ⟨rfl, -⟩ := elementAccess_eq_next h
    exact hs.withHost s.ports s.pending _
  | rmByte sp i =>
    obtain ⟨rfl, -⟩ := elementAccess_eq_next h
    exact hs.withHost s.ports s.pending _
  | reset =>
    cases h
    exact inv_resetEvent s
  | bindPorts p =>
    cases h
    exact hs.withHost p s.pending s.busRead

/-- Settles O12: a step is nothing, a command word, or a host access. -/
theorem stepKeepsTheInvariant : Obligations.StepKeepsTheInvariant := by
  intro s t hs h
  unfold step at h
  split at h
  · cases h
    exact hs
  · next op rest _ =>
    have hrest : Inv { s with pending := rest } := hs.withHost s.ports rest s.busRead
    split at h
    · exact inv_runWord hrest h
    · exact inv_hostAccess hrest h

end Sys2Proof.Machine
end

