-- ==== Sys2Proof/Proofs/Csi1.lean ====
section
/-! PROOFS. The CSI part 1 commands: the size formula of 40_sizing.md R113 to R117, and the two façades of
46_transport.md R310 and R312. -/

namespace Sys2Proof.Machine

set_option Elab.async false

/-! ## Sizing -/

theorem Except.ok_bind {α β : Type} (a : α) (f : α → Except ErrorKind β) : (.ok a : Except ErrorKind α) >>= f = f a := rfl

theorem finiteNonNegative_of {w : Word} (h : floatExp w ≠ 255 ∧ 0 ≤ val w) : finiteNonNegative w = true := by
  simp [finiteNonNegative, floatIsFinite, h]

/-- Parameters that are ready pass the checks of R108. -/
theorem puschChecks_of_ready {g : Regs} (h : Csi1Ready g) : puschChecks true g = .ok () := by
  have hrate : finitePositive g.rate = true := (finitePositive_iff _).mpr h.rate
  rw [puschChecks, if_neg h.layers, if_neg h.modulation, hrate, finiteNonNegative_of h.alpha,
    finiteNonNegative_of h.betaHarq, finiteNonNegative_of h.betaCsi1]
  rfl

theorem puschCsi1Count_of_ready {s : State} (h : Csi1Ready s.regs) :
    puschCsi1Count s = eCsi1 s.regs s.ports.csi.nofBits >>= fitsRegister := by
  rw [puschCsi1Count, puschChecks_of_ready h]
  rfl

theorem fitsRegister_of_lt {n : Nat} (h : n < 2 ^ 32) : fitsRegister n = .ok n :=
  if_neg (by unfold countMax; omega)

theorem fitsRegister_of_ge {n : Nat} (h : 2 ^ 32 ≤ n) : fitsRegister n = .error .invalidInput :=
  if_pos (by unfold countMax; omega)

theorem puschCsi1Count_of_ok {s : State} {e : Nat} (h : Csi1Ready s.regs)
    (he : eCsi1 s.regs s.ports.csi.nofBits = .ok e) (hlt : e < 2 ^ 32) : puschCsi1Count s = .ok e := by
  rw [puschCsi1Count_of_ready h, he]
  exact fitsRegister_of_lt hlt

theorem puschCsi1Count_of_overflow {s : State} {e : Nat} (h : Csi1Ready s.regs)
    (he : eCsi1 s.regs s.ports.csi.nofBits = .ok e) (hge : 2 ^ 32 ≤ e) : puschCsi1Count s = .error .invalidInput := by
  rw [puschCsi1Count_of_ready h, he]
  exact fitsRegister_of_ge hge

theorem puschCsi1Count_of_error {s : State} {k : ErrorKind} (h : Csi1Ready s.regs)
    (he : eCsi1 s.regs s.ports.csi.nofBits = .error k) : puschCsi1Count s = .error k := by
  rw [puschCsi1Count_of_ready h, he]
  rfl

theorem eCsi1_of_oAck {g : Regs} {o : Nat} (h : 1706 < g.oAck.toNat) : eCsi1 g o = .error .invalidInput :=
  if_pos h

theorem scaledSymbols_nonneg {g : Regs} {bits : Nat} {beta : ℚ} (hbeta : 0 ≤ beta) (hrate : 0 ≤ val g.rate) :
    0 ≤ scaledSymbols g bits beta := by
  unfold scaledSymbols
  split <;> exact Int.ceil_nonneg (by positivity)

theorem qCsi1_nonneg {g : Regs} {o : Nat} (h : Csi1Ready g) (hb : 0 ≤ csi1Bound g) : 0 ≤ qCsi1 g o := by
  have hrate : finitePositive g.rate = true := (finitePositive_iff _).mpr h.rate
  have hpos : 0 < val g.rate := by
    rw [finitePositive, Bool.and_eq_true, decide_eq_true_eq] at hrate
    exact hrate.2
  unfold qCsi1
  split
  · exact hb
  · exact le_min (scaledSymbols_nonneg h.betaCsi1.2 hpos.le) hb

/-- The three cases of R113 are the model's bound and size. -/
theorem csi1_cases {g : Regs} {o l : Nat} {qa b q : ℤ} (hl : l = if o ≤ 11 then 0 else if o ≤ 19 then 6 else 11)
    (hqa : qa = qAck g (max 2 g.oAck.toNat))
    (h : (g.kSum = 0 ∧ g.csiPart2Present.getLsbD 0 = true ∧ b = ⌊val g.alpha * mSum g - qa⌋ ∧
          q = min ⌈((o + l : ℕ) : ℚ) * val g.betaCsi1 / (g.qm * val g.rate)⌉ b) ∨
        (g.kSum = 0 ∧ g.csiPart2Present.getLsbD 0 = false ∧ b = mSum g - qa ∧ q = b) ∨
        (g.kSum ≠ 0 ∧ b = ⌈val g.alpha * mSum g⌉ - qa ∧
          q = min ⌈((o + l : ℕ) : ℚ) * val g.betaCsi1 * mSum g / g.kSum.toNat⌉ b)) :
    b = csi1Bound g ∧ q = qCsi1 g o := by
  obtain rfl : l = crcLen o := hl
  subst hqa
  rcases h with ⟨hk, hp, rfl, rfl⟩ | ⟨hk, hp, rfl, rfl⟩ | ⟨hk, rfl, rfl⟩
  · simp [csi1Bound, qCsi1, scaledSymbols, hk, hp]
  · simp only [csi1Bound, qCsi1, hk, hp, Bool.false_eq_true, and_false, and_self, if_false, if_true]
  · simp only [csi1Bound, qCsi1, scaledSymbols, hk, false_and, if_false, and_self]

/-- Settles O24: the count is `eCsi1`, of which `csi1_cases` gives the formula. -/
theorem puschCsi1SizeResult : Obligations.PuschCsi1SizeResult := by
  intro s o l qa b q ho hready
  subst ho
  have herror {k : ErrorKind} (h : puschCsi1Count s = .error k) : Raises .puschCsi1NofBits k s :=
    raises_of_effect (by rw [effectOf, h]; rfl)
  refine ⟨fun hack => herror (puschCsi1Count_of_error hready (eCsi1_of_oAck hack)), fun hack hl hqa hcases => ?_⟩
  obtain ⟨rfl, rfl⟩ := csi1_cases hl hqa hcases
  have hrange : ¬aMax < s.regs.oAck.toNat := not_lt.mpr hack
  refine ⟨fun hb => herror (puschCsi1Count_of_error hready ?_), fun hb => ?_⟩
  · rw [eCsi1, if_neg hrange, if_pos hb]
  · have hq := qCsi1_nonneg (o := s.ports.csi.nofBits) hready hb
    have he : eCsi1 s.regs s.ports.csi.nofBits = 
        .ok ((qCsi1 s.regs s.ports.csi.nofBits).toNat * s.regs.nofLayers.toNat * s.regs.qm) := by
      rw [eCsi1, if_neg hrange, if_neg (not_lt.mpr hb)]
    obtain ⟨n, hn⟩ := Int.eq_ofNat_of_zero_le hq
    rw [hn, Int.toNat_natCast] at he
    rw [hn]
    refine ⟨Int.natCast_nonneg n, fun hlt => ?_, fun hge => ?_⟩
    · have hcount := puschCsi1Count_of_ok hready he (by exact_mod_cast hlt)
      have := completes_of_effect (i := .puschCsi1NofBits) (s := s) (by rw [effectOf, hcount]; rfl)
      rw [show (n : ℤ) * (s.regs.nofLayers.toNat : ℤ) * (s.regs.qm : ℤ) =
        ((n * s.regs.nofLayers.toNat * s.regs.qm : ℕ) : ℤ) by push_cast; rfl, BitVec.ofInt_natCast]
      exact this
    · exact herror (puschCsi1Count_of_overflow hready he (by exact_mod_cast hge))

/-! ## The façades -/

/-- Settles O54, along the sequence of `encPuschCsi1Effect`: pack, size, code. -/
theorem encPuschCsi1Result : Obligations.EncPuschCsi1Result := by
  intro s payload
  refine ⟨fun hnone => raises_of_effect ?_, fun hsome hpos hmax hready => ?_⟩
  · rw [effectOf, encPuschCsi1Effect, csiPack, hnone]
  have hpack : csiPack s.ports.csi aMax = some payload := by
    rw [csiPack, hsome]
    exact if_pos hmax
  have heffect : effectOf s .encPuschCsi1 = puschCsi1Count s >>= fun e => s.coded payload.length e payload >>= fun out =>
      .ok { Effect.nothing s with regs := s.regs.sized payload.length e, bits := payload, out := out } := by
    rw [effectOf, encPuschCsi1Effect, hpack]
    exact if_neg (Nat.ne_of_gt hpos)
  have herror {k : ErrorKind} (h : puschCsi1Count s = .error k) : Raises .encPuschCsi1 k s :=
    raises_of_effect (by rw [heffect, h]; rfl)
  refine ⟨fun hack => herror (puschCsi1Count_of_error hready (eCsi1_of_oAck hack)),
    fun k hk => herror (puschCsi1Count_of_error hready hk), fun e he =>
      ⟨fun hge => herror (puschCsi1Count_of_overflow hready he hge), fun hlt => ?_⟩⟩
  have hcount := puschCsi1Count_of_ok hready he hlt
  constructor
  · intro out hout
    exact completes_of_effect (by rw [heffect, hcount, Except.ok_bind, hout]; rfl)
  · intro k hk
    exact raises_of_effect (by rw [heffect, hcount, Except.ok_bind, hk]; rfl)

/-- Settles O55, along the sequence of `decPuschCsi1Effect`: size, decode, unpack. -/
theorem decPuschCsi1Result : Obligations.DecPuschCsi1Result := by
  intro s a ha hpos hready
  subst ha
  have heffect : effectOf s .decPuschCsi1 = puschCsi1Count s >>= fun e => s.decoded s.ports.csi.nofBits e >>= fun x =>
      if s.ports.csi.unpackOk = false then .error .csiUnpackFailed
      else .ok
        { Effect.nothing s with
          valid := x.2, regs := s.regs.sized s.ports.csi.nofBits e, bits := x.1, csi := some x.1 } := by
    rw [effectOf, decPuschCsi1Effect, if_neg hpos]
  have herror {k : ErrorKind} (h : puschCsi1Count s = .error k) : Raises .decPuschCsi1 k s :=
    raises_of_effect (by rw [heffect, h]; rfl)
  refine ⟨fun hack => herror (puschCsi1Count_of_error hready (eCsi1_of_oAck hack)),
    fun k hk => herror (puschCsi1Count_of_error hready hk), fun e he =>
      ⟨fun hge => herror (puschCsi1Count_of_overflow hready he hge), fun hlt => ?_⟩⟩
  have hcount := puschCsi1Count_of_ok hready he hlt
  refine ⟨fun k hk => raises_of_effect (by rw [heffect, hcount, Except.ok_bind, hk]; rfl), fun bits v hx => ⟨?_, ?_⟩⟩
  · intro hu
    exact completes_of_effect (by rw [heffect, hcount, Except.ok_bind, hx, Except.ok_bind, hu]; rfl)
  · intro hu
    exact raises_of_effect (by rw [heffect, hcount, Except.ok_bind, hx, Except.ok_bind, hu]; rfl)

end Sys2Proof.Machine
end

