-- ==== Sys2Proof/Proofs/CodeTable.lean ====
section
/-! PROOFS. The default code table (44_polar_code.md R214 to R221). Its lists are related to the sets of `Safety.lean`
through one fact: the candidates stand in the list in the order of their reliability, so the place of a position is the
number of less reliable ones. -/

namespace Sys2Proof.Machine

set_option Elab.async false

/-! ## The exponent -/

theorem clog2From_eq {x : Nat} (fuel c : Nat) (hc : c ≤ Nat.clog 2 x) (hf : Nat.clog 2 x ≤ c + fuel) :
    clog2From x fuel c = Nat.clog 2 x := by
  induction fuel generalizing c with
  | zero => exact Nat.le_antisymm hc hf
  | succ fuel ih =>
    rw [clog2From]
    split_ifs with h
    · exact Nat.le_antisymm hc (Nat.clog_le_of_le_pow h)
    · have : ¬Nat.clog 2 x ≤ c := fun hle => h ((Nat.clog_le_iff_le_pow (by decide)).mp hle)
      exact ih (c + 1) (by omega) (by omega)

theorem clog2_eq (x : Nat) : clog2 x = Nat.clog 2 x :=
  clog2From_eq x 0 (Nat.zero_le _) (by
    rw [Nat.zero_add]
    exact Nat.clog_le_of_le_pow Nat.lt_two_pow_self.le)

/-- The model's exponent is that of R215. -/
theorem polarExponent_eq (k e : Nat) : polarExponent k e 10 = tableExponent k e := by
  unfold polarExponent tableExponent
  simp only [clog2_eq]
  have hhalf : (if 16 * e ≤ 9 * 2 ^ Nat.clog 2 e ∧ 16 * k < 9 * e then Nat.clog 2 e - 1 else Nat.clog 2 e) =
      if 8 * e ≤ 9 * 2 ^ (Nat.clog 2 e - 1) ∧ 16 * k < 9 * e then Nat.clog 2 e - 1 else Nat.clog 2 e := by
    cases Nat.clog 2 e with
    | zero => simp
    | succ c =>
      have : 16 * e ≤ 9 * 2 ^ (c + 1) ↔ 8 * e ≤ 9 * 2 ^ c := by rw [pow_succ]; omega
      simp only [this, Nat.add_sub_cancel]
  rw [hhalf, min_assoc]

theorem tableExponent_range (k e : Nat) : 5 ≤ tableExponent k e ∧ tableExponent k e ≤ 10 := by
  unfold tableExponent
  dsimp only
  omega

/-! ## The pre-frozen positions -/

theorem natCeil_div (a b : Nat) (hb : 0 < b) : ⌈(a / b : ℚ)⌉₊ = ceilDiv a b := by
  have hb' : (0 : ℚ) < b := by exact_mod_cast hb
  apply eq_of_forall_ge_iff
  intro c
  rw [Nat.ceil_le, div_le_iff₀ hb', ceilDiv, Nat.div_le_iff_le_mul_add_pred hb]
  have : (a : ℚ) ≤ (c : ℚ) * (b : ℚ) ↔ a ≤ c * b := by exact_mod_cast Iff.rfl
  rw [this, Nat.mul_comm b c]
  omega

/-- The bound of R218 under puncturing. -/
theorem punctureBound_eq {n e : Nat} (h : e < n) :
    ⌈if 3 * n ≤ 4 * e then (3 * n / 4 - e / 2 : ℚ) else (9 * n / 16 - e / 4 : ℚ)⌉₊ = punctureBound n e := by
  unfold punctureBound
  split_ifs
  · rw [← natCeil_div _ _ (by decide), Nat.cast_sub (by omega)]
    congr 1
    push_cast
    ring
  · rw [← natCeil_div _ _ (by decide), Nat.cast_sub (by omega)]
    congr 1
    push_cast
    ring

theorem mem_preFrozen (p : Params) (n k e i : Nat) : i ∈ preFrozen p n k e ↔ i ∈ tableFrozen p n k e := by
  unfold preFrozen tableFrozen
  by_cases h : n ≤ e
  · simp [h]
  · rw [if_neg h, if_neg h, punctureBound_eq (not_le.mp h)]
    split_ifs
    · simp only [List.mem_append, List.mem_map, List.mem_range, Finset.mem_union, Finset.mem_image, Finset.mem_range]
      rfl
    · simp only [List.mem_map, List.mem_range, Finset.mem_image, Finset.mem_Ico]
      constructor
      · rintro ⟨m, hm, rfl⟩
        exact ⟨m + e, ⟨by omega, by omega⟩, rfl⟩
      · rintro ⟨m, ⟨h1, h2⟩, rfl⟩
        exact ⟨m - e, by omega, by rw [Nat.sub_add_cancel h1]; rfl⟩

/-! ## The order of reliability -/

/-- A list in increasing order of reliability. -/
def ByReliability (p : Params) (l : List Nat) : Prop := l.Pairwise fun a b => p.polarQ.idxOf a < p.polarQ.idxOf b

theorem ByReliability.nodup {p : Params} {l : List Nat} (h : ByReliability p l) : l.Nodup :=
  List.Pairwise.imp (fun hlt heq => by rw [heq] at hlt; exact lt_irrefl _ hlt) h

theorem ByReliability.sublist {p : Params} {l l' : List Nat} (h : ByReliability p l) (hs : l'.Sublist l) :
    ByReliability p l' := List.Pairwise.sublist hs h

theorem byReliability_polarQ {p : Params} (h : p.polarQ.Nodup) : ByReliability p p.polarQ := by
  rw [ByReliability, List.pairwise_iff_getElem]
  intro i j hi hj hij
  rwa [h.idxOf_getElem, h.idxOf_getElem]

/-- The positions less reliable than one of a list by reliability are those before it. -/
theorem ByReliability.lessReliable_append {p : Params} {xs ys : List Nat} {a : Nat}
    (h : ByReliability p (xs ++ a :: ys)) : lessReliable p (xs ++ a :: ys).toFinset a = xs.length := by
  have hnodup := (h.sublist (List.sublist_append_left _ _)).nodup
  obtain ⟨-, hafter, hbefore⟩ := List.pairwise_append.mp h
  have hset : (xs ++ a :: ys).toFinset.filter (fun b => p.polarQ.idxOf b < p.polarQ.idxOf a) = xs.toFinset := by
    ext b
    simp only [Finset.mem_filter, List.mem_toFinset, List.mem_append, List.mem_cons]
    constructor
    · rintro ⟨hb | rfl | hb, hlt⟩
      · exact hb
      · exact absurd hlt (lt_irrefl _)
      · exact absurd ((List.pairwise_cons.mp hafter).1 b hb) hlt.not_gt
    · intro hb
      exact ⟨.inl hb, hbefore b hb a List.mem_cons_self⟩
  rw [lessReliable, hset, List.toFinset_card_of_nodup hnodup]

/-- In a list by reliability the place of a position is the number of less reliable ones. -/
theorem ByReliability.lessReliable {p : Params} {l : List Nat} (h : ByReliability p l) {j : Nat} (hj : j < l.length) :
    lessReliable p l.toFinset l[j] = j := by
  have hsplit : l.take j ++ l[j] :: l.drop (j + 1) = l := by simp
  have hsplit' := ByReliability.lessReliable_append (p := p) (xs := l.take j) (a := l[j]) (ys := l.drop (j + 1))
    (by rwa [hsplit])
  rw [hsplit, List.length_take] at hsplit'
  omega

/-- Places in a list by reliability are ordered as the reliabilities are. -/
theorem ByReliability.idxOf_injective {p : Params} {l : List Nat} (h : ByReliability p l) {a b : Nat} (ha : a ∈ l)
    (hb : b ∈ l) (heq : p.polarQ.idxOf a = p.polarQ.idxOf b) : a = b := by
  obtain ⟨i, hi, rfl⟩ := List.getElem_of_mem ha
  obtain ⟨j, hj, rfl⟩ := List.getElem_of_mem hb
  have hlt := List.pairwise_iff_getElem.mp h
  rcases Nat.lt_trichotomy i j with hij | rfl | hij
  · exact absurd heq (hlt i j hi hj hij).ne
  · rfl
  · exact absurd heq (hlt j i hj hi hij).ne'

theorem ByReliability.mem_drop_iff {p : Params} {l : List Nat} (h : ByReliability p l) {c i : Nat} :
    i ∈ l.drop c ↔ i ∈ l ∧ c ≤ Machine.lessReliable p l.toFinset i := by
  constructor
  · intro hi
    obtain ⟨j, hj, rfl⟩ := List.getElem_of_mem hi
    rw [List.length_drop] at hj
    rw [List.getElem_drop, h.lessReliable (by omega)]
    exact ⟨List.getElem_mem _, by omega⟩
  · rintro ⟨hi, hc⟩
    obtain ⟨j, hj, rfl⟩ := List.getElem_of_mem hi
    rw [h.lessReliable hj] at hc
    exact List.mem_drop_iff_getElem.mpr ⟨j - c, by omega, by simp [Nat.add_sub_cancel' hc]⟩

theorem ByReliability.mem_take_iff {p : Params} {l : List Nat} (h : ByReliability p l) {c i : Nat} :
    i ∈ l.take c ↔ i ∈ l ∧ Machine.lessReliable p l.toFinset i < c := by
  constructor
  · intro hi
    obtain ⟨j, hj, rfl⟩ := List.getElem_of_mem hi
    rw [List.length_take] at hj
    rw [List.getElem_take, h.lessReliable (by omega)]
    exact ⟨List.getElem_mem _, by omega⟩
  · rintro ⟨hi, hc⟩
    obtain ⟨j, hj, rfl⟩ := List.getElem_of_mem hi
    rw [h.lessReliable hj] at hc
    exact List.mem_take_iff_getElem.mpr ⟨j, by omega, rfl⟩

/-- The last `count` of a list by reliability are its most reliable ones. -/
theorem ByReliability.toFinset_drop {p : Params} {l : List Nat} (h : ByReliability p l) {count : Nat}
    (hc : count ≤ l.length) : (l.drop (l.length - count)).toFinset = mostReliable p l.toFinset count := by
  ext i
  rw [mostReliable, Finset.mem_filter, List.toFinset_card_of_nodup h.nodup, List.mem_toFinset, h.mem_drop_iff,
    List.mem_toFinset]
  refine and_congr_right fun _ => ?_
  omega

/-! ## The parity-check positions -/

theorem countP_testBit (m i : Nat) (h : i < 2 ^ m) :
    ((List.range m).countP fun b => i.testBit b) = (Nat.digits 2 i).sum := by
  induction m generalizing i with
  | zero =>
    obtain rfl : i = 0 := by simpa using h
    rfl
  | succ m ih =>
    rw [pow_succ] at h
    have hhalf := ih (i / 2) (by omega)
    have hstep : ((List.range m).countP fun b => i.testBit (b + 1)) = (Nat.digits 2 (i / 2)).sum := by
      rw [← hhalf]
      simp only [Nat.testBit_succ]
    rw [List.range_succ_eq_map, List.countP_cons, List.countP_map]
    simp only [Function.comp_def, Nat.succ_eq_add_one, hstep, Nat.testBit_zero, decide_eq_true_eq]
    by_cases hi : i = 0
    · subst hi
      rfl
    · rw [Nat.digits_def' (by decide) (Nat.pos_of_ne_zero hi), List.sum_cons]
      split_ifs <;> omega

theorem onesOf_eq {i : Nat} (h : i < 2 ^ 16) : onesOf i = (Nat.digits 2 i).sum := countP_testBit 16 i h

/-- A position of a list with the fewest 1 bits, and of those the most reliable (44_polar_code.md R220). -/
def LightestLast (p : Params) (l : List Nat) (i : Nat) : Prop :=
  i ∈ l ∧ ∀ j ∈ l, onesOf i < onesOf j ∨ (onesOf i = onesOf j ∧ p.polarQ.idxOf j ≤ p.polarQ.idxOf i)

theorem lightestLast_of_ne_nil {p : Params} {l : List Nat} (h : ByReliability p l) (hl : l ≠ []) :
    ∃ i, lightestLast l = some i ∧ LightestLast p l i := by
  induction l with
  | nil => exact absurd rfl hl
  | cons a rest ih =>
    obtain ⟨hafter, hrest⟩ := List.pairwise_cons.mp h
    rw [lightestLast]
    by_cases hnil : rest = []
    · subst hnil
      exact ⟨a, rfl, List.mem_cons_self, fun j hj => by simp_all⟩
    · obtain ⟨j, hj, hmem, hmin⟩ := ih hrest hnil
      rw [hj]
      dsimp only
      by_cases hlt : onesOf a < onesOf j
      · refine ⟨a, if_pos hlt, List.mem_cons_self, fun b hb => ?_⟩
        rcases List.mem_cons.mp hb with rfl | hb
        · exact .inr ⟨rfl, le_rfl⟩
        · have := hmin b hb
          omega
      · refine ⟨j, if_neg hlt, List.mem_cons_of_mem _ hmem, fun b hb => ?_⟩
        rcases List.mem_cons.mp hb with rfl | hb
        · have := hafter j hmem
          omega
        · exact hmin b hb

/-- Among a list by reliability `lightestLast` finds the most reliable of the lightest positions. -/
theorem lightestLast_eq_some {p : Params} {l : List Nat} (h : ByReliability p l) (i : Nat) :
    lightestLast l = some i ↔ LightestLast p l i := by
  have hunique {j : Nat} (hj : LightestLast p l j) (hi : LightestLast p l i) : j = i := by
    have h1 := hj.2 i hi.1
    have h2 := hi.2 j hj.1
    exact h.idxOf_injective hj.1 hi.1 (by omega)
  constructor
  · intro heq
    obtain ⟨j, hj, hlight⟩ := lightestLast_of_ne_nil h (by rintro rfl; cases heq)
    rw [hj] at heq
    cases heq
    exact hlight
  · intro hi
    obtain ⟨j, hj, hlight⟩ := lightestLast_of_ne_nil h (List.ne_nil_of_mem hi.1)
    rw [hj, hunique hlight hi]

/-- The parity-check positions of a list by reliability are those R220 names. -/
theorem mem_parityPositions {p : Params} {k e : Nat} {l : List Nat} (h : ByReliability p l) (hlt : ∀ i ∈ l, i < 2 ^ 16)
    (i : Nat) :
    i ∈ parityPositions k e l ↔ i ∈ tableParityPositions p l.toFinset (parityCount k) (parityCountWm k e) := by
  have hones {j : Nat} (hj : j ∈ l) : onesOf j = (Nat.digits 2 j).sum := onesOf_eq (hlt j hj)
  have hlight : i ∈ (if parityCountWm k e = 1 then (lightestLast (l.drop (parityCount k))).toList else []) ↔
      parityCountWm k e = 1 ∧ LightestLast p (l.drop (parityCount k)) i := by
    rw [← lightestLast_eq_some (h.sublist (List.drop_sublist _ _))]
    split <;> simp [*]
  rw [parityPositions, List.mem_append, h.mem_take_iff, hlight, tableParityPositions, Finset.mem_filter,
    List.mem_toFinset]
  simp only [LightestLast, h.mem_drop_iff, List.mem_toFinset]
  constructor
  · rintro (⟨hi, hless⟩ | ⟨hwm, ⟨hi, hplace⟩, hmin⟩)
    · exact ⟨hi, .inl hless⟩
    · refine ⟨hi, .inr ⟨hwm, hplace, fun j hj hj' => ?_⟩⟩
      rw [← hones hi, ← hones hj]
      exact hmin j ⟨hj, hj'⟩
  · rintro ⟨hi, hless | ⟨hwm, hplace, hmin⟩⟩
    · exact .inl ⟨hi, hless⟩
    · refine .inr ⟨hwm, ⟨hi, hplace⟩, fun j hj => ?_⟩
      rw [hones hi, hones hj.1]
      exact hmin j hj.1 hj.2

/-! ## The code -/

/-- The positions below `n` that are not pre-frozen, in increasing order of reliability (44_polar_code.md R219). -/
def candidateList (p : Params) (n k e : Nat) : List Nat :=
  p.polarQ.filter fun i => decide (i < n) && !(preFrozen p n k e).contains i

/-- The `count` most reliable of them. -/
def chosenList (p : Params) (n k e count : Nat) : List Nat :=
  (candidateList p n k e).drop ((candidateList p n k e).length - count)

section
variable {p : Params} {n k e count : Nat}

theorem polarQ_nodup (hQ : p.polarQ.Perm (List.range 1024)) : p.polarQ.Nodup := hQ.nodup_iff.mpr List.nodup_range

theorem candidateList_byReliability (hQ : p.polarQ.Perm (List.range 1024)) :
    ByReliability p (candidateList p n k e) :=
  (byReliability_polarQ (polarQ_nodup hQ)).sublist List.filter_sublist

theorem candidateList_toFinset (hQ : p.polarQ.Perm (List.range 1024)) (hn : n ≤ 1024) :
    (candidateList p n k e).toFinset = tableCandidates p n k e := by
  ext i
  have hmem : i ∈ p.polarQ ↔ i < 1024 := by rw [hQ.mem_iff, List.mem_range]
  simp only [candidateList, tableCandidates, List.mem_toFinset, List.mem_filter, hmem, Bool.and_eq_true,
    decide_eq_true_eq, Bool.not_eq_true', List.contains_eq_mem, decide_eq_false_iff_not, mem_preFrozen,
    Finset.mem_sdiff, Finset.mem_range]
  constructor
  · rintro ⟨-, h⟩
    exact h
  · rintro ⟨hi, h⟩
    exact ⟨by omega, hi, h⟩

theorem candidateList_length (hQ : p.polarQ.Perm (List.range 1024)) (hn : n ≤ 1024) :
    (candidateList p n k e).length = (tableCandidates p n k e).card := by
  rw [← candidateList_toFinset hQ hn, List.toFinset_card_of_nodup (candidateList_byReliability hQ).nodup]

theorem chosenList_byReliability (hQ : p.polarQ.Perm (List.range 1024)) :
    ByReliability p (chosenList p n k e count) :=
  (candidateList_byReliability hQ).sublist (List.drop_sublist _ _)

theorem lt_of_mem_chosenList {i : Nat} (hi : i ∈ chosenList p n k e count) : i < n := by
  have := List.mem_of_mem_drop hi
  simp only [candidateList, List.mem_filter, Bool.and_eq_true, decide_eq_true_eq] at this
  exact this.2.1

theorem chosenList_length (hc : count ≤ (candidateList p n k e).length) :
    (chosenList p n k e count).length = count := by
  rw [chosenList, List.length_drop]
  omega

end

/-- The members of a duplicate-free list below `n`, sorted. -/
theorem sortedBelow_perm {n : Nat} {l : List Nat} (hl : l.Nodup) (hlt : ∀ i ∈ l, i < n) : (sortedBelow n l).Perm l := by
  rw [sortedBelow, List.perm_ext_iff_of_nodup (List.nodup_range.filter _) hl]
  intro i
  simp only [List.mem_filter, List.mem_range, List.contains_iff_mem, and_iff_right_iff_imp]
  exact hlt i

theorem sortedBelow_rising (n : Nat) (l : List Nat) : strictlyRising (sortedBelow n l) = true := by
  rw [strictlyRising_iff]
  exact List.pairwise_lt_range.filter _

theorem sortedBelow_toFinset {n : Nat} {l : List Nat} (hlt : ∀ i ∈ l, i < n) :
    (sortedBelow n l).toFinset = l.toFinset := by
  ext i
  simp only [sortedBelow, List.mem_toFinset, List.mem_filter, List.mem_range, List.contains_iff_mem,
    and_iff_right_iff_imp]
  exact hlt i

/-! ## The number of parity-check positions -/

/-- With the light parity-check bit there are three, and the message has at least 18 bits. -/
theorem parityCountWm_eq_one {k e : Nat} (h : parityCountWm k e = 1) : parityCount k = 3 ∧ 18 ≤ k := by
  have h3 : parityCount k = 3 := by
    by_contra hne
    rw [parityCountWm, if_neg (fun hand => hne hand.1)] at h
    exact absurd h (by decide)
  refine ⟨h3, ?_⟩
  by_contra hk
  rw [parityCount, if_neg (fun hand => hk hand.1)] at h3
  exact absurd h3 (by decide)

theorem parityCountWm_cases (k e : Nat) : parityCountWm k e = 0 ∨ parityCountWm k e = 1 := by
  rw [parityCountWm]
  split_ifs
  · exact .inr rfl
  · exact .inl rfl

/-- The parity-check positions are `nPC` different positions of the list. -/
theorem parityPositions_subperm {p : Params} {k e : Nat} {l : List Nat} (h : ByReliability p l)
    (hlen : k + parityCount k ≤ l.length) :
    (parityPositions k e l).Nodup ∧ (∀ i ∈ parityPositions k e l, i ∈ l) ∧
      (parityPositions k e l).length = parityCount k := by
  rcases parityCountWm_cases k e with hwm | hwm
  · have heq : parityPositions k e l = l.take (parityCount k) := by simp [parityPositions, hwm]
    rw [heq]
    exact ⟨h.nodup.sublist (List.take_sublist _ _), fun i hi => List.mem_of_mem_take hi,
      by rw [List.length_take]; omega⟩
  · obtain ⟨hthree, hk⟩ := parityCountWm_eq_one hwm
    have hne : l.drop 3 ≠ [] := List.ne_nil_of_length_pos (by rw [List.length_drop]; omega)
    obtain ⟨j, hj, hjmem, -⟩ := lightestLast_of_ne_nil (h.sublist (List.drop_sublist 3 l)) hne
    have heq : parityPositions k e l = l.take 2 ++ [j] := by simp [parityPositions, hwm, hthree, hj]
    have hfresh : j ∉ l.take 2 := fun hj' => by
      have hlow := (h.mem_take_iff.mp hj').2
      have hhigh := (h.mem_drop_iff.mp hjmem).2
      omega
    rw [heq, hthree]
    refine ⟨?_, fun i hi => ?_, by rw [List.length_append, List.length_take]; simp; omega⟩
    · exact List.Nodup.append (h.nodup.sublist (List.take_sublist _ _)) (List.nodup_singleton j)
        (List.disjoint_singleton.mpr hfresh)
    · rcases List.mem_append.mp hi with hi | hi
      · exact List.mem_of_mem_take hi
      · rw [List.mem_singleton.mp hi]
        exact List.mem_of_mem_drop hjmem

/-! ## The table's answer -/

/-- The code the default table builds from the chosen positions. -/
def builtCode (p : Params) (k e : Nat) : PolarCode :=
  let n := tableExponent k e
  let chosen := chosenList p (2 ^ n) k e (k + parityCount k)
  { N := 2 ^ n
    n := n
    K := k
    nPC := parityCount k
    kSet := sortedBelow (2 ^ n) chosen
    pcSet := sortedBelow (2 ^ n) (parityPositions k e chosen)
    fSet := (List.range (2 ^ n)).filter fun i => !chosen.contains i
    fSetSize := 2 ^ n - k - parityCount k }

theorem polarBuild_eq (p : Params) (k e : Nat) :
    polarBuild p k e 10 =
      if (candidateList p (2 ^ tableExponent k e) k e).length < k + parityCount k then none
      else some (builtCode p k e) := by
  rw [polarBuild, polarExponent_eq]
  rfl

/-- The default table, failures first. -/
theorem polarTable_eq (p : Params) (k e : Nat) :
    polarTable p k e 10 =
      if k < 18 ∨ (25 < k ∧ k < 31) ∨ 1023 < k ∨ e < k + parityCount k ∨ p.ePolarMax < e ∨
          (candidateList p (2 ^ tableExponent k e) k e).length < k + parityCount k then none
      else some (builtCode p k e) := by
  rw [polarTable, polarBuild_eq]
  simp only [← ite_or, ← or_assoc]

section
variable {p : Params} {k e : Nat}

theorem tableLength_le : 2 ^ tableExponent k e ≤ 1024 :=
  Nat.pow_le_pow_right (by decide) (tableExponent_range k e).2

theorem builtCode_accepted (hQ : p.polarQ.Perm (List.range 1024))
    (hc : k + parityCount k ≤ (candidateList p (2 ^ tableExponent k e) k e).length) :
    codeAccepted k 10 (builtCode p k e) = true := by
  obtain ⟨hlow, hhigh⟩ := tableExponent_range k e
  have hby := chosenList_byReliability (n := 2 ^ tableExponent k e) (k := k) (e := e) (count := k + parityCount k) hQ
  have hlt {i : Nat} : i ∈ chosenList p (2 ^ tableExponent k e) k e (k + parityCount k) → i < 2 ^ tableExponent k e :=
    lt_of_mem_chosenList
  obtain ⟨hnodup, hsub, hlength⟩ := parityPositions_subperm (e := e) hby (chosenList_length hc).ge
  have hK := sortedBelow_perm hby.nodup fun i hi => hlt hi
  have hPC := sortedBelow_perm hnodup fun i hi => hlt (hsub i hi)
  simp only [codeAccepted, Bool.and_eq_true, decide_eq_true_eq, beq_iff_eq, List.all_eq_true, List.contains_iff_mem]
  simp only [builtCode, hK.mem_iff, hPC.mem_iff, hK.length_eq, hPC.length_eq, chosenList_length hc, hlength,
    sortedBelow_rising, and_true, true_and]
  refine ⟨⟨⟨⟨hlow, hhigh⟩, fun i hi => hlt hi⟩, hsub⟩, ?_⟩
  simp only [List.contains_eq_mem, hK.mem_iff]

theorem builtCode_kSet (hQ : p.polarQ.Perm (List.range 1024))
    (hc : k + parityCount k ≤ (candidateList p (2 ^ tableExponent k e) k e).length) :
    (builtCode p k e).kSet.toFinset =
      mostReliable p (tableCandidates p (2 ^ tableExponent k e) k e) (k + parityCount k) := by
  rw [builtCode, sortedBelow_toFinset fun i hi => lt_of_mem_chosenList hi, chosenList,
    (candidateList_byReliability hQ).toFinset_drop hc, candidateList_toFinset hQ tableLength_le]

theorem builtCode_pcSet (hQ : p.polarQ.Perm (List.range 1024))
    (hc : k + parityCount k ≤ (candidateList p (2 ^ tableExponent k e) k e).length) :
    (builtCode p k e).pcSet.toFinset =
      tableParityPositions p (builtCode p k e).kSet.toFinset (parityCount k) (parityCountWm k e) := by
  have hby := chosenList_byReliability (n := 2 ^ tableExponent k e) (k := k) (e := e) (count := k + parityCount k) hQ
  have hsub := (parityPositions_subperm (e := e) hby (chosenList_length hc).ge).2.1
  have hsmall : ∀ i ∈ chosenList p (2 ^ tableExponent k e) k e (k + parityCount k), i < 2 ^ 16 := fun i hi =>
    (lt_of_mem_chosenList hi).trans_le (tableLength_le.trans (by decide))
  rw [builtCode, sortedBelow_toFinset fun i hi => lt_of_mem_chosenList (hsub i hi),
    sortedBelow_toFinset fun i hi => lt_of_mem_chosenList hi]
  ext i
  rw [List.mem_toFinset, mem_parityPositions hby hsmall]

end

/-- Settles O45: the candidates stand in a list by reliability, so the last of it are the most reliable and the first
of those the least; the code the table builds from them is read off field by field. -/
theorem defaultTableAnswersAreAccepted : Obligations.DefaultTableAnswersAreAccepted := by
  unfold Obligations.DefaultTableAnswersAreAccepted
  rintro p k e _ _ _ _ hQ rfl rfl rfl rfl
  have hcard := candidateList_length (k := k) (e := e) hQ (tableLength_le (k := k) (e := e))
  have hcount : tableParityCount k = parityCount k := rfl
  rw [hcount, ← hcard, polarTable_eq]
  refine ⟨by simp only [ite_eq_left_iff, reduceCtorEq, imp_false, not_not], fun code hcode => ?_⟩
  obtain ⟨hnone, hbuilt⟩ := Option.ite_none_left_eq_some.mp hcode
  obtain rfl := Option.some.inj hbuilt
  have hc : k + parityCount k ≤ (candidateList p (2 ^ tableExponent k e) k e).length := by omega
  exact ⟨builtCode_accepted hQ hc, rfl, rfl, builtCode_kSet hQ hc,
    builtCode_kSet hQ hc ▸ builtCode_pcSet hQ hc⟩

end Sys2Proof.Machine
end

section
/-! PROOFS. The host's transactions, answered and refused (20_memory.md R61, R69, R72): what a read returns, and that a
step is refused for the accesses without a meaning and for nothing else. -/

namespace Sys2Proof.Machine

/-! ## Reads -/

theorem ofNat_bitNum (b : Bit) : BitVec.ofNat 32 (bitNum b) = if b then 1 else 0 := by
  cases b <;> rfl

/-- A register is a field of the state other than the host's transactions to come. -/
theorem hostReadReg_withPending (s : State) (rest : List HostOp) (n : Nat) :
    hostReadReg { s with pending := rest } n = hostReadReg s n := rfl

theorem step_of_rd {s : State} {n : Nat} {rest : List HostOp} (hp : s.pending = .rd n :: rest) (hn : n < regCount) :
    step s = .next { s with pending := rest, busRead := hostReadReg s n } := by
  rw [step_of_hostAccess hp rfl, hostAccess, if_pos hn, hostReadReg_withPending]
  rfl

theorem step_of_rmBit {s : State} {sp : BitSpace} {i n : Nat} {rest : List HostOp}
    (hp : s.pending = .rmBit sp i :: rest) (hsize : hostBitSize sp = some n) (hi : i < n) :
    step s = .next { s with pending := rest, busRead := if readBit (s.bitMem sp) i then 1 else 0 } := by
  rw [step_of_hostAccess hp rfl, hostAccess, hsize, elementAccess_inside hi, ofNat_bitNum]
  cases sp <;> rfl

theorem step_of_rmByte {s : State} {sp : ByteSpace} {i n : Nat} {rest : List HostOp}
    (hp : s.pending = .rmByte sp i :: rest) (hsize : hostByteSize s.params sp = some n) (hi : i < n) :
    step s = .next { s with pending := rest, busRead := (readByte (s.byteMem sp) i).setWidth 32 } := by
  rw [step_of_hostAccess hp rfl, hostAccess, hsize, elementAccess_inside hi]
  cases sp <;> rfl

/-- Settles O7: an access inside the register bank or a memory is accepted, and a read stores in `busRead` alone. -/
theorem hostReadChangesNothing : Obligations.HostReadChangesNothing := by
  intro s i rest
  refine ⟨fun hp hi => ?register, fun hp hi => ?ackMem, fun hp hi => ?bitSeq, fun hp hi => ?llrMem,
    fun hp hi => ?outMem⟩
  case register => exact step_of_rd hp hi
  case ackMem => exact step_of_rmBit hp rfl hi
  case bitSeq => exact step_of_rmBit hp rfl hi
  case llrMem => exact step_of_rmByte hp rfl hi
  case outMem => exact step_of_rmByte hp rfl hi

/-! ## Refusals -/

/-- The outcome is a refusal where `bad` holds and a next state where it does not. -/
def RefusedExactlyWhen (bad : Prop) (o : Host.Outcome State Fault Refusal) : Prop :=
  (bad → ∃ r, o = .refused r) ∧ (¬bad → ∃ t, o = .next t)

theorem refusedExactlyWhen_of_refused {bad : Prop} (h : bad) (r : Refusal) : RefusedExactlyWhen bad (.refused r) :=
  ⟨fun _ => ⟨r, rfl⟩, fun hn => absurd h hn⟩

theorem refusedExactlyWhen_of_next {bad : Prop} (h : ¬bad) (t : State) : RefusedExactlyWhen bad (.next t) :=
  ⟨fun hb => absurd hb h, fun _ => ⟨t, rfl⟩⟩

/-- An access with a bound: of a register number, or of an element of a memory. -/
theorem refusedExactlyWhen_bound (n i : Nat) (t : State) :
    RefusedExactlyWhen (n ≤ i) (if i < n then .next t else .refused .outsideSpace) := by
  by_cases h : i < n
  · rw [if_pos h]
    exact refusedExactlyWhen_of_next (by omega) t
  · rw [if_neg h]
    exact refusedExactlyWhen_of_refused (by omega) _

/-- A write of an element has a meaning exactly where a read of it has one. -/
theorem meaningless_wmBit (p : Params) (sp : BitSpace) (i : Nat) (v : Bit) :
    meaningless p (.wmBit sp i v) = meaningless p (.rmBit sp i) := by
  cases sp <;> rfl

theorem meaningless_wmByte (p : Params) (sp : ByteSpace) (i : Nat) (v : Byte) :
    meaningless p (.wmByte sp i v) = meaningless p (.rmByte sp i) := by
  cases sp <;> rfl

theorem bitAccess_refusedExactly (p : Params) (sp : BitSpace) (i : Nat) (t : State) :
    RefusedExactlyWhen (meaningless p (.rmBit sp i)) (elementAccess (hostBitSize sp) i t) := by
  cases sp with
  | ackMem | bitSeq => exact refusedExactlyWhen_bound aMax i t
  | cBuf | alloc => exact refusedExactlyWhen_of_refused trivial .internalSpace

theorem byteAccess_refusedExactly (p : Params) (sp : ByteSpace) (i : Nat) (t : State) :
    RefusedExactlyWhen (meaningless p (.rmByte sp i)) (elementAccess (hostByteSize p sp) i t) := by
  cases sp with
  | llrMem | outMem => exact refusedExactlyWhen_bound p.eMax i t
  | dBuf => exact refusedExactlyWhen_of_refused trivial .internalSpace

theorem hostAccess_refusedExactly (op : HostOp) (s : State) :
    RefusedExactlyWhen (meaningless s.params op) (hostAccess op s) := by
  cases op with
  | wr n v => exact refusedExactlyWhen_bound regCount n _
  | rd n => exact refusedExactlyWhen_bound regCount n _
  | wmBit sp i v =>
    rw [meaningless_wmBit]
    exact bitAccess_refusedExactly _ sp i _
  | wmByte sp i v =>
    rw [meaningless_wmByte]
    exact byteAccess_refusedExactly _ sp i _
  | rmBit sp i => exact bitAccess_refusedExactly _ sp i _
  | rmByte sp i => exact byteAccess_refusedExactly _ sp i _
  | reset => exact refusedExactlyWhen_of_next not_false _
  | bindPorts p => exact refusedExactlyWhen_of_next not_false _

theorem step_of_nil {s : State} (hp : s.pending = []) : step s = .next s := by
  rw [step, hp]

theorem issuedWord_eq_some {op : HostOp} {w : Word} (h : issuedWord op = some w) : op = .wr 0 w := by
  cases op with
  | wr n v =>
    obtain ⟨rfl, rfl⟩ : n = 0 ∧ v = w := by simpa [issuedWord] using h
    rfl
  | _ => cases h

/-- Every word written to `CMD` has a next state: `exec` is total, and an illegal word is an error of the block. -/
theorem runWord_answers (w : Word) (s : State) : ∃ t, runWord w s = .next t := by
  cases hw : decodeWord w with
  | ok i => exact ⟨_, (runWord_of_ok hw s).trans (exec_eq i s)⟩
  | error e => exact ⟨_, runWord_of_error hw s⟩

theorem step_refusedExactly {s : State} {op : HostOp} {rest : List HostOp} (hp : s.pending = op :: rest) :
    RefusedExactlyWhen (meaningless s.params op) (step s) := by
  cases hw : issuedWord op with
  | none =>
    rw [step_of_hostAccess hp hw]
    exact hostAccess_refusedExactly op { s with pending := rest }
  | some w =>
    obtain rfl := issuedWord_eq_some hw
    obtain ⟨t, ht⟩ := runWord_answers w { s with pending := rest }
    rw [step_of_command hp, ht]
    exact refusedExactlyWhen_of_next (show ¬64 ≤ 0 by omega) t

/-- Settles O8: a command word always has a next state, and a host access is refused exactly outside the bound of its
space, or where the space has none for the host. -/
theorem onlyMeaninglessAccessesAreRefused : Obligations.OnlyMeaninglessAccessesAreRefused :=
  fun _ => ⟨step_of_nil, fun _ _ hp => step_refusedExactly hp⟩

end Sys2Proof.Machine
end

