-- ==== Sys2Proof/Proofs/Encoding.lean ====
section
/-! PROOFS. Command words, 30_encoding.md: the two fields of a word by its value, the decoder as the inverse of the
encoder (R82), and the step of a write of `CMD` with a legal or an illegal word (R85, R86). -/

namespace Sys2Proof

/-! ## The fields of a word and the opcode map -/

theorem opField_toNat (w : Word) : (opField w).toNat = w.toNat % 256 := by
  simp [opField, BitVec.extractLsb'_toNat]

theorem rsvField_eq_zero_iff (w : Word) : rsvField w = 0 ↔ w.toNat < 256 := by
  have hw : w.toNat < 2 ^ 32 := w.isLt
  have hrsv : (rsvField w).toNat = w.toNat / 2 ^ 8 % 2 ^ 24 := by
    simp [rsvField, BitVec.extractLsb'_toNat, Nat.shiftRight_eq_div_pow]
  rw [← BitVec.toNat_inj, hrsv]
  change w.toNat / 2 ^ 8 % 2 ^ 24 = 0 ↔ _
  omega

theorem encodeWord_toNat (i : Instr) : (encodeWord i).toNat = (opcode i).toNat :=
  BitVec.toNat_setWidth_of_le (by decide)

theorem eq_encodeWord_iff {w : Word} {i : Instr} : w = encodeWord i ↔ w.toNat = (opcode i).toNat := by
  rw [← BitVec.toNat_inj, encodeWord_toNat]

theorem commandOfOpcode_opcode (i : Instr) : commandOfOpcode (opcode i).toNat = some i := by
  cases i <;> rfl

theorem opcode_of_commandOfOpcode {n : Nat} {i : Instr} (h : commandOfOpcode n = some i) : (opcode i).toNat = n := by
  unfold commandOfOpcode at h
  split at h <;> cases h <;> rfl

/-- The map from opcodes to commands and the one back are inverse (R83). -/
theorem commandOfOpcode_eq_some_iff {n : Nat} {i : Instr} : commandOfOpcode n = some i ↔ n = (opcode i).toNat :=
  ⟨fun h => (opcode_of_commandOfOpcode h).symm, fun h => h ▸ commandOfOpcode_opcode i⟩

/-! ## The decoder -/

theorem decodeWord_of_ge {w : Word} (h : 256 ≤ w.toNat) : decodeWord w = .error .reservedBits :=
  if_neg (mt (rsvField_eq_zero_iff w).mp (by omega))

/-- Without a reserved bit the word's value is the opcode. -/
theorem decodeWord_of_lt {w : Word} (h : w.toNat < 256) :
    decodeWord w = (commandOfOpcode w.toNat).elim (.error .unknownOpcode) .ok := by
  rw [decodeWord, if_pos ((rsvField_eq_zero_iff w).mpr h), opField_toNat, Nat.mod_eq_of_lt h]
  cases commandOfOpcode w.toNat <;> rfl

theorem decodeWord_eq_ok_iff {w : Word} {i : Instr} : decodeWord w = .ok i ↔ w = encodeWord i := by
  rw [eq_encodeWord_iff]
  rcases Nat.lt_or_ge w.toNat 256 with hlt | hge
  · rw [decodeWord_of_lt hlt, ← commandOfOpcode_eq_some_iff]
    cases commandOfOpcode w.toNat <;> simp
  · have hop : (opcode i).toNat < 256 := (opcode i).isLt
    simp only [decodeWord_of_ge hge, reduceCtorEq, false_iff]
    omega

theorem decodeWord_eq_reservedBits_iff {w : Word} : decodeWord w = .error .reservedBits ↔ 256 ≤ w.toNat := by
  refine ⟨fun h => ?_, decodeWord_of_ge⟩
  by_contra hlt
  rw [decodeWord_of_lt (by omega)] at h
  cases hop : commandOfOpcode w.toNat <;> simp [hop] at h

theorem decodeWord_eq_unknownOpcode_iff {w : Word} :
    decodeWord w = .error .unknownOpcode ↔ w.toNat < 256 ∧ ∀ i, w ≠ encodeWord i := by
  simp only [ne_eq, ← decodeWord_eq_ok_iff]
  constructor
  · intro h
    have hlt : ¬256 ≤ w.toNat := by simp [← decodeWord_eq_reservedBits_iff, h]
    exact ⟨by omega, by simp [h]⟩
  · rintro ⟨hlt, hno⟩
    cases h : decodeWord w with
    | ok i => exact absurd h (hno i)
    | error e =>
      cases e with
      | reservedBits => exact absurd (decodeWord_eq_reservedBits_iff.mp h) (by omega)
      | unknownOpcode => rfl

/-- Settles O2: the word of a command has its opcode as value, and the opcode map is one to one. -/
theorem everyWordIsOneCommandOrIllegal : Obligations.EveryWordIsOneCommandOrIllegal := fun _ =>
  ⟨fun _ => decodeWord_eq_ok_iff, decodeWord_eq_reservedBits_iff, decodeWord_eq_unknownOpcode_iff⟩

/-- Settles O1: each word written out is the encoder's word of its command, and the two others are illegal by value. -/
theorem writtenWordsDecode : Obligations.WrittenWordsDecode := by
  refine ⟨?_, ?_, ?_, ?_, ?_, ?_, ?_, ?_, ?_, ?unused, ?reserved⟩
  case unused => exact decodeWord_eq_unknownOpcode_iff.mpr ⟨by decide, fun i => by cases i <;> decide⟩
  case reserved => exact decodeWord_eq_reservedBits_iff.mpr (by decide)
  all_goals exact decodeWord_eq_ok_iff.mpr rfl

/-! ## Illegal words -/

/-- The values 30_encoding.md R85 and R86 list: a reserved bit, or an opcode in a gap of the map. -/
def illegalValue (n : Nat) : Prop :=
  256 ≤ n ∨ n = 0 ∨ (0x05 ≤ n ∧ n ≤ 0x07) ∨ (0x0B ≤ n ∧ n ≤ 0x0F) ∨ (0x1A ≤ n ∧ n ≤ 0x1F) ∨ 0x26 ≤ n

theorem not_illegalValue_opcode (i : Instr) : ¬illegalValue (opcode i).toNat := by
  unfold illegalValue
  cases i <;> decide

/-- No command has a value in the gaps, so a word with such a value is no command. -/
theorem decodeWord_error_of_illegalValue {w : Word} (h : illegalValue w.toNat) : ∃ e, decodeWord w = .error e := by
  cases hw : decodeWord w with
  | ok i =>
    have hval : w.toNat = (opcode i).toNat := eq_encodeWord_iff.mp (decodeWord_eq_ok_iff.mp hw)
    exact absurd (hval ▸ h) (not_illegalValue_opcode i)
  | error e => exact ⟨e, rfl⟩

end Sys2Proof

namespace Sys2Proof.Machine

/-- Settles O4: a word with a listed value does not decode, and its step is the one of an illegal command. -/
theorem illegalWordChangesOnlyStatus : Obligations.IllegalWordChangesOnlyStatus := by
  intro s w rest hp hval
  obtain ⟨e, he⟩ := decodeWord_error_of_illegalValue hval
  exact (step_of_command hp).trans (runWord_of_error he _)

/-! ## Safety of a write of `CMD` -/

/-- Settles O13: every word has an outcome, and every step keeps the invariant. -/
theorem commandWriteIsASafeStep : Obligations.CommandWriteIsASafeStep := by
  intro s w rest hs hp
  obtain ⟨t, ht⟩ := runWord_answers w { s with pending := rest }
  have hstep : step s = .next t := (step_of_command hp).trans ht
  exact ⟨t, hstep, stepKeepsTheInvariant s t hs hstep⟩

end Sys2Proof.Machine
end

