-- ==== Sys2Proof/Proofs/Sizing.lean ====
section
/-! PROOFS. Rate computation, 40_sizing.md: the sums over `M_UCI_SC` (R107), the sizes of PUCCH and of a HARQ-ACK
transmission (R104, R109 to R112), the parameter checks (R108), and the two PUSCH sizes together (R117). -/

namespace Sys2Proof.Machine

/-! ## Counts in a register -/

/-- The two ends of a command that stores a count in `RES_E`: the count fits, or it overflows (R101). -/
theorem count_ends {i : Instr} {s : State} {n : Nat} (h : effectOf s i = (fitsRegister n).map (Effect.counts s)) :
    (n < 2 ^ 32 →
        Completes i s { Effect.nothing s with regs := { s.regs with resE := BitVec.ofNat 32 n } }) ∧
      (2 ^ 32 ≤ n → Raises i .invalidInput s) := by
  constructor
  · intro hlt
    exact completes_of_effect (by rw [h, fitsRegister_of_lt hlt]; rfl)
  · intro hge
    exact raises_of_effect (by rw [h, fitsRegister_of_ge hge]; rfl)

/-- Settles O26: `TOTAL_BITS` makes no other check than that the sum fits `RES_E`. -/
theorem totalBitsResult : Obligations.TotalBitsResult := by
  rintro s total rfl
  exact count_ends rfl

/-! ## PUCCH -/

theorem pucchE_effect_of_ok {s : State} {e : Nat} (h : resourceE s.regs = .ok e) :
    effectOf s .pucchE = (fitsRegister e).map (Effect.counts s) := by
  rw [effectOf, pucchCount, h]
  rfl

theorem pucchE_raises_of_error {s : State} {k : ErrorKind} (h : resourceE s.regs = .error k) : Raises .pucchE k s :=
  raises_of_effect (by rw [effectOf, pucchCount, h]; rfl)

/-- Settles O20, by the cases of `pucchE` over the format. -/
theorem pucchEResult : Obligations.PucchEResult := by
  rintro s format symbols prb occ hformat rfl rfl rfl
  refine ⟨fun e he => count_ends (pucchE_effect_of_ok ?sized), fun h4 h1 h2 => pucchE_raises_of_error ?occLength,
    fun h2 h3 h4 => pucchE_raises_of_error ?format⟩
  case sized =>
    rcases he with ⟨h, rfl⟩ | ⟨h, rfl⟩ | ⟨h, hocc, rfl⟩
    · simp [resourceE, pucchE, hformat, h]
    · simp [resourceE, pucchE, piFactor, hformat, h]
    · simp [resourceE, pucchE, piFactor, hformat, h, hocc]
  case occLength => simp [resourceE, pucchE, hformat, h4, h1, h2]
  case format => simp [resourceE, pucchE, hformat, h2, h3, h4]

/-! ## The sums over `M_UCI_SC` -/

theorem sum_drop_ofFn {n : Nat} (f : Fin n → Nat) (k : Nat) :
    ((List.ofFn f).drop k).sum = ∑ l : Fin n, if k ≤ l then f l else 0 := by
  induction n generalizing k with
  | zero => simp
  | succ n ih =>
    cases k with
    | zero => simp only [List.drop_zero, List.sum_ofFn, Nat.zero_le, if_true]
    | succ k => simp [List.ofFn_succ, Fin.sum_univ_succ, ih]

theorem map_toNat_toList {n : Nat} (v : Vector Word n) :
    v.toList.map BitVec.toNat = List.ofFn fun l : Fin n => (v[l]).toNat := by
  apply List.ext_getElem <;> simp

/-- `M_l0_sum` (R107): with `l0 ≥ 14` no index is left. -/
theorem mL0Sum_eq (g : Regs) : mL0Sum g = ∑ l : Fin 14, if g.l0.toNat ≤ l then (g.mUciSc[l]).toNat else 0 := by
  rw [mL0Sum, List.map_drop, map_toNat_toList, sum_drop_ofFn]

/-- `M_sum` (R107). -/
theorem mSum_eq (g : Regs) : mSum g = ∑ l : Fin 14, (g.mUciSc[l]).toNat := by
  rw [mSum, map_toNat_toList, List.sum_ofFn]

/-- Settles O21, by the registers listed in the order of their index. -/
theorem uciResourceSums : Obligations.UciResourceSums := fun g => ⟨mSum_eq g, mL0Sum_eq g⟩

theorem mL0Sum_le_mSum (g : Regs) : mL0Sum g ≤ mSum g := by
  rw [mL0Sum_eq, mSum_eq]
  gcongr with l
  split <;> omega

section
variable {g : Regs} {m : Vector Word 14} (h : ∀ l : Fin 14, (g.mUciSc[l]).toNat ≤ (m[l]).toNat)
include h

theorem mSum_mono : mSum g ≤ mSum { g with mUciSc := m } := by
  rw [mSum_eq, mSum_eq]
  exact Finset.sum_le_sum fun l _ => h l

theorem mL0Sum_mono : mL0Sum g ≤ mL0Sum { g with mUciSc := m } := by
  rw [mL0Sum_eq, mL0Sum_eq]
  refine Finset.sum_le_sum fun l _ => ?_
  dsimp only
  split
  · exact h l
  · exact le_rfl

end

/-! ## Operands -/

/-- `Qm` as a table over the codes of `MODULATION` (10_state.md R31). -/
theorem modulationOrder_eq (m : Word) : modulationOrder m = ([1, 2, 4, 6, 8] : List Nat).getD m.toNat 0 := by
  rw [modulationOrder]
  generalize m.toNat = n
  match n with
  | 0 | 1 | 2 | 3 | 4 | _ + 5 => rfl

theorem modulationOrder_eq_zero_iff (m : Word) : modulationOrder m = 0 ↔ 5 ≤ m.toNat := by
  rw [modulationOrder_eq]
  generalize m.toNat = n
  match n with
  | 0 | 1 | 2 | 3 | 4 => simp
  | _ + 5 => simp

theorem floatFrac_of_fields {w : Word} {sign x f : Nat} (hw : w.toNat = sign * 2 ^ 31 + x * 2 ^ 23 + f)
    (hf : f < 2 ^ 23) : floatFrac w = f := by
  rw [floatFrac_eq]
  omega

section
variable {w : Word} {sign x f : Nat} (hw : w.toNat = sign * 2 ^ 31 + x * 2 ^ 23 + f) (hx : x < 256) (hf : f < 2 ^ 23)
include hw hx hf

theorem floatExp_of_fields : floatExp w = x := by
  rw [floatExp_eq]
  omega

theorem signFactor_of_fields : (if w.getLsbD 31 then -1 else 1 : ℚ) = (-1) ^ sign := by
  have hlt : w.toNat < 2 ^ 32 := w.isLt
  have hs : sign = 0 ∨ sign = 1 := by omega
  rcases hs with rfl | rfl
  · rw [if_neg (mt (signBit_iff w).mp (by omega)), pow_zero]
  · rw [if_pos ((signBit_iff w).mpr (by omega)), pow_one]

/-- `floatMagnitude` is in units of `2^-149`: a normal pattern with exponent field `x` has its leading bit at
`2^(x-127)`. -/
theorem floatMagnitude_of_fields :
    (floatMagnitude w : ℚ) / 2 ^ 149 =
      if x = 0 then (f : ℚ) / 2 ^ 149 else (1 + (f : ℚ) / 2 ^ 23) * 2 ^ ((x : ℤ) - 127) := by
  rw [floatMagnitude, floatExp_of_fields hw hx hf, floatFrac_of_fields hw hf]
  cases x with
  | zero => simp
  | succ y =>
    have hpow : (2 : ℚ) ^ (((y + 1 : ℕ) : ℤ) - 127) = 2 ^ y / 2 ^ 126 := by
      rw [show ((y + 1 : ℕ) : ℤ) - 127 = (y : ℤ) - (126 : ℕ) by push_cast; ring, zpow_sub₀ two_ne_zero, zpow_natCast,
        zpow_natCast]
    rw [if_neg y.succ_ne_zero, if_neg y.succ_ne_zero, hpow, Nat.add_sub_cancel]
    push_cast
    ring

/-- The value of a pattern by its three fields (00_scope.md R15). -/
theorem val_of_fields :
    val w = (-1) ^ sign * if x = 0 then (f : ℚ) / 2 ^ 149 else (1 + (f : ℚ) / 2 ^ 23) * 2 ^ ((x : ℤ) - 127) := by
  rw [val, signFactor_of_fields hw hx hf, floatMagnitude_of_fields hw hx hf]

end

theorem val_pos_of_range {w : Word} (h : 0 < w.toNat ∧ w.toNat < 0x7F800000) : 0 < val w := by
  have hpos : finitePositive w = true := (finitePositive_iff w).mpr h
  rw [finitePositive, Bool.and_eq_true, decide_eq_true_eq] at hpos
  exact hpos.2

/-! ## The HARQ-ACK size -/

theorem puschChecks_of_puschReady {g : Regs} (h : PuschReady g) : puschChecks false g = .ok () := by
  rw [puschChecks, if_neg h.layers, if_neg h.modulation, (finitePositive_iff _).mpr h.rate,
    finiteNonNegative_of h.alpha, finiteNonNegative_of h.betaHarq]
  rfl

theorem puschAckCount_of_ready {s : State} {o : Nat} (h : PuschReady s.regs) :
    puschAckCount s o = fitsRegister (eAck s.regs o) := by
  rw [puschAckCount, puschChecks_of_puschReady h]
  rfl

theorem qAck_nonneg {g : Regs} {o : Nat} (h : PuschReady g) : 0 ≤ qAck g o := by
  have halpha : 0 ≤ val g.alpha * mL0Sum g := mul_nonneg h.alpha.2 (Nat.cast_nonneg _)
  exact le_min (scaledSymbols_nonneg h.betaHarq.2 (val_pos_of_range h.rate).le) (Int.floor_nonneg.mpr halpha)

/-- Settles O22: `Q_ack` is not negative, so the natural number the model rounds it to is the integer of R109. -/
theorem puschAckSizeResult : Obligations.PuschAckSizeResult := by
  refine ⟨?size, fun g => modulationOrder_eq g.modulation, fun w sign x f hw hx hf =>
    ⟨floatExp_of_fields hw hx hf, fun _ => val_of_fields hw hx hf⟩⟩
  rintro s o l rfl hready hl
  obtain rfl : l = crcLen s.regs.argA.toNat := hl
  refine ⟨(qAck s.regs s.regs.argA.toNat).toNat, Int.toNat_of_nonneg (qAck_nonneg hready), count_ends ?_⟩
  rw [effectOf, puschAckCount_of_ready hready]
  rfl

theorem add_crcLen_mono {o o' : Nat} (h : o ≤ o') : o + crcLen o ≤ o' + crcLen o' := by
  unfold crcLen
  split_ifs <;> omega

section
variable {g : Regs} {m : Vector Word 14} {o o' : Nat} (hready : PuschReady g) (ho : o ≤ o')
  (hm : ∀ l : Fin 14, (g.mUciSc[l]).toNat ≤ (m[l]).toNat)
include hready ho hm

theorem scaledSymbols_mono :
    scaledSymbols g (o + crcLen o) (val g.betaHarq) ≤
      scaledSymbols { g with mUciSc := m } (o' + crcLen o') (val g.betaHarq) := by
  have hbeta : 0 ≤ val g.betaHarq := hready.betaHarq.2
  have hrate : 0 ≤ val g.rate := (val_pos_of_range hready.rate).le
  have hbits : o + crcLen o ≤ o' + crcLen o' := add_crcLen_mono ho
  have hsum : mSum g ≤ mSum { g with mUciSc := m } := mSum_mono hm
  by_cases hk : g.kSum = 0
  · rw [scaledSymbols, if_pos hk, scaledSymbols, if_pos hk]
    change _ ≤ ⌈((o' + crcLen o' : ℕ) : ℚ) * val g.betaHarq / (g.qm * val g.rate)⌉
    gcongr
  · rw [scaledSymbols, if_neg hk, scaledSymbols, if_neg hk]
    dsimp only
    gcongr

theorem qAck_mono : qAck g o ≤ qAck { g with mUciSc := m } o' := by
  have halpha : 0 ≤ val g.alpha := hready.alpha.2
  have hsum : mL0Sum g ≤ mL0Sum { g with mUciSc := m } := mL0Sum_mono hm
  refine min_le_min (scaledSymbols_mono hready ho hm) ?_
  dsimp only
  gcongr

end

/-- Settles O23: both arguments of the `min` of R109 grow. -/
theorem puschAckSizeIsMonotone : Obligations.PuschAckSizeIsMonotone := by
  intro g m o o' hready ho hm
  have hq : (qAck g o).toNat ≤ (qAck { g with mUciSc := m } o').toNat := Int.toNat_le_toNat (qAck_mono hready ho hm)
  exact Nat.mul_le_mul_right _ (Nat.mul_le_mul_right _ hq)

/-! ## The two sizes together -/

theorem qAck_le_mSum {g : Regs} (o : Nat) (halpha : val g.alpha ≤ 1) : qAck g o ≤ mSum g := by
  have hsum : (mL0Sum g : ℚ) ≤ mSum g := by exact_mod_cast mL0Sum_le_mSum g
  have hbound : val g.alpha * mL0Sum g ≤ mSum g := (mul_le_of_le_one_left (Nat.cast_nonneg _) halpha).trans hsum
  calc qAck g o ≤ ⌊val g.alpha * mL0Sum g⌋ := min_le_right _ _
    _ ≤ ⌊(mSum g : ℚ)⌋ := Int.floor_le_floor hbound
    _ = mSum g := Int.floor_natCast _

/-- With `K_SUM = 0` and no CSI part 2, CSI part 1 takes what a reservation of `q` symbols leaves (R113). -/
theorem eCsi1_of_noPart2 {g : Regs} {q : Nat} (o : Nat) (hk : g.kSum = 0) (hp : g.csiPart2Present.getLsbD 0 = false)
    (hack : g.oAck.toNat ≤ 1706) (hq : qAck g (max 2 g.oAck.toNat) = q) (hle : q ≤ mSum g) :
    eCsi1 g o = .ok ((mSum g - q) * g.nofLayers.toNat * g.qm) := by
  have hbound : csi1Bound g = ((mSum g - q : ℕ) : ℤ) := by
    rw [csi1Bound, hq, if_neg (fun h => Bool.false_ne_true (hp.symm.trans h.2)), if_pos hk]
    push_cast [hle]
    rfl
  have hsize : qCsi1 g o = ((mSum g - q : ℕ) : ℤ) := by rw [qCsi1, if_pos ⟨hk, hp⟩, hbound]
  have hrange : ¬aMax < g.oAck.toNat := not_lt.mpr hack
  rw [eCsi1, if_neg hrange, hbound, hsize, if_neg (not_lt.mpr (Int.natCast_nonneg _)), Int.toNat_natCast]

/-- Settles O58: the reservation and what it leaves add up to `M_sum`. -/
theorem puschSizesFillTheResources : Obligations.PuschSizesFillTheResources := by
  rintro s total hready hk hp hack hfits harg rfl hlt
  obtain ⟨q, hq⟩ := Int.eq_ofNat_of_zero_le (qAck_nonneg (o := max 2 s.regs.oAck.toNat) hready.toPuschReady)
  have hle : q ≤ mSum s.regs := by
    have : qAck s.regs (max 2 s.regs.oAck.toNat) ≤ mSum s.regs := hfits.elim (qAck_le_mSum _) id
    omega
  have hack_size : eAck s.regs s.regs.argA.toNat = q * s.regs.nofLayers.toNat * s.regs.qm := by
    rw [harg, eAck, hq, Int.toNat_natCast]
  have hcsi_size := eCsi1_of_noPart2 s.ports.csi.nofBits hk hp hack hq hle
  have hadd : q * s.regs.nofLayers.toNat * s.regs.qm + (mSum s.regs - q) * s.regs.nofLayers.toNat * s.regs.qm =
      s.regs.nofLayers.toNat * s.regs.qm * mSum s.regs := by
    rw [← Nat.add_mul, ← Nat.add_mul, Nat.add_sub_cancel' hle]
    ring
  refine ⟨_, _, hadd, (count_ends ?ack).1 (by omega), (count_ends ?csi1).1 (by omega)⟩
  case ack => rw [effectOf, puschAckCount_of_ready hready.toPuschReady, hack_size]
  case csi1 =>
    rw [effectOf, puschCsi1Count_of_ready hready, hcsi_size]
    rfl

/-! ## The parameter checks -/

theorem not_finiteNonNegative_iff {w : Word} : (!finiteNonNegative w) = true ↔ floatExp w = 255 ∨ val w < 0 := by
  simp [finiteNonNegative, floatIsFinite]

/-- A failed check of R108 is the error of each command that comes to the checks. -/
theorem raises_of_puschChecks {i : Instr} {s : State} {k : ErrorKind} (hi : comesToPuschSizing s i)
    (h : puschChecks (looksAtBetaCsi1 i) s.regs = .error k) : Raises i k s := by
  have hackCount {o : Nat} (h : puschChecks false s.regs = .error k) : puschAckCount s o = .error k := by
    rw [puschAckCount, h]
    rfl
  have hcsi1Count (h : puschChecks true s.regs = .error k) : puschCsi1Count s = .error k := by
    rw [puschCsi1Count, h]
    rfl
  apply raises_of_effect
  cases i with
  | puschAckNofBits => rw [effectOf, hackCount h]; rfl
  | puschCsi1NofBits => rw [effectOf, hcsi1Count h]; rfl
  | encPuschAck =>
    obtain ⟨hle, hsize⟩ := hi
    have hrange : ¬aMax < s.regs.oAck.toNat := not_lt.mpr hle
    rw [effectOf, encPuschAckEffect, if_neg hrange, if_neg hsize, hackCount h]
    rfl
  | decPuschAck =>
    obtain ⟨hle, hsize⟩ := hi
    have hrange : ¬aMax < s.regs.oAck.toNat := not_lt.mpr hle
    rw [effectOf, decPuschAckEffect, if_neg hrange, if_neg hsize, hackCount h]
    rfl
  | encPuschCsi1 =>
    obtain ⟨b, bits, hpacked, hlen⟩ := hi
    have hpack : csiPack s.ports.csi aMax = some (b :: bits) := by
      rw [csiPack, hpacked]
      exact if_pos hlen
    rw [effectOf, encPuschCsi1Effect, hpack, hcsi1Count h]
    rfl
  | decPuschCsi1 =>
    rw [effectOf, decPuschCsi1Effect, if_neg hi, hcsi1Count h]
    rfl
  | _ => exact hi.elim

/-- Settles O25: `puschChecks` makes the checks in this order, and the commands raise its error. -/
theorem puschChecksInOrder : Obligations.PuschChecksInOrder := by
  intro i s hi
  have hqm : s.regs.qm = 0 ↔ 5 ≤ s.regs.modulation.toNat := modulationOrder_eq_zero_iff _
  refine ⟨fun hl => raises_of_puschChecks hi ?layers, fun hl hm => raises_of_puschChecks hi ?modulation,
    fun hl hm hr => raises_of_puschChecks hi ?rate, fun hl hm hr hbad => raises_of_puschChecks hi ?factors⟩
  case layers => exact if_pos hl
  case modulation => rw [puschChecks, if_neg hl, if_pos (hqm.mpr hm)]
  case rate =>
    rw [← finitePositive_iff, Bool.not_eq_true] at hr
    rw [puschChecks, if_neg hl, if_neg (mt hqm.mp (by omega)), hr]
    rfl
  case factors =>
    have hfail : (!finiteNonNegative s.regs.alpha || !finiteNonNegative s.regs.betaHarq ||
        (looksAtBetaCsi1 i && !finiteNonNegative s.regs.betaCsi1)) = true := by
      simpa only [Bool.or_eq_true, Bool.and_eq_true, not_finiteNonNegative_iff, or_assoc] using hbad
    rw [puschChecks, if_neg hl, if_neg (mt hqm.mp (by omega)), (finitePositive_iff _).mpr hr, hfail]
    rfl

end Sys2Proof.Machine
end

