-- ==== Sys2Proof/Proofs/PayloadCommands.lean ====
section
/-! PROOFS. The payload commands, 41_payload.md: the SR field as bits and back (R131), `PACK_PUCCH`, `UNPACK_PUCCH` and
`COMPUTE_A` in their modes and with their errors (R132 to R142), and unpacking what was packed (R138). -/

namespace Sys2Proof.Machine

/-! ## A number as bits and back -/

theorem intToBits_eq_testBit (v w : Nat) : intToBits v w = (List.range w).map fun j => v.testBit (w - 1 - j) := by
  simp only [intToBits, Nat.testBit_eq_decide_div_mod_eq]

theorem intToBits_succ (v w : Nat) : intToBits v (w + 1) = intToBits (v / 2) w ++ [v.testBit 0] := by
  rw [intToBits_eq_testBit, intToBits_eq_testBit, List.range_succ, List.map_append]
  congr 1
  · refine List.map_congr_left fun j hj => ?_
    have hj : j < w := List.mem_range.mp hj
    rw [Nat.testBit_div_two, show w + 1 - 1 - j = w - 1 - j + 1 by omega]
  · simp

theorem bitsToInt_concat (bs : List Bit) (b : Bit) : bitsToInt (bs ++ [b]) = 2 * bitsToInt bs + bitNum b := by
  simp [bitsToInt]

/-- The first bit is the most significant (41_payload.md R131). -/
theorem bitsToInt_map_range (f : Nat → Bit) (n : Nat) :
    bitsToInt ((List.range n).map f) = ((List.range n).map fun j => if f j then 2 ^ (n - 1 - j) else 0).sum := by
  induction n with
  | zero => rfl
  | succ n ih =>
    have hdouble : ∀ j ∈ List.range n,
        (if f j then 2 ^ (n + 1 - 1 - j) else 0) = 2 * (if f j then 2 ^ (n - 1 - j) else 0) := by
      intro j hj
      have hj : j < n := List.mem_range.mp hj
      rw [show n + 1 - 1 - j = n - 1 - j + 1 by omega, pow_succ', mul_ite, mul_zero]
    rw [List.range_succ, List.map_append, List.map_append, List.sum_append, List.map_congr_left hdouble,
      List.sum_map_mul_left, ← ih]
    cases h : f n <;> simp [bitsToInt_concat, h]

theorem bitsToInt_intToBits {v w : Nat} (h : v < 2 ^ w) : bitsToInt (intToBits v w) = v := by
  induction w generalizing v with
  | zero =>
    obtain rfl : v = 0 := by omega
    rfl
  | succ w ih =>
    have hodd : bitNum (v.testBit 0) = v % 2 := by
      rw [Nat.testBit_zero]
      rcases Nat.mod_two_eq_zero_or_one v with hv | hv <;> rw [hv] <;> rfl
    rw [intToBits_succ, bitsToInt_concat, ih (by omega), hodd]
    omega

/-! ## Parts of a memory -/

theorem readBits_add (m : Memory Bit) (a b : Nat) : readBits m 0 (a + b) = readBits m 0 a ++ readBits m a b := by
  simp [readBits, List.range_add]

theorem readBits_of_bitsStored {m m' : Memory Bit} {vs : List Bit} (h : BitsStored m m' vs) :
    readBits m' 0 vs.length = vs := by
  refine List.ext_getElem (readBits_length _ _ _) fun k _ hk => ?_
  simp [readBits, h k, hk]

/-! ## The end a command came to -/

theorem Completes.ended {i : Instr} {s t : State} {x : Effect} (h : Completes i s x) (ht : exec i s = .next t) :
    Ended i s t x := by
  obtain ⟨u, hu, hend⟩ := h
  obtain rfl : t = u := by simpa [ht] using hu
  exact hend

theorem Raises.raised {i : Instr} {s t : State} {k : ErrorKind} (h : Raises i k s) (ht : exec i s = .next t) :
    Raised i k s t := by
  obtain ⟨u, hu, hraised⟩ := h
  obtain rfl : t = u := by simpa [ht] using hu
  exact hraised

/-! ## Packing -/

/-- The range checks of `pack_pucch` hold (41_payload.md R132). -/
structure PackReady (g : Regs) : Prop where
  oAck : g.oAck.toNat ≤ 1706
  oSr : g.oSr.toNat ≤ 32
  sr : g.sr.toNat < 2 ^ g.oSr.toNat
  total : g.oAck.toNat + g.oSr.toNat ≤ 1706

theorem not_packReady_iff (g : Regs) :
    ¬PackReady g ↔
      1706 < g.oAck.toNat ∨ 32 < g.oSr.toNat ∨ 2 ^ g.oSr.toNat ≤ g.sr.toNat ∨
        1706 < g.oAck.toNat + g.oSr.toNat := by
  constructor
  · intro h
    by_contra hno
    simp only [not_or, not_lt, not_le] at hno
    obtain ⟨hack, hosr, hsr, htotal⟩ := hno
    exact h ⟨hack, hosr, hsr, htotal⟩
  · rintro h ⟨hack, hosr, hsr, htotal⟩
    omega

theorem pucchPayload_of_not_ready {s : State} (h : ¬PackReady s.regs) : pucchPayload s = .error .invalidInput :=
  if_pos ((not_packReady_iff _).mp h)

theorem pucchPayload_of_ready {s : State} (h : PackReady s.regs) :
    pucchPayload s =
      if s.ports.csi.nofBits = 0 then .ok (ackSrBits s)
      else match csiPack s.ports.csi (1706 - (s.regs.oAck.toNat + s.regs.oSr.toNat)) with
        | none => .error .csiPackFailed
        | some bits => .ok (ackSrBits s ++ bits) :=
  if_neg (mt (not_packReady_iff _).mpr (not_not.mpr h))

theorem packPucch_completes {s : State} {bits : List Bit} (h : pucchPayload s = .ok bits) :
    Completes .packPucch s
      { Effect.nothing s with bits := bits, regs := { s.regs with resA := BitVec.ofNat 32 bits.length } } :=
  completes_of_effect (by rw [effectOf, h]; rfl)

theorem packPucch_raises {s : State} {k : ErrorKind} (h : pucchPayload s = .error k) : Raises .packPucch k s :=
  raises_of_effect (by rw [effectOf, h]; rfl)

theorem packPucch_completes_ackSr {s : State} (h : PackReady s.regs) (hc : s.ports.csi.nofBits = 0) :
    Completes .packPucch s
      { Effect.nothing s with
        bits := ackSrBits s
        regs := { s.regs with resA := BitVec.ofNat 32 (s.regs.oAck.toNat + s.regs.oSr.toNat) } } := by
  rw [← ackSrBits_length]
  exact packPucch_completes (by rw [pucchPayload_of_ready h, if_pos hc])

theorem packPucch_completes_csi {s : State} {csi : List Bit} (h : PackReady s.regs) (hc : 0 < s.ports.csi.nofBits)
    (hcsi : s.ports.csi.packed = some csi) (hlen : s.regs.oAck.toNat + s.regs.oSr.toNat + csi.length ≤ 1706) :
    Completes .packPucch s
      { Effect.nothing s with
        bits := ackSrBits s ++ csi
        regs := { s.regs with resA := BitVec.ofNat 32 (s.regs.oAck.toNat + s.regs.oSr.toNat + csi.length) } } := by
  have hpack : csiPack s.ports.csi (1706 - (s.regs.oAck.toNat + s.regs.oSr.toNat)) = some csi := by
    rw [csiPack, hcsi]
    exact if_pos (by omega)
  rw [← ackSrBits_length, ← List.length_append]
  exact packPucch_completes (by rw [pucchPayload_of_ready h, if_neg hc.ne', hpack])

theorem packPucch_raises_csiPackFailed {s : State} (h : PackReady s.regs) (hc : 0 < s.ports.csi.nofBits)
    (hcsi : s.ports.csi.packed = none) : Raises .packPucch .csiPackFailed s :=
  packPucch_raises (by rw [pucchPayload_of_ready h, if_neg hc.ne', csiPack, hcsi])

/-- Settles O27, by the checks, then by the mode, with the SR field read as the bits of its number. -/
theorem packPucchResult : Obligations.PackPucchResult := by
  rintro s _ _ _ field rfl rfl rfl hfield
  obtain rfl : field = ackSrBits s := by rw [hfield, ackSrBits, intToBits_eq_testBit]
  refine ⟨fun hack hosr hsr htotal => ?ready, fun hbad => ?failing⟩
  case ready =>
    have hready : PackReady s.regs := ⟨hack, hosr, hsr, htotal⟩
    exact ⟨packPucch_completes_ackSr hready, fun hc =>
      ⟨fun csi hcsi hlen => packPucch_completes_csi hready hc hcsi hlen, packPucch_raises_csiPackFailed hready hc⟩⟩
  case failing => exact packPucch_raises (pucchPayload_of_not_ready ((not_packReady_iff _).mpr hbad))

/-! ## The mode of a payload (41_payload.md R130) -/

section
variable {s : State}

theorem mode_eq_ackSr (hc : s.ports.csi.nofBits = 0) : s.mode = .ackSr := if_pos hc

theorem mode_eq_csiOnly (hc : 0 < s.ports.csi.nofBits) (ha : s.regs.oAck.toNat = 0) (hs : s.regs.oSr.toNat = 0) :
    s.mode = .csiOnly := by
  rw [State.mode, payloadMode, if_neg hc.ne', if_pos ⟨ha, hs⟩]

theorem mode_eq_combined (hc : 0 < s.ports.csi.nofBits) (has : 0 < s.regs.oAck.toNat + s.regs.oSr.toNat) :
    s.mode = .combined := by
  rw [State.mode, payloadMode, if_neg hc.ne', if_neg (by omega)]

end

/-! ## Unpacking -/

/-- What unpacking stores of ACK bits and `SR` (41_payload.md R136). -/
def ackSrUnpacked (s : State) : Effect :=
  { Effect.nothing s with
    ack := readBits s.bitSeq 0 s.regs.oAck.toNat
    regs := { s.regs with sr := BitVec.ofNat 32 (bitsToInt (readBits s.bitSeq s.regs.oAck.toNat s.regs.oSr.toNat)) } }

/-- `UNPACK_PUCCH` by its checks and modes, each part of the payload read from where it stands in `BITSEQ`. -/
theorem unpackPucchEffect_eq (s : State) :
    unpackPucchEffect s =
      if aMax < s.regs.oAck.toNat ∨ 32 < s.regs.oSr.toNat ∨
          aMax < s.regs.oAck.toNat + s.regs.oSr.toNat + s.ports.csi.nofBits then .error .invalidInput
      else match s.mode with
        | .ackSr => .ok (ackSrUnpacked s)
        | .csiOnly => .error .unsupported
        | .combined =>
          if s.ports.csi.unpackOk = false then .error .csiUnpackFailed
          else .ok
            { ackSrUnpacked s with
              csi := some (readBits s.bitSeq (s.regs.oAck.toNat + s.regs.oSr.toNat) s.ports.csi.nofBits) } := by
  have hack : (readBits s.bitSeq 0 (s.regs.oAck.toNat + s.regs.oSr.toNat + s.ports.csi.nofBits)).take
      s.regs.oAck.toNat = readBits s.bitSeq 0 s.regs.oAck.toNat := readBits_part s.bitSeq (base := 0) (by omega)
  have hcsi : (readBits s.bitSeq 0 (s.regs.oAck.toNat + s.regs.oSr.toNat + s.ports.csi.nofBits)).drop
      (s.regs.oAck.toNat + s.regs.oSr.toNat) =
        readBits s.bitSeq (s.regs.oAck.toNat + s.regs.oSr.toNat) s.ports.csi.nofBits := by
    rw [readBits_add, List.drop_left' (readBits_length _ _ _)]
  rw [unpackPucchEffect, unpackedSr, readBits_part _ (by omega), hack, hcsi]
  rfl

section
variable {s : State} (hack : s.regs.oAck.toNat ≤ 1706) (hosr : s.regs.oSr.toNat ≤ 32)
  (htotal : s.regs.oAck.toNat + s.regs.oSr.toNat + s.ports.csi.nofBits ≤ 1706)
include hack hosr htotal

theorem unpackPucch_effect_of_ready :
    effectOf s .unpackPucch = match s.mode with
      | .ackSr => .ok (ackSrUnpacked s)
      | .csiOnly => .error .unsupported
      | .combined =>
        if s.ports.csi.unpackOk = false then .error .csiUnpackFailed
        else .ok
          { ackSrUnpacked s with
            csi := some (readBits s.bitSeq (s.regs.oAck.toNat + s.regs.oSr.toNat) s.ports.csi.nofBits) } := by
  rw [effectOf, unpackPucchEffect_eq]
  exact if_neg (by unfold aMax; omega)

theorem unpackPucch_completes_ackSr (hc : s.ports.csi.nofBits = 0) : Completes .unpackPucch s (ackSrUnpacked s) :=
  completes_of_effect (by rw [unpackPucch_effect_of_ready hack hosr htotal, mode_eq_ackSr hc])

theorem unpackPucch_raises_unsupported (hc : 0 < s.ports.csi.nofBits) (ha : s.regs.oAck.toNat = 0)
    (hs : s.regs.oSr.toNat = 0) : Raises .unpackPucch .unsupported s :=
  raises_of_effect (by rw [unpackPucch_effect_of_ready hack hosr htotal, mode_eq_csiOnly hc ha hs])

theorem unpackPucch_completes_combined (hc : 0 < s.ports.csi.nofBits)
    (has : 0 < s.regs.oAck.toNat + s.regs.oSr.toNat) (hok : s.ports.csi.unpackOk = true) :
    Completes .unpackPucch s
      { ackSrUnpacked s with
        csi := some (readBits s.bitSeq (s.regs.oAck.toNat + s.regs.oSr.toNat) s.ports.csi.nofBits) } :=
  completes_of_effect (by
    rw [unpackPucch_effect_of_ready hack hosr htotal, mode_eq_combined hc has]
    exact if_neg (by simp [hok]))

theorem unpackPucch_raises_csiUnpackFailed (hc : 0 < s.ports.csi.nofBits)
    (has : 0 < s.regs.oAck.toNat + s.regs.oSr.toNat) (hok : s.ports.csi.unpackOk = false) :
    Raises .unpackPucch .csiUnpackFailed s :=
  raises_of_effect (by
    rw [unpackPucch_effect_of_ready hack hosr htotal, mode_eq_combined hc has]
    exact if_pos hok)

end

theorem unpackPucch_raises_invalidInput {s : State}
    (h : 1706 < s.regs.oAck.toNat ∨ 32 < s.regs.oSr.toNat ∨
      1706 < s.regs.oAck.toNat + s.regs.oSr.toNat + s.ports.csi.nofBits) : Raises .unpackPucch .invalidInput s :=
  raises_of_effect (by
    rw [effectOf, unpackPucchEffect_eq]
    exact if_pos h)

/-- Settles O28, by the checks, then by the mode, with `SR` as the weighted sum of its bits. -/
theorem unpackPucchResult : Obligations.UnpackPucchResult := by
  rintro s _ _ _ value rfl rfl rfl hvalue
  obtain rfl : value = bitsToInt (readBits s.bitSeq s.regs.oAck.toNat s.regs.oSr.toNat) := by
    rw [hvalue, readBits, bitsToInt_map_range]
  refine ⟨fun hack hosr htotal => ⟨?ackSr, ?csiOnly, ?combined, ?portFails⟩, unpackPucch_raises_invalidInput⟩
  case ackSr => exact unpackPucch_completes_ackSr hack hosr htotal
  case csiOnly => exact unpackPucch_raises_unsupported hack hosr htotal
  case combined => exact unpackPucch_completes_combined hack hosr htotal
  case portFails => exact unpackPucch_raises_csiUnpackFailed hack hosr htotal

/-! ## Unpacking what was packed -/

/-- A `PACK_PUCCH` that ended without an error had passed its checks. -/
theorem packReady_of_next {s t : State} (ht : exec .packPucch s = .next t) (herr : t.status.err = false) :
    PackReady s.regs := by
  by_contra hbad
  have hraised := (packPucch_raises (pucchPayload_of_not_ready hbad)).raised ht
  simp [hraised.status] at herr

/-- Where `BITSEQ` holds the ACK bits and the SR field of `s`, unpacking with the same sizes finds them. -/
theorem ackSrUnpacked_of_packed {s t : State} (hready : PackReady s.regs) (hack : t.regs.oAck = s.regs.oAck)
    (hosr : t.regs.oSr = s.regs.oSr) (hsr : t.regs.sr = s.regs.sr)
    (hbits : BitsStored s.bitSeq t.bitSeq (ackSrBits s)) :
    ackSrUnpacked t = { Effect.nothing t with ack := readBits s.ackMem 0 s.regs.oAck.toNat } := by
  have hread : readBits t.bitSeq 0 s.regs.oAck.toNat ++ readBits t.bitSeq s.regs.oAck.toNat s.regs.oSr.toNat =
      readBits s.ackMem 0 s.regs.oAck.toNat ++ intToBits s.regs.sr.toNat s.regs.oSr.toNat := by
    rw [← readBits_add, ← ackSrBits_length, readBits_of_bitsStored hbits, ackSrBits]
  obtain ⟨hackBits, hfield⟩ := List.append_inj hread (by simp only [readBits_length])
  rw [ackSrUnpacked, hack, hosr, hackBits, hfield, bitsToInt_intToBits hready.sr, BitVec.ofNat_toNat,
    BitVec.setWidth_eq, ← hsr]
  rfl

/-- Settles O57: packing leaves the sizes, `SR` and `ACK_MEM`, so unpacking reads back what `BITSEQ` was given. -/
theorem unpackAfterPack : Obligations.UnpackAfterPack := by
  intro s t ht herr hc
  have hready : PackReady s.regs := packReady_of_next ht herr
  have hend := (packPucch_completes_ackSr hready hc).ended ht
  have hack : t.regs.oAck = s.regs.oAck := by rw [hend.regs]
  have hosr : t.regs.oSr = s.regs.oSr := by rw [hend.regs]
  have hsr : t.regs.sr = s.regs.sr := by rw [hend.regs]
  have hct : t.ports.csi.nofBits = 0 := by
    rw [hend.ports]
    exact hc
  refine ⟨?unpacks, hsr, fun a => hend.ackMem a⟩
  rw [← ackSrUnpacked_of_packed hready hack hosr hsr hend.bitSeq]
  exact unpackPucch_completes_ackSr (hack ▸ hready.oAck) (hosr ▸ hready.oSr)
    (by rw [hack, hosr, hct]; exact hready.total) hct

/-! ## The size of a payload -/

theorem computeA_completes {s : State} {a : Nat} (h : pucchSize s = .ok a) :
    Completes .computeA s { Effect.nothing s with regs := { s.regs with resA := BitVec.ofNat 32 a } } :=
  completes_of_effect (by rw [effectOf, h]; rfl)

theorem computeA_raises {s : State} {k : ErrorKind} (h : pucchSize s = .error k) : Raises .computeA k s :=
  raises_of_effect (by rw [effectOf, h]; rfl)

theorem pucchSize_of_range_error {s : State} (h : 1706 < s.regs.oAck.toNat ∨ 32 < s.regs.oSr.toNat) :
    pucchSize s = .error .invalidInput := if_pos h

section
variable {s : State} (hack : s.regs.oAck.toNat ≤ 1706) (hosr : s.regs.oSr.toNat ≤ 32)
include hack hosr

theorem pucchSize_of_combined (hc : 0 < s.ports.csi.nofBits) (has : 0 < s.regs.oAck.toNat + s.regs.oSr.toNat) :
    pucchSize s = .error .unsupported := by
  rw [pucchSize, if_neg (by omega)]
  exact if_pos ⟨hc, has⟩

theorem pucchSize_of_single (hmode : s.ports.csi.nofBits = 0 ∨ (s.regs.oAck.toNat = 0 ∧ s.regs.oSr.toNat = 0)) :
    pucchSize s =
      if 1706 < s.regs.oAck.toNat + s.regs.oSr.toNat + s.ports.csi.nofBits then .error .invalidInput
      else .ok (s.regs.oAck.toNat + s.regs.oSr.toNat + s.ports.csi.nofBits) := by
  rw [pucchSize, if_neg (by omega)]
  exact if_neg (by omega)

end

/-- Settles O29, by the checks, then by the mode. -/
theorem computeAResult : Obligations.ComputeAResult := by
  rintro s _ _ _ rfl rfl rfl
  refine ⟨fun hack hosr => ⟨fun hmode => ⟨fun hfits => ?fits, fun hbig => ?tooLong⟩, fun hc has => ?combined⟩,
    fun hbad => ?range⟩
  case fits => exact computeA_completes (by rw [pucchSize_of_single hack hosr hmode, if_neg (not_lt.mpr hfits)])
  case tooLong => exact computeA_raises (by rw [pucchSize_of_single hack hosr hmode, if_pos hbig])
  case combined => exact computeA_raises (pucchSize_of_combined hack hosr hc has)
  case range => exact computeA_raises (pucchSize_of_range_error hbad)

end Sys2Proof.Machine
end

