-- ==== Sys2Proof/Proofs/SmallBlock.lean ====
section
/-! PROOFS. The 1-bit and 2-bit coders, 42_small_block.md: their patterns (R152, R159), the positions their decoders
sample (R154, R162), the commands with their errors (R151 to R165), and the noiseless round trip (R166). -/

namespace Sys2Proof.Machine

/-! ## The common checks -/

/-- The checks of R151 hold at `s`. -/
structure SmallBlockReady (s : State) : Prop where
  pos : 1 ≤ s.regs.argE.toNat
  fits : s.regs.argE.toNat ≤ s.params.eMax
  modulation : s.regs.qm ≠ 0

theorem SmallBlockReady.of_same {s u : State} (h : SmallBlockReady s) (hp : u.params = s.params)
    (he : u.regs.argE = s.regs.argE) (hm : u.regs.modulation = s.regs.modulation) : SmallBlockReady u := by
  obtain ⟨hpos, hfits, hqm⟩ := h
  exact ⟨by rwa [he], by rwa [he, hp], by rwa [Regs.qm, hm]⟩

theorem qm_mem_of_ne_zero {g : Regs} (h : g.qm ≠ 0) :
    g.qm = 1 ∨ g.qm = 2 ∨ g.qm = 4 ∨ g.qm = 6 ∨ g.qm = 8 := by
  rw [Regs.qm, modulationOrder_eq] at h ⊢
  generalize g.modulation.toNat = n at h ⊢
  match n with
  | 0 | 1 | 2 | 3 | 4 => simp
  | _ + 5 => simp at h

/-- The four commands of the small-block coders. -/
def smallBlockCommands : List Instr := [.enc1Bit, .dec1Bit, .enc2Bit, .dec2Bit]

section
variable {s : State} {a : Nat} {payload : List Bit}

theorem coded_invalidInput {e : Nat} (h : e < 1 ∨ s.params.eMax < e) :
    s.coded a e payload = .error .invalidInput := if_pos (by omega)

theorem decoded_invalidInput {e : Nat} (h : e < 1 ∨ s.params.eMax < e) : s.decoded a e = .error .invalidInput :=
  if_pos (by rw [readLlrs_length]; omega)

section
variable (ha : a = 1 ∨ a = 2) (hpos : 1 ≤ s.regs.argE.toNat) (hfits : s.regs.argE.toNat ≤ s.params.eMax)
include ha hpos hfits

theorem coded_invalidModulation (hq : s.regs.qm = 0) :
    s.coded a s.regs.argE.toNat payload = .error .invalidModulation := by
  rw [State.coded, codedBytes, if_neg (by omega)]
  exact if_pos ⟨by omega, hq⟩

theorem decoded_invalidModulation (hq : s.regs.qm = 0) :
    s.decoded a s.regs.argE.toNat = .error .invalidModulation := by
  rw [State.decoded, decodedBits, readLlrs_length, if_neg (by omega)]
  exact if_pos ⟨by omega, hq⟩

end

theorem smallBlock_raises_invalidInput {i : Instr} (hi : i ∈ smallBlockCommands)
    (h : s.regs.argE.toNat < 1 ∨ s.params.eMax < s.regs.argE.toNat) : Raises i .invalidInput s := by
  apply raises_of_effect
  simp only [smallBlockCommands, List.mem_cons, List.not_mem_nil, or_false] at hi
  obtain rfl | rfl | rfl | rfl := hi <;>
    simp only [effectOf, coded_invalidInput h, decoded_invalidInput h, Except.map]

theorem smallBlock_raises_invalidModulation {i : Instr} (hi : i ∈ smallBlockCommands)
    (hpos : 1 ≤ s.regs.argE.toNat) (hfits : s.regs.argE.toNat ≤ s.params.eMax) (hq : s.regs.qm = 0) :
    Raises i .invalidModulation s := by
  apply raises_of_effect
  simp only [smallBlockCommands, List.mem_cons, List.not_mem_nil, or_false] at hi
  obtain rfl | rfl | rfl | rfl := hi <;>
    simp only [effectOf, coded_invalidModulation (.inl rfl) hpos hfits hq,
      coded_invalidModulation (.inr rfl) hpos hfits hq, decoded_invalidModulation (.inl rfl) hpos hfits hq,
      decoded_invalidModulation (.inr rfl) hpos hfits hq, Except.map]

end

/-! ## Encoding -/

/-- Output element `k` of the 2-bit encoder (R161). -/
def twoBitByte (qm : Nat) (b0 b1 : Bit) (k : Nat) : Byte :=
  (twoBitPattern qm b0 b1).getD (k % (twoBitPattern qm b0 b1).length) 0

section
variable {s : State} (h : SmallBlockReady s)
include h

theorem coded_one (payload : List Bit) :
    s.coded 1 s.regs.argE.toNat payload =
      .ok ((List.range s.regs.argE.toNat).map (oneBitByte s.regs.qm (payload.getD 0 false))) := by
  obtain ⟨hpos, hfits, hqm⟩ := h
  rw [State.coded, codedBytes, if_neg (by omega), if_neg (fun hbad => hqm hbad.2), if_pos rfl]

theorem coded_two (payload : List Bit) :
    s.coded 2 s.regs.argE.toNat payload =
      .ok ((List.range s.regs.argE.toNat).map
        (twoBitByte s.regs.qm (payload.getD 0 false) (payload.getD 1 false))) := by
  obtain ⟨hpos, hfits, hqm⟩ := h
  rw [State.coded, codedBytes, if_neg (by omega), if_neg (fun hbad => hqm hbad.2), if_neg (by omega), if_pos rfl]
  rfl

theorem enc1Bit_completes :
    Completes .enc1Bit s
      { Effect.nothing s with
        regs := { s.regs with resE := s.regs.argE }
        out := (List.range s.regs.argE.toNat).map (oneBitByte s.regs.qm (readBit s.bitSeq 0)) } :=
  completes_of_effect (by
    rw [effectOf, coded_one h, readBits_getD _ 1 0 (by omega), Except.map, Effect.codes, BitVec.ofNat_toNat,
      BitVec.setWidth_eq])

theorem enc2Bit_completes :
    Completes .enc2Bit s
      { Effect.nothing s with
        regs := { s.regs with resE := s.regs.argE }
        out := (List.range s.regs.argE.toNat).map
          (twoBitByte s.regs.qm (readBit s.bitSeq 0) (readBit s.bitSeq 1)) } :=
  completes_of_effect (by
    rw [effectOf, coded_two h, readBits_getD _ 2 0 (by omega), readBits_getD _ 2 1 (by omega), Except.map,
      Effect.codes, BitVec.ofNat_toNat, BitVec.setWidth_eq])

end

/-- Settles O30, by the checks. -/
theorem enc1BitResult : Obligations.Enc1BitResult := by
  rintro s _ qm rfl hqm
  obtain rfl : qm = s.regs.qm := hqm.trans (modulationOrder_eq _).symm
  exact ⟨smallBlock_raises_invalidInput (by decide), smallBlock_raises_invalidModulation (by decide),
    fun hpos hfits hqm => enc1Bit_completes ⟨hpos, hfits, hqm⟩⟩

theorem bitByte_xor (b0 b1 : Bit) : bitByte (b0 ^^ b1) = if b0 = b1 then 0 else 1 := by
  cases b0 <;> cases b1 <;> rfl

/-- Settles O32, by the checks, with the pattern of each modulation read off R159's definition. -/
theorem enc2BitResult : Obligations.Enc2BitResult := by
  rintro s _ qm rfl hqm
  obtain rfl : qm = s.regs.qm := hqm.trans (modulationOrder_eq _).symm
  refine ⟨smallBlock_raises_invalidInput (by decide), smallBlock_raises_invalidModulation (by decide),
    fun hpos hfits c0 c1 c2 pattern hc0 hc1 hc2 hpattern => ?_⟩
  obtain rfl : c0 = bitByte (readBit s.bitSeq 0) := hc0
  obtain rfl : c1 = bitByte (readBit s.bitSeq 1) := hc1
  obtain rfl : c2 = bitByte (readBit s.bitSeq 0 ^^ readBit s.bitSeq 1) := hc2.trans (bitByte_xor _ _).symm
  obtain rfl : pattern = twoBitPattern s.regs.qm (readBit s.bitSeq 0) (readBit s.bitSeq 1) := by
    obtain ⟨hq | hq, rfl⟩ | ⟨hq, rfl⟩ | ⟨hq, rfl⟩ | ⟨hq, rfl⟩ := hpattern <;> rw [hq] <;> rfl
  exact enc2Bit_completes ⟨hpos, hfits, by omega⟩

/-! ## Sampled positions -/

/-- A rising list of the positions below `e` with a property is the range filtered by it. -/
theorem filter_range_eq {p : Nat → Bool} {e : Nat} {l : List Nat} (hl : l.Pairwise (· < ·))
    (hmem : ∀ k, k ∈ l ↔ k < e ∧ p k = true) : (List.range e).filter p = l :=
  List.Pairwise.eq_of_mem_iff (List.pairwise_lt_range.filter p) hl fun k => by simp [hmem]

theorem lt_ceilDiv_iff {e qm j : Nat} (hq : qm ≠ 0) : j < ceilDiv e qm ↔ j * qm < e := by
  have hq : 0 < qm := Nat.pos_of_ne_zero hq
  rw [ceilDiv, ← Nat.succ_le_iff, Nat.le_div_iff_mul_le hq, Nat.succ_mul]
  omega

theorem readLlrs_getD (m : Memory Byte) {e k : Nat} (hk : k < e) :
    (readLlrs m 0 e).getD k 0 = (readByte m k).toInt := by
  simp [readLlrs, List.getD_eq_getElem?_getD, hk]

/-- The multiples of `Qm` below `e` (R154). -/
theorem filter_range_multiples {qm : Nat} (hq : qm ≠ 0) (e : Nat) :
    ((List.range e).filter fun k => k % qm = 0) = (List.range (ceilDiv e qm)).map (· * qm) := by
  have hq0 : 0 < qm := Nat.pos_of_ne_zero hq
  refine filter_range_eq ?_ fun k => ?_
  · rw [List.pairwise_map]
    exact List.pairwise_lt_range.imp fun hlt => Nat.mul_lt_mul_of_pos_right hlt hq0
  · simp only [List.mem_map, List.mem_range, lt_ceilDiv_iff hq, decide_eq_true_eq, ← Nat.dvd_iff_mod_eq_zero]
    constructor
    · rintro ⟨j, hj, rfl⟩
      exact ⟨hj, Nat.dvd_mul_left _ _⟩
    · rintro ⟨hk, j, rfl⟩
      exact ⟨j, by rwa [mul_comm], mul_comm _ _⟩

/-- The 1-bit decoder samples the soft values at the multiples of `Qm` (R154). -/
theorem oneBitSamples_readLlrs {qm : Nat} (hq : qm ≠ 0) (m : Memory Byte) (e : Nat) :
    oneBitSamples qm (readLlrs m 0 e) =
      ((List.range e).filter fun k => k % qm = 0).map fun k => (readByte m k).toInt := by
  rw [oneBitSamples, readLlrs_length, filter_range_multiples hq, List.map_map]
  refine List.map_congr_left fun j hj => ?_
  exact readLlrs_getD m ((lt_ceilDiv_iff hq).mp (List.mem_range.mp hj))

/-- The positions the 2-bit decoder samples (R162): all for `Qm = 1`, else the first two of each group. -/
def twoBitPositions (qm e : Nat) : List Nat := (List.range e).filter fun k => qm = 1 ∨ k % qm < 2

/-- The positions the 2-bit decoder samples in the group of `Qm` positions with number `g`. -/
def groupPositions (qm e g : Nat) : List Nat := if g * qm + 1 < e then [g * qm, g * qm + 1] else [g * qm]

theorem mem_groupPositions {qm e g k : Nat} (hg : g * qm < e) :
    k ∈ groupPositions qm e g ↔ k < e ∧ (k = g * qm ∨ k = g * qm + 1) := by
  by_cases h : g * qm + 1 < e <;> simp [groupPositions, h] <;> omega

theorem mod_lt_two_iff {qm k : Nat} (hq : 2 ≤ qm) : k % qm < 2 ↔ ∃ g, k = g * qm ∨ k = g * qm + 1 := by
  constructor
  · intro h
    have hk := Nat.div_add_mod' k qm
    exact ⟨k / qm, by omega⟩
  · rintro ⟨g, rfl | rfl⟩
    · simp
    · rw [Nat.mul_add_mod', Nat.mod_eq_of_lt (by omega)]
      omega

/-- The sampled positions, group after group. -/
theorem twoBitPositions_eq_flatMap {qm : Nat} (hq : 2 ≤ qm) (e : Nat) :
    twoBitPositions qm e = (List.range (ceilDiv e qm)).flatMap (groupPositions qm e) := by
  have hq0 : qm ≠ 0 := by omega
  have hgroup {g : Nat} (hg : g ∈ List.range (ceilDiv e qm)) : g * qm < e :=
    (lt_ceilDiv_iff hq0).mp (List.mem_range.mp hg)
  refine filter_range_eq ?_ fun k => ?_
  · rw [List.pairwise_flatMap]
    refine ⟨fun g _ => ?_, List.pairwise_lt_range.imp_of_mem fun {a b} ha hb hlt x hx y hy => ?_⟩
    · by_cases h : g * qm + 1 < e <;> simp [groupPositions, h]
    · rw [mem_groupPositions (hgroup ha)] at hx
      rw [mem_groupPositions (hgroup hb)] at hy
      have hstep : (a + 1) * qm ≤ b * qm := Nat.mul_le_mul_right qm hlt
      rw [Nat.succ_mul] at hstep
      omega
  · simp only [List.mem_flatMap, decide_eq_true_eq, show qm ≠ 1 by omega, false_or, mod_lt_two_iff hq]
    constructor
    · rintro ⟨g, hg, hk⟩
      rw [mem_groupPositions (hgroup hg)] at hk
      exact ⟨hk.1, g, hk.2⟩
    · rintro ⟨hk, g, hkg⟩
      have hg : g * qm < e := by omega
      exact ⟨g, List.mem_range.mpr ((lt_ceilDiv_iff hq0).mpr hg), (mem_groupPositions hg).mpr ⟨hk, hkg⟩⟩

/-- The 2-bit decoder's samples are the soft values at its positions (R162). -/
theorem twoBitSamples_readLlrs {qm : Nat} (hq : qm ≠ 0) (m : Memory Byte) (e : Nat) :
    twoBitSamples qm (readLlrs m 0 e) = (twoBitPositions qm e).map fun k => (readByte m k).toInt := by
  by_cases h1 : qm = 1
  · simp [twoBitSamples, twoBitPositions, h1, readLlrs]
  · rw [twoBitSamples, if_neg h1, readLlrs_length, twoBitPositions_eq_flatMap (by omega), List.map_flatMap]
    refine List.flatMap_congr fun g hg => ?_
    have hg : g * qm < e := (lt_ceilDiv_iff hq).mp (List.mem_range.mp hg)
    by_cases h : g * qm + 1 < e
    · rw [if_pos h, groupPositions, if_pos h, readLlrs_getD m hg, readLlrs_getD m h]
      rfl
    · rw [if_neg h, groupPositions, if_neg h, readLlrs_getD m hg]
      rfl

/-! ## Decoding one bit -/

theorem sumOf_eq_sum (xs : List Int) : sumOf xs = xs.sum := List.sum_eq_foldl.symm

theorem sumSq_eq_sum (xs : List Int) : sumSq xs = (xs.map fun v => v ^ 2).sum := by
  simp only [sumSq, List.sum_eq_foldl, List.foldl_map, sq]

/-- The samples of the 1-bit decoder at `s` (R154). -/
def samplesOf (s : State) : List Int :=
  ((List.range s.regs.argE.toNat).filter fun k => k % s.regs.qm = 0).map fun k => (readByte s.llrMem k).toInt

theorem dec1Bit_completes {s : State} (h : SmallBlockReady s) :
    Completes .dec1Bit s
      { Effect.nothing s with
        bits := [hardBit (samplesOf s).sum]
        valid := oneBitValid s.params.oneBitPwrMode (val s.regs.oneBitThr) s.regs.qm s.regs.argE.toNat
          (samplesOf s).sum ((samplesOf s).map fun v => v ^ 2).sum (samplesOf s).length } := by
  obtain ⟨hpos, hfits, hqm⟩ := h
  refine completes_of_effect ?_
  rw [effectOf, State.decoded, decodedBits, readLlrs_length, if_neg (by omega), if_neg (fun hbad => hqm hbad.2),
    if_pos rfl, oneBitSamples_readLlrs hqm]
  simp only [sumOf_eq_sum, sumSq_eq_sum]
  rfl

/-- The validity's three conditions as one (R155). -/
theorem oneBitValid_eq_decide (mode : OneBitPwrMode) (thr : ℚ) (qm e : Nat) (corr s2 : Int) (n : Nat) :
    oneBitValid mode thr qm e corr s2 n =
      decide
        (0 < s2 ∧ 0 < corr ∧ thr ^ 2 * (e : ℚ) ^ 2 * oneBitPwr mode s2 n < ((qm : ℚ) * corr) ^ 2) := by
  simp only [oneBitValid, Bool.decide_and, Bool.and_assoc]

/-- Settles O31, by the checks, with the validity's three conditions as one. -/
theorem dec1BitResult : Obligations.Dec1BitResult := by
  rintro s _ qm rfl hqm
  obtain rfl : qm = s.regs.qm := hqm.trans (modulationOrder_eq _).symm
  refine ⟨smallBlock_raises_invalidInput (by decide), smallBlock_raises_invalidModulation (by decide),
    fun hpos hfits hqm samples corr s2 hsamples hcorr hs2 => ?_⟩
  obtain rfl : samples = samplesOf s := hsamples
  subst hcorr hs2
  have hend := dec1Bit_completes ⟨hpos, hfits, hqm⟩
  rw [oneBitValid_eq_decide] at hend
  exact hend

/-! ## Decoding two bits -/

/-- The samples `f k`, `k` in `positions`, whose number is `c` modulo 3 (R162). -/
def cellSamples (f : Nat → Int) (positions : List Nat) (c : Nat) : List Int :=
  (positions.zipIdx.filter fun x => x.2 % 3 = c).map fun x => f x.1

/-- The last sample stored in cell `c`, or 0 (R162). -/
def lastInCell (f : Nat → Int) (positions : List Nat) (c : Nat) : Int :=
  ((cellSamples f positions c).getLast?).getD 0

theorem lastInCell_concat (f : Nat → Int) (ks : List Nat) (k c : Nat) :
    lastInCell f (ks ++ [k]) c = if ks.length % 3 = c then f k else lastInCell f ks c := by
  by_cases h : ks.length % 3 = c <;> simp [lastInCell, cellSamples, List.zipIdx_append, h]

theorem twoBitCells_concat (xs : List Int) (v : Int) :
    twoBitCells (xs ++ [v]) = storeCell (twoBitCells xs) xs.length v := by
  simp [twoBitCells, List.zipIdx_append]

/-- Each rotating cell holds the last sample stored in it (R162). -/
theorem twoBitCells_map (f : Nat → Int) (ks : List Nat) :
    twoBitCells (ks.map f) = (lastInCell f ks 0, lastInCell f ks 1, lastInCell f ks 2) := by
  induction ks using List.reverseRecOn with
  | nil => rfl
  | append_singleton ks k ih =>
    rw [List.map_append, List.map_singleton, twoBitCells_concat, ih, List.length_map, storeCell]
    simp only [lastInCell_concat]
    obtain h | h | h : ks.length % 3 = 0 ∨ ks.length % 3 = 1 ∨ ks.length % 3 = 2 := by omega
    · simp [h]
    · simp [h]
    · simp [h]

/-- Cell `c` of the 2-bit decoder at `s` (R162). -/
def cellOf (s : State) (c : Nat) : Int :=
  lastInCell (fun k => (readByte s.llrMem k).toInt) (twoBitPositions s.regs.qm s.regs.argE.toNat) c

theorem dec2Bit_completes {s : State} (h : SmallBlockReady s) :
    Completes .dec2Bit s
      { Effect.nothing s with
        bits := [hardBit (cellOf s 0), hardBit (cellOf s 1)]
        valid := twoBitValid (hardBit (cellOf s 0)) (hardBit (cellOf s 1)) (hardBit (cellOf s 2)) } := by
  obtain ⟨hpos, hfits, hqm⟩ := h
  refine completes_of_effect ?_
  rw [effectOf, State.decoded, decodedBits, readLlrs_length, if_neg (by omega), if_neg (fun hbad => hqm hbad.2),
    if_neg (by omega), if_pos rfl, twoBitSamples_readLlrs hqm, twoBitCells_map]
  rfl

/-- Settles O33, by the checks. -/
theorem dec2BitResult : Obligations.Dec2BitResult := by
  rintro s _ qm rfl hqm
  obtain rfl : qm = s.regs.qm := hqm.trans (modulationOrder_eq _).symm
  refine ⟨smallBlock_raises_invalidInput (by decide), smallBlock_raises_invalidModulation (by decide),
    fun hpos hfits hqm positions cell hpositions hcell => ?_⟩
  obtain rfl : positions = twoBitPositions s.regs.qm s.regs.argE.toNat := hpositions
  have hcellOf (c : Nat) (hc : c < 3) : cell c = cellOf s c := hcell c hc
  rw [hcellOf 0 (by omega), hcellOf 1 (by omega), hcellOf 2 (by omega)]
  exact dec2Bit_completes ⟨hpos, hfits, hqm⟩

/-! ## Noiseless soft values -/

/-- The noiseless soft value of magnitude `σ` of a bit (R166). -/
def softBit (σ : Int) (b : Bit) : Int := if b then σ else -σ

theorem hardBit_softBit {σ : Int} (hσ : 1 ≤ σ) (b : Bit) : hardBit (softBit σ b) = b := by
  cases b <;> simp [hardBit, softBit] <;> omega

/-- The soft values `llrs` are a noiseless image of the coded bytes `out` below `e` (R166): anything stands at
repetitions and placeholders. -/
def SoftImage (out llrs : Memory Byte) (e : Nat) (σ : Int) : Prop :=
  ∀ k, k < e →
    (readByte out k = 1 → (readByte llrs k).toInt = σ) ∧ (readByte out k = 0 → (readByte llrs k).toInt = -σ)

theorem SoftImage.toInt_eq {out llrs : Memory Byte} {e k : Nat} {σ : Int} {b : Bit}
    (h : SoftImage out llrs e σ) (hk : k < e) (hb : readByte out k = bitByte b) :
    (readByte llrs k).toInt = softBit σ b := by
  cases b with
  | true => exact (h k hk).1 hb
  | false => exact (h k hk).2 hb

/-- The coded bytes, read back from `OUT_MEM`. -/
theorem Completes.readByte_outMem {i : Instr} {s t : State} {x : Effect} {f : Nat → Byte} {e k : Nat}
    (h : Completes i s x) (ht : exec i s = .next t) (hout : x.out = (List.range e).map f) (hk : k < e) :
    readByte t.outMem k = f k := by
  rw [(h.ended ht).outMem k, hout]
  simp [List.getD_eq_getElem?_getD, hk]

/-! ## The round trip of two bits -/

/-- The position of sample number `j` (R162). -/
def samplePosition (qm j : Nat) : Nat := if qm = 1 then j else j / 2 * qm + j % 2

theorem samplePosition_strictMono {qm : Nat} (hq : qm ≠ 0) : StrictMono (samplePosition qm) := by
  intro i j h
  by_cases h1 : qm = 1
  · rwa [samplePosition, samplePosition, if_pos h1, if_pos h1]
  · rw [samplePosition, samplePosition, if_neg h1, if_neg h1]
    obtain heq | hlt : i / 2 = j / 2 ∨ i / 2 + 1 ≤ j / 2 := by omega
    · rw [heq]
      omega
    · have hstep := Nat.mul_le_mul_right qm hlt
      rw [Nat.succ_mul] at hstep
      omega

/-- The sampled positions are those of the sample numbers. -/
theorem exists_samplePosition_iff {qm k : Nat} (hq : qm ≠ 0) :
    (∃ j, samplePosition qm j = k) ↔ qm = 1 ∨ k % qm < 2 := by
  by_cases h1 : qm = 1
  · simp [samplePosition, h1]
  · simp only [samplePosition, if_neg h1, or_iff_right h1, mod_lt_two_iff (show 2 ≤ qm by omega)]
    constructor
    · rintro ⟨j, rfl⟩
      exact ⟨j / 2, by omega⟩
    · rintro ⟨g, rfl | rfl⟩
      · exact ⟨2 * g, by simp⟩
      · exact ⟨2 * g + 1, by rw [show (2 * g + 1) / 2 = g by omega, show (2 * g + 1) % 2 = 1 by omega]⟩

/-- Sample number `j` stands at `samplePosition qm j`. -/
theorem twoBitPositions_eq_map {qm : Nat} (hq : qm ≠ 0) (e : Nat) :
    ∃ n, twoBitPositions qm e = (List.range n).map (samplePosition qm) ∧ ∀ j, j < n ↔ samplePosition qm j < e := by
  have hmono := samplePosition_strictMono hq
  have hfound : ∃ n, e ≤ samplePosition qm n := ⟨e, hmono.le_apply⟩
  have hn (j : Nat) : j < Nat.find hfound ↔ samplePosition qm j < e := by
    rw [Nat.lt_find_iff]
    exact ⟨fun h => not_le.mp (h j le_rfl), fun h i hi => not_le.mpr ((hmono.monotone hi).trans_lt h)⟩
  refine ⟨Nat.find hfound, filter_range_eq ?_ fun k => ?_, hn⟩
  · rw [List.pairwise_map]
    exact List.pairwise_lt_range.imp fun h => hmono h
  · simp only [List.mem_map, List.mem_range, hn, decide_eq_true_eq, ← exists_samplePosition_iff hq]
    constructor
    · rintro ⟨j, hj, rfl⟩
      exact ⟨hj, j, rfl⟩
    · rintro ⟨hk, j, rfl⟩
      exact ⟨j, hk, rfl⟩

theorem mem_cellSamples {f : Nat → Int} {qm e c : Nat} {v : Int} (hq : qm ≠ 0) :
    v ∈ cellSamples f (twoBitPositions qm e) c ↔
      ∃ j, j % 3 = c ∧ samplePosition qm j < e ∧ f (samplePosition qm j) = v := by
  obtain ⟨n, hpositions, hn⟩ := twoBitPositions_eq_map hq e
  have hzip (k j : Nat) :
      (k, j) ∈ (twoBitPositions qm e).zipIdx ↔ samplePosition qm j < e ∧ samplePosition qm j = k := by
    rw [List.mem_zipIdx_iff_getElem?, hpositions, List.getElem?_map, ← hn]
    by_cases hj : j < n <;> simp [hj]
  simp only [cellSamples, List.mem_map, List.mem_filter, decide_eq_true_eq]
  constructor
  · rintro ⟨⟨k, j⟩, ⟨hkj, hj⟩, rfl⟩
    obtain ⟨hlt, rfl⟩ := (hzip k j).mp hkj
    exact ⟨j, hj, hlt, rfl⟩
  · rintro ⟨j, hj, hlt, rfl⟩
    exact ⟨(samplePosition qm j, j), ⟨(hzip _ j).mpr ⟨hlt, rfl⟩, hj⟩, rfl⟩

/-- A cell whose samples are all `v`, and which has one, holds `v`. -/
theorem lastInCell_eq {f : Nat → Int} {qm e c : Nat} {v : Int} (hq : qm ≠ 0) (hc : c < 3)
    (hsample : samplePosition qm c < e)
    (hv : ∀ j, j % 3 = c → samplePosition qm j < e → f (samplePosition qm j) = v) :
    lastInCell f (twoBitPositions qm e) c = v := by
  have hne : cellSamples f (twoBitPositions qm e) c ≠ [] :=
    List.ne_nil_of_mem ((mem_cellSamples hq).mpr ⟨c, Nat.mod_eq_of_lt hc, hsample, rfl⟩)
  obtain ⟨j, hj, hlt, hlast⟩ := (mem_cellSamples hq).mp (List.getLast_mem hne)
  rw [lastInCell, List.getLast?_eq_some_getLast hne, Option.getD_some, ← hlast, hv j hj hlt]

/-- The coded bits `c0`, `c1`, `c2` of R158. -/
def codeBit (b0 b1 : Bit) : Nat → Bit
  | 0 => b0
  | 1 => b1
  | _ => b0 ^^ b1

theorem twoBitByte_samplePosition_periodic {qm : Nat} (hq : qm = 1 ∨ qm = 2 ∨ qm = 4 ∨ qm = 6 ∨ qm = 8)
    (b0 b1 : Bit) : Function.Periodic (fun j => twoBitByte qm b0 b1 (samplePosition qm j)) 6 := by
  intro j
  have hmod : samplePosition qm (j + 6) % (twoBitPattern qm b0 b1).length =
      samplePosition qm j % (twoBitPattern qm b0 b1).length := by
    obtain rfl | rfl | rfl | rfl | rfl := hq <;> simp [samplePosition, twoBitPattern] <;> omega
  simp only [twoBitByte, hmod]

/-- Sample number `j` carries coded bit `j mod 3` (R159, R162). -/
theorem twoBitByte_samplePosition {qm : Nat} (hq : qm = 1 ∨ qm = 2 ∨ qm = 4 ∨ qm = 6 ∨ qm = 8) (b0 b1 : Bit)
    (j : Nat) : twoBitByte qm b0 b1 (samplePosition qm j) = bitByte (codeBit b0 b1 (j % 3)) := by
  have hperiod : ∀ r < 6, ∀ b0 b1, ∀ q ∈ [1, 2, 4, 6, 8],
      twoBitByte q b0 b1 (samplePosition q r) = bitByte (codeBit b0 b1 (r % 3)) := by decide
  have hr := hperiod (j % 6) (Nat.mod_lt _ (by omega)) b0 b1 qm (by simpa using hq)
  rwa [(twoBitByte_samplePosition_periodic hq b0 b1).map_mod_nat, show j % 6 % 3 = j % 3 by omega] at hr

/-- The third sample exists (R166). -/
theorem samplePosition_two_lt {qm e : Nat} (he : if qm ≤ 2 then 3 ≤ e else qm + 1 ≤ e) :
    samplePosition qm 2 < e := by
  rw [samplePosition]
  split_ifs at he ⊢ <;> omega

section
variable {s t u : State} {σ : Int} (hs : SmallBlockReady s) (he : u.regs.argE = s.regs.argE)
  (hqm : u.regs.qm = s.regs.qm) (himage : SoftImage t.outMem u.llrMem s.regs.argE.toNat σ)
include hs he hqm himage

/-- A cell that has a sample holds the soft value of its coded bit. -/
theorem cellOf_of_enc2Bit (ht : exec .enc2Bit s = .next t) {c : Nat} (hc : c < 3)
    (hsample : samplePosition s.regs.qm c < s.regs.argE.toNat) :
    cellOf u c = softBit σ (codeBit (readBit s.bitSeq 0) (readBit s.bitSeq 1) c) := by
  rw [cellOf, hqm, he]
  refine lastInCell_eq hs.modulation hc hsample fun j hj hlt => himage.toInt_eq hlt ?_
  rw [(enc2Bit_completes hs).readByte_outMem ht rfl hlt, twoBitByte_samplePosition (qm_mem_of_ne_zero hs.modulation),
    hj]

/-- The 2-bit code, decoded from a noiseless image (R164, R166). -/
theorem dec2Bit_completes_of_image (hu : SmallBlockReady u) (hσ : 1 ≤ σ) (ht : exec .enc2Bit s = .next t)
    (hsample : samplePosition s.regs.qm 2 < s.regs.argE.toNat) :
    Completes .dec2Bit u { Effect.nothing u with bits := readBits s.bitSeq 0 2, valid := true } := by
  have hbit {c : Nat} (hc : c < 3) :
      hardBit (cellOf u c) = codeBit (readBit s.bitSeq 0) (readBit s.bitSeq 1) c := by
    have hle : samplePosition s.regs.qm c ≤ samplePosition s.regs.qm 2 :=
      (samplePosition_strictMono hs.modulation).monotone (by omega)
    rw [cellOf_of_enc2Bit hs he hqm himage ht hc (by omega), hardBit_softBit hσ]
  have hvalid (b0 b1 : Bit) : twoBitValid (codeBit b0 b1 0) (codeBit b0 b1 1) (codeBit b0 b1 2) = true := by
    simp [twoBitValid, codeBit]
  have hend := dec2Bit_completes hu
  rw [hbit (by omega : 0 < 3), hbit (by omega : 1 < 3), hbit (by omega : 2 < 3), hvalid] at hend
  exact hend

/-- Every sample of the 1-bit decoder is the soft value of the bit. -/
theorem samplesOf_of_enc1Bit (ht : exec .enc1Bit s = .next t) :
    samplesOf u = List.replicate (ceilDiv s.regs.argE.toNat s.regs.qm) (softBit σ (readBit s.bitSeq 0)) := by
  rw [samplesOf, hqm, he, filter_range_multiples hs.modulation, List.map_map, List.eq_replicate_iff]
  refine ⟨by simp, fun v hv => ?_⟩
  obtain ⟨j, hj, rfl⟩ := List.mem_map.mp hv
  have hlt := (lt_ceilDiv_iff hs.modulation).mp (List.mem_range.mp hj)
  refine himage.toInt_eq hlt ?_
  rw [(enc1Bit_completes hs).readByte_outMem ht rfl hlt, oneBitByte, if_pos (Nat.mul_mod_left _ _)]

end

/-! ## The round trip of one bit -/

/-- `pwr` over `n` samples of magnitude `σ` (R155). -/
def noiselessPwr (mode : OneBitPwrMode) (σ : Int) (n : Nat) : ℚ :=
  match mode with
  | .sum => n * σ ^ 2
  | .mean => σ ^ 2

theorem oneBitPwr_noiseless (mode : OneBitPwrMode) (σ : Int) {n : Nat} (hn : n ≠ 0) :
    oneBitPwr mode (n * σ ^ 2) n = noiselessPwr mode σ n := by
  have hn : (n : ℚ) ≠ 0 := Nat.cast_ne_zero.mpr hn
  cases mode with
  | sum => simp [oneBitPwr, noiselessPwr]
  | mean => simp [oneBitPwr, noiselessPwr, hn]

/-- The metric's test over `n` noiseless samples of one bit (R155, R166). -/
theorem oneBitValid_replicate (mode : OneBitPwrMode) (thr : ℚ) (qm e : Nat) {n : Nat} (hn : n ≠ 0) {σ : Int}
    (hσ : 1 ≤ σ) (b : Bit) :
    oneBitValid mode thr qm e (List.replicate n (softBit σ b)).sum
        ((List.replicate n (softBit σ b)).map fun v => v ^ 2).sum n =
      (b && decide (thr ^ 2 * (e : ℚ) ^ 2 * noiselessPwr mode σ n < ((qm : ℚ) * n * σ) ^ 2)) := by
  have hcorr : 0 < (n : Int) * σ := by positivity
  have hs2 : 0 < (n : Int) * σ ^ 2 := by positivity
  have hsq : softBit σ b ^ 2 = σ ^ 2 := by cases b <;> simp [softBit]
  rw [List.map_replicate, List.sum_replicate, List.sum_replicate, hsq, nsmul_eq_mul, nsmul_eq_mul,
    oneBitValid_eq_decide, oneBitPwr_noiseless mode σ hn]
  cases b with
  | true => simp [softBit, hs2, hcorr, mul_assoc]
  | false => simp [softBit, hcorr.le]

theorem hardBit_sum_replicate {n : Nat} (hn : n ≠ 0) {σ : Int} (hσ : 1 ≤ σ) (b : Bit) :
    hardBit (List.replicate n (softBit σ b)).sum = b := by
  have hsum : (List.replicate n (softBit σ b)).sum = softBit (n * σ) b := by
    cases b <;> simp [softBit]
  have hcorr : 0 < (n : Int) * σ := by positivity
  rw [hsum, hardBit_softBit (by omega)]

/-- The 1-bit code, decoded from a noiseless image (R155, R166). -/
theorem dec1Bit_completes_of_image {s t u : State} {σ : Int} (hs : SmallBlockReady s) (hu : SmallBlockReady u)
    (he : u.regs.argE = s.regs.argE) (hqm : u.regs.qm = s.regs.qm) (hσ : 1 ≤ σ)
    (himage : SoftImage t.outMem u.llrMem s.regs.argE.toNat σ) (ht : exec .enc1Bit s = .next t) {n : Nat}
    (hn : n = ceilDiv s.regs.argE.toNat s.regs.qm) :
    Completes .dec1Bit u
      { Effect.nothing u with
        bits := readBits s.bitSeq 0 1
        valid :=
          readBit s.bitSeq 0 &&
            decide (val u.regs.oneBitThr ^ 2 * (s.regs.argE.toNat : ℚ) ^ 2 * noiselessPwr u.params.oneBitPwrMode σ n <
              ((s.regs.qm : ℚ) * n * σ) ^ 2) } := by
  have hn0 : n ≠ 0 := by
    have hpos := (lt_ceilDiv_iff (e := s.regs.argE.toNat) (j := 0) hs.modulation).mpr (by have := hs.pos; omega)
    omega
  have hend := dec1Bit_completes hu
  rw [samplesOf_of_enc1Bit hs he hqm himage ht, ← hn, List.length_replicate, oneBitValid_replicate _ _ _ _ hn0 hσ,
    hardBit_sum_replicate hn0 hσ, he, hqm] at hend
  exact hend

/-- Settles O34, by what the decoders sample of a noiseless image. -/
theorem smallBlockRoundTrip : Obligations.SmallBlockRoundTrip := by
  rintro s t u _ _ σ rfl rfl hqm hpos hfits hp he hm hσ - himage
  have hs : SmallBlockReady s := ⟨hpos, hfits, hqm⟩
  have hu : SmallBlockReady u := hs.of_same hp he hm
  have hqm : u.regs.qm = s.regs.qm := congrArg modulationOrder hm
  exact ⟨fun ht hsamples =>
      dec2Bit_completes_of_image hs he hqm himage hu hσ ht (samplePosition_two_lt hsamples),
    fun ht n hn => dec1Bit_completes_of_image hs hu he hqm hσ himage ht hn⟩

end Sys2Proof.Machine
end

