-- ==== Sys2Proof/Proofs/ReedMuller.lean ====
section
/-! PROOFS. The Reed–Muller coder, 43_reed_muller.md: the codeword (R180, R181), the search for the greatest
correlation (R189, R190), the two commands with their errors (R184 to R191), and the noiseless round trip (R193). -/

namespace Sys2Proof.Machine

/-! ## The checks -/

/-- The checks of R184 hold at `s`. -/
structure RmReady (s : State) : Prop where
  three_le : 3 ≤ s.regs.argA.toNat
  le_eleven : s.regs.argA.toNat ≤ 11
  pos : 1 ≤ s.regs.argE.toNat
  fits : s.regs.argE.toNat ≤ s.params.eMax

section
variable {s : State}
  (h : s.regs.argA.toNat < 3 ∨ 11 < s.regs.argA.toNat ∨ s.regs.argE.toNat < 1 ∨ s.params.eMax < s.regs.argE.toNat)
include h

theorem encRm_raises_invalidInput : Raises .encRm .invalidInput s := by
  apply raises_of_effect
  rw [effectOf]
  split_ifs with ha
  · rfl
  · rw [coded_invalidInput (by omega), Except.map]

theorem decRm_raises_invalidInput : Raises .decRm .invalidInput s := by
  apply raises_of_effect
  rw [effectOf]
  split_ifs with ha
  · rfl
  · rw [decoded_invalidInput (by omega), Except.map]

end

/-! ## Codeword bits -/

/-- How many payload bits `p j` with a 1 in row `i` of the basis are set: the sum of R180. -/
def rmCount (basis : List (List Bit)) (a : Nat) (p : Nat → Bit) (i : Nat) : Nat :=
  (List.range a).countP fun j => p j && (basis.getD i []).getD j false

/-- Codeword bit `d_i` of the payload with bits `p` (R180). -/
def rmParity (basis : List (List Bit)) (a : Nat) (p : Nat → Bit) (i : Nat) : Bit :=
  decide (rmCount basis a p i % 2 = 1)

theorem sum_map_bitNum (p : Nat → Bit) (l : List Nat) : (l.map fun k => bitNum (p k)).sum = l.countP p := by
  induction l with
  | nil => rfl
  | cons k l ih => cases h : p k <;> simp [bitNum, ih, h, add_comm]

theorem rmParity_congr (basis : List (List Bit)) {a : Nat} {p q : Nat → Bit} (h : ∀ j, j < a → p j = q j) :
    rmParity basis a p = rmParity basis a q := by
  funext i
  have hcount : rmCount basis a p i = rmCount basis a q i :=
    List.countP_congr fun j hj => by rw [h j (List.mem_range.mp hj)]
  rw [rmParity, rmParity, hcount]

/-- The encoder's codeword bits are the parities of its payload (R180). -/
theorem rmBit_eq_rmParity (basis : List (List Bit)) {a : Nat} {payload : List Bit} {p : Nat → Bit}
    (hp : ∀ j, j < a → payload.getD j false = p j) : rmBit basis a payload = rmParity basis a p := by
  rw [← rmParity_congr basis hp]
  funext i
  rw [rmParity, rmCount, ← sum_map_bitNum]
  rfl

/-! ## Encoding -/

/-- Output bit `k` of the encoder at `s` (R181, R185). -/
def rmOutputBit (s : State) (k : Nat) : Bit :=
  rmParity s.params.rmBasis s.regs.argA.toNat (readBit s.bitSeq) (k % 32)

theorem encRm_completes {s : State} (h : RmReady s) :
    Completes .encRm s
      { Effect.nothing s with
        regs := { s.regs with resE := s.regs.argE }
        out := (List.range s.regs.argE.toNat).map fun k => bitByte (rmOutputBit s k) } := by
  obtain ⟨h3, h11, hpos, hfits⟩ := h
  have hbit := rmBit_eq_rmParity s.params.rmBasis (readBits_getD s.bitSeq s.regs.argA.toNat)
  refine completes_of_effect ?_
  rw [effectOf, if_neg (by omega), State.coded, codedBytes, if_neg (by omega), if_neg (by omega),
    if_neg (by omega), if_neg (by omega), if_pos h11]
  simp only [hbit, Except.map, Effect.codes, BitVec.ofNat_toNat, BitVec.setWidth_eq]
  rfl

theorem bitByte_rmParity (basis : List (List Bit)) (a : Nat) (p : Nat → Bit) (i : Nat) :
    bitByte (rmParity basis a p i) = if rmCount basis a p i % 2 = 1 then 1 else 0 := by
  simp only [bitByte, rmParity, decide_eq_true_eq]

/-- Settles O35, by the checks, with the sum of R180 as a count. -/
theorem encRmResult : Obligations.EncRmResult := by
  rintro s _ _ rfl rfl
  refine ⟨encRm_raises_invalidInput, fun h3 h11 hpos hfits => ?_⟩
  have hend := encRm_completes ⟨h3, h11, hpos, hfits⟩
  simp only [rmOutputBit, bitByte_rmParity] at hend
  exact hend

/-! ## The search -/

/-- `g` is the first number below `bound` of greatest score (R190). -/
def IsFirstBest (score : Nat → Int) (bound g : Nat) : Prop :=
  g < bound ∧ ∀ h, h < bound → score h ≤ score g ∧ (h < g → score h < score g)

theorem firstBest_snd (score : Nat → Int) (n : Nat) : (firstBest score n).2 = score (firstBest score n).1 := by
  induction n with
  | zero => rfl
  | succ n ih =>
    rw [firstBest]
    split_ifs
    · rfl
    · exact ih

/-- The search keeps the first number of greatest score among those it has seen. -/
theorem firstBest_isFirstBest (score : Nat → Int) (n : Nat) :
    IsFirstBest score (n + 1) (firstBest score n).1 := by
  induction n with
  | zero =>
    refine ⟨Nat.one_pos, fun h hh => ?_⟩
    obtain rfl : h = 0 := by omega
    exact ⟨le_rfl, fun hlt => absurd hlt (lt_irrefl 0)⟩
  | succ n ih =>
    obtain ⟨hbound, hbest⟩ := ih
    simp only [firstBest, firstBest_snd]
    split_ifs with hnew
    · refine ⟨Nat.lt_succ_self _, fun h hh => ?_⟩
      obtain rfl | hlt : h = n + 1 ∨ h < n + 1 := by omega
      · exact ⟨le_rfl, fun hlt => absurd hlt (lt_irrefl _)⟩
      · have hold := ((hbest h hlt).1).trans_lt hnew
        exact ⟨hold.le, fun _ => hold⟩
    · refine ⟨by omega, fun h hh => ?_⟩
      obtain rfl | hlt : h = n + 1 ∨ h < n + 1 := by omega
      · exact ⟨not_lt.mp hnew, fun hlt => by omega⟩
      · exact hbest h hlt

/-! ## Combining and correlation -/

/-- The soft values at the positions congruent to `i` modulo 32, added up (R189). -/
def foldedLlr (m : Memory Byte) (e i : Nat) : Int :=
  (((List.range e).filter fun k => k % 32 = i).map fun k => (readByte m k).toInt).sum

theorem rmFold_readLlrs (m : Memory Byte) (e : Nat) :
    rmFold (readLlrs m 0 e) = (List.range 32).map (foldedLlr m e) := by
  have hzip : (readLlrs m 0 e).zipIdx = (List.range e).map fun k => ((readByte m k).toInt, k) := by
    refine List.ext_getElem (by simp) fun k _ _ => ?_
    simp [readLlrs]
  refine List.map_congr_left fun i _ => ?_
  rw [sumOf_eq_sum, foldedLlr, hzip, List.filter_map, List.map_map]
  rfl

/-- The correlation of the payload with bits `p` with the folded values `acc` (R190). -/
def correlation (basis : List (List Bit)) (a : Nat) (acc : Nat → Int) (p : Nat → Bit) : Int :=
  ((List.range 32).map fun i => softBit (acc i) (rmParity basis a p i)).sum

theorem rmCandidate_getD {a j : Nat} (g : Nat) (hj : j < a) : (rmCandidate a g).getD j false = g.testBit j := by
  simp [rmCandidate, List.getD_eq_getElem?_getD, hj]

theorem rmCorr_eq_correlation (basis : List (List Bit)) (a : Nat) (acc : Nat → Int) (g : Nat) :
    rmCorr basis a ((List.range 32).map acc) g = correlation basis a acc g.testBit := by
  have hbit := rmBit_eq_rmParity basis (a := a) fun j hj => rmCandidate_getD g hj
  rw [rmCorr, sumOf_eq_sum, rmCodeword, List.zip_map', List.map_map]
  simp only [hbit]
  rfl

/-- The correlation of payload number `g` with the soft values at `s`. -/
def corrOf (s : State) (g : Nat) : Int :=
  correlation s.params.rmBasis s.regs.argA.toNat (foldedLlr s.llrMem s.regs.argE.toNat) g.testBit

/-- The search at `s` finds the first payload of greatest correlation, and its correlation (R190). -/
theorem rmSearch_eq (s : State) :
    ∃ g, IsFirstBest (corrOf s) (2 ^ s.regs.argA.toNat) g ∧
      rmSearch s.params.rmBasis s.regs.argA.toNat (rmFold (readLlrs s.llrMem 0 s.regs.argE.toNat)) =
        (g, corrOf s g) := by
  have hscore : rmCorr s.params.rmBasis s.regs.argA.toNat (rmFold (readLlrs s.llrMem 0 s.regs.argE.toNat)) =
      corrOf s := by
    rw [rmFold_readLlrs]
    exact funext fun g => rmCorr_eq_correlation _ _ _ g
  have hbest := firstBest_isFirstBest (corrOf s) (2 ^ s.regs.argA.toNat - 1)
  rw [Nat.sub_add_cancel Nat.one_le_two_pow] at hbest
  exact ⟨_, hbest, by rw [rmSearch, hscore, ← firstBest_snd (corrOf s)]⟩

theorem softBit_rmParity (basis : List (List Bit)) (a : Nat) (p : Nat → Bit) (i : Nat) (v : Int) :
    softBit v (rmParity basis a p i) = if rmCount basis a p i % 2 = 1 then v else -v := by
  simp only [softBit, rmParity, decide_eq_true_eq]

/-! ## Decoding -/

/-- `S2` at `s` (R188). -/
def llrPower (s : State) : Int :=
  ((List.range s.regs.argE.toNat).map fun k => (readByte s.llrMem k).toInt ^ 2).sum

theorem sumSq_readLlrs (s : State) : sumSq (readLlrs s.llrMem 0 s.regs.argE.toNat) = llrPower s := by
  rw [sumSq_eq_sum, readLlrs, List.map_map, llrPower]
  simp only [Nat.zero_add]
  rfl

section
variable {s : State} (h : RmReady s)
include h

/-- After the checks of R184 the decoder makes those of R187 and R188, then searches (R191). -/
theorem effectOf_decRm :
    effectOf s .decRm =
      if s.regs.argA.toNat = 11 ∧ s.regs.argE.toNat ≤ 16 then .error .underRateMatched
      else if llrPower s = 0 then .error .allZeros
      else
        let best := rmSearch s.params.rmBasis s.regs.argA.toNat (rmFold (readLlrs s.llrMem 0 s.regs.argE.toNat))
        .ok
          { Effect.nothing s with
            bits := rmCandidate s.regs.argA.toNat best.1
            valid := blockValid (val s.regs.blockThr) s.regs.argE.toNat best.2 (llrPower s) } := by
  obtain ⟨h3, h11, hpos, hfits⟩ := h
  rw [effectOf, if_neg (by omega), State.decoded, decodedBits, readLlrs_length, sumSq_readLlrs,
    if_neg (by omega), if_neg (by omega), if_neg (by omega), if_neg (by omega), if_pos h11]
  split_ifs <;> rfl

theorem decRm_raises_underRateMatched (hu : s.regs.argA.toNat = 11 ∧ s.regs.argE.toNat ≤ 16) :
    Raises .decRm .underRateMatched s :=
  raises_of_effect (by rw [effectOf_decRm h, if_pos hu])

section
variable (hu : ¬(s.regs.argA.toNat = 11 ∧ s.regs.argE.toNat ≤ 16))
include hu

theorem decRm_raises_allZeros (hz : llrPower s = 0) : Raises .decRm .allZeros s :=
  raises_of_effect (by rw [effectOf_decRm h, if_neg hu, if_pos hz])

theorem decRm_completes (hz : llrPower s ≠ 0) :
    ∃ g, IsFirstBest (corrOf s) (2 ^ s.regs.argA.toNat) g ∧
      Completes .decRm s
        { Effect.nothing s with
          bits := rmCandidate s.regs.argA.toNat g
          valid := blockValid (val s.regs.blockThr) s.regs.argE.toNat (corrOf s g) (llrPower s) } := by
  obtain ⟨g, hbest, hsearch⟩ := rmSearch_eq s
  exact ⟨g, hbest, completes_of_effect (by rw [effectOf_decRm h, if_neg hu, if_neg hz, hsearch])⟩

end

end

/-- Settles O36, by the checks, then by the search. -/
theorem decRmResult : Obligations.DecRmResult := by
  rintro s _ _ s2 rfl rfl hs2
  obtain rfl : s2 = llrPower s := hs2
  refine ⟨decRm_raises_invalidInput, fun ha hpos hle hfits => ?_, fun h3 h11 hpos hfits hu hz => ?_,
    fun h3 h11 hpos hfits hu hz acc corr hacc hcorr => ?_⟩
  · exact decRm_raises_underRateMatched ⟨by omega, by omega, hpos, hfits⟩ ⟨ha, hle⟩
  · exact decRm_raises_allZeros ⟨h3, h11, hpos, hfits⟩ hu hz
  · obtain rfl : acc = foldedLlr s.llrMem s.regs.argE.toNat := funext hacc
    obtain rfl : corr = corrOf s := funext fun g => by
      simp only [hcorr g, corrOf, correlation, softBit_rmParity]
      rfl
    obtain ⟨g, ⟨hlt, hbest⟩, hend⟩ := decRm_completes ⟨h3, h11, hpos, hfits⟩ hu hz
    rw [blockValid, ← Bool.decide_and] at hend
    exact ⟨g, hlt, hbest, hend⟩

/-! ## The default basis separates payloads -/

/-- A set of rows of the default basis whose codeword bits add up to payload bit `j`: it witnesses that the columns
are linearly independent (R183). -/
def isolatingRows : Nat → Finset Nat
  | 0 => {31}
  | 1 => {0, 1, 10, 25}
  | 2 => {0, 2, 14, 30}
  | 3 => {7, 22}
  | 4 => {0, 1, 4, 8}
  | 5 => {0, 1, 4, 13}
  | 6 => {0, 1, 2, 3}
  | 7 => {0, 1, 4, 21}
  | 8 => {0, 4, 8, 23}
  | 9 => {0, 2, 9, 23}
  | 10 => {0, 6, 13, 29}
  | _ => ∅

/-- A bit as an element of the field with two elements. -/
def toField (b : Bit) : ZMod 2 := if b then 1 else 0

theorem toField_injective : Function.Injective toField := by decide

theorem toField_and (b c : Bit) : toField (b && c) = toField b * toField c := by
  cases b <;> simp [toField]

theorem toField_parity (n : Nat) : toField (decide (n % 2 = 1)) = n := by
  obtain heven | hodd := Nat.mod_two_eq_zero_or_one n
  · simp [toField, heven, ZMod.natCast_eq_zero_iff_even.mpr (Nat.even_iff.mpr heven)]
  · simp [toField, hodd, ZMod.natCast_eq_one_iff_odd.mpr (Nat.odd_iff.mpr hodd)]

theorem natCast_countP_range (p : Nat → Bit) (n : Nat) :
    ((List.range n).countP p : ZMod 2) = ∑ j ∈ Finset.range n, toField (p j) := by
  induction n with
  | zero => rfl
  | succ n ih =>
    rw [List.range_succ, List.countP_append, Nat.cast_add, ih, Finset.sum_range_succ]
    cases h : p n <;> simp [toField, h]

/-- A codeword bit is a linear form of the payload (R180). -/
theorem toField_rmParity (basis : List (List Bit)) (a : Nat) (p : Nat → Bit) (i : Nat) :
    toField (rmParity basis a p i) =
      ∑ j ∈ Finset.range a, toField (p j) * toField ((basis.getD i []).getD j false) := by
  rw [rmParity, toField_parity, rmCount, natCast_countP_range]
  exact Finset.sum_congr rfl fun j _ => toField_and _ _

theorem isolatingRows_lt {i j : Nat} (hj : j < 11) (hi : i ∈ isolatingRows j) : i < 32 := by
  have hrows : ∀ j < 11, ∀ i ∈ isolatingRows j, i < 32 := by decide
  exact hrows j hj i hi

theorem sum_isolatingRows {j k : Nat} (hj : j < 11) (hk : k < 11) :
    ∑ i ∈ isolatingRows j, toField ((rmBasisDefault.getD i []).getD k false) = if k = j then 1 else 0 := by
  have hrows : ∀ j < 11, ∀ k < 11,
      ∑ i ∈ isolatingRows j, toField ((rmBasisDefault.getD i []).getD k false) = if k = j then 1 else 0 := by
    decide
  exact hrows j hj k hk

/-- Each payload bit is a sum of codeword bits. -/
theorem sum_rmParity_isolatingRows {a j : Nat} (ha : a ≤ 11) (hj : j < a) (p : Nat → Bit) :
    ∑ i ∈ isolatingRows j, toField (rmParity rmBasisDefault a p i) = toField (p j) := by
  calc ∑ i ∈ isolatingRows j, toField (rmParity rmBasisDefault a p i)
      = ∑ k ∈ Finset.range a, toField (p k) *
          ∑ i ∈ isolatingRows j, toField ((rmBasisDefault.getD i []).getD k false) := by
        simp only [toField_rmParity, Finset.mul_sum]
        exact Finset.sum_comm
    _ = ∑ k ∈ Finset.range a, if k = j then toField (p k) else 0 := by
        refine Finset.sum_congr rfl fun k hk => ?_
        rw [sum_isolatingRows (by omega) ((Finset.mem_range.mp hk).trans_le ha), mul_ite, mul_one, mul_zero]
    _ = toField (p j) := by rw [Finset.sum_ite_eq', if_pos (Finset.mem_range.mpr hj)]

/-- Payloads with the same codeword are the same. -/
theorem eq_of_rmParity_eq {a : Nat} (ha : a ≤ 11) {p q : Nat → Bit}
    (hcode : ∀ i, i < 32 → rmParity rmBasisDefault a p i = rmParity rmBasisDefault a q i) {j : Nat} (hj : j < a) :
    p j = q j := by
  apply toField_injective
  rw [← sum_rmParity_isolatingRows ha hj p, ← sum_rmParity_isolatingRows ha hj q]
  exact Finset.sum_congr rfl fun i hi => by rw [hcode i (isolatingRows_lt (by omega) hi)]

/-! ## Noiseless soft values -/

theorem sum_map_range (f : Nat → Int) (n : Nat) : ((List.range n).map f).sum = ∑ k ∈ Finset.range n, f k := rfl

theorem foldedLlr_eq_sum (m : Memory Byte) (e i : Nat) :
    foldedLlr m e i = ∑ k ∈ Finset.range e with k % 32 = i, (readByte m k).toInt := rfl

theorem softBit_sum {ι : Type} (s : Finset ι) (f : ι → Int) (b : Bit) :
    softBit (∑ k ∈ s, f k) b = ∑ k ∈ s, softBit (f k) b := by
  cases b
  · exact Finset.sum_neg_distrib f |>.symm
  · rfl

/-- Correlating the folded values is correlating each soft value with the bit of its position (R189, R190). -/
theorem correlation_foldedLlr (basis : List (List Bit)) (a e : Nat) (m : Memory Byte) (p : Nat → Bit) :
    correlation basis a (foldedLlr m e) p =
      ∑ k ∈ Finset.range e, softBit (readByte m k).toInt (rmParity basis a p (k % 32)) := by
  have hmod : ∀ k ∈ Finset.range e, k % 32 ∈ Finset.range 32 := fun k _ =>
    Finset.mem_range.mpr (Nat.mod_lt k (by omega))
  rw [correlation, sum_map_range, ← Finset.sum_fiberwise_of_maps_to hmod]
  refine Finset.sum_congr rfl fun i _ => ?_
  rw [foldedLlr_eq_sum, softBit_sum]
  exact Finset.sum_congr rfl fun k hk => by rw [(Finset.mem_filter.mp hk).2]

theorem softBit_softBit (σ : Int) (b c : Bit) : softBit (softBit σ b) c = if b = c then σ else -σ := by
  cases b <;> cases c <;> simp [softBit]

/-- The number of the payload with bits `p` (R190). -/
def payloadNumber (a : Nat) (p : Nat → Bit) : Nat := Nat.ofBits fun j : Fin a => p j

theorem payloadNumber_lt (a : Nat) (p : Nat → Bit) : payloadNumber a p < 2 ^ a := Nat.ofBits_lt_two_pow _

theorem testBit_payloadNumber (p : Nat → Bit) {a j : Nat} (hj : j < a) : (payloadNumber a p).testBit j = p j :=
  Nat.testBit_ofBits_lt _ j hj

/-- The soft values at `s` are the noiseless image, of magnitude `σ`, of the payload with bits `p` (R193). -/
def NoiselessRm (s : State) (σ : Int) (p : Nat → Bit) : Prop :=
  ∀ k, k < s.regs.argE.toNat →
    (readByte s.llrMem k).toInt = softBit σ (rmParity s.params.rmBasis s.regs.argA.toNat p (k % 32))

section
variable {s : State} {σ : Int} {p : Nat → Bit} (himage : NoiselessRm s σ p)
include himage

theorem NoiselessRm.llrPower_eq : llrPower s = s.regs.argE.toNat * σ ^ 2 := by
  have hsq (b : Bit) : softBit σ b ^ 2 = σ ^ 2 := by cases b <;> simp [softBit]
  rw [llrPower, sum_map_range,
    Finset.sum_congr rfl fun k hk => by rw [himage k (Finset.mem_range.mp hk), hsq]]
  simp

/-- A payload gains `σ` where its codeword agrees with the image's, and loses it where not. -/
theorem NoiselessRm.corrOf_eq (g : Nat) :
    corrOf s g = ∑ k ∈ Finset.range s.regs.argE.toNat,
      if rmParity s.params.rmBasis s.regs.argA.toNat p (k % 32) =
        rmParity s.params.rmBasis s.regs.argA.toNat g.testBit (k % 32) then σ else -σ := by
  rw [corrOf, correlation_foldedLlr]
  exact Finset.sum_congr rfl fun k hk => by rw [himage k (Finset.mem_range.mp hk), softBit_softBit]

/-- `corr ≤ E · σ`, with equality exactly for a payload whose codeword agrees with the image's (R193). -/
theorem NoiselessRm.corrOf_le (hσ : 1 ≤ σ) (g : Nat) :
    corrOf s g ≤ s.regs.argE.toNat * σ ∧
      (corrOf s g = s.regs.argE.toNat * σ ↔
        ∀ k, k < s.regs.argE.toNat →
          rmParity s.params.rmBasis s.regs.argA.toNat p (k % 32) =
            rmParity s.params.rmBasis s.regs.argA.toNat g.testBit (k % 32)) := by
  have hbound : (s.regs.argE.toNat * σ : Int) = ∑ _k ∈ Finset.range s.regs.argE.toNat, σ := by simp
  have hle (b c : Bit) : (if b = c then σ else -σ) ≤ σ := by split_ifs <;> omega
  have heq (b c : Bit) : (if b = c then σ else -σ) = σ ↔ b = c := by
    have hneg : -σ ≠ σ := by omega
    by_cases h : b = c <;> simp [h, hneg]
  rw [himage.corrOf_eq, hbound]
  refine ⟨Finset.sum_le_sum fun k _ => hle _ _, ?_⟩
  rw [Finset.sum_eq_sum_iff_of_le fun k _ => hle _ _]
  simp only [heq, Finset.mem_range]

theorem NoiselessRm.corrOf_payloadNumber (hσ : 1 ≤ σ) :
    corrOf s (payloadNumber s.regs.argA.toNat p) = s.regs.argE.toNat * σ := by
  refine (himage.corrOf_le hσ _).2.mpr fun k _ => ?_
  rw [rmParity_congr s.params.rmBasis fun j hj => testBit_payloadNumber p hj]

/-- The search finds the payload of a noiseless image that covers the codeword (R193). -/
theorem NoiselessRm.of_isFirstBest (hbasis : s.params.rmBasis = rmBasisDefault) (ha : s.regs.argA.toNat ≤ 11)
    (he : 32 ≤ s.regs.argE.toNat) (hσ : 1 ≤ σ) {g : Nat}
    (hbest : IsFirstBest (corrOf s) (2 ^ s.regs.argA.toNat) g) :
    corrOf s g = s.regs.argE.toNat * σ ∧ ∀ j, j < s.regs.argA.toNat → g.testBit j = p j := by
  have hcorr : corrOf s g = s.regs.argE.toNat * σ :=
    le_antisymm (himage.corrOf_le hσ g).1
      (himage.corrOf_payloadNumber hσ ▸ (hbest.2 _ (payloadNumber_lt _ p)).1)
  refine ⟨hcorr, fun j hj => eq_of_rmParity_eq ha (fun i hi => ?_) hj⟩
  have hagree := (himage.corrOf_le hσ g).2.mp hcorr i (hi.trans_le he)
  rw [hbasis, Nat.mod_eq_of_lt hi] at hagree
  exact hagree.symm

end

/-! ## The round trip -/

/-- The normalised correlation of a noiseless image is 1 (R192, R193). -/
theorem blockValid_noiseless {thr : ℚ} (hthr0 : 0 < thr) (hthr1 : thr < 1) {e : Nat} (he : 1 ≤ e) {σ : Int}
    (hσ : 1 ≤ σ) : blockValid thr e (e * σ) (e * σ ^ 2) = true := by
  have hcorr : 0 < (e : Int) * σ := by positivity
  have hsquare : (0 : ℚ) < ((e * σ : Int) : ℚ) ^ 2 := pow_pos (Int.cast_pos.mpr hcorr) 2
  have htest : thr ^ 2 * (e : ℚ) * ((e * σ ^ 2 : Int) : ℚ) < ((e * σ : Int) : ℚ) ^ 2 := by
    calc thr ^ 2 * (e : ℚ) * ((e * σ ^ 2 : Int) : ℚ)
        = thr ^ 2 * ((e * σ : Int) : ℚ) ^ 2 := by push_cast; ring
      _ < ((e * σ : Int) : ℚ) ^ 2 :=
        mul_lt_of_lt_one_left hsquare (pow_lt_one₀ hthr0.le hthr1 two_ne_zero)
  rw [blockValid, decide_eq_true hcorr, decide_eq_true htest, Bool.and_self]

/-- The decoder finds the payload of a noiseless image, and finds it valid (R191, R193). -/
theorem NoiselessRm.completes {s : State} {σ : Int} {p : Nat → Bit} (himage : NoiselessRm s σ p)
    (h : RmReady s) (hbasis : s.params.rmBasis = rmBasisDefault) (he : 32 ≤ s.regs.argE.toNat) (hσ : 1 ≤ σ)
    (hthr0 : 0 < val s.regs.blockThr) (hthr1 : val s.regs.blockThr < 1) :
    Completes .decRm s
      { Effect.nothing s with bits := (List.range s.regs.argA.toNat).map p, valid := true } := by
  have hpower : llrPower s ≠ 0 := by
    have hpos := h.pos
    rw [himage.llrPower_eq]
    positivity
  obtain ⟨g, hbest, hend⟩ := decRm_completes h (by omega) hpower
  obtain ⟨hcorr, hbits⟩ := himage.of_isFirstBest hbasis h.le_eleven he hσ hbest
  have hpayload : rmCandidate s.regs.argA.toNat g = (List.range s.regs.argA.toNat).map p :=
    List.map_congr_left fun j hj => hbits j (List.mem_range.mp hj)
  rw [hcorr, himage.llrPower_eq, blockValid_noiseless hthr0 hthr1 h.pos hσ, hpayload] at hend
  exact hend

/-- Soft values read off the encoder's output are a noiseless image of its payload. -/
theorem noiselessRm_of_encRm {s t u : State} {σ : Int} (h : RmReady s) (ht : exec .encRm s = .next t)
    (hp : u.params = s.params) (ha : u.regs.argA = s.regs.argA) (he : u.regs.argE = s.regs.argE)
    (hllr : ∀ k, k < s.regs.argE.toNat →
      (readByte u.llrMem k).toInt = if readByte t.outMem k = 1 then σ else -σ) :
    NoiselessRm u σ (readBit s.bitSeq) := by
  have hone (b : Bit) : bitByte b = 1 ↔ b = true := by cases b <;> decide
  intro k hk
  rw [he] at hk
  rw [hllr k hk, (encRm_completes h).readByte_outMem ht rfl hk, hp, ha]
  simp only [hone, softBit, rmOutputBit]

/-- Settles O37: the payload is the only one whose codeword agrees with the image at every position, so it is the one
of greatest correlation. -/
theorem reedMullerRoundTrip : Obligations.ReedMullerRoundTrip := by
  rintro s t u _ _ σ hbasis rfl rfl h3 h11 he32 hfits ht hp ha he hthr0 hthr1 hσ - hllr
  have hs : RmReady s := ⟨h3, h11, by omega, hfits⟩
  have hu : RmReady u := ⟨by rwa [ha], by rwa [ha], by rw [he]; omega, by rwa [he, hp]⟩
  have hend := (noiselessRm_of_encRm hs ht hp ha he hllr).completes hu (by rw [hp, hbasis])
    (by rwa [he]) hσ hthr0 hthr1
  simp only [readBits, Nat.zero_add]
  rwa [ha] at hend

end Sys2Proof.Machine
end

section
/-! PROOFS. The polar code: the transform (44_polar_code.md R212, R213). -/

namespace Sys2Proof.Machine

/-! ## Positions that cover each other -/

/-- The bitwise and acts on the high and the low parts of two numbers by themselves. -/
theorem two_pow_mul_add_and {n b d : Nat} (a c : Nat) (hb : b < 2 ^ n) (hd : d < 2 ^ n) :
    (2 ^ n * a + b) &&& (2 ^ n * c + d) = 2 ^ n * (a &&& c) + (b &&& d) := by
  apply Nat.eq_of_testBit_eq
  intro k
  have hbd : b &&& d < 2 ^ n := Nat.and_lt_two_pow b hd
  rw [Nat.testBit_and, Nat.testBit_two_pow_mul_add a hb, Nat.testBit_two_pow_mul_add c hd,
    Nat.testBit_two_pow_mul_add _ hbd]
  split_ifs <;> rw [Nat.testBit_and]

/-- One number has every 1 bit of another when its high and its low part have them. -/
theorem two_pow_mul_add_covers_iff {n b d : Nat} (a c : Nat) (hb : b < 2 ^ n) (hd : d < 2 ^ n) :
    (2 ^ n * a + b) &&& (2 ^ n * c + d) = 2 ^ n * c + d ↔ a &&& c = c ∧ b &&& d = d := by
  have hbd : b &&& d < 2 ^ n := Nat.and_lt_two_pow b hd
  rw [two_pow_mul_add_and a c hb hd]
  constructor
  · intro h
    have hhigh := congrArg (· / 2 ^ n) h
    have hlow := congrArg (· % 2 ^ n) h
    simp only [Nat.mul_add_div (Nat.two_pow_pos n), Nat.div_eq_of_lt hbd, Nat.div_eq_of_lt hd, Nat.add_zero,
      Nat.mul_add_mod, Nat.mod_eq_of_lt hbd, Nat.mod_eq_of_lt hd] at hhigh hlow
    exact ⟨hhigh, hlow⟩
  · rintro ⟨h1, h2⟩
    rw [h1, h2]

/-! ## Exclusive or of bit sequences -/

theorem toField_xor (b c : Bit) : toField (b ^^ c) = toField b + toField c := by revert b c; decide

theorem toField_xorBits_getD {a b : List Bit} {k : Nat} (ha : k < a.length) (hb : k < b.length) :
    toField ((xorBits a b).getD k false) = toField (a.getD k false) + toField (b.getD k false) := by
  rw [← toField_xor]
  simp [xorBits, List.getD_eq_getElem?_getD, ha, hb]

theorem xorBits_xorBits_right {a b : List Bit} (h : a.length = b.length) : xorBits (xorBits a b) b = a := by
  apply List.ext_getElem
  · simp [xorBits_length, h]
  · intro k _ _
    simp [xorBits]

theorem xorBits_xorBits_comm (a b c d : List Bit) :
    xorBits (xorBits a b) (xorBits c d) = xorBits (xorBits a c) (xorBits b d) := by
  have hbit : ∀ w x y z : Bit, ((w ^^ x) ^^ (y ^^ z)) = ((w ^^ y) ^^ (x ^^ z)) := by decide
  apply List.ext_getElem
  · simp only [xorBits_length]
    omega
  · intro k _ _
    simp only [xorBits, List.getElem_zipWith]
    exact hbit _ _ _ _

/-! ## The transform -/

/-- The two halves of a sequence of `2^(n+1)` bits. -/
theorem halves_length {n : Nat} {u : List Bit} (h : u.length = 2 ^ (n + 1)) :
    (u.take (2 ^ n)).length = 2 ^ n ∧ (u.drop (2 ^ n)).length = 2 ^ n ∧
      (xorBits (u.take (2 ^ n)) (u.drop (2 ^ n))).length = 2 ^ n := by
  have hpow : 2 ^ (n + 1) = 2 ^ n + 2 ^ n := by ring
  rw [xorBits_length, List.length_take, List.length_drop]
  omega

theorem polarTransform_xorBits {n : Nat} {u v : List Bit} (hu : u.length = 2 ^ n) (hv : v.length = 2 ^ n) :
    polarTransform n (xorBits u v) = xorBits (polarTransform n u) (polarTransform n v) := by
  induction n generalizing u v with
  | zero => rfl
  | succ n ih =>
    obtain ⟨htu, hdu, hxu⟩ := halves_length hu
    obtain ⟨htv, hdv, hxv⟩ := halves_length hv
    have htake : (xorBits u v).take (2 ^ n) = xorBits (u.take (2 ^ n)) (v.take (2 ^ n)) := List.take_zipWith
    have hdrop : (xorBits u v).drop (2 ^ n) = xorBits (u.drop (2 ^ n)) (v.drop (2 ^ n)) := List.drop_zipWith
    have hlen : (polarTransform n (xorBits (u.take (2 ^ n)) (u.drop (2 ^ n)))).length =
        (polarTransform n (xorBits (v.take (2 ^ n)) (v.drop (2 ^ n)))).length := by
      rw [polarTransform_length hxu, polarTransform_length hxv]
    rw [polarTransform, htake, hdrop, xorBits_xorBits_comm, ih hxu hxv, ih hdu hdv]
    exact (List.zipWith_append hlen).symm

theorem polarTransform_polarTransform {n : Nat} {u : List Bit} (hu : u.length = 2 ^ n) :
    polarTransform n (polarTransform n u) = u := by
  induction n generalizing u with
  | zero => rfl
  | succ n ih =>
    obtain ⟨ht, hd, hx⟩ := halves_length hu
    have hTx := polarTransform_length hx
    have hTd := polarTransform_length hd
    rw [polarTransform, polarTransform, List.take_left' hTx, List.drop_left' hTx, polarTransform_xorBits hTx hTd,
      ih hx, ih hd, xorBits_xorBits_right (ht.trans hd.symm), List.take_append_drop]

/-- The exclusive or of the bits of `u` whose position has every 1 bit of `j`. -/
def coverSum (n : Nat) (u : List Bit) (j : Nat) : ZMod 2 :=
  ∑ i ∈ Finset.range (2 ^ n), if i &&& j = j then toField (u.getD i false) else 0

/-- The positions of the lower half cover no position of the upper half, those of the upper half cover what their
lower bits cover. -/
theorem coverSum_succ {n : Nat} {u : List Bit} {c d : Nat} (hu : u.length = 2 ^ (n + 1)) (hc : c < 2) (hd : d < 2 ^ n) :
    coverSum (n + 1) u (2 ^ n * c + d) =
      (if c = 0 then coverSum n (u.take (2 ^ n)) d else 0) + coverSum n (u.drop (2 ^ n)) d := by
  obtain ⟨ht, -, -⟩ := halves_length hu
  have hlow (i : Nat) (hi : i < 2 ^ n) : i &&& (2 ^ n * c + d) = 2 ^ n * c + d ↔ c = 0 ∧ i &&& d = d := by
    have h := two_pow_mul_add_covers_iff 0 c hi hd
    simpa [eq_comm] using h
  have hhigh (i : Nat) (hi : i < 2 ^ n) : (2 ^ n + i) &&& (2 ^ n * c + d) = 2 ^ n * c + d ↔ i &&& d = d := by
    have h := two_pow_mul_add_covers_iff 1 c hi hd
    have hone : 1 &&& c = c := by
      interval_cases c <;> rfl
    simpa [hone] using h
  rw [coverSum, coverSum, coverSum, show 2 ^ (n + 1) = 2 ^ n + 2 ^ n by ring, Finset.sum_range_add]
  congr 1
  · split_ifs with h0
    · refine Finset.sum_congr rfl fun i hi => ?_
      have hi := Finset.mem_range.mp hi
      simp [h0, List.getD_eq_getElem?_getD, hi]
    · refine Finset.sum_eq_zero fun i hi => ?_
      rw [if_neg (fun h => h0 ((hlow i (Finset.mem_range.mp hi)).mp h).1)]
  · refine Finset.sum_congr rfl fun i hi => ?_
    simp [hhigh i (Finset.mem_range.mp hi), List.getD_eq_getElem?_getD, List.getElem?_drop]

theorem coverSum_xorBits {n : Nat} {u v : List Bit} (hu : u.length = 2 ^ n) (hv : v.length = 2 ^ n) (j : Nat) :
    coverSum n (xorBits u v) j = coverSum n u j + coverSum n v j := by
  rw [coverSum, coverSum, coverSum, ← Finset.sum_add_distrib]
  refine Finset.sum_congr rfl fun i hi => ?_
  have hi := Finset.mem_range.mp hi
  rw [toField_xorBits_getD (hu ▸ hi) (hv ▸ hi)]
  split_ifs <;> simp

/-- Element `j` of the transform (R212). -/
theorem toField_polarTransform {n : Nat} {u : List Bit} (hu : u.length = 2 ^ n) {j : Nat} (hj : j < 2 ^ n) :
    toField ((polarTransform n u).getD j false) = coverSum n u j := by
  induction n generalizing u j with
  | zero =>
    obtain rfl : j = 0 := by simpa using hj
    simp [coverSum, polarTransform]
  | succ n ih =>
    obtain ⟨ht, hd, hx⟩ := halves_length hu
    have hTx := polarTransform_length hx
    rw [polarTransform]
    rcases Nat.lt_or_ge j (2 ^ n) with hlow | hhigh
    · have hsplit := coverSum_succ (c := 0) hu (by omega) hlow
      rw [Nat.mul_zero, Nat.zero_add, if_pos rfl] at hsplit
      rw [List.getD_append _ _ _ _ (hTx.symm ▸ hlow), ih hx hlow, coverSum_xorBits ht hd, hsplit]
    · obtain ⟨d, rfl⟩ := Nat.exists_eq_add_of_le hhigh
      have hdlt : d < 2 ^ n := by rw [pow_succ] at hj; omega
      have hsplit := coverSum_succ (c := 1) hu (by omega) hdlt
      rw [Nat.mul_one, if_neg (by decide), zero_add] at hsplit
      rw [List.getD_append_right _ _ _ _ (hTx.symm ▸ hhigh), hTx, Nat.add_sub_cancel_left, ih hd hdlt, hsplit]

/-- Settles O40: the parity of a count is a sum over the field with two elements. -/
theorem polarTransformElements : Obligations.PolarTransformElements := by
  refine fun n u hu => ⟨polarTransform_length hu, fun j hj => toField_injective ?_⟩
  rw [toField_polarTransform hu hj, toField_parity, natCast_countP_range]
  refine Finset.sum_congr rfl fun i _ => ?_
  by_cases h : i &&& j = j <;> simp [h, toField]

/-- Only the last position has every 1 bit of the last position. -/
theorem coverSum_last (n : Nat) (u : List Bit) : coverSum n u (2 ^ n - 1) = toField (u.getD (2 ^ n - 1) false) := by
  have hpos := Nat.two_pow_pos n
  rw [coverSum, Finset.sum_eq_single_of_mem (2 ^ n - 1) (Finset.mem_range.mpr (by omega)), if_pos (Nat.and_self _)]
  intro i hi hne
  rw [Nat.and_two_pow_sub_one_eq_mod, Nat.mod_eq_of_lt (Finset.mem_range.mp hi), if_neg hne]

theorem toField_foldl_xor (u : List Bit) (b : Bit) :
    toField (u.foldl xor b) = toField b + ∑ i ∈ Finset.range u.length, toField (u.getD i false) := by
  induction u generalizing b with
  | nil => simp
  | cons c u ih =>
    rw [List.foldl_cons, ih, toField_xor, List.length_cons, Finset.sum_range_succ']
    simp only [List.getD_cons_succ, List.getD_cons_zero]
    ring

/-- Every position has every 1 bit of position 0. -/
theorem coverSum_zero {n : Nat} {u : List Bit} (hu : u.length = 2 ^ n) :
    coverSum n u 0 = toField (u.foldl xor false) := by
  rw [toField_foldl_xor, coverSum, hu, show toField false = 0 from rfl, zero_add]
  exact Finset.sum_congr rfl fun i _ => if_pos (Nat.and_zero i)

/-- Settles O41: the transform is linear by its recursion, and of `T(T(a + b) + T(b)) ++ T(T(b))` linearity leaves
`a ++ b`; the two elements are sums over one position and over all. -/
theorem polarTransformIsItsOwnInverse : Obligations.PolarTransformIsItsOwnInverse := by
  intro n u v hu hv
  have hpos := Nat.two_pow_pos n
  refine ⟨polarTransform_polarTransform hu, polarTransform_xorBits hu hv, toField_injective ?_, toField_injective ?_⟩
  · rw [toField_polarTransform hu (by omega), coverSum_last]
  · rw [toField_polarTransform hu hpos, coverSum_zero hu]

end Sys2Proof.Machine
end

section
/-! PROOFS. Channel allocation and its inverse (44_polar_code.md R230 to R232). -/

namespace Sys2Proof.Machine

/-! ## Accepted codes -/

/-- What an accepted code offers the proofs below (10_state.md R48). -/
structure AcceptedCode (code : PolarCode) : Prop where
  length_eq : code.N = 2 ^ code.n
  five_le : 5 ≤ code.n
  kSet_rising : code.kSet.Pairwise (· < ·)
  kSet_lt : ∀ m ∈ code.kSet, m < code.N
  frozen_iff : ∀ m, m ∈ code.fSet ↔ m < code.N ∧ m ∉ code.kSet

theorem acceptedCode_of_codeAccepted {k n : Nat} {code : PolarCode} (h : codeAccepted k n code = true) :
    AcceptedCode code ∧ code.K = k := by
  simp only [codeAccepted, Bool.and_eq_true, decide_eq_true_eq, beq_iff_eq, strictlyRising_iff, List.all_eq_true] at h
  obtain ⟨⟨⟨⟨⟨⟨⟨⟨⟨⟨⟨hN, h5⟩, -⟩, hK⟩, hrising⟩, -⟩, hlt⟩, -⟩, -⟩, -⟩, hF⟩, -⟩ := h
  refine ⟨⟨hN, h5, hrising, hlt, fun m => ?_⟩, hK⟩
  rw [hF]
  simp

theorem messagePositions_eq {code : PolarCode} (h : AcceptedCode code) :
    messagePositions code = (List.range code.N).filter (isMessagePosition code) := by
  refine (filter_range_eq (h.kSet_rising.filter _) fun m => ?_).symm
  simp only [List.mem_filter, isMessagePosition, Bool.and_eq_true, List.contains_iff_mem]
  exact ⟨fun hm => ⟨h.kSet_lt m hm.1, hm⟩, And.right⟩

/-! ## Allocation -/

/-- What one step of R230's loop does: a message position takes the next message bit and no other position takes one,
and a frozen position gets 0. -/
theorem allocateFrom_cons (code : PolarCode) (m : Nat) (ms : List Nat) (y : BitVec 5) (c : List Bit) :
    ∃ b y', allocateFrom code (m :: ms) y c =
        b :: allocateFrom code ms y' (if isMessagePosition code m then c.tail else c) ∧
      (m ∉ code.kSet → b = false) ∧ (isMessagePosition code m = true → b = c.headD false) := by
  rw [allocateFrom, isMessagePosition]
  by_cases hK : code.kSet.contains m = true
  · have hmem : m ∈ code.kSet := List.contains_iff_mem.mp hK
    by_cases hP : code.pcSet.contains m = true
    · rw [if_pos hK, if_pos hP, hP, Bool.not_true, Bool.and_false]
      exact ⟨_, _, rfl, fun h => absurd hmem h, nofun⟩
    · rw [if_pos hK, if_neg hP, hK, Bool.eq_false_iff.mpr hP]
      exact ⟨_, _, rfl, fun h => absurd hmem h, fun _ => rfl⟩
  · rw [if_neg hK, Bool.eq_false_iff.mpr hK, Bool.false_and]
    exact ⟨_, _, rfl, fun _ => rfl, nofun⟩

theorem allocateFrom_getD_frozen (code : PolarCode) {ms : List Nat} {k : Nat} (hk : k < ms.length) (y : BitVec 5)
    (c : List Bit) (hm : ms[k] ∉ code.kSet) : (allocateFrom code ms y c).getD k false = false := by
  induction ms generalizing k y c with
  | nil => cases hk
  | cons m ms ih =>
    obtain ⟨b, y', heq, hfrozen, -⟩ := allocateFrom_cons code m ms y c
    rw [heq]
    cases k with
    | zero => exact hfrozen hm
    | succ k => exact ih (Nat.lt_of_succ_lt_succ hk) _ _ hm

/-- A message position takes the next message bit: as many are placed before it as there are message positions. -/
theorem allocateFrom_getD_message (code : PolarCode) {ms : List Nat} {k : Nat} (hk : k < ms.length) (y : BitVec 5)
    (c : List Bit) (hm : isMessagePosition code ms[k] = true) :
    (allocateFrom code ms y c).getD k false = c.getD ((ms.take k).countP (isMessagePosition code)) false := by
  induction ms generalizing k y c with
  | nil => cases hk
  | cons m ms ih =>
    obtain ⟨b, y', heq, -, hmessage⟩ := allocateFrom_cons code m ms y c
    rw [heq]
    cases k with
    | zero =>
      rw [List.getD_cons_zero, hmessage hm]
      cases c <;> rfl
    | succ k =>
      rw [List.getD_cons_succ, ih (Nat.lt_of_succ_lt_succ hk) _ _ hm, List.take_succ_cons, List.countP_cons]
      split_ifs
      · cases c <;> simp
      · rfl

theorem chanallocTx_getD_frozen (code : PolarCode) (c : List Bit) {m : Nat} (hm : m < code.N) (hK : m ∉ code.kSet) :
    (chanallocTx code c).getD m false = false :=
  allocateFrom_getD_frozen code (by simpa using hm) _ _ (by simpa using hK)

theorem chanallocTx_getD_message (code : PolarCode) (c : List Bit) {m : Nat} (hm : m < code.N)
    (hmsg : isMessagePosition code m = true) :
    (chanallocTx code c).getD m false = c.getD ((List.range m).countP (isMessagePosition code)) false := by
  rw [chanallocTx, allocateFrom_getD_message code (by simpa using hm) _ _ (by simpa using hmsg), List.take_range,
    Nat.min_eq_left hm.le]

/-! ## The round trip -/

/-- The members of a range with a property, each with the number of those before it, count from 0. -/
theorem map_countP_filter_range {α : Type} (f : Nat → α) (p : Nat → Bool) (n : Nat) :
    ((List.range n).filter p).map (fun m => f ((List.range m).countP p)) =
      (List.range ((List.range n).countP p)).map f := by
  induction n with
  | zero => rfl
  | succ n ih =>
    rw [List.range_succ, List.filter_append, List.map_append, ih, List.countP_append]
    by_cases h : p n = true
    · simp [h, List.range_succ]
    · simp [h]

theorem map_range_getD (c : List Bit) : (List.range c.length).map (fun i => c.getD i false) = c := by
  apply List.ext_getElem
  · simp
  · intro i _ h
    rw [List.getElem_map, List.getElem_range, List.getD_eq_getElem _ _ h]

/-- The inverse reads the message positions alone. -/
theorem chanallocRx_congr {code : PolarCode} {u v : List Bit} (h : ∀ m ∈ code.kSet, u.getD m false = v.getD m false) :
    chanallocRx code u = chanallocRx code v :=
  List.map_congr_left fun m hm => h m (List.mem_of_mem_filter hm)

theorem chanallocRx_chanallocTx {code : PolarCode} {c : List Bit} (hcode : codeAccepted code.K 10 code = true)
    (hc : c.length = code.K) : chanallocRx code (chanallocTx code c) = c := by
  have hok := (acceptedCode_of_codeAccepted hcode).1
  have hcount : (List.range code.N).countP (isMessagePosition code) = c.length := by
    rw [List.countP_eq_length_filter, ← messagePositions_eq hok, messagePositions_length hcode, hc]
  calc chanallocRx code (chanallocTx code c)
      = ((List.range code.N).filter (isMessagePosition code)).map fun m =>
          c.getD ((List.range m).countP (isMessagePosition code)) false := by
        rw [chanallocRx, messagePositions_eq hok]
        refine List.map_congr_left fun m hm => ?_
        obtain ⟨hlt, hmsg⟩ := List.mem_filter.mp hm
        exact chanallocTx_getD_message code c (List.mem_range.mp hlt) hmsg
    _ = (List.range c.length).map fun i => c.getD i false := by rw [map_countP_filter_range (c.getD · false), hcount]
    _ = c := map_range_getD c

/-- Settles O42: the `i`-th message position carries message bit `i`, and no other position is read back. -/
theorem channelAllocationRoundTrip : Obligations.ChannelAllocationRoundTrip := by
  refine fun code c hcode hc => ⟨chanallocRx_chanallocTx hcode hc, chanallocTx_length code c, fun m hm => ?_⟩
  obtain ⟨hlt, hK⟩ := ((acceptedCode_of_codeAccepted hcode).1.frozen_iff m).mp hm
  exact chanallocTx_getD_frozen code c hlt hK

end Sys2Proof.Machine
end

section
/-! PROOFS. The CRC as a polynomial remainder (44_polar_code.md R240). -/

namespace Sys2Proof.Machine

open Polynomial

/-! ## Numbers as polynomials over GF(2) -/

/-- The polynomial with the low `w` bits of a number as coefficients. -/
noncomputable def bitPoly (w n : Nat) : (ZMod 2)[X] := ∑ i ∈ Finset.range w, if n.testBit i then X ^ i else 0

/-- The polynomial of a bit sequence, its first bit the coefficient of the highest power. -/
noncomputable def seqPoly (m : List Bit) : (ZMod 2)[X] :=
  ∑ i ∈ Finset.range m.length, if m.getD i false then X ^ (m.length - 1 - i) else 0

theorem bitPoly_xor (w a b : Nat) : bitPoly w (a ^^^ b) = bitPoly w a + bitPoly w b := by
  rw [bitPoly, bitPoly, bitPoly, ← Finset.sum_add_distrib]
  refine Finset.sum_congr rfl fun i _ => ?_
  rw [Nat.testBit_xor]
  cases a.testBit i <;> cases b.testBit i <;> simp [CharTwo.add_self_eq_zero]

/-- The top coefficient stands apart. -/
theorem bitPoly_succ (w n : Nat) : bitPoly (w + 1) n = bitPoly w n + if n.testBit w then X ^ w else 0 :=
  Finset.sum_range_succ _ w

theorem bitPoly_succ_of_lt {w n : Nat} (h : n < 2 ^ w) : bitPoly (w + 1) n = bitPoly w n := by
  rw [bitPoly_succ, Nat.testBit_lt_two_pow h]
  simp

/-- Shifting a bit in multiplies by the unknown. -/
theorem bitPoly_shift (w n : Nat) (b : Bit) :
    bitPoly (w + 1) (n * 2 + bitNum b) = X * bitPoly w n + if b then 1 else 0 := by
  have hzero : (n * 2 + bitNum b).testBit 0 = b := by cases b <;> simp [Nat.testBit_zero]
  have hsucc (i : Nat) : (n * 2 + bitNum b).testBit (i + 1) = n.testBit i := by
    have hdiv : (n * 2 + bitNum b) / 2 = n := by
      have hbit : bitNum b < 2 := by cases b <;> decide
      omega
    rw [Nat.testBit_succ, hdiv]
  rw [bitPoly, Finset.sum_range_succ', hzero, pow_zero, bitPoly, Finset.mul_sum]
  congr 1
  refine Finset.sum_congr rfl fun i _ => ?_
  rw [hsucc, mul_ite, mul_zero, pow_succ']

theorem degree_bitPoly_lt (w n : Nat) : (bitPoly w n).degree < w := by
  rw [bitPoly, Polynomial.degree_lt_iff_coeff_zero]
  intro k hk
  rw [Polynomial.finsetSum_coeff]
  refine Finset.sum_eq_zero fun i hi => ?_
  have hne : k ≠ i := (Finset.mem_range.mp hi).trans_le hk |>.ne'
  split_ifs
  · rw [Polynomial.coeff_X_pow, if_neg hne]
  · exact Polynomial.coeff_zero k

theorem seqPoly_cons (b : Bit) (m : List Bit) : seqPoly (b :: m) = (if b then X ^ m.length else 0) + seqPoly m := by
  rw [seqPoly, List.length_cons, Finset.sum_range_succ', add_comm]
  congr 1
  refine Finset.sum_congr rfl fun i _ => ?_
  rw [List.getD_cons_succ, Nat.add_sub_cancel, Nat.sub_sub, Nat.add_comm 1 i]

/-- Zero bits behind a sequence raise every power. -/
theorem seqPoly_append_zeros (m : List Bit) (l : Nat) : seqPoly (m ++ List.replicate l false) = X ^ l * seqPoly m := by
  induction m with
  | nil =>
    have hzero (i : Nat) : (List.replicate l false).getD i false = false := by
      rw [List.getD_eq_getElem?_getD, List.getElem?_replicate]
      split_ifs <;> rfl
    simp only [List.nil_append, seqPoly, hzero, Bool.false_eq_true, if_false, Finset.sum_const_zero, List.length_nil,
      Finset.range_zero, Finset.sum_empty, mul_zero]
  | cons b m ih =>
    rw [List.cons_append, seqPoly_cons, seqPoly_cons, ih, List.length_append, List.length_replicate, mul_add, mul_ite,
      mul_zero, pow_add, mul_comm (X ^ l) (X ^ m.length)]

/-! ## The division register -/

section
variable {poly l : Nat} (hpoly : poly / 2 ^ l = 1)
include hpoly

theorem generator_bounds : 2 ^ l ≤ poly ∧ poly < 2 ^ (l + 1) := by
  have hpos := Nat.two_pow_pos l
  have hdiv := Nat.div_add_mod poly (2 ^ l)
  have hmod := Nat.mod_lt poly hpos
  rw [hpoly] at hdiv
  rw [pow_succ]
  omega

theorem generator_testBit : poly.testBit l = true := by
  rw [Nat.testBit_eq_decide_div_mod_eq, hpoly]
  rfl

theorem generator_monic : (bitPoly (l + 1) poly).Monic := by
  rw [bitPoly_succ, generator_testBit hpoly, if_pos rfl, add_comm]
  exact Polynomial.monic_X_pow_add (degree_bitPoly_lt l poly)

theorem generator_degree : (bitPoly (l + 1) poly).degree = l := by
  rw [bitPoly_succ, generator_testBit hpoly, if_pos rfl, add_comm]
  rw [Polynomial.degree_add_eq_left_of_degree_lt] <;> rw [Polynomial.degree_X_pow]
  exact degree_bitPoly_lt l poly

/-- One step of the register: it stays below its top bit, and holds what it held times the unknown, plus the bit, but
for a multiple of the generator. -/
theorem crcStep_spec {reg : Nat} (hreg : reg < 2 ^ l) (b : Bit) :
    crcStep poly l reg b < 2 ^ l ∧
      ∃ q, bitPoly l (crcStep poly l reg b) + bitPoly (l + 1) poly * q = X * bitPoly l reg + if b then 1 else 0 := by
  have hbit : bitNum b < 2 := by cases b <;> decide
  have hlt : reg * 2 + bitNum b < 2 ^ (l + 1) := by rw [pow_succ]; omega
  rw [crcStep, Nat.mod_eq_of_lt hlt, ← bitPoly_shift]
  generalize reg * 2 + bitNum b = shifted at *
  by_cases htop : shifted.testBit l = true
  · have hxor : shifted ^^^ poly < 2 ^ l := by
      refine Nat.lt_pow_two_of_testBit _ fun i hi => ?_
      rw [Nat.testBit_xor]
      rcases hi.eq_or_lt with rfl | hi
      · rw [htop, generator_testBit hpoly, Bool.xor_self]
      · have hpow : 2 ^ (l + 1) ≤ 2 ^ i := Nat.pow_le_pow_right (by decide) hi
        rw [Nat.testBit_lt_two_pow (hlt.trans_le hpow),
          Nat.testBit_lt_two_pow ((generator_bounds hpoly).2.trans_le hpow), Bool.xor_self]
    rw [if_pos htop]
    refine ⟨hxor, 1, ?_⟩
    rw [← bitPoly_succ_of_lt hxor, bitPoly_xor, mul_one, add_assoc, CharTwo.add_self_eq_zero, add_zero]
  · have hlow : shifted < 2 ^ l := by
      refine Nat.lt_pow_two_of_testBit _ fun i hi => ?_
      rcases hi.eq_or_lt with rfl | hi
      · exact Bool.eq_false_iff.mpr htop
      · exact Nat.testBit_lt_two_pow (hlt.trans_le (Nat.pow_le_pow_right (by decide) hi))
    rw [if_neg htop]
    exact ⟨hlow, 0, by rw [mul_zero, add_zero, bitPoly_succ_of_lt hlow]⟩

/-- The register after a sequence of bits is the polynomial of all bits so far but for a multiple of the generator. -/
theorem crcStep_foldl_spec (m : List Bit) {reg : Nat} (hreg : reg < 2 ^ l) :
    m.foldl (crcStep poly l) reg < 2 ^ l ∧
      ∃ q, bitPoly l (m.foldl (crcStep poly l) reg) + bitPoly (l + 1) poly * q =
        X ^ m.length * bitPoly l reg + seqPoly m := by
  induction m generalizing reg with
  | nil => exact ⟨hreg, 0, by simp [seqPoly]⟩
  | cons b m ih =>
    obtain ⟨hlt, q, hq⟩ := crcStep_spec hpoly hreg b
    obtain ⟨hend, q', hq'⟩ := ih hlt
    refine ⟨hend, q' + X ^ m.length * q, ?_⟩
    have hb : (if b then X ^ m.length else 0 : (ZMod 2)[X]) = X ^ m.length * if b then 1 else 0 := by cases b <;> simp
    rw [List.foldl_cons, List.length_cons, seqPoly_cons, hb]
    linear_combination hq' + X ^ m.length * hq

/-- The checksum is the remainder of the message polynomial times `D^l` (R240). -/
theorem crcChecksum_spec (m : List Bit) :
    crcChecksum poly l m < 2 ^ l ∧
      (X ^ l * seqPoly m) %ₘ bitPoly (l + 1) poly = bitPoly l (crcChecksum poly l m) := by
  obtain ⟨hlt, q, hq⟩ := crcStep_foldl_spec hpoly (m ++ List.replicate l false) (Nat.two_pow_pos l)
  have hzero : bitPoly l 0 = 0 := by simp [bitPoly]
  rw [seqPoly_append_zeros, hzero, mul_zero, zero_add] at hq
  refine ⟨hlt, (Polynomial.div_modByMonic_unique q _ (generator_monic hpoly) ⟨hq, ?_⟩).2⟩
  rw [generator_degree hpoly]
  exact degree_bitPoly_lt l _

end

/-- Settles O43: each step of the register multiplies by `D` and adds the next bit modulo the generator, and a remainder
is the only residue of its degree. -/
theorem crcIsThePolynomialRemainder : Obligations.CrcIsThePolynomialRemainder := by
  refine ⟨fun poly l m hpoly => ?_, rfl, rfl⟩
  obtain ⟨hlt, hrem⟩ := crcChecksum_spec hpoly m
  refine ⟨hlt, ?_⟩
  have hshift : X ^ l * seqPoly m =
      ∑ i ∈ Finset.range m.length, if m.getD i false then X ^ (m.length - 1 - i + l) else 0 := by
    simp only [seqPoly, Finset.mul_sum, mul_ite, mul_zero, ← pow_add, Nat.add_comm l]
  rw [hshift] at hrem
  exact hrem

end Sys2Proof.Machine
end

section
/-! PROOFS. The two interleavers of the rate matcher are permutations (44_polar_code.md R217, R234, R236), and the place
at which the triangle is read. -/

namespace Sys2Proof.Machine

/-! ## The sub-block interleaver -/

/-- A map of `[0, n)` into itself that keeps its elements apart is a permutation of it. -/
theorem map_range_perm {n : Nat} {f : Nat → Nat} (hlt : ∀ m, m < n → f m < n)
    (hinj : ∀ m m', m < n → m' < n → f m = f m' → m = m') : ((List.range n).map f).Perm (List.range n) := by
  have hnodup : ((List.range n).map f).Nodup :=
    List.nodup_range.map_on fun m hm m' hm' h => hinj m m' (List.mem_range.mp hm) (List.mem_range.mp hm') h
  have hsub : (List.range n).map f ⊆ List.range n := fun k hk => by
    obtain ⟨m, hm, rfl⟩ := List.mem_map.mp hk
    exact List.mem_range.mpr (hlt m (List.mem_range.mp hm))
  exact (hnodup.subperm hsub).perm_of_length_le (by simp)

/-- A code of `2^n` bits has 32 blocks of `2^(n-5)`; block `b` moves to place `P(b)` and keeps its inner order. -/
theorem subblockIndex_two_pow (p : Params) {n : Nat} (hn : 5 ≤ n) (m : Nat) :
    subblockIndex p (2 ^ n) m = 2 ^ (n - 5) * p.subblockP.getD (m / 2 ^ (n - 5)) 0 + m % 2 ^ (n - 5) := by
  have hpow : 2 ^ n = 32 * 2 ^ (n - 5) := by
    rw [show (32 : Nat) = 2 ^ 5 from rfl, ← pow_add, Nat.add_sub_cancel' hn]
  have hpos := Nat.two_pow_pos (n - 5)
  rw [subblockIndex, hpow, Nat.mul_div_mul_left _ _ (by decide), Nat.mul_div_cancel_left _ (by decide), Nat.mul_comm]

theorem block_lt {n m : Nat} (hn : 5 ≤ n) (hm : m < 2 ^ n) : m / 2 ^ (n - 5) < 32 := by
  rw [Nat.div_lt_iff_lt_mul (Nat.two_pow_pos _), show (32 : Nat) = 2 ^ 5 from rfl, ← pow_add, Nat.add_sub_cancel' hn]
  exact hm

section
variable {p : Params} {n : Nat} (hP : p.subblockP.Perm (List.range 32))
include hP

theorem subblockP_getD_lt {b : Nat} (hb : b < 32) : p.subblockP.getD b 0 < 32 := by
  have hlen : b < p.subblockP.length := by rw [hP.length_eq, List.length_range]; exact hb
  rw [List.getD_eq_getElem _ _ hlen, ← List.mem_range, ← hP.mem_iff]
  exact List.getElem_mem hlen

theorem subblockP_getD_injective {b b' : Nat} (hb : b < 32) (hb' : b' < 32)
    (h : p.subblockP.getD b 0 = p.subblockP.getD b' 0) : b = b' := by
  have hlen : p.subblockP.length = 32 := by rw [hP.length_eq, List.length_range]
  rw [List.getD_eq_getElem _ _ (hlen ▸ hb), List.getD_eq_getElem _ _ (hlen ▸ hb')] at h
  exact (hP.nodup_iff.mpr List.nodup_range).getElem_inj_iff.mp h

variable (hn : 5 ≤ n)
include hn

theorem subblockIndex_lt {m : Nat} (hm : m < 2 ^ n) : subblockIndex p (2 ^ n) m < 2 ^ n := by
  have hblock := subblockP_getD_lt hP (block_lt hn hm)
  have hlow := Nat.mod_lt m (Nat.two_pow_pos (n - 5))
  rw [subblockIndex_two_pow p hn]
  calc 2 ^ (n - 5) * p.subblockP.getD (m / 2 ^ (n - 5)) 0 + m % 2 ^ (n - 5)
      < 2 ^ (n - 5) * (p.subblockP.getD (m / 2 ^ (n - 5)) 0 + 1) := by rw [Nat.mul_succ]; omega
    _ ≤ 2 ^ (n - 5) * 2 ^ 5 := Nat.mul_le_mul_left _ hblock
    _ = 2 ^ n := by rw [← pow_add, Nat.sub_add_cancel hn]

theorem subblockIndex_injective {m m' : Nat} (hm : m < 2 ^ n) (hm' : m' < 2 ^ n)
    (h : subblockIndex p (2 ^ n) m = subblockIndex p (2 ^ n) m') : m = m' := by
  have hpos := Nat.two_pow_pos (n - 5)
  rw [subblockIndex_two_pow p hn, subblockIndex_two_pow p hn] at h
  have hhigh := congrArg (· / 2 ^ (n - 5)) h
  have hlow := congrArg (· % 2 ^ (n - 5)) h
  simp only [Nat.mul_add_div hpos, Nat.div_eq_of_lt (Nat.mod_lt _ hpos), Nat.add_zero, Nat.mul_add_mod,
    Nat.mod_mod] at hhigh hlow
  have hblock := subblockP_getD_injective hP (block_lt hn hm) (block_lt hn hm') hhigh
  rw [← Nat.div_add_mod m (2 ^ (n - 5)), hblock, hlow, Nat.div_add_mod]

theorem subblockIndex_perm : ((List.range (2 ^ n)).map (subblockIndex p (2 ^ n))).Perm (List.range (2 ^ n)) :=
  map_range_perm (fun _ => subblockIndex_lt hP hn) fun _ _ => subblockIndex_injective hP hn

theorem exists_subblockIndex_eq {j : Nat} (hj : j < 2 ^ n) : ∃ m, m < 2 ^ n ∧ subblockIndex p (2 ^ n) m = j := by
  have hmem := (subblockIndex_perm hP hn).mem_iff.mpr (List.mem_range.mpr hj)
  simpa using hmem

end

/-! ## The triangle -/

/-- The number the model gives a cell of the triangle is the number of cells filled before it (R236). -/
theorem cellNumber_eq {t i : Nat} (hi : i ≤ t) (j : Nat) : cellNumber t i j = triangleRowStart t i + j := by
  rw [cellNumber]
  congr 1
  induction i with
  | zero => simp [triangleRowStart]
  | succ i ih => rw [triangleRowStart_succ hi, ← ih (by omega), List.range_succ]; simp

theorem triangleRowStart_self (t : Nat) : triangleRowStart t t = t * (t + 1) / 2 := by
  cases t with
  | zero => rfl
  | succ t =>
    have h1 : (t + 1) * (t + 1) = (t + 1) * t + (t + 1) := by ring
    have h2 : (t + 1) * (t + 1 + 1) = (t + 1) * t + 2 * (t + 1) := by ring
    have heven : (t + 1) * t % 2 = 0 := by
      rw [Nat.mul_comm]
      exact Nat.even_iff.mp (Nat.even_mul_succ_self t)
    rw [triangleRowStart, Nat.add_sub_cancel, h1, h2]
    omega

theorem LeastTriangle.unique {e t t' : Nat} (h : LeastTriangle e t) (h' : LeastTriangle e t') : t = t' := by
  rcases Nat.lt_trichotomy t t' with hlt | heq | hlt
  · exact absurd (h'.2 t hlt) (Nat.not_lt.mpr h.1)
  · exact heq
  · exact absurd (h.2 t' hlt) (Nat.not_lt.mpr h'.1)

theorem le_triangle (e : Nat) : e ≤ e * (e + 1) / 2 := by
  rw [Nat.le_div_iff_mul_le (by decide)]
  cases e with
  | zero => rfl
  | succ e => exact Nat.mul_le_mul_left _ (by omega)

/-- The search finds the first size that is large enough, if it starts below it and goes on long enough. -/
theorem triangleFrom_least {e t : Nat} (fuel : Nat) (hbelow : ∀ t', t' < t → t' * (t' + 1) / 2 < e)
    (hend : e ≤ (t + fuel) * (t + fuel + 1) / 2) : LeastTriangle e (triangleFrom e fuel t) := by
  induction fuel generalizing t with
  | zero => exact ⟨hend, hbelow⟩
  | succ fuel ih =>
    rw [triangleFrom]
    split_ifs with h
    · exact ⟨h, hbelow⟩
    · refine ih (fun t' ht' => ?_) (by rwa [Nat.add_right_comm])
      rcases (Nat.lt_succ_iff.mp ht').eq_or_lt with rfl | hlt
      · exact Nat.lt_of_not_le h
      · exact hbelow t' hlt

theorem triangleSize_least (e : Nat) : LeastTriangle e (triangleSize e) :=
  triangleFrom_least e (fun _ h => absurd h (Nat.not_lt_zero _)) (by rw [Nat.zero_add]; exact le_triangle e)

/-- Every number below the start of a row stands in a row before it. -/
theorem exists_row {t k n : Nat} (hn : n ≤ t) (hk : k < triangleRowStart t n) :
    ∃ i, i < n ∧ triangleRowStart t i ≤ k ∧ k < triangleRowStart t (i + 1) := by
  induction n with
  | zero => simp [triangleRowStart] at hk
  | succ n ih =>
    rcases Nat.lt_or_ge k (triangleRowStart t n) with hlt | hge
    · obtain ⟨i, hi, h⟩ := ih (by omega) hlt
      exact ⟨i, by omega, h⟩
    · exact ⟨n, by omega, hge, hk⟩

/-- The filled cells of the triangle in the order they are read: column by column, each from the top (R236). -/
def readCells (t e : Nat) : List (Nat × Nat) :=
  (List.range t).flatMap fun j =>
    ((List.range (t - j)).filter fun i => decide (triangleRowStart t i + j < e)).map fun i => (i, j)

theorem mem_readCells {t e : Nat} {c : Nat × Nat} :
    c ∈ readCells t e ↔ c.1 + c.2 < t ∧ triangleRowStart t c.1 + c.2 < e := by
  obtain ⟨i, j⟩ := c
  simp only [readCells, List.mem_flatMap, List.mem_map, List.mem_filter, List.mem_range, decide_eq_true_eq,
    Prod.mk.injEq]
  constructor
  · rintro ⟨j', hj', i', ⟨hi', hlt⟩, rfl, rfl⟩
    exact ⟨by omega, hlt⟩
  · rintro ⟨hij, hlt⟩
    exact ⟨j, by omega, i, ⟨by omega, hlt⟩, rfl, rfl⟩

theorem triangleSrc_eq (e : Nat) :
    triangleSrc e = (readCells (triangleSize e) e).map fun c => triangleRowStart (triangleSize e) c.1 + c.2 := by
  simp only [triangleSrc, readCells, List.map_flatMap, List.filter_map, List.map_map]
  rfl

theorem mem_triangleSrc {e k : Nat} : k ∈ triangleSrc e ↔ k < e := by
  rw [triangleSrc_eq, List.mem_map]
  constructor
  · rintro ⟨c, hc, rfl⟩
    exact (mem_readCells.mp hc).2
  · intro hk
    have hsize := (triangleSize_least e).1
    generalize triangleSize e = t at *
    rw [← triangleRowStart_self] at hsize
    obtain ⟨i, hi, hlow, hhigh⟩ := exists_row le_rfl (hk.trans_le hsize)
    rw [triangleRowStart_succ hi] at hhigh
    exact ⟨(i, k - triangleRowStart t i), mem_readCells.mpr ⟨by dsimp only; omega, by dsimp only; omega⟩,
      by dsimp only; omega⟩

theorem triangleSrc_perm (e : Nat) : (triangleSrc e).Perm (List.range e) := by
  rw [List.perm_ext_iff_of_nodup (triangleSrc_nodup e) List.nodup_range]
  intro k
  rw [mem_triangleSrc, List.mem_range]

@[simp] theorem triangleSrc_length (e : Nat) : (triangleSrc e).length = e := by
  rw [(triangleSrc_perm e).length_eq, List.length_range]

/-- Settles O44: blocks move as the pattern says and keep their inner order; every number below `E` has its cell. -/
theorem interleaversArePermutations : Obligations.InterleaversArePermutations :=
  ⟨fun _ _ hP hn => subblockIndex_perm hP hn, triangleSrc_perm⟩

/-! ## The place of a cell -/

/-- One cell is read before another: it stands in an earlier column, or above it in the same one. -/
def ReadBefore (c c' : Nat × Nat) : Prop := c.2 < c'.2 ∨ (c.2 = c'.2 ∧ c.1 < c'.1)

theorem readCells_pairwise (t e : Nat) : (readCells t e).Pairwise ReadBefore := by
  rw [readCells, List.pairwise_flatMap]
  constructor
  · intro j _
    rw [List.pairwise_map]
    exact (List.pairwise_lt_range.filter _).imp fun h => .inr ⟨rfl, h⟩
  · refine List.pairwise_lt_range.imp fun {j j'} hlt c hc c' hc' => .inl ?_
    obtain ⟨i, -, rfl⟩ := List.mem_map.mp hc
    obtain ⟨i', -, rfl⟩ := List.mem_map.mp hc'
    exact hlt

/-- In a list ordered by an asymmetric relation the place of a member is the number of members before it. -/
theorem getElem?_countP_of_pairwise {α : Type} {r : α → α → Prop} [DecidableRel r] (hasymm : ∀ a b, r a b → ¬r b a)
    {l : List α} (hl : l.Pairwise r) {a : α} (ha : a ∈ l) : l[l.countP fun b => decide (r b a)]? = some a := by
  induction l with
  | nil => cases ha
  | cons b l ih =>
    obtain ⟨hafter, hrest⟩ := List.pairwise_cons.mp hl
    rcases List.mem_cons.mp ha with rfl | ha
    · have hself : ¬r a a := fun h => hasymm a a h h
      have hnone : l.countP (fun b => decide (r b a)) = 0 := by
        rw [List.countP_eq_zero]
        exact fun b hb => by simpa using hasymm a b (hafter b hb)
      rw [List.countP_cons, hnone, decide_eq_false hself]
      rfl
    · rw [List.countP_cons, decide_eq_true (hafter a ha), if_pos rfl, List.getElem?_cons_succ]
      exact ih hrest ha

/-- The place at which a cell is read counts the filled cells read before it (R236). -/
theorem countP_readCells (t e i j : Nat) [DecidableRel ReadBefore] :
    ((readCells t e).countP fun c => decide (ReadBefore c (i, j))) = cellPlace t e i j := by
  have hnodup : (readCells t e).Nodup := (readCells_pairwise t e).imp fun {c c'} h heq => by
    subst heq
    unfold ReadBefore at h
    omega
  rw [List.countP_eq_length_filter, ← List.toFinset_card_of_nodup (hnodup.filter _), cellPlace]
  congr 1
  ext c
  simp only [List.mem_toFinset, List.mem_filter, mem_readCells, decide_eq_true_eq, Finset.mem_filter,
    Finset.mem_product, Finset.mem_range]
  rw [ReadBefore]
  constructor
  · rintro ⟨⟨hsum, hlt⟩, hbefore⟩
    exact ⟨by omega, hsum, by rwa [cellNumber_eq (by omega)], hbefore⟩
  · rintro ⟨hc, hsum, hlt, hbefore⟩
    rw [cellNumber_eq (by omega)] at hlt
    exact ⟨⟨hsum, hlt⟩, hbefore⟩

/-- The triangular interleaver reads each filled cell at its place (R236). -/
theorem triangleSrc_getElem?_cellPlace {e t i j : Nat} (ht : LeastTriangle e t) (hij : i + j < t)
    (hlt : cellNumber t i j < e) : (triangleSrc e)[cellPlace t e i j]? = some (cellNumber t i j) := by
  classical
  obtain rfl := ht.unique (triangleSize_least e)
  have hnumber := cellNumber_eq (t := triangleSize e) (i := i) (by omega) j
  have hmem : (i, j) ∈ readCells (triangleSize e) e := mem_readCells.mpr ⟨hij, hnumber ▸ hlt⟩
  have hplace := getElem?_countP_of_pairwise (fun c c' h h' => by unfold ReadBefore at h h'; omega)
    (readCells_pairwise _ e) hmem
  rw [countP_readCells] at hplace
  rw [triangleSrc_eq, List.getElem?_map, hplace, hnumber]
  rfl

end Sys2Proof.Machine
end

section
/-! PROOFS. The inverse rate matcher (44_polar_code.md R238, R239): its values element by element, and what it makes of
a noiseless image of the rate matcher's output. -/

namespace Sys2Proof.Machine

/-! ## Scattering values -/

theorem foldl_set_length (xs : List (Nat × Int)) (acc : List Int) :
    (xs.foldl (fun acc x => acc.set x.1 x.2) acc).length = acc.length := by
  induction xs generalizing acc with
  | nil => rfl
  | cons x xs ih => rw [List.foldl_cons, ih, List.length_set]

theorem foldl_set_of_notMem {xs : List (Nat × Int)} {i : Nat} (h : i ∉ xs.map Prod.fst) (acc : List Int) :
    (xs.foldl (fun acc x => acc.set x.1 x.2) acc)[i]? = acc[i]? := by
  induction xs generalizing acc with
  | nil => rfl
  | cons x xs ih =>
    rw [List.map_cons, List.mem_cons, not_or] at h
    rw [List.foldl_cons, ih h.2, List.getElem?_set_ne (Ne.symm h.1)]

/-- Where all places differ, each value ends up at its place. -/
theorem foldl_set_of_mem {xs : List (Nat × Int)} {i : Nat} {v : Int} (hnodup : (xs.map Prod.fst).Nodup)
    (hmem : (i, v) ∈ xs) {acc : List Int} (hi : i < acc.length) :
    (xs.foldl (fun acc x => acc.set x.1 x.2) acc)[i]? = some v := by
  induction xs generalizing acc with
  | nil => cases hmem
  | cons x xs ih =>
    obtain ⟨hfresh, hrest⟩ := List.nodup_cons.mp hnodup
    rw [List.foldl_cons]
    rcases List.mem_cons.mp hmem with rfl | hmem
    · rw [foldl_set_of_notMem hfresh, List.getElem?_set_self hi]
    · exact ih hrest hmem (by rwa [List.length_set])

theorem foldl_set_forall {P : Int → Prop} {xs : List (Nat × Int)} (hxs : ∀ x ∈ xs, P x.2) {acc : List Int}
    (hacc : ∀ v ∈ acc, P v) : ∀ v ∈ xs.foldl (fun acc x => acc.set x.1 x.2) acc, P v := by
  induction xs generalizing acc with
  | nil => exact hacc
  | cons x xs ih =>
    rw [List.forall_mem_cons] at hxs
    refine ih hxs.2 fun v hv => ?_
    rcases List.mem_or_eq_of_mem_set hv with hv | rfl
    · exact hacc v hv
    · exact hxs.1

@[simp] theorem scatter_length (len : Nat) (init : Int) (idx : List Nat) (vs : List Int) :
    (scatter len init idx vs).length = len := by
  rw [scatter, foldl_set_length, List.length_replicate]

theorem scatter_getElem? {len k : Nat} {init : Int} {idx : List Nat} {vs : List Int} (hperm : idx.Perm (List.range len))
    (hvs : vs.length = len) (hk : k < idx.length) : (scatter len init idx vs)[idx[k]]? = vs[k]? := by
  have hlen : idx.length = len := by rw [hperm.length_eq, List.length_range]
  have hnodup : ((List.zip idx vs).map Prod.fst).Nodup := by
    rw [List.map_fst_zip (by omega)]
    exact hperm.nodup_iff.mpr List.nodup_range
  have hlt : idx[k] < len := List.mem_range.mp (hperm.mem_iff.mp (List.getElem_mem hk))
  have hkv : k < vs.length := by omega
  have hmem : (idx[k], vs[k]) ∈ List.zip idx vs :=
    List.mem_iff_getElem.mpr ⟨k, by rw [List.length_zip]; omega, List.getElem_zip⟩
  rw [scatter, foldl_set_of_mem hnodup hmem (by rwa [List.length_replicate]), List.getElem?_eq_getElem hkv]

theorem scatter_forall {P : Int → Prop} {len : Nat} {init : Int} {idx : List Nat} {vs : List Int} (hinit : P init)
    (hvs : ∀ v ∈ vs, P v) : ∀ v ∈ scatter len init idx vs, P v := by
  refine foldl_set_forall (fun x hx => hvs x.2 (List.of_mem_zip hx).2) fun v hv => ?_
  rw [List.eq_of_mem_replicate hv]
  exact hinit

/-! ## The triangular interleaver undone -/

/-- The soft values with the coded-bit interleaver undone (R238). -/
def deinterleave (x : List Int) : List Int := scatter x.length 0 (triangleSrc x.length) x

theorem rateDematch_eq (p : Params) (code : PolarCode) (x : List Int) :
    rateDematch p code x =
      scatter code.N 0 ((List.range code.N).map (subblockIndex p code.N)) (deselect p code (deinterleave x)) := rfl

@[simp] theorem deinterleave_length (x : List Int) : (deinterleave x).length = x.length := scatter_length _ _ _ _

theorem deinterleave_getElem? {x : List Int} {k q : Nat} (h : (triangleSrc x.length)[k]? = some q) :
    (deinterleave x)[q]? = x[k]? := by
  obtain ⟨hk, rfl⟩ := List.getElem?_eq_some_iff.mp h
  exact scatter_getElem? (triangleSrc_perm _) rfl hk

/-- Undoing the interleaver gives values read through it back in order. -/
theorem deinterleave_map (e : Nat) (f : Nat → Int) : deinterleave ((triangleSrc e).map f) = (List.range e).map f := by
  have hlen : ((triangleSrc e).map f).length = e := by simp
  apply List.ext_getElem?
  intro q
  rcases Nat.lt_or_ge q e with hq | hq
  · obtain ⟨k, hk, hsrc⟩ := List.getElem_of_mem (mem_triangleSrc.mpr hq)
    have hplace : (triangleSrc ((triangleSrc e).map f).length)[k]? = some q := by
      rw [hlen]
      exact List.getElem?_eq_some_iff.mpr ⟨hk, hsrc⟩
    rw [deinterleave_getElem? hplace, List.getElem?_map, List.getElem?_map, List.getElem?_eq_getElem hk, hsrc,
      List.getElem?_range hq]
  · rw [List.getElem?_eq_none (by simpa using hq), List.getElem?_eq_none (by simpa using hq)]

/-! ## Repeated positions -/

/-- The sum of the values at the indices congruent to `m`, with saturation after each, in increasing order (R238). -/
def repeatSum (p : Params) (n : Nat) (es : List Int) (m : Nat) : Int :=
  ((List.range es.length).filter fun k => decide (k % n = m)).foldl (fun v k => clampLlr p (v + es.getD k 0)) 0

theorem combineRepeats_concat (p : Params) (n : Nat) (es : List Int) (x : Int) :
    combineRepeats p n (es ++ [x]) =
      (combineRepeats p n es).set (es.length % n)
        (clampLlr p ((combineRepeats p n es).getD (es.length % n) 0 + x)) := by
  rw [combineRepeats, List.zipIdx_append, List.foldl_append, ← combineRepeats, Nat.zero_add]
  rfl

theorem repeatSum_concat (p : Params) (n : Nat) (es : List Int) (x : Int) (m : Nat) :
    repeatSum p n (es ++ [x]) m =
      if es.length % n = m then clampLlr p (repeatSum p n es m + x) else repeatSum p n es m := by
  have hold : ((List.range es.length).filter fun k => decide (k % n = m)).foldl
      (fun v k => clampLlr p (v + (es ++ [x]).getD k 0)) 0 = repeatSum p n es m := by
    refine List.foldl_ext _ _ _ fun v k hk => ?_
    rw [List.getD_append _ _ _ _ (List.mem_range.mp (List.mem_of_mem_filter hk))]
  rw [repeatSum, List.length_append, List.length_singleton, List.range_succ, List.filter_append, List.foldl_append,
    hold]
  by_cases h : es.length % n = m
  · rw [List.filter_singleton, decide_eq_true h, if_pos h]
    simp
  · rw [List.filter_singleton, decide_eq_false h, if_neg h]
    rfl

theorem combineRepeats_length (p : Params) (n : Nat) (es : List Int) : (combineRepeats p n es).length = n := by
  induction es using List.reverseRecOn with
  | nil => simp [combineRepeats]
  | append_singleton es x ih => rw [combineRepeats_concat, List.length_set, ih]

theorem combineRepeats_getD (p : Params) {n m : Nat} (hm : m < n) (es : List Int) :
    (combineRepeats p n es).getD m 0 = repeatSum p n es m := by
  induction es using List.reverseRecOn with
  | nil => simp [combineRepeats, repeatSum, List.getD_eq_getElem?_getD, hm]
  | append_singleton es x ih =>
    rw [combineRepeats_concat, repeatSum_concat]
    by_cases h : es.length % n = m
    · rw [if_pos h, h, ih, List.getD_eq_getElem?_getD, List.getElem?_set_self (by rwa [combineRepeats_length])]
      rfl
    · rw [if_neg h, ← ih, List.getD_eq_getElem?_getD, List.getElem?_set_ne h, List.getD_eq_getElem?_getD]

/-! ## Saturation -/

/-- A value within the saturation magnitude. -/
def Saturated (p : Params) (v : Int) : Prop := -(p.llrSat : Int) ≤ v ∧ v ≤ p.llrSat

theorem clampLlr_saturated (p : Params) (v : Int) : Saturated p (clampLlr p v) := by
  unfold Saturated clampLlr
  omega

theorem zero_saturated (p : Params) : Saturated p 0 := by
  unfold Saturated
  omega

theorem combineRepeats_saturated (p : Params) (n : Nat) (es : List Int) :
    ∀ v ∈ combineRepeats p n es, Saturated p v := by
  induction es using List.reverseRecOn with
  | nil =>
    intro v hv
    rw [List.eq_of_mem_replicate hv]
    exact zero_saturated p
  | append_singleton es x ih =>
    rw [combineRepeats_concat]
    intro v hv
    rcases List.mem_or_eq_of_mem_set hv with hv | rfl
    · exact ih v hv
    · exact clampLlr_saturated p _

theorem deselect_saturated {p : Params} (code : PolarCode) {es : List Int} (hes : ∀ v ∈ es, Saturated p v) :
    ∀ v ∈ deselect p code es, Saturated p v := by
  have hsat : Saturated p p.llrSat := by unfold Saturated; omega
  unfold deselect
  split
  · exact combineRepeats_saturated p _ _
  · intro v hv
    rcases List.mem_append.mp hv with hv | hv
    · rw [List.eq_of_mem_replicate hv]
      exact zero_saturated p
    · exact hes v hv
  · intro v hv
    rcases List.mem_append.mp hv with hv | hv
    · exact hes v hv
    · rw [List.eq_of_mem_replicate hv]
      exact hsat

theorem rateDematch_saturated {p : Params} (code : PolarCode) {x : List Int} (hx : ∀ v ∈ x, Saturated p v) :
    ∀ v ∈ rateDematch p code x, Saturated p v :=
  scatter_forall (zero_saturated p) (deselect_saturated code (scatter_forall (zero_saturated p) hx))

/-! ## Bit selection and its inverse, in the three modes -/

theorem matchMode_of_le {n k e : Nat} (h : n ≤ e) : matchMode n k e = .repetition := if_pos h

theorem matchMode_puncturing {n k e : Nat} (h : ¬n ≤ e) (hk : 16 * k ≤ 7 * e) : matchMode n k e = .puncturing := by
  rw [matchMode, if_neg h, if_pos hk]

theorem matchMode_shortening {n k e : Nat} (h : ¬n ≤ e) (hk : ¬16 * k ≤ 7 * e) : matchMode n k e = .shortening := by
  rw [matchMode, if_neg h, if_neg hk]

theorem deselect_length (p : Params) (code : PolarCode) (es : List Int) : (deselect p code es).length = code.N := by
  unfold deselect
  by_cases h : code.N ≤ es.length
  · rw [matchMode_of_le h]
    exact combineRepeats_length _ _ _
  · by_cases hk : 16 * code.K ≤ 7 * es.length
    · rw [matchMode_puncturing h hk]
      simp
      omega
    · rw [matchMode_shortening h hk]
      simp
      omega

/-- Element `m` of the values before the sub-block interleaver (R238). -/
theorem deselect_getD (p : Params) (code : PolarCode) (es : List Int) {m : Nat} (hm : m < code.N) :
    (deselect p code es).getD m 0 =
      if code.N ≤ es.length then repeatSum p code.N es m
      else if 16 * code.K ≤ 7 * es.length then
        if m < code.N - es.length then 0 else es.getD (m - (code.N - es.length)) 0
      else if m < es.length then es.getD m 0 else p.llrSat := by
  unfold deselect
  by_cases h : code.N ≤ es.length
  · rw [matchMode_of_le h, if_pos h]
    exact combineRepeats_getD p hm es
  · rw [if_neg h]
    by_cases hk : 16 * code.K ≤ 7 * es.length
    · rw [matchMode_puncturing h hk, if_pos hk]
      dsimp only
      split_ifs with hlow
      · rw [List.getD_append _ _ _ _ (by simpa using hlow), List.getD_replicate _ hlow]
      · rw [List.getD_append_right _ _ _ _ (by simpa using hlow), List.length_replicate]
    · rw [matchMode_shortening h hk, if_neg hk]
      dsimp only
      split_ifs with hlow
      · rw [List.getD_append _ _ _ _ hlow]
      · rw [List.getD_append_right _ _ _ _ (by omega), List.getD_replicate _ (by omega)]

/-! ## Element by element -/

/-- The soft value `g` gives the `q`-th selected bit of `d` (R235). -/
def selectedSoft (p : Params) (code : PolarCode) (e : Nat) (d : List Bit) (g : Bit → Int) (q : Nat) : Int :=
  g (d.getD (subblockIndex p code.N (bitSelect code.N code.K e q)) false)

theorem deinterleave_rateMatch (p : Params) (code : PolarCode) (e : Nat) (d : List Bit) (g : Bit → Int) :
    deinterleave ((rateMatch p code e d).map g) = (List.range e).map (selectedSoft p code e d g) := by
  rw [rateMatch, List.map_map]
  exact deinterleave_map e (selectedSoft p code e d g)

section
variable {p : Params} {code : PolarCode} (hP : p.subblockP.Perm (List.range 32)) (hN : code.N = 2 ^ code.n)
  (h5 : 5 ≤ code.n)
include hP hN h5

theorem rateDematch_getD (x : List Int) {m : Nat} (hm : m < code.N) :
    (rateDematch p code x).getD (subblockIndex p code.N m) 0 = (deselect p code (deinterleave x)).getD m 0 := by
  have hperm : ((List.range code.N).map (subblockIndex p code.N)).Perm (List.range code.N) := by
    rw [hN]
    exact subblockIndex_perm hP h5
  have hplace := scatter_getElem? (init := 0) hperm (deselect_length p code (deinterleave x)) (k := m)
    (by simpa using hm)
  rw [List.getElem_map, List.getElem_range] at hplace
  rw [rateDematch_eq, List.getD_eq_getElem?_getD, hplace, List.getD_eq_getElem?_getD]

theorem rateDematch_dematched (x : List Int) :
    Dematched p code x (fun q => (deinterleave x).getD q 0) (fun m => (deselect p code (deinterleave x)).getD m 0)
      (rateDematch p code x) where
  length := scatter_length _ _ _ _
  deinterleaved t i j ht hij hlt := by
    simp only [List.getD_eq_getElem?_getD, deinterleave_getElem? (triangleSrc_getElem?_cellPlace ht hij hlt)]
  combined m hm := by
    rw [deselect_getD p code _ hm, deinterleave_length, repeatSum, deinterleave_length]
    rfl
  placed m hm := rateDematch_getD hP hN h5 x hm

/-- The inverse rate matcher after the rate matcher, with a soft value `g b` for each transmitted bit `b`: repeated
values are added up, and the others come back at their positions (R239). -/
theorem rateDematch_rateMatch_getD (e : Nat) (d : List Bit) (g : Bit → Int) {m : Nat} (hm : m < code.N) :
    (rateDematch p code ((rateMatch p code e d).map g)).getD (subblockIndex p code.N m) 0 =
      if code.N ≤ e then
        ((List.range e).filter fun k => decide (k % code.N = m)).foldl
          (fun v _ => clampLlr p (v + g (d.getD (subblockIndex p code.N m) false))) 0
      else if 16 * code.K ≤ 7 * e then
        if m < code.N - e then 0 else g (d.getD (subblockIndex p code.N m) false)
      else if m < e then g (d.getD (subblockIndex p code.N m) false) else p.llrSat := by
  have hsoft {q : Nat} (hq : q < e) :
      ((List.range e).map (selectedSoft p code e d g)).getD q 0 = selectedSoft p code e d g q := by
    simp [List.getD_eq_getElem?_getD, hq]
  rw [rateDematch_getD hP hN h5 _ hm, deinterleave_rateMatch, deselect_getD p code _ hm, List.length_map,
    List.length_range]
  by_cases h : code.N ≤ e
  · rw [if_pos h, if_pos h, repeatSum, List.length_map, List.length_range]
    refine List.foldl_ext _ _ _ fun v k hk => ?_
    obtain ⟨hlt, hmod⟩ := List.mem_filter.mp hk
    rw [hsoft (List.mem_range.mp hlt)]
    simp only [selectedSoft, bitSelect, matchMode_of_le h, of_decide_eq_true hmod]
  · rw [if_neg h, if_neg h]
    by_cases hk : 16 * code.K ≤ 7 * e
    · rw [if_pos hk, if_pos hk]
      split_ifs with hlow
      · rfl
      · rw [hsoft (by omega)]
        simp only [selectedSoft, bitSelect, matchMode_puncturing h hk]
        rw [show m - (code.N - e) + code.N - e = m by omega]
    · rw [if_neg hk, if_neg hk]
      split_ifs with hlow
      · rw [hsoft hlow]
        simp only [selectedSoft, bitSelect, matchMode_shortening h hk]
      · rfl

end

/-! ## Noiseless values -/

theorem clampLlr_neg (p : Params) (v : Int) : clampLlr p (-v) = -clampLlr p v := by
  unfold clampLlr
  omega

/-- Adding positive values with saturation stays positive. -/
theorem foldl_clampLlr_pos {p : Params} {σ : Int} (hσ : 1 ≤ σ) (hsat : σ ≤ p.llrSat) (ks : List Nat) {v : Int}
    (hv : 0 ≤ v) (h : ks ≠ [] ∨ 0 < v) : 0 < ks.foldl (fun v _ => clampLlr p (v + σ)) v := by
  induction ks generalizing v with
  | nil => exact h.resolve_left fun hne => hne rfl
  | cons k ks ih =>
    have hpos : 0 < clampLlr p (v + σ) := by
      unfold clampLlr
      omega
    exact ih hpos.le (.inr hpos)

theorem foldl_clampLlr_neg (p : Params) (σ : Int) (ks : List Nat) (v : Int) :
    ks.foldl (fun v _ => clampLlr p (v + -σ)) (-v) = -ks.foldl (fun v _ => clampLlr p (v + σ)) v := by
  induction ks generalizing v with
  | nil => rfl
  | cons k ks ih => rw [List.foldl_cons, List.foldl_cons, ← ih, ← clampLlr_neg, neg_add]

/-- The sign of a soft value says the bit: positive for a 0, negative for a 1 (R246). -/
def SignOf (b : Bit) (v : Int) : Prop := (b = false → 0 < v) ∧ (b = true → v < 0)

/-- The noiseless soft value of magnitude `σ` of a bit, positive for a 0. -/
def noiseless (σ : Int) (b : Bit) : Int := if b then -σ else σ

theorem signOf_noiseless {σ : Int} (hσ : 1 ≤ σ) (b : Bit) : SignOf b (noiseless σ b) := by
  cases b <;> simp [SignOf, noiseless] <;> omega

theorem signOf_foldl_noiseless {p : Params} {σ : Int} (hσ : 1 ≤ σ) (hsat : σ ≤ p.llrSat) {ks : List Nat} (h : ks ≠ [])
    (b : Bit) : SignOf b (ks.foldl (fun v _ => clampLlr p (v + noiseless σ b)) 0) := by
  have hpos := foldl_clampLlr_pos hσ hsat ks le_rfl (.inl h)
  cases b with
  | false => exact ⟨fun _ => hpos, nofun⟩
  | true =>
    refine ⟨nofun, fun _ => ?_⟩
    have hneg := foldl_clampLlr_neg p σ ks 0
    rw [neg_zero] at hneg
    change ks.foldl (fun v _ => clampLlr p (v + -σ)) 0 < 0
    omega

section
variable {p : Params} {code : PolarCode} (hP : p.subblockP.Perm (List.range 32)) (hN : code.N = 2 ^ code.n)
  (h5 : 5 ≤ code.n)
include hP hN h5

/-- A noiseless image of the rate matcher's output comes back with the sign of every transmitted bit, with 0 at the
punctured and the saturation magnitude at the shortened positions (R239). -/
theorem rateDematch_noiseless {σ : Int} (hσ : 1 ≤ σ) (hsat : σ ≤ p.llrSat) (e : Nat) (d : List Bit) {m : Nat}
    (hm : m < code.N) :
    if code.N ≤ e ∨ (if 16 * code.K ≤ 7 * e then code.N - e ≤ m else m < e) then
      SignOf (d.getD (subblockIndex p code.N m) false)
        ((rateDematch p code ((rateMatch p code e d).map (noiseless σ))).getD (subblockIndex p code.N m) 0)
    else
      (rateDematch p code ((rateMatch p code e d).map (noiseless σ))).getD (subblockIndex p code.N m) 0 =
        if 16 * code.K ≤ 7 * e then 0 else (p.llrSat : Int) := by
  rw [rateDematch_rateMatch_getD hP hN h5 e d _ hm]
  by_cases h : code.N ≤ e
  · have hne : ((List.range e).filter fun k => decide (k % code.N = m)) ≠ [] :=
      List.ne_nil_of_mem (List.mem_filter.mpr
        ⟨List.mem_range.mpr (hm.trans_le h), decide_eq_true (Nat.mod_eq_of_lt hm)⟩)
    rw [if_pos (.inl h), if_pos h]
    exact signOf_foldl_noiseless hσ hsat hne _
  · simp only [h, false_or, if_false]
    by_cases hk : 16 * code.K ≤ 7 * e
    · simp only [hk, if_true]
      by_cases hlow : code.N - e ≤ m
      · rw [if_pos hlow, if_neg (by omega)]
        exact signOf_noiseless hσ _
      · rw [if_neg hlow, if_pos (by omega)]
    · simp only [hk, if_false]
      by_cases hlow : m < e
      · rw [if_pos hlow, if_pos hlow]
        exact signOf_noiseless hσ _
      · rw [if_neg hlow, if_neg hlow]

end

/-- Settles O46: both interleavers are permutations, so scattering undoes them element by element. -/
theorem inverseRateMatcherSaturates : Obligations.InverseRateMatcherSaturates := by
  refine ⟨fun p code x hx => ⟨scatter_length _ _ _ _, rateDematch_saturated code hx⟩, fun p code hP hcode => ?_⟩
  obtain ⟨hok, -⟩ := acceptedCode_of_codeAccepted hcode
  refine ⟨fun x _ => ⟨_, _, rateDematch_dematched hP hok.length_eq hok.five_le x⟩, ?_⟩
  rintro e d σ _ - hσ hsat rfl m _ hm rfl
  exact rateDematch_noiseless hP hok.length_eq hok.five_le hσ hsat e d hm

end Sys2Proof.Machine
end

section
/-! PROOFS. The reference decoder and contract PD1 (44_polar_code.md R246, R247), and the bits shortening drops under
the default table (R218, R238). -/

namespace Sys2Proof.Machine

/-! ## Hard decisions -/

/-- The hard decision of a noiseless soft vector is the coded bit, and 0 at a punctured position. -/
theorem NoiselessImage.hardDecision {p : Params} {code : PolarCode} {e j : Nat} {d : List Bit} {s : List Int}
    (h : NoiselessImage p code e d s) (hj : j < code.N) :
    (s.map fun v => decide (v < 0)).getD j false =
      if j ∈ puncturedPositions p code e then false else d.getD j false := by
  obtain ⟨hlen, hsign⟩ := h
  have hmap : (s.map fun v => decide (v < 0)).getD j false = decide (s.getD j 0 < 0) := by
    simp [List.getD_eq_getElem?_getD, hlen, hj]
  have hsign := hsign j hj
  rw [hmap]
  split_ifs at hsign ⊢ with hX hd
  · exact decide_eq_false (by omega)
  · rw [hd, decide_eq_true hsign]
  · rw [Bool.eq_false_iff.mpr hd, decide_eq_false (by omega)]

/-- Where no punctured position has every 1 bit of a position of `K_set`, the reference decoder meets the contract: the
lost bits do not enter the sums that give the positions of `K_set` (R212, R213). -/
theorem reference_meetsContractAt {p : Params} {code : PolarCode} {e : Nat} (hN : code.N = 2 ^ code.n)
    (hlt : ∀ m ∈ code.kSet, m < code.N)
    (hX : ∀ j ∈ puncturedPositions p code e, ∀ m ∈ code.kSet, j &&& m ≠ m) (r : Nat) (s : List Int) :
    MeetsContractAt p .reference r code e s := by
  intro c _ himage
  refine ⟨_, rfl, fun m hm => toField_injective ?_⟩
  have hu : (chanallocTx code c).length = 2 ^ code.n := by rw [chanallocTx_length, hN]
  have hhard : (s.map fun v => decide (v < 0)).length = 2 ^ code.n := by rw [List.length_map, himage.1, hN]
  have hm' : m < 2 ^ code.n := hN ▸ hlt m hm
  have hback := toField_polarTransform (polarTransform_length hu) hm'
  rw [polarTransform_polarTransform hu] at hback
  rw [referenceDecode, toField_polarTransform hhard hm', hback]
  refine Finset.sum_congr rfl fun i hi => ?_
  by_cases hcover : i &&& m = m
  · rw [if_pos hcover, if_pos hcover, himage.hardDecision (hN ▸ Finset.mem_range.mp hi),
      if_neg fun hi => hX i hi m hm hcover]
  · rw [if_neg hcover, if_neg hcover]

/-! ## The default pattern keeps the order of inclusion -/

/-- In the default pattern a block comes after every block whose 1 bits it has. -/
theorem subblockPDefault_covers {a b : Nat} (ha : a < 32) (hb : b < 32)
    (h : subblockPDefault.getD a 0 &&& subblockPDefault.getD b 0 = subblockPDefault.getD b 0) : b ≤ a := by
  have hall : ∀ a < 32, ∀ b < 32,
      subblockPDefault.getD a 0 &&& subblockPDefault.getD b 0 = subblockPDefault.getD b 0 → b ≤ a := by decide
  exact hall a ha b hb h

theorem subblockPDefault_perm : subblockPDefault.Perm (List.range 32) := by decide

section
variable {p : Params} {n : Nat} (hP : p.subblockP = subblockPDefault) (hn : 5 ≤ n)
include hP hn

/-- With the default pattern a position stands, in the order of the sub-block interleaver, after every position whose
1 bits it has. -/
theorem subblockIndex_covers {m m' : Nat} (hm : m < 2 ^ n) (hm' : m' < 2 ^ n)
    (h : subblockIndex p (2 ^ n) m &&& subblockIndex p (2 ^ n) m' = subblockIndex p (2 ^ n) m') : m' ≤ m := by
  have hpos := Nat.two_pow_pos (n - 5)
  rw [subblockIndex_two_pow p hn, subblockIndex_two_pow p hn,
    two_pow_mul_add_covers_iff _ _ (Nat.mod_lt _ hpos) (Nat.mod_lt _ hpos), hP] at h
  obtain ⟨hhigh, hlow⟩ := h
  have hblock := subblockPDefault_covers (block_lt hn hm) (block_lt hn hm') hhigh
  have hinner : m' % 2 ^ (n - 5) ≤ m % 2 ^ (n - 5) := hlow ▸ Nat.and_le_left
  rw [← Nat.div_add_mod m (2 ^ (n - 5)), ← Nat.div_add_mod m' (2 ^ (n - 5))]
  exact Nat.add_le_add (Nat.mul_le_mul_left _ hblock) hinner

end

/-! ## The default table freezes what is not transmitted -/

theorem puncturedPositions_eq_nil {p : Params} {code : PolarCode} {e : Nat}
    (h : code.N ≤ e ∨ 7 * e < 16 * code.K) : puncturedPositions p code e = [] := by
  unfold puncturedPositions
  by_cases hle : code.N ≤ e
  · rw [matchMode_of_le hle]
  · rw [matchMode_shortening hle (by omega)]

theorem mem_puncturedPositions {p : Params} {code : PolarCode} {e j : Nat} :
    j ∈ puncturedPositions p code e ↔
      matchMode code.N code.K e = .puncturing ∧ ∃ m, m < code.N - e ∧ subblockIndex p code.N m = j := by
  unfold puncturedPositions
  cases matchMode code.N code.K e <;> simp

theorem matchMode_eq_puncturing {n k e : Nat} : matchMode n k e = .puncturing ↔ ¬n ≤ e ∧ 16 * k ≤ 7 * e := by
  unfold matchMode
  split_ifs <;> simp [*]

theorem matchMode_eq_shortening {n k e : Nat} : matchMode n k e = .shortening ↔ ¬n ≤ e ∧ ¬16 * k ≤ 7 * e := by
  unfold matchMode
  split_ifs <;> simp [*]

theorem mem_preFrozen_of_punctured {p : Params} {n k e m : Nat} (h : matchMode n k e = .puncturing) (hm : m < n - e) :
    subblockIndex p n m ∈ preFrozen p n k e := by
  obtain ⟨hlt, hk⟩ := matchMode_eq_puncturing.mp h
  rw [preFrozen, if_neg hlt, if_pos hk]
  exact List.mem_append_left _ (List.mem_map_of_mem (List.mem_range.mpr hm))

theorem mem_preFrozen_of_shortened {p : Params} {n k e m : Nat} (h : matchMode n k e = .shortening) (he : e ≤ m)
    (hm : m < n) : subblockIndex p n m ∈ preFrozen p n k e := by
  obtain ⟨hlt, hk⟩ := matchMode_eq_shortening.mp h
  rw [preFrozen, if_neg hlt, if_neg hk]
  exact List.mem_map.mpr ⟨m - e, List.mem_range.mpr (by omega), by rw [Nat.sub_add_cancel he]⟩

/-- The table chooses no pre-frozen position (R219). -/
theorem notMem_preFrozen_of_mem_kSet {p : Params} {k e m : Nat} (hm : m ∈ (builtCode p k e).kSet) :
    m ∉ preFrozen p (builtCode p k e).N (builtCode p k e).K e := by
  have hchosen : m ∈ chosenList p (2 ^ tableExponent k e) k e (k + parityCount k) :=
    List.contains_iff_mem.mp (List.mem_filter.mp hm).2
  have hcandidate := (List.mem_filter.mp (List.mem_of_mem_drop hchosen)).2
  have hfree := (Bool.and_eq_true_iff.mp hcandidate).2
  rw [Bool.not_eq_true', List.contains_eq_mem, decide_eq_false_iff_not] at hfree
  exact hfree

section
variable {p : Params} {code : PolarCode} {e : Nat} (hP : p.subblockP = subblockPDefault) (hok : AcceptedCode code)
  (hfree : ∀ m ∈ code.kSet, m ∉ preFrozen p code.N code.K e)
include hP hok

theorem AcceptedCode.exists_subblockIndex_eq {i : Nat} (hi : i < code.N) :
    ∃ m, m < code.N ∧ subblockIndex p code.N m = i := by
  rw [hok.length_eq] at hi ⊢
  exact Machine.exists_subblockIndex_eq (hP ▸ subblockPDefault_perm) hok.five_le hi

theorem AcceptedCode.subblockIndex_covers {m m' : Nat} (hm : m < code.N) (hm' : m' < code.N)
    (h : subblockIndex p code.N m &&& subblockIndex p code.N m' = subblockIndex p code.N m') : m' ≤ m := by
  rw [hok.length_eq] at hm hm' h
  exact Machine.subblockIndex_covers hP hok.five_le hm hm' h

include hfree

theorem punctured_covers_no_kSet : ∀ j ∈ puncturedPositions p code e, ∀ m ∈ code.kSet, j &&& m ≠ m := by
  intro j hj i hi hcover
  obtain ⟨hmode, m, hm, rfl⟩ := mem_puncturedPositions.mp hj
  obtain ⟨m', hm', rfl⟩ := hok.exists_subblockIndex_eq hP (hok.kSet_lt i hi)
  have hle : m' ≤ m := hok.subblockIndex_covers hP (by omega) hm' hcover
  exact hfree _ hi (mem_preFrozen_of_punctured hmode (by omega))

theorem zeroWhereShortened : ZeroWhereShortened p code e := by
  intro hmode c _ m he hm
  have hlen : (chanallocTx code c).length = 2 ^ code.n := by rw [chanallocTx_length, hok.length_eq]
  have hJ : subblockIndex p code.N m < 2 ^ code.n := by
    rw [hok.length_eq] at hm ⊢
    exact subblockIndex_lt (hP ▸ subblockPDefault_perm) hok.five_le hm
  refine toField_injective ((toField_polarTransform hlen hJ).trans (Finset.sum_eq_zero fun i hi => ?_))
  have hi : i < code.N := hok.length_eq ▸ Finset.mem_range.mp hi
  split_ifs with hcover
  · obtain ⟨m', hm', rfl⟩ := hok.exists_subblockIndex_eq hP hi
    have hle : m ≤ m' := hok.subblockIndex_covers hP hm' hm hcover
    rw [chanallocTx_getD_frozen code c hi fun hK =>
      hfree _ hK (mem_preFrozen_of_shortened hmode (he.trans hle) hm')]
    rfl
  · rfl

end

/-- Settles O60: the transform is its own inverse, so hard decisions give the polar input back; under the default table
the positions not transmitted are frozen, and closed under inclusion of 1 bits. -/
theorem referenceDecoderMeetsTheContract : Obligations.ReferenceDecoderMeetsTheContract := by
  refine ⟨fun p r e code s hcode h => ?_, fun p k e code hP htable hcode => ?_⟩
  · obtain ⟨hok, -⟩ := acceptedCode_of_codeAccepted hcode
    refine reference_meetsContractAt hok.length_eq hok.kSet_lt ?_ r s
    rw [puncturedPositions_eq_nil h]
    exact fun j hj => absurd hj List.not_mem_nil
  · obtain ⟨hok, -⟩ := acceptedCode_of_codeAccepted hcode
    rw [polarTable_eq] at htable
    obtain rfl := Option.some.inj (Option.ite_none_left_eq_some.mp htable).2
    have hfree := fun m => notMem_preFrozen_of_mem_kSet (p := p) (k := k) (e := e) (m := m)
    exact ⟨fun r s => reference_meetsContractAt hok.length_eq hok.kSet_lt (punctured_covers_no_kSet hP hok hfree) r s,
      zeroWhereShortened hP hok hfree⟩

end Sys2Proof.Machine
end

section
/-! PROOFS. The round trip of the polar code under contract PD1 (45_polar_pipeline.md R277): what the decoder finds in a
noiseless image of a segment, and the payload put together from its segments. -/

namespace Sys2Proof.Machine

/-! ## Segments -/

/-- The lengths of the segments of an allocation (R261). -/
structure SegLengths (a : Nat) (g : SegParams) : Prop where
  count : g.C = 1 ∨ g.C = 2
  padded : g.S * g.C = g.padded
  le_padded : a ≤ g.padded
  pad_le : g.padded - a ≤ g.S
  pad_lt : g.padded < a + g.C
  kR : g.kR = g.S + g.L

theorem segParams_lengths (a e : Nat) : SegLengths a (segParams a e) := by
  have hC := segParams_C a e
  refine ⟨hC, ?_, ?_, ?_, ?_, rfl⟩ <;> rcases hC with h | h <;> simp only [segParams, ceilDiv] at h ⊢ <;> rw [h] <;>
    omega

theorem segParams_fits (a e : Nat) : (segParams a e).eR * (segParams a e).C ≤ e := by
  rcases segParams_C a e with h | h <;> simp only [segParams] at h ⊢ <;> rw [h] <;> omega

theorem segmentBits_map_range (a : Nat) (g : SegParams) (c : Nat → List Bit) (n : Nat) :
    segmentBits a g ((List.range n).map c) =
      (List.range n).flatMap fun r => ((c r).take g.S).drop (segPad a g r) := by
  have hzip : ((List.range n).map c).zipIdx = (List.range n).map fun r => (c r, r) := by
    apply List.ext_getElem <;> simp
  rw [segmentBits, hzip, List.flatMap_map]

section
variable {a : Nat} {g : SegParams} {payload : List Bit} (hg : SegLengths a g) (hlen : payload.length = a)
include hg hlen

theorem segInfo_length {r : Nat} (hr : r < g.C) : (segInfo a g payload r).length = g.S := by
  obtain ⟨hC, hpadded, hle, hpad, hlt, -⟩ := hg
  rw [segInfo, List.length_append, List.length_replicate, List.length_take, List.length_drop, hlen]
  rcases hC with hC | hC <;> rw [hC] at hpadded hr hlt
  · obtain rfl : r = 0 := by omega
    simp only [segPad, segStart, if_true]
    omega
  · interval_cases r <;> simp only [segPad, segStart, if_true, one_ne_zero, if_false] <;> omega

/-- The source bits of the segments are the payload (R265). -/
theorem flatMap_source_eq_payload :
    ((List.range g.C).flatMap fun r => (payload.drop (segStart a g r)).take (g.S - segPad a g r)) = payload := by
  obtain ⟨hC, hpadded, hle, hpad, hlt, -⟩ := hg
  rcases hC with hC | hC <;> rw [hC] at hpadded hlt ⊢
  · have hwhole : payload.length ≤ g.S - (g.padded - a) := by omega
    rw [List.range_one, List.flatMap_singleton]
    exact List.take_of_length_le hwhole
  · have hrest : (payload.drop (g.S - (g.padded - a))).length ≤ g.S := by
      rw [List.length_drop]
      omega
    have h0 : (payload.drop (segStart a g 0)).take (g.S - segPad a g 0) = payload.take (g.S - (g.padded - a)) := rfl
    have h1 : (payload.drop (segStart a g 1)).take (g.S - segPad a g 1) = payload.drop (g.S - (g.padded - a)) := by
      rw [show segStart a g 1 = g.S - (g.padded - a) from congrArg (· - (g.padded - a)) (Nat.one_mul g.S)]
      exact List.take_of_length_le hrest
    rw [show List.range 2 = [0, 1] from rfl, List.flatMap_cons, List.flatMap_singleton, h0, h1, List.take_append_drop]

/-- The segments without their pads are the payload (R265, R274). -/
theorem segmentBits_segInfo {c : Nat → List Bit} (hc : ∀ r, r < g.C → (c r).take g.S = segInfo a g payload r) :
    segmentBits a g ((List.range g.C).map c) = payload := by
  rw [segmentBits_map_range]
  refine Eq.trans ?_ (flatMap_source_eq_payload hg hlen)
  rw [List.flatMap_def, List.flatMap_def]
  refine congrArg List.flatten (List.map_congr_left fun r hr => ?_)
  rw [hc r (List.mem_range.mp hr), segInfo, List.drop_left' (List.length_replicate ..)]

end

/-! ## The encoder's output -/

/-- The bits `c_r` of a segment with their parity bits (R265, 44_polar_code.md R241). -/
def segMessage (p : Params) (a : Nat) (g : SegParams) (payload : List Bit) (r : Nat) : List Bit :=
  crcAttach (crcPoly p g.L) g.L (segInfo a g payload r)

theorem crcParity_length (poly l : Nat) (m : List Bit) : (crcParity poly l m).length = l := by simp [crcParity]

/-- Attached parity bits pass the check (44_polar_code.md R241, R242). -/
theorem crcOk_crcAttach {poly l s : Nat} {m : List Bit} (hm : m.length = s) :
    crcOk poly s l (crcAttach poly l m) = true := by
  rw [crcOk, crcAttach, List.drop_left' hm, List.take_left' hm, List.take_of_length_le (crcParity_length _ _ _).le,
    beq_self_eq_true]

section
variable {a : Nat} {g : SegParams} {payload : List Bit} (hg : SegLengths a g) (hlen : payload.length = a)
  (p : Params) {r : Nat} (hr : r < g.C)
include hg hlen hr

theorem segMessage_length : (segMessage p a g payload r).length = g.kR := by
  rw [segMessage, crcAttach, List.length_append, crcParity_length, segInfo_length hg hlen hr, hg.kR]

theorem segMessage_take : (segMessage p a g payload r).take g.S = segInfo a g payload r :=
  List.take_left' (segInfo_length hg hlen hr)

theorem crcOk_segMessage : crcOk (crcPoly p g.L) g.S g.L (segMessage p a g payload r) = true :=
  crcOk_crcAttach (segInfo_length hg hlen hr)

end

theorem encodeSegment_length (p : Params) (code : PolarCode) (g : SegParams) (info : List Bit) :
    (encodeSegment p code g info).length = g.eR := by
  rw [encodeSegment, rateMatch, List.length_map, triangleSrc_length]

/-- Parts of one length, one behind the other. -/
theorem flatMap_range_getElem? {α : Type} {f : Nat → List α} {n : Nat} (hf : ∀ r, (f r).length = n) {c r i : Nat}
    (hr : r < c) (hi : i < n) : ((List.range c).flatMap f)[n * r + i]? = (f r)[i]? := by
  have hlen (c : Nat) : ((List.range c).flatMap f).length = n * c := by
    simp [List.length_flatMap, hf, Nat.mul_comm]
  induction c with
  | zero => cases hr
  | succ c ih =>
    rw [List.range_succ, List.flatMap_append, List.flatMap_singleton]
    rcases (Nat.lt_succ_iff.mp hr).eq_or_lt with rfl | hlt
    · rw [List.getElem?_append_right (by rw [hlen]; omega), hlen, Nat.add_sub_cancel_left]
    · have hin : n * r + i < n * c := by
        calc n * r + i < n * (r + 1) := by rw [Nat.mul_succ]; omega
          _ ≤ n * c := Nat.mul_le_mul_left _ hlt
      rw [List.getElem?_append_left (by rwa [hlen]), ih hlt]

theorem polarOutput_getElem? (p : Params) (code : PolarCode) (a : Nat) (g : SegParams) (payload : List Bit) {r i : Nat}
    (hr : r < g.C) (hi : i < g.eR) :
    (polarOutput p code a g payload)[g.eR * r + i]? = (encodeSegment p code g (segInfo a g payload r))[i]? :=
  flatMap_range_getElem? (fun _ => encodeSegment_length _ _ _ _) hr hi

/-! ## One segment -/

section
variable {p : Params} {code : PolarCode} {e : Nat} (hP : p.subblockP.Perm (List.range 32))
  (hcode : codeAccepted code.K 10 code = true) (hzero : ZeroWhereShortened p code e)
include hP hcode hzero

/-- The inverse rate matcher makes of noiseless soft values a noiseless vector of the coded bits, as the contract asks
(44_polar_code.md R239, R246): the bits shortening drops are 0. -/
theorem noiselessImage_rateDematch {c : List Bit} (hc : c.length = code.K) {σ : Int} (hσ : 1 ≤ σ)
    (hsat : σ ≤ p.llrSat) :
    NoiselessImage p code e (polarTransform code.n (chanallocTx code c))
      (rateDematch p code ((rateMatch p code e (polarTransform code.n (chanallocTx code c))).map (noiseless σ))) := by
  obtain ⟨hN, h5, -, -, -⟩ := (acceptedCode_of_codeAccepted hcode).1
  refine ⟨scatter_length _ _ _ _, fun j hj => ?_⟩
  obtain ⟨m, hm, rfl⟩ : ∃ m, m < code.N ∧ subblockIndex p code.N m = j := by
    rw [hN] at hj ⊢
    exact exists_subblockIndex_eq hP h5 hj
  have hvalue := rateDematch_noiseless hP hN h5 hσ hsat e (polarTransform code.n (chanallocTx code c)) hm
  have hpunctured : subblockIndex p code.N m ∈ puncturedPositions p code e ↔
      (¬code.N ≤ e ∧ 16 * code.K ≤ 7 * e) ∧ m < code.N - e := by
    rw [mem_puncturedPositions, matchMode_eq_puncturing]
    refine and_congr_right fun _ => ⟨?_, fun h => ⟨m, h, rfl⟩⟩
    rintro ⟨m', hm', heq⟩
    have hlt : m' < code.N := by omega
    rw [hN] at hlt hm heq
    rwa [← subblockIndex_injective hP h5 hlt hm heq]
  have hsign {b : Bit} {v : Int} (h : SignOf b v) : if b = true then v < 0 else 0 < v := by
    cases b with
    | false => exact h.1 rfl
    | true => exact h.2 rfl
  by_cases hX : subblockIndex p code.N m ∈ puncturedPositions p code e
  · obtain ⟨⟨hle, hk⟩, hlow⟩ := hpunctured.mp hX
    rw [if_pos hX]
    simpa [hle, hk, show ¬code.N - e ≤ m by omega] using hvalue
  · rw [if_neg hX]
    by_cases htransmitted : code.N ≤ e ∨ (if 16 * code.K ≤ 7 * e then code.N - e ≤ m else m < e)
    · rw [if_pos htransmitted] at hvalue
      exact hsign hvalue
    · rw [if_neg htransmitted] at hvalue
      obtain ⟨hle, hlow⟩ := not_or.mp htransmitted
      by_cases hk : 16 * code.K ≤ 7 * e
      · rw [if_pos hk] at hlow
        exact absurd (hpunctured.mpr ⟨⟨hle, hk⟩, by omega⟩) hX
      · rw [if_neg hk] at hlow hvalue
        rw [hzero (matchMode_shortening hle hk) c hc m (by omega) hm, hvalue, if_neg Bool.false_ne_true]
        omega

/-- Under the contract the decoder finds the message in a noiseless image of its coded bits (44_polar_code.md R232,
R246). -/
theorem decodeSegment_of_noiseless {port : PolarDecodePort} {r : Nat} {c : List Bit} (hc : c.length = code.K) {σ : Int}
    (hσ : 1 ≤ σ) (hsat : σ ≤ p.llrSat) {llrs : List Int}
    (hllrs : llrs.map negLlr =
      (rateMatch p code e (polarTransform code.n (chanallocTx code c))).map (noiseless σ))
    (hport : MeetsContractAt p port r code e (rateDematch p code (llrs.map negLlr))) :
    decodeSegment p port code r llrs = .ok c := by
  have himage := noiselessImage_rateDematch hP hcode hzero hc hσ hsat
  rw [← hllrs] at himage
  obtain ⟨u, hu, hK⟩ := hport c hc himage
  rw [decodeSegment, hu]
  exact congrArg Except.ok ((chanallocRx_congr hK).trans (chanallocRx_chanallocTx hcode hc))

end

/-! ## All segments -/

theorem mapM_eq_ok {α β : Type} {f : α → Except ErrorKind β} {h : α → β} {l : List α} (hf : ∀ x ∈ l, f x = .ok (h x)) :
    l.mapM f = .ok (l.map h) := by
  induction l with
  | nil => rfl
  | cons x l ih =>
    rw [List.forall_mem_cons] at hf
    rw [List.mapM_cons, hf.1, ih hf.2]
    rfl

/-- The soft values of segment `r`. -/
def segLlrs (u : State) (g : SegParams) (r : Nat) : List Int := readLlrs u.llrMem (g.eR * r) g.eR

theorem decodedSegments_eq_ok {p : Params} {port : PolarDecodePort} {code : PolarCode} {g : SegParams} {u : State}
    {e : Nat} {c : Nat → List Bit} (he : g.eR * g.C ≤ e)
    (hc : ∀ r, r < g.C → decodeSegment p port code r (segLlrs u g r) = .ok (c r)) :
    decodedSegments p port code g (readLlrs u.llrMem 0 e) = .ok ((List.range g.C).map c) := by
  refine mapM_eq_ok fun r hr => ?_
  have hr : r < g.C := List.mem_range.mp hr
  have hfit : g.eR * r + g.eR ≤ e := (Nat.mul_le_mul_left g.eR hr).trans he
  rw [readLlrs_slice _ _ _ _ hfit]
  exact hc r hr

/-! ## The commands -/

/-- The segmentation of the allocation in the registers (R261). -/
def segOf (s : State) : SegParams := segParams s.regs.argA.toNat s.regs.argE.toNat

/-- The checks of R263 and the lookup of R264 pass at `s`, with the code found. -/
structure PolarReady (s : State) (code : PolarCode) : Prop where
  twelve_le : 12 ≤ s.regs.argA.toNat
  le_1705 : s.regs.argA.toNat ≤ 1705
  pos : 1 ≤ s.regs.argE.toNat
  fits : s.regs.argE.toNat ≤ s.params.eMax
  select : polarSelect s.params s.ports.polarSelect (segOf s).kR (segOf s).eR 10 = some code
  accepted : codeAccepted (segOf s).kR 10 code = true

section
variable {s : State} {code : PolarCode} (h : PolarReady s code)
include h

theorem encPolar_completes :
    Completes .encPolar s
      { Effect.nothing s with
        regs := { s.regs with resE := s.regs.argE }
        out :=
          (polarOutput s.params code s.regs.argA.toNat (segOf s)
            (readBits s.bitSeq 0 s.regs.argA.toNat)).map bitByte } := by
  obtain ⟨h12, h1705, hpos, hfits, hselect, haccepted⟩ := h
  refine completes_of_effect ?_
  rw [effectOf, if_neg (by omega), State.coded, codedBytes, if_neg (by omega), if_neg (by omega), if_neg (by omega),
    if_neg (by omega), if_neg (by omega), ← segOf, polarLookup_eq_ok.mpr ⟨hselect, haccepted⟩]
  simp only [Except.map, Effect.codes, BitVec.ofNat_toNat, BitVec.setWidth_eq]

theorem decPolar_completes {segments : List (List Bit)}
    (hseg : decodedSegments s.params s.ports.polarDecode code (segOf s) (readLlrs s.llrMem 0 s.regs.argE.toNat) =
      .ok segments) :
    Completes .decPolar s
      { Effect.nothing s with
        bits := segmentBits s.regs.argA.toNat (segOf s) segments
        valid := segments.all fun c => crcOk (crcPoly s.params (segOf s).L) (segOf s).S (segOf s).L c } := by
  obtain ⟨h12, h1705, hpos, hfits, hselect, haccepted⟩ := h
  refine completes_of_effect ?_
  rw [effectOf, if_neg (by omega), State.decoded, decodedBits, readLlrs_length, if_neg (by omega), if_neg (by omega),
    if_neg (by omega), if_neg (by omega), if_neg (by omega)]
  dsimp only
  rw [← segOf, polarLookup_eq_ok.mpr ⟨hselect, haccepted⟩]
  dsimp only
  rw [hseg]
  rfl

/-- The coded bit at place `i` of segment `r`, read back from `OUT_MEM`. -/
theorem readByte_outMem_of_encPolar {t : State} (ht : exec .encPolar s = .next t) {r i : Nat}
    (hr : r < (segOf s).C) (hi : i < (segOf s).eR) :
    readByte t.outMem ((segOf s).eR * r + i) =
      bitByte ((encodeSegment s.params code (segOf s)
        (segInfo s.regs.argA.toNat (segOf s) (readBits s.bitSeq 0 s.regs.argA.toNat) r)).getD i false) := by
  rw [((encPolar_completes h).ended ht).outMem, List.getD_eq_getElem?_getD, List.getElem?_map,
    polarOutput_getElem? _ _ _ _ _ hr hi, List.getElem?_eq_getElem (by rwa [encodeSegment_length]),
    List.getD_eq_getElem _ _ (by rwa [encodeSegment_length])]
  rfl

end

/-- Soft values of magnitude `σ`, positive where the encoder wrote a 1, are after the decoder's sign flip a noiseless
image of the segment's coded bits (R273). -/
theorem segLlrs_map_negLlr {g : SegParams} {u : State} {r : Nat} {σ : Int} {f : List Bit} (hσ : 1 ≤ σ) (h127 : σ ≤ 127)
    (hf : f.length = g.eR)
    (hllr : ∀ i, i < g.eR → (readByte u.llrMem (g.eR * r + i)).toInt = softBit σ (f.getD i false)) :
    (segLlrs u g r).map negLlr = f.map (noiseless σ) ∧
      (segLlrs u g r).map negLlr = (List.range g.eR).map fun k => -(readByte u.llrMem (g.eR * r + k)).toInt := by
  have hneg (b : Bit) : negLlr (softBit σ b) = noiseless σ b ∧ negLlr (softBit σ b) = -softBit σ b := by
    cases b <;> simp only [negLlr, softBit, noiseless, if_true, Bool.false_eq_true, if_false] <;>
      rw [if_neg (by omega)] <;> omega
  constructor
  · apply List.ext_getElem
    · simp [segLlrs, hf]
    · intro i h1 h2
      have hi : i < g.eR := by simpa [segLlrs] using h1
      simp only [segLlrs, readLlrs, List.getElem_map, List.getElem_range, hllr i hi, (hneg _).1]
      rw [List.getD_eq_getElem _ _ (hf ▸ hi)]
  · rw [segLlrs, readLlrs, List.map_map]
    refine List.map_congr_left fun i hi => ?_
    rw [Function.comp_apply, hllr i (List.mem_range.mp hi), (hneg _).2]

/-- From noiseless soft values the decode loop finds the message of every segment, if the port meets the contract in
each call (R274, 44_polar_code.md R246). -/
theorem decodedSegments_of_noiseless {p : Params} {port : PolarDecodePort} {code : PolarCode} {a e : Nat}
    {g : SegParams} {payload : List Bit} {u : State} {σ : Int} (hg : SegLengths a g) (hlen : payload.length = a)
    (hfit : g.eR * g.C ≤ e) (hP : p.subblockP.Perm (List.range 32)) (hcode : codeAccepted g.kR 10 code = true)
    (hzero : ZeroWhereShortened p code g.eR) (hσ : 1 ≤ σ) (h127 : σ ≤ 127) (hsat : σ ≤ p.llrSat)
    (hllr : ∀ r, r < g.C → ∀ i, i < g.eR → (readByte u.llrMem (g.eR * r + i)).toInt =
      softBit σ ((encodeSegment p code g (segInfo a g payload r)).getD i false))
    (hport : ∀ r, r < g.C → MeetsContractAt p port r code g.eR
      (rateDematch p code ((List.range g.eR).map fun k => -(readByte u.llrMem (g.eR * r + k)).toInt))) :
    decodedSegments p port code g (readLlrs u.llrMem 0 e) =
      .ok ((List.range g.C).map (segMessage p a g payload)) := by
  obtain ⟨-, hK⟩ := acceptedCode_of_codeAccepted hcode
  refine decodedSegments_eq_ok hfit fun r hr => ?_
  obtain ⟨hnoiseless, hnegated⟩ := segLlrs_map_negLlr hσ h127 (encodeSegment_length p code g _) (hllr r hr)
  refine decodeSegment_of_noiseless hP (hK.symm ▸ hcode) hzero ((segMessage_length hg hlen p hr).trans hK.symm) hσ hsat
    hnoiseless ?_
  rw [hnegated]
  exact hport r hr

/-- Settles O59: each segment's soft values are a noiseless image of its coded bits, so the port's answer gives its
bits back; their parity matches, and without the pads they are the payload. -/
theorem polarRoundTrip : Obligations.PolarRoundTrip := by
  rintro s t u _ _ _ code σ rfl rfl rfl h12 h1705 hpos hfits hselect haccepted hP hzero ht hparams hports ha he hσ h127
    hsat hllr hcontract
  have hs : PolarReady s code := ⟨h12, h1705, hpos, hfits, hselect, haccepted⟩
  have hseg : segOf u = segOf s := by rw [segOf, segOf, ha, he]
  have hu : PolarReady u code := ⟨by rwa [ha], by rwa [ha], by rwa [he], by rwa [he, hparams],
    by rwa [hseg, hparams, hports], by rwa [hseg]⟩
  have hg : SegLengths s.regs.argA.toNat (segOf s) := segParams_lengths _ _
  have hlen : (readBits s.bitSeq 0 s.regs.argA.toNat).length = s.regs.argA.toNat := readBits_length ..
  have hone (b : Bit) : bitByte b = 1 ↔ b = true := by cases b <;> decide
  have hsoft (r : Nat) (hr : r < (segOf s).C) (i : Nat) (hi : i < (segOf s).eR) :
      (readByte u.llrMem ((segOf s).eR * r + i)).toInt = softBit σ ((encodeSegment s.params code (segOf s)
        (segInfo s.regs.argA.toNat (segOf s) (readBits s.bitSeq 0 s.regs.argA.toNat) r)).getD i false) := by
    have hk : (segOf s).eR * r + i < (segOf s).C * (segOf s).eR := by
      calc (segOf s).eR * r + i < (segOf s).eR * (r + 1) := by rw [Nat.mul_succ]; omega
        _ ≤ (segOf s).eR * (segOf s).C := Nat.mul_le_mul_left _ hr
        _ = (segOf s).C * (segOf s).eR := Nat.mul_comm _ _
    rw [hllr _ hk, readByte_outMem_of_encPolar hs ht hr hi]
    simp only [hone, softBit]
  have hfound := decodedSegments_of_noiseless hg hlen (segParams_fits _ _) hP haccepted hzero hσ h127 hsat hsoft
    (hparams ▸ hcontract)
  have hvalid : ((List.range (segOf s).C).map (segMessage s.params s.regs.argA.toNat (segOf s)
      (readBits s.bitSeq 0 s.regs.argA.toNat))).all
        (fun c => crcOk (crcPoly s.params (segOf s).L) (segOf s).S (segOf s).L c) = true := by
    simp only [List.all_map, List.all_eq_true, List.mem_range]
    exact fun r hr => crcOk_segMessage hg hlen s.params hr
  have hend := decPolar_completes hu (by rw [hparams, hseg, he]; exact hfound)
  rwa [hparams, hseg, ha, hvalid, segmentBits_segInfo hg hlen fun r hr => segMessage_take hg hlen s.params hr] at hend

end Sys2Proof.Machine
end

section
/-! PROOFS. The segmentation parameters (45_polar_pipeline.md R261, R262), and one segment of the encoder bit by bit:
the 5-stage register behind the parity-check bits (44_polar_code.md R230), and `SegmentCoded` for what `encodeSegment`
computes (45_polar_pipeline.md R265, R266). -/

namespace Sys2Proof.Machine

/-! ## The segmentation parameters -/

/-- Two segments are the split of at least 360 bits, which take the long CRC (R261). -/
theorem segParams_two_iff (a e : Nat) : (segParams a e).C = 2 ↔ (360 ≤ a ∧ 1088 ≤ e) ∨ 1013 ≤ a := by
  simp only [segParams]
  split_ifs with h <;> simp [h]

theorem crcLen_eq_eleven {a : Nat} (ha : 20 ≤ a) : crcLen a = 11 := by
  rw [crcLen, if_neg (by omega), if_neg (by omega)]

/-- Settles O47: of the lengths of the segments there are two cases, one segment and two; the rows are computed. -/
theorem segmentationProperties : Obligations.SegmentationProperties := by
  refine ⟨fun a e => ?_, by decide⟩
  have hC := segParams_two_iff a e
  obtain ⟨hcount, hpadded, hle, -, hlt, -⟩ := segParams_lengths a e
  refine ⟨?_, ?_, ?_, fun h => crcLen_eq_eleven (by omega), fun h => hC.mpr (by omega), fun h he => ?_⟩
  · rw [← hpadded, Nat.mul_mod_left]
  · rcases hcount with h | h <;> rw [h] at hpadded hlt ⊢ <;> omega
  · omega
  · have hone : ¬(segParams a e).C = 2 := fun h2 => by have := hC.mp h2; omega
    exact hcount.resolve_right hone

/-! ## The register of the parity-check bits -/

/-- The exclusive or of the message bits of `u` before position `m` whose position is `r` modulo 5 (R230). -/
def classParity (code : PolarCode) (u : List Bit) (r m : Nat) : Bit :=
  decide (((List.range m).countP fun i => isMessagePosition code i && decide (i % 5 = r) && u.getD i false) % 2 = 1)

theorem classParity_succ (code : PolarCode) (u : List Bit) (r m : Nat) :
    classParity code u r (m + 1) =
      (classParity code u r m ^^ (isMessagePosition code m && decide (m % 5 = r) && u.getD m false)) := by
  rw [classParity, classParity, List.range_succ, List.countP_append, List.countP_singleton]
  generalize List.countP _ (List.range m) = n
  cases isMessagePosition code m && decide (m % 5 = r) && u.getD m false
  · simp
  · simp only [if_true, Bool.xor_true, ← decide_not, decide_eq_decide]
    omega

/-- Bits from position `m` on do not count. -/
theorem classParity_append (code : PolarCode) {u : List Bit} (v : List Bit) (r : Nat) {m : Nat} (hm : m ≤ u.length) :
    classParity code (u ++ v) r m = classParity code u r m := by
  rw [classParity, classParity]
  congr 3
  refine List.countP_congr fun i hi => ?_
  rw [List.getD_append _ _ _ _ ((List.mem_range.mp hi).trans_le hm)]

/-- The register after the positions of `u`: once turned for the next position, bit `j` is the parity of the class of
the position `j` further on. -/
def RegisterHolds (code : PolarCode) (u : List Bit) (y : BitVec 5) : Prop :=
  ∀ j, j < 5 → (y.rotateRight 1).getLsbD j = classParity code u ((u.length + j) % 5) u.length

theorem registerHolds_zero (code : PolarCode) : RegisterHolds code [] 0 := by
  intro j hj
  interval_cases j <;> rfl

theorem rotateRight_one_getLsbD (y : BitVec 5) {j : Nat} (hj : j < 5) :
    (y.rotateRight 1).getLsbD j = y.getLsbD ((j + 1) % 5) := by
  interval_cases j <;> simp

/-- What one step of R230's loop does to the register: it turns it and adds a message bit to its head. -/
def registerStep (code : PolarCode) (m : Nat) (y : BitVec 5) (b : Bit) : BitVec 5 :=
  y.rotateRight 1 ^^^ if isMessagePosition code m && b then 1 else 0

theorem registerStep_of_message {code : PolarCode} {m : Nat} {y : BitVec 5} {b : Bit}
    (h : isMessagePosition code m = true) : registerStep code m y b = y.rotateRight 1 ^^^ if b then 1 else 0 := by
  simp only [registerStep, h, Bool.true_and]

theorem registerStep_of_not_message {code : PolarCode} {m : Nat} {y : BitVec 5} {b : Bit}
    (h : isMessagePosition code m = false) : registerStep code m y b = y.rotateRight 1 := by
  simp [registerStep, h]

theorem registerStep_getLsbD (code : PolarCode) (m : Nat) (y : BitVec 5) (b : Bit) {j : Nat} (hj : j < 5) :
    (registerStep code m y b).getLsbD j =
      ((y.rotateRight 1).getLsbD j ^^ (decide (j = 0) && (isMessagePosition code m && b))) := by
  rw [registerStep, BitVec.getLsbD_xor]
  cases isMessagePosition code m && b
  · simp
  · rw [if_pos rfl, Bool.and_true]
    interval_cases j <;> rfl

/-- The class of a position is that of the position five on, so the head of the turned register takes its bit. -/
theorem RegisterHolds.step {code : PolarCode} {u : List Bit} {y : BitVec 5} (hy : RegisterHolds code u y) (b : Bit) :
    RegisterHolds code (u ++ [b]) (registerStep code u.length y b) := by
  intro j hj
  have hnext : (j + 1) % 5 < 5 := Nat.mod_lt _ (by decide)
  have hclass : (u.length + (j + 1) % 5) % 5 = (u.length + 1 + j) % 5 := by omega
  have hown : ((j + 1) % 5 = 0) ↔ (u.length % 5 = (u.length + 1 + j) % 5) := by omega
  rw [rotateRight_one_getLsbD _ hj, registerStep_getLsbD code u.length y b hnext, hy _ hnext, hclass,
    List.length_append, List.length_singleton, classParity_succ, classParity_append code [b] _ le_rfl,
    List.getD_append_right _ _ _ _ le_rfl, Nat.sub_self, List.getD_cons_zero, decide_eq_decide.mpr hown]
  congr 1
  rw [Bool.and_comm (decide _), Bool.and_right_comm]

/-- One step of R230's loop under parity-check bits: the register goes on by `registerStep`, and its turned head is the
bit at a parity-check position. -/
theorem allocateFrom_cons_register {code : PolarCode} (hPC : 0 < code.nPC) (m : Nat) (ms : List Nat) (y : BitVec 5)
    (c : List Bit) :
    ∃ b c', allocateFrom code (m :: ms) y c = b :: allocateFrom code ms (registerStep code m y b) c' ∧
      (m ∈ code.kSet → m ∈ code.pcSet → b = (y.rotateRight 1).getLsbD 0) := by
  rw [allocateFrom]
  simp only [if_pos hPC]
  by_cases hK : m ∈ code.kSet
  · rw [if_pos (List.contains_iff_mem.mpr hK)]
    by_cases hP : m ∈ code.pcSet
    · rw [if_pos (List.contains_iff_mem.mpr hP)]
      exact ⟨_, _, by rw [registerStep_of_not_message (by simp [isMessagePosition, hP])], fun _ _ => rfl⟩
    · rw [if_neg (mt List.contains_iff_mem.mp hP)]
      exact ⟨_, _, by rw [registerStep_of_message (by simp [isMessagePosition, hK, hP])], fun _ h => absurd h hP⟩
  · rw [if_neg (mt List.contains_iff_mem.mp hK)]
    exact ⟨_, _, by rw [registerStep_of_not_message (by simp [isMessagePosition, hK])], fun h => absurd h hK⟩

/-- Behind the allocation `u` of the positions before, with the register to match, a parity-check position gets the
parity of its class. -/
theorem allocateFrom_getD_parity {code : PolarCode} (hPC : 0 < code.nPC) {n k : Nat} (hk : k < n) {u : List Bit}
    {y : BitVec 5} (hy : RegisterHolds code u y) (c : List Bit) (hK : u.length + k ∈ code.kSet)
    (hP : u.length + k ∈ code.pcSet) :
    (allocateFrom code (List.range' u.length n) y c).getD k false =
      classParity code (u ++ allocateFrom code (List.range' u.length n) y c) ((u.length + k) % 5) (u.length + k) := by
  induction n generalizing u k y c with
  | zero => cases hk
  | succ n ih =>
    obtain ⟨b, c', heq, hparity⟩ := allocateFrom_cons_register hPC u.length (List.range' (u.length + 1) n) y c
    rw [List.range'_succ, heq]
    cases k with
    | zero =>
      simp only [Nat.add_zero] at hK hP ⊢
      rw [List.getD_cons_zero, classParity_append _ _ _ le_rfl, hparity hK hP, hy 0 (by decide), Nat.add_zero]
    | succ k =>
      have hlen : (u ++ [b]).length = u.length + 1 := by simp
      have hpos : u.length + (k + 1) = (u ++ [b]).length + k := by omega
      rw [hpos] at hK hP ⊢
      rw [List.getD_cons_succ, ← hlen, ih (Nat.lt_of_succ_lt_succ hk) (hy.step b) c' hK hP, List.append_assoc,
        List.singleton_append]

theorem chanallocTx_getD_parity {code : PolarCode} (hPC : 0 < code.nPC) (c : List Bit) {m : Nat} (hm : m < code.N)
    (hK : m ∈ code.kSet) (hP : m ∈ code.pcSet) :
    (chanallocTx code c).getD m false = classParity code (chanallocTx code c) (m % 5) m := by
  have h := allocateFrom_getD_parity hPC hm (registerHolds_zero code) c (by simpa using hK) (by simpa using hP)
  simpa [chanallocTx, List.range_eq_range'] using h

/-! ## One segment -/

/-- The parity-check positions of an accepted code are in `K_set`, and a code that has some counts them (10_state.md
R48). -/
theorem mem_kSet_of_mem_pcSet {k n : Nat} {code : PolarCode} (h : codeAccepted k n code = true) {m : Nat}
    (hm : m ∈ code.pcSet) : m ∈ code.kSet ∧ 0 < code.nPC := by
  simp only [codeAccepted, Bool.and_eq_true, decide_eq_true_eq, beq_iff_eq, List.all_eq_true,
    List.contains_iff_mem] at h
  obtain ⟨⟨⟨⟨-, hcount⟩, hsub⟩, -⟩, -⟩ := h
  exact ⟨hsub m hm, hcount ▸ List.length_pos_of_mem hm⟩

theorem chanallocTx_allocated {k n : Nat} {code : PolarCode} (h : codeAccepted k n code = true) (c : List Bit) :
    Allocated code c (chanallocTx code c) where
  length := chanallocTx_length code c
  frozen _ := chanallocTx_getD_frozen code c
  message _ := chanallocTx_getD_message code c
  parity m hm := by
    obtain ⟨hK, hPC⟩ := mem_kSet_of_mem_pcSet h hm
    exact chanallocTx_getD_parity hPC c ((acceptedCode_of_codeAccepted h).1.kSet_lt m hK) hK hm

theorem bitSelect_eq_selectedPosition {n k e q : Nat} : bitSelect n k e q = selectedPosition n k e q := by
  rw [selectedPosition]
  by_cases h : n ≤ e
  · rw [bitSelect, matchMode_of_le h, if_pos h]
  · by_cases hk : 16 * k ≤ 7 * e
    · rw [bitSelect, matchMode_puncturing h hk, if_neg h, if_pos hk]
      exact Nat.add_sub_assoc (Nat.le_of_not_le h) q
    · rw [bitSelect, matchMode_shortening h hk, if_neg h, if_neg hk]

theorem rateMatch_rateMatched (p : Params) (code : PolarCode) (e : Nat) (d : List Bit) :
    RateMatched p code e d (rateMatch p code e d) where
  length := by rw [rateMatch, List.length_map, triangleSrc_length]
  element t i j ht hij hlt := by
    rw [rateMatch, List.getD_eq_getElem?_getD, List.getElem?_map, triangleSrc_getElem?_cellPlace ht hij hlt,
      ← bitSelect_eq_selectedPosition]
    rfl

/-- The encoder codes a segment as R265 and R266 say, for every code that meets the invariants. -/
theorem encodeSegment_segmentCoded {k n : Nat} {code : PolarCode} (h : codeAccepted k n code = true) (p : Params)
    (g : SegParams) (info : List Bit) :
    SegmentCoded p code g info (crcAttach (crcPoly p g.L) g.L info)
      (chanallocTx code (crcAttach (crcPoly p g.L) g.L info))
      (polarTransform code.n (chanallocTx code (crcAttach (crcPoly p g.L) g.L info)))
      (encodeSegment p code g info) where
  attached := rfl
  allocated := chanallocTx_allocated h _
  transformed := by
    rw [(acceptedCode_of_codeAccepted h).1.length_eq]
    refine polarTransformElements code.n _ ?_
    rw [chanallocTx_length, (acceptedCode_of_codeAccepted h).1.length_eq]
  matched := rateMatch_rateMatched _ _ _ _

end Sys2Proof.Machine
end

section
/-! PROOFS. `ENC_POLAR` and `DEC_POLAR` with their errors (45_polar_pipeline.md R263, R264, R268, R275). -/

namespace Sys2Proof.Machine

/-! ## Errors -/

section
variable {s : State}
  (h : s.regs.argA.toNat < 12 ∨ 1705 < s.regs.argA.toNat ∨ s.regs.argE.toNat < 1 ∨ s.params.eMax < s.regs.argE.toNat)
include h

theorem encPolar_raises_invalidInput : Raises .encPolar .invalidInput s := by
  apply raises_of_effect
  rw [effectOf]
  split_ifs with ha
  · rfl
  · rw [State.coded, codedBytes, if_pos (by omega), Except.map]

theorem decPolar_raises_invalidInput : Raises .decPolar .invalidInput s := by
  apply raises_of_effect
  rw [effectOf]
  split_ifs with ha
  · rfl
  · rw [State.decoded, decodedBits, readLlrs_length, if_pos (by omega), Except.map]

end

/-- Without an accepted code the lookup fails (R264). -/
theorem polarLookup_eq_error {p : Params} {port : PolarSelectPort} {k e : Nat}
    (h : ∀ code, polarSelect p port k e 10 = some code → codeAccepted k 10 code = false) :
    polarLookup p port k e = .error .polarCodeSelectFailed := by
  cases hlookup : polarLookup p port k e with
  | error k => rw [polarLookup_error hlookup]
  | ok code =>
    obtain ⟨hselect, haccepted⟩ := polarLookup_eq_ok.mp hlookup
    rw [h code hselect] at haccepted
    cases haccepted

section
variable {s : State} (h12 : 12 ≤ s.regs.argA.toNat) (h1705 : s.regs.argA.toNat ≤ 1705) (hpos : 1 ≤ s.regs.argE.toNat)
  (hfits : s.regs.argE.toNat ≤ s.params.eMax)
include h12 h1705 hpos hfits

/-- Past the checks the decoder fails with the lookup, or with the loop over the segments (R263, R264, R274). -/
theorem decPolar_raises_of_parts {k : ErrorKind}
    (h : polarLookup s.params s.ports.polarSelect (segOf s).kR (segOf s).eR = .error k ∨
      ∃ code, polarLookup s.params s.ports.polarSelect (segOf s).kR (segOf s).eR = .ok code ∧
        decodedSegments s.params s.ports.polarDecode code (segOf s) (readLlrs s.llrMem 0 s.regs.argE.toNat) =
          .error k) : Raises .decPolar k s := by
  apply raises_of_effect
  rw [effectOf, if_neg (by omega), State.decoded, decodedBits, readLlrs_length, if_neg (by omega), if_neg (by omega),
    if_neg (by omega), if_neg (by omega), if_neg (by omega)]
  dsimp only
  rw [← segOf]
  rcases h with h | ⟨code, h, hseg⟩
  · rw [h]
    rfl
  · rw [h]
    dsimp only
    rw [hseg]
    rfl

/-- Past the checks the encoder fails with the lookup (R263, R264). -/
theorem encPolar_raises_of_lookup {k : ErrorKind}
    (h : polarLookup s.params s.ports.polarSelect (segOf s).kR (segOf s).eR = .error k) : Raises .encPolar k s := by
  apply raises_of_effect
  rw [effectOf, if_neg (by omega), State.coded, codedBytes, if_neg (by omega), if_neg (by omega), if_neg (by omega),
    if_neg (by omega), if_neg (by omega), ← segOf, h]
  rfl

end

/-! ## Encoding -/

/-- The info bits of a segment: the payload, or one of its two parts, the first behind the pad (R265). -/
theorem segInfo_eq {a : Nat} {g : SegParams} {payload : List Bit} (hg : SegLengths a g) (hlen : payload.length = a)
    {r : Nat} (hr : r < g.C) :
    segInfo a g payload r =
      if g.C = 1 then payload
      else if r = 0 then List.replicate (g.padded - a) false ++ payload.take (g.S - (g.padded - a))
      else payload.drop (g.S - (g.padded - a)) := by
  obtain ⟨hC, hpadded, hle, hpad, hlt, -⟩ := hg
  split_ifs with h1 h0
  · obtain rfl : r = 0 := by omega
    rw [h1, Nat.mul_one] at hpadded
    have hnopad : segPad a g 0 = 0 := by rw [segPad, if_pos rfl]; omega
    rw [segInfo, hnopad, segStart, if_pos rfl, List.replicate_zero, List.nil_append, List.drop_zero]
    exact List.take_of_length_le (by omega)
  · rw [h0]
    rfl
  · have h2 : g.C = 2 := hC.resolve_left h1
    obtain rfl : r = 1 := by omega
    rw [h2] at hpadded hlt
    rw [segInfo, segPad, if_neg one_ne_zero, segStart, if_neg one_ne_zero, segPad, if_pos rfl, Nat.one_mul,
      List.replicate_zero, List.nil_append]
    refine List.take_of_length_le ?_
    rw [List.length_drop]
    omega

/-- The parts of the segments, one behind the other, of one segment or two. -/
theorem flatMap_range_segments {α : Type} {c : Nat} (hc : c = 1 ∨ c = 2) (f : Nat → List α) :
    (List.range c).flatMap f = f 0 ++ if c = 2 then f 1 else [] := by
  rcases hc with rfl | rfl <;> simp [List.range_succ]

/-- Settles O38: the encoder's procedures, segment by segment, have the properties of `SegmentCoded`. -/
theorem encPolarResult : Obligations.EncPolarResult := by
  rintro s _ _ _ rfl rfl rfl
  refine ⟨encPolar_raises_invalidInput, fun h12 h1705 hpos hfits hfail =>
    encPolar_raises_of_lookup h12 h1705 hpos hfits (polarLookup_eq_error hfail), ?_⟩
  intro h12 h1705 hpos hfits code payload info hselect haccepted hpayload hinfo
  have hg : SegLengths s.regs.argA.toNat (segOf s) := segParams_lengths _ _
  have hlen : payload.length = s.regs.argA.toNat := by rw [hpayload, readBits_length]
  have hparts : polarOutput s.params code s.regs.argA.toNat (segOf s) payload =
      (List.range (segOf s).C).flatMap fun r => encodeSegment s.params code (segOf s) (info r) :=
    List.flatMap_congr fun r hr => by rw [hinfo r, segInfo_eq hg hlen (List.mem_range.mp hr), segOf]
  refine ⟨_, _, _, fun r => encodeSegment s.params code (segOf s) (info r),
    fun r _ => encodeSegment_segmentCoded haccepted s.params (segOf s) (info r), ?_⟩
  have hend := encPolar_completes ⟨h12, h1705, hpos, hfits, hselect, haccepted⟩
  rwa [← hpayload, hparts, flatMap_range_segments hg.count] at hend

/-! ## Decoding -/

theorem negLlr_toInt (b : Byte) : negLlr b.toInt = if b = 0x80 then 127 else -b.toInt := by
  have h : b.toInt = -128 ↔ b = 0x80 := BitVec.toInt_inj (y := 0x80#8)
  rw [negLlr]
  simp only [h]

theorem segLlrs_map_neg (s : State) (g : SegParams) (r : Nat) :
    (segLlrs s g r).map negLlr =
      (List.range g.eR).map fun k =>
        if readByte s.llrMem (g.eR * r + k) = 0x80 then 127 else -(readByte s.llrMem (g.eR * r + k)).toInt := by
  rw [segLlrs, readLlrs, List.map_map]
  exact List.map_congr_left fun k _ => negLlr_toInt _

theorem chanallocRx_eq (code : PolarCode) (u : List Bit) :
    chanallocRx code u = (code.kSet.filter fun m => decide (m ∉ code.pcSet)).map fun m => u.getD m false := by
  rw [chanallocRx, messagePositions]
  congr 2
  funext m
  rw [decide_not, List.contains_eq_mem]

theorem ok_of_mapM_eq_ok {α β : Type} {f : α → Except ErrorKind β} {l : List α} {bs : List β} (h : l.mapM f = .ok bs)
    {x : α} (hx : x ∈ l) : ∃ b, f x = .ok b := by
  induction l generalizing bs with
  | nil => cases hx
  | cons y l ih =>
    rw [List.mapM_cons] at h
    obtain ⟨b, hb, h⟩ := Except.bind_eq_ok_iff.mp h
    obtain ⟨cs, hcs, -⟩ := Except.bind_eq_ok_iff.mp h
    rcases List.mem_cons.mp hx with rfl | hx
    · exact ⟨b, hb⟩
    · exact ih hcs hx

/-- A failure of the port in one segment fails the decode loop (R274). -/
theorem decodedSegments_eq_error {p : Params} {port : PolarDecodePort} {code : PolarCode} {g : SegParams} {s : State}
    {e r : Nat} (he : g.eR * g.C ≤ e) (hr : r < g.C)
    (hfail : polarDecode port r code (rateDematch p code ((segLlrs s g r).map negLlr)) = none) :
    decodedSegments p port code g (readLlrs s.llrMem 0 e) = .error .polarDecodeFailed := by
  cases hseg : decodedSegments p port code g (readLlrs s.llrMem 0 e) with
  | error k => rw [decodedSegments_error hseg]
  | ok cs =>
    obtain ⟨c, hc⟩ := ok_of_mapM_eq_ok hseg (List.mem_range.mpr hr)
    have hfit : g.eR * r + g.eR ≤ e := (Nat.mul_le_mul_left g.eR hr).trans he
    rw [readLlrs_slice _ _ _ _ hfit, ← segLlrs, decodeSegment, hfail] at hc
    cases hc

/-- Settles O39: the decode loop finds in each segment what the port and the inverse allocation give; of one segment or
two the bits without the pad follow each other. -/
theorem decPolarResult : Obligations.DecPolarResult := by
  rintro s _ _ _ x rfl rfl rfl hx
  refine ⟨decPolar_raises_invalidInput, fun h12 h1705 hpos hfits hfail =>
    decPolar_raises_of_parts h12 h1705 hpos hfits (.inl (polarLookup_eq_error hfail)), ?_⟩
  intro h12 h1705 hpos hfits code hselect haccepted
  have hg : SegLengths s.regs.argA.toNat (segOf s) := segParams_lengths _ _
  have hfit : (segOf s).eR * (segOf s).C ≤ s.regs.argE.toNat := segParams_fits _ _
  have hsoft (r : Nat) : (segLlrs s (segOf s) r).map negLlr = x r := by rw [hx r, segLlrs_map_neg, segOf]
  constructor
  · rintro ⟨r, hr, hport⟩
    refine decPolar_raises_of_parts h12 h1705 hpos hfits
      (.inr ⟨code, polarLookup_eq_ok.mpr ⟨hselect, haccepted⟩, decodedSegments_eq_error hfit hr ?_⟩)
    rw [hsoft, hport]
  · intro found hfound
    have hseg := decodedSegments_eq_ok (u := s) (c := found) hfit fun r hr => by
      obtain ⟨u, hu, hr⟩ := hfound r hr
      rw [decodeSegment, hsoft, hu, hr, ← chanallocRx_eq]
    have hend := decPolar_completes ⟨h12, h1705, hpos, hfits, hselect, haccepted⟩ hseg
    rwa [segmentBits_map_range, flatMap_range_segments hg.count, List.all_map] at hend

end Sys2Proof.Machine
end

section
/-! PROOFS. Transport, 46_transport.md: the size dispatch (R290 to R296), the PUCCH façades (R300, R303), the PUSCH
HARQ-ACK façades with the `A = 2` coercion (R305 to R308), and the façades with nothing to code. Each proof reads the
command's end off its `effectOf`. -/

namespace Sys2Proof.Machine

/-! ## Dispatch -/

/-- Two commands with the same outputs that do the same are the same transition. -/
theorem exec_eq_of_effectOf_eq {i j : Instr} {s : State} (hclass : commandClass i = commandClass j)
    (hsr : writesSr i = writesSr j) (hack : writesAckMem i = writesAckMem j) (heffect : effectOf s i = effectOf s j) :
    exec i s = exec j s := by
  rw [exec_eq, exec_eq, heffect]
  cases effectOf s j with
  | ok x => rw [State.afterCommand, State.afterCommand, finalPhase, finalPhase, hclass]
  | error k => rw [State.afterCommand, State.afterCommand, State.raiseError, State.raiseError, hclass, hsr, hack]

section
variable {s : State}

/-- The encoders reject a size the dispatch does not know (R290). -/
theorem coded_of_unknown_size {a e : Nat} {payload : List Bit} (h : a = 0 ∨ 1706 ≤ a) :
    s.coded a e payload = .error .invalidInput := if_pos (by omega)

/-- The decoders reject a size the dispatch does not know (R290). -/
theorem decoded_of_unknown_size {a e : Nat} (h : a = 0 ∨ 1706 ≤ a) : s.decoded a e = .error .invalidInput :=
  if_pos (by omega)

theorem encode_completes {out : List Byte}
    (h : s.coded s.regs.argA.toNat s.regs.argE.toNat (readBits s.bitSeq 0 s.regs.argA.toNat) = .ok out) :
    Completes .encode s { Effect.nothing s with regs := { s.regs with resE := s.regs.argE }, out := out } :=
  completes_of_effect (by rw [effectOf, h, Except.map, Effect.codes, BitVec.ofNat_toNat, BitVec.setWidth_eq])

theorem encode_raises {k : ErrorKind}
    (h : s.coded s.regs.argA.toNat s.regs.argE.toNat (readBits s.bitSeq 0 s.regs.argA.toNat) = .error k) :
    Raises .encode k s :=
  raises_of_effect (by rw [effectOf, h, Except.map])

theorem decode_completes {bits : List Bit} {v : Bool}
    (h : s.decoded s.regs.argA.toNat s.regs.argE.toNat = .ok (bits, v)) :
    Completes .decode s { Effect.nothing s with bits := bits, valid := v } :=
  completes_of_effect (by rw [effectOf, h, Except.map, Effect.decodes])

theorem decode_raises {k : ErrorKind} (h : s.decoded s.regs.argA.toNat s.regs.argE.toNat = .error k) :
    Raises .decode k s :=
  raises_of_effect (by rw [effectOf, h, Except.map])

end

/-- Settles O48: `ENCODE` has the effect of the family's own command, whose range checks its `A` passes. -/
theorem encodeResult : Obligations.EncodeResult := by
  rintro s _ _ rfl rfl
  refine ⟨fun _ => encode_completes, fun _ => encode_raises,
    fun ha => exec_eq_of_effectOf_eq rfl rfl rfl ?oneBit, fun ha => exec_eq_of_effectOf_eq rfl rfl rfl ?twoBit,
    fun hlo hhi => exec_eq_of_effectOf_eq rfl rfl rfl ?rm, fun hlo _ => exec_eq_of_effectOf_eq rfl rfl rfl ?polar,
    fun ha => encode_raises (coded_of_unknown_size ha)⟩
  case oneBit | twoBit => rw [effectOf, effectOf, ha]
  case rm | polar => rw [effectOf, effectOf, if_neg (by omega)]

/-- Settles O49: `DECODE` has the effect of the family's own command, whose range checks its `A` passes. -/
theorem decodeResult : Obligations.DecodeResult := by
  rintro s _ _ rfl rfl
  refine ⟨fun _ _ h => ⟨(decoded_eq_ok h).1, decode_completes h⟩, fun _ => decode_raises,
    fun ha => exec_eq_of_effectOf_eq rfl rfl rfl ?oneBit, fun ha => exec_eq_of_effectOf_eq rfl rfl rfl ?twoBit,
    fun hlo hhi => exec_eq_of_effectOf_eq rfl rfl rfl ?rm, fun hlo _ => exec_eq_of_effectOf_eq rfl rfl rfl ?polar,
    fun ha => decode_raises (decoded_of_unknown_size ha)⟩
  case oneBit | twoBit => rw [effectOf, effectOf, ha]
  case rm | polar => rw [effectOf, effectOf, if_neg (by omega)]

/-! ## PUCCH -/

section
variable {s : State} {e : Nat} {k : ErrorKind}

theorem pucchCount_of_error (h : resourceE s.regs = .error k) : pucchCount s = .error k := by
  rw [pucchCount, h]
  rfl

theorem pucchCount_of_overflow (h : resourceE s.regs = .ok e) (hge : 2 ^ 32 ≤ e) :
    pucchCount s = .error .invalidInput := by
  rw [pucchCount, h]
  exact fitsRegister_of_ge hge

theorem pucchCount_of_ok (h : resourceE s.regs = .ok e) (hlt : e < 2 ^ 32) : pucchCount s = .ok e := by
  rw [pucchCount, h]
  exact fitsRegister_of_lt hlt

theorem mode_eq_combined_iff :
    s.mode = .combined ↔ 0 < s.ports.csi.nofBits ∧ 0 < s.regs.oAck.toNat + s.regs.oSr.toNat := by
  refine ⟨fun hm => ?_, fun ⟨hc, has⟩ => mode_eq_combined hc has⟩
  rcases mode_cases s with ⟨hm', -⟩ | ⟨hm', -⟩ | ⟨-, hc, has⟩
  · cases hm.symm.trans hm'
  · cases hm.symm.trans hm'
  · omega

/-- A sizing error ends `ENC_PUCCH`. -/
theorem encPucch_raises_of_count (h : pucchCount s = .error k) : Raises .encPucch k s :=
  raises_of_effect (by rw [effectOf, encPucchEffect, h]; rfl)

/-- A sizing error ends `DEC_PUCCH`. -/
theorem decPucch_raises_of_count (h : pucchCount s = .error k) : Raises .decPucch k s :=
  raises_of_effect (by rw [effectOf, decPucchEffect, h]; rfl)

section
variable (hcount : pucchCount s = .ok e)
include hcount

/-- A packing error ends `ENC_PUCCH` once the resource is sized. -/
theorem encPucch_raises_of_payload (h : pucchPayload s = .error k) : Raises .encPucch k s :=
  raises_of_effect (by rw [effectOf, encPucchEffect, hcount, Except.ok_bind, h]; rfl)

/-- What `ENC_PUCCH` does with a resource of `e` positions and a payload. -/
theorem encPucch_effect_of_payload {payload : List Bit} (h : pucchPayload s = .ok payload) :
    effectOf s .encPucch =
      if s.mode = .combined ∧ payload.length ≤ 11 then .error .unsupported
      else s.coded payload.length e payload >>= fun out =>
        .ok { Effect.nothing s with regs := s.regs.sized payload.length e, bits := payload, out := out } := by
  rw [effectOf, encPucchEffect, hcount, Except.ok_bind, h, Except.ok_bind]

/-- An error of `compute_A` ends `DEC_PUCCH` once the resource is sized. -/
theorem decPucch_raises_of_size (h : pucchSize s = .error k) : Raises .decPucch k s :=
  raises_of_effect (by rw [effectOf, decPucchEffect, hcount, Except.ok_bind, h]; rfl)

/-- What `DEC_PUCCH` does with a resource of `e` positions and `a` bits to decode. -/
theorem decPucch_effect_of_size {a : Nat} (h : pucchSize s = .ok a) :
    effectOf s .decPucch = s.decoded a e >>= fun x =>
      if s.ports.csi.nofBits ≠ 0 then .error .unsupported
      else .ok
        { Effect.nothing s with
          valid := x.2
          regs := { s.regs.sized a e with sr := unpackedSr s x.1 }
          bits := x.1
          ack := x.1.take s.regs.oAck.toNat } := by
  rw [effectOf, decPucchEffect, hcount, Except.ok_bind, h, Except.ok_bind]

end

/-- Behind the ACK bits of a payload without CSI stands the SR field alone. -/
theorem unpackedSr_eq_drop {bits : List Bit} (h : bits.length ≤ s.regs.oAck.toNat + s.regs.oSr.toNat) :
    unpackedSr s bits = BitVec.ofNat 32 (bitsToInt (bits.drop s.regs.oAck.toNat)) := by
  rw [unpackedSr, List.take_of_length_le (by rw [List.length_drop]; omega)]

end

/-- Settles O50, along the sequence of `encPucchEffect`: size, pack, restrict, code. -/
theorem encPucchResult : Obligations.EncPucchResult := by
  intro s
  refine ⟨fun k hk => encPucch_raises_of_count (pucchCount_of_error hk), fun e he =>
    ⟨fun hge => encPucch_raises_of_count (pucchCount_of_overflow he hge), fun hlt => ?_⟩⟩
  have hcount := pucchCount_of_ok he hlt
  refine ⟨fun k hk => encPucch_raises_of_payload hcount hk, fun payload hp => ?_⟩
  have heffect := encPucch_effect_of_payload hcount hp
  refine ⟨fun hc has hshort => raises_of_effect ?_, fun hallowed => ?_⟩
  · rw [heffect, if_pos ⟨mode_eq_combined hc has, hshort⟩]
  · have hcodes : ¬(s.mode = .combined ∧ payload.length ≤ 11) := by
      rw [mode_eq_combined_iff]
      omega
    rw [if_neg hcodes] at heffect
    exact ⟨fun out hout => completes_of_effect (by rw [heffect, hout]; rfl),
      fun k hk => raises_of_effect (by rw [heffect, hk]; rfl)⟩

/-- Settles O51, along the sequence of `decPucchEffect`: size, `compute_A`, decode, unpack. -/
theorem decPucchResult : Obligations.DecPucchResult := by
  intro s
  refine ⟨fun k hk => decPucch_raises_of_count (pucchCount_of_error hk), fun e he =>
    ⟨fun hge => decPucch_raises_of_count (pucchCount_of_overflow he hge), fun hlt => ?_⟩⟩
  have hcount := pucchCount_of_ok he hlt
  refine ⟨fun k hk => decPucch_raises_of_size hcount hk, fun a ha => ?_⟩
  have heffect := decPucch_effect_of_size hcount ha
  refine ⟨fun k hk => raises_of_effect (by rw [heffect, hk]; rfl), fun bits v hx => ?_⟩
  rw [hx, Except.ok_bind] at heffect
  refine ⟨fun hc => raises_of_effect (by rw [heffect, if_pos hc.ne']), fun hc => completes_of_effect ?_⟩
  obtain ⟨-, -, hsize, -⟩ := pucchSize_eq_ok ha
  have hlen : bits.length = a := (decoded_eq_ok hx).1
  rw [heffect, if_neg (not_not.mpr hc), unpackedSr_eq_drop (bits := bits) (by omega), Regs.sized]

/-! ## PUSCH HARQ-ACK -/

section
variable {s : State}

/-- The conditions of the `A = 2` coercion (R305). -/
theorem coerces_iff :
    coerces s = true ↔
      s.regs.kSum = 0 ∧ 1 < s.regs.nofCsi.toNat ∧ s.ports.csi.hasPart2 = false ∧ s.regs.oAck.toNat < 2 := by
  simp [coerces, and_assoc]

theorem ackSize_of_coerces (h : coerces s = true) : ackSize s = 2 := if_pos h

theorem ackSize_of_not_coerces (h : ¬coerces s = true) : ackSize s = s.regs.oAck.toNat := if_neg h

theorem ackPayload_of_not_coerces (h : ¬coerces s = true) :
    ackPayload s = readBits s.ackMem 0 s.regs.oAck.toNat := if_neg h

/-- Under the coercion there is at most one ACK bit, and a missing one is coded as 0. -/
theorem ackPayload_of_coerces (h : coerces s = true) :
    ackPayload s = [decide (s.regs.oAck.toNat = 1) && readBit s.ackMem 0, false] := by
  obtain ⟨-, -, -, hlt⟩ := coerces_iff.mp h
  rw [ackPayload, if_pos h]
  by_cases h0 : s.regs.oAck.toNat = 0
  · rw [if_pos h0, h0]
    rfl
  · rw [if_neg h0, decide_eq_true (show s.regs.oAck.toNat = 1 by omega), Bool.true_and]

theorem encPuschAck_raises_of_range (h : 1706 < s.regs.oAck.toNat) : Raises .encPuschAck .invalidInput s :=
  raises_of_effect (if_pos h)

theorem decPuschAck_raises_of_range (h : 1706 < s.regs.oAck.toNat) : Raises .decPuschAck .invalidInput s :=
  raises_of_effect (if_pos h)

section
variable (hrange : s.regs.oAck.toNat ≤ 1706)
include hrange

section
variable (hready : PuschReady s.regs) (hsize : ackSize s ≠ 0)
include hready hsize

/-- What `ENC_PUSCH_ACK` does with parameters that pass the checks and something to code. -/
theorem encPuschAck_effect_of_ready :
    effectOf s .encPuschAck =
      fitsRegister (eAck s.regs (ackSize s)) >>= fun e => s.coded (ackSize s) e (ackPayload s) >>= fun out =>
        .ok { Effect.nothing s with regs := s.regs.sized (ackSize s) e, bits := ackPayload s, out := out } := by
  have hpass : ¬aMax < s.regs.oAck.toNat := not_lt.mpr hrange
  rw [effectOf, encPuschAckEffect, if_neg hpass, if_neg hsize, puschAckCount_of_ready hready]

/-- What `DEC_PUSCH_ACK` does with parameters that pass the checks and something to decode. -/
theorem decPuschAck_effect_of_ready :
    effectOf s .decPuschAck =
      fitsRegister (eAck s.regs (ackSize s)) >>= fun e => s.decoded (ackSize s) e >>= fun x =>
        .ok { Effect.nothing s with valid := x.2, regs := s.regs.sized (ackSize s) e, bits := x.1, ack := x.1 } := by
  have hpass : ¬aMax < s.regs.oAck.toNat := not_lt.mpr hrange
  rw [effectOf, decPuschAckEffect, if_neg hpass, if_neg hsize, puschAckCount_of_ready hready]

end

end

end

/-- Settles O52: the coercion gives size and payload, then the sequence of `encPuschAckEffect`: size, code. -/
theorem encPuschAckResult : Obligations.EncPuschAckResult := by
  intro s a e payload
  refine ⟨encPuschAck_raises_of_range, fun hrange hready ha hcases he => ?_⟩
  have hcoded : ackSize s = a ∧ ackPayload s = payload := by
    rcases hcases with ⟨hk, hn, hp, hlt, rfl, rfl⟩ | ⟨hplain, rfl, rfl⟩
    · have hc := coerces_iff.mpr ⟨hk, hn, hp, hlt⟩
      exact ⟨ackSize_of_coerces hc, ackPayload_of_coerces hc⟩
    · have hc := mt coerces_iff.mp hplain
      exact ⟨ackSize_of_not_coerces hc, ackPayload_of_not_coerces hc⟩
  obtain ⟨rfl, rfl⟩ := hcoded
  have heffect := encPuschAck_effect_of_ready hrange hready ha
  rw [← he] at heffect
  refine ⟨fun hge => raises_of_effect (by rw [heffect, fitsRegister_of_ge hge]; rfl), fun hlt => ?_⟩
  rw [fitsRegister_of_lt hlt, Except.ok_bind] at heffect
  exact ⟨fun out hout => completes_of_effect (by rw [heffect, hout]; rfl),
    fun k hk => raises_of_effect (by rw [heffect, hk]; rfl)⟩

/-- Settles O53: the coercion gives the size, then the sequence of `decPuschAckEffect`: size, decode. -/
theorem decPuschAckResult : Obligations.DecPuschAckResult := by
  intro s a e
  refine ⟨decPuschAck_raises_of_range, fun hrange hready ha hcases he => ?_⟩
  obtain rfl : ackSize s = a := by
    rcases hcases with ⟨hk, hn, hp, hlt, rfl⟩ | ⟨hplain, rfl⟩
    · exact ackSize_of_coerces (coerces_iff.mpr ⟨hk, hn, hp, hlt⟩)
    · exact ackSize_of_not_coerces (mt coerces_iff.mp hplain)
  have heffect := decPuschAck_effect_of_ready hrange hready ha
  rw [← he] at heffect
  refine ⟨fun hge => raises_of_effect (by rw [heffect, fitsRegister_of_ge hge]; rfl), fun hlt => ?_⟩
  rw [fitsRegister_of_lt hlt, Except.ok_bind] at heffect
  exact ⟨fun bits v hx => completes_of_effect (by rw [heffect, hx]; rfl),
    fun k hk => raises_of_effect (by rw [heffect, hk]; rfl)⟩

/-! ## Nothing to code -/

section
variable {s : State}

/-- Without ACK bits and without the coercion there is nothing to code. -/
theorem ackSize_eq_zero (hack : s.regs.oAck = 0)
    (hplain : s.regs.kSum ≠ 0 ∨ s.regs.nofCsi.toNat ≤ 1 ∨ s.ports.csi.hasPart2 = true) : ackSize s = 0 := by
  have hc : ¬coerces s = true := by
    rw [coerces_iff]
    rintro ⟨hk, hn, hp, -⟩
    rcases hplain with h | h | h
    · exact h hk
    · omega
    · rw [hp] at h
      cases h
  rw [ackSize_of_not_coerces hc, hack]
  rfl

theorem encPuschAck_effect_of_nothing (hrange : s.regs.oAck.toNat ≤ 1706) (h : ackSize s = 0) :
    effectOf s .encPuschAck = .ok { Effect.nothing s with regs := s.regs.sized 0 0 } := by
  have hpass : ¬aMax < s.regs.oAck.toNat := not_lt.mpr hrange
  rw [effectOf, encPuschAckEffect, if_neg hpass, if_pos h]

theorem decPuschAck_effect_of_nothing (hrange : s.regs.oAck.toNat ≤ 1706) (h : ackSize s = 0) :
    effectOf s .decPuschAck = .ok { Effect.nothing s with valid := true, regs := s.regs.sized 0 0 } := by
  have hpass : ¬aMax < s.regs.oAck.toNat := not_lt.mpr hrange
  rw [effectOf, decPuschAckEffect, if_neg hpass, if_pos h]

theorem encPuschCsi1_effect_of_nothing (h : s.ports.csi.packed = some []) :
    effectOf s .encPuschCsi1 = .ok { Effect.nothing s with regs := s.regs.sized 0 0 } := by
  have hpack : csiPack s.ports.csi aMax = some [] := by
    rw [csiPack, h]
    rfl
  rw [effectOf, encPuschCsi1Effect, hpack]
  rfl

theorem decPuschCsi1_effect_of_nothing (h : s.ports.csi.nofBits = 0) :
    effectOf s .decPuschCsi1 = .ok { Effect.nothing s with valid := true, regs := s.regs.sized 0 0 } := by
  rw [effectOf, decPuschCsi1Effect, if_pos h]

end

/-- Settles O56: each façade finds nothing to code before it comes to its sizing. -/
theorem nothingToCodeEndsAtOnce : Obligations.NothingToCode := by
  rintro s _ rfl
  refine ⟨fun hack hplain => ?_, fun hpacked => completes_of_effect (encPuschCsi1_effect_of_nothing hpacked),
    fun hbits => completes_of_effect (decPuschCsi1_effect_of_nothing hbits)⟩
  have hsize := ackSize_eq_zero hack hplain
  have hrange : s.regs.oAck.toNat ≤ 1706 := by
    rw [hack]
    decide
  exact ⟨completes_of_effect (encPuschAck_effect_of_nothing hrange hsize),
    completes_of_effect (decPuschAck_effect_of_nothing hrange hsize)⟩

end Sys2Proof.Machine
end

section
/-! PROOFS. Reset and hazards: the reset event in any state (70_reset_and_hazards.md R360, R361), and the registers no
command reads (R372; 10_state.md R29). -/

namespace Sys2Proof.Machine

set_option Elab.async false

/-! ## The reset event -/

/-- What a host read returns is a matter of `STATUS` and the register bank alone. -/
theorem hostReadReg_congr {s t : State} (hstatus : s.status = t.status) (hregs : s.regs = t.regs) (n : Nat) :
    hostReadReg s n = hostReadReg t n := by
  unfold hostReadReg
  cases regOfNumber n with
  | none => rfl
  | some r => cases r <;> simp only [readReg, hstatus, hregs]

section
variable (s : State)

theorem hostReadReg_resetEvent (n : Nat) : hostReadReg s.resetEvent n = hostReadReg State.reset n :=
  hostReadReg_congr rfl rfl n

theorem resetEvent_draws : s.resetEvent.draws = s.draws + 7 := rfl

variable {k : Nat}

/-- Each of the seven draws of the reset event leaves a memory of bits free. -/
theorem bitsFree_resetEvent (hk : k < 7) : BitsFree s s.resetEvent (Memory.any Bit (s.draws + k)) :=
  ⟨s.draws + k, Nat.le_add_right _ _, (resetEvent_draws s).symm ▸ Nat.add_lt_add_left hk _, fun _ => rfl⟩

/-- Each of the seven draws of the reset event leaves a memory of bytes free. -/
theorem bytesFree_resetEvent (hk : k < 7) : BytesFree s s.resetEvent (Memory.any Byte (s.draws + k)) :=
  ⟨s.draws + k, Nat.le_add_right _ _, (resetEvent_draws s).symm ▸ Nat.add_lt_add_left hk _, fun _ => rfl⟩

end

theorem step_of_reset {s : State} {rest : List HostOp} (hp : s.pending = .reset :: rest) :
    step s = .next { s with pending := rest }.resetEvent := by
  rw [step_of_hostAccess hp rfl, hostAccess]

theorem Status.word_reset : Status.reset.word = 0 := by decide

/-- Settles O10: `STATUS` and the registers are those of `State.reset`, and each memory is filled by a draw of its own,
numbers 0 to 6 from `s.draws` on. -/
theorem resetEventRestoresRegisters : Obligations.ResetEventRestoresRegisters := by
  intro s rest hp
  obtain ⟨hreset, -⟩ := resetLeavesMemoriesFree
  have hbits {k : Nat} (hk : k < 7) := bitsFree_resetEvent { s with pending := rest } hk
  have hbytes {k : Nat} (hk : k < 7) := bytesFree_resetEvent { s with pending := rest } hk
  exact ⟨_, step_of_reset hp, Status.word_reset, fun n hn => (hostReadReg_resetEvent _ n).trans (hreset n hn),
    hbits (k := 0) (by decide), hbits (k := 1) (by decide), hbytes (k := 2) (by decide), hbytes (k := 3) (by decide),
    hbits (k := 4) (by decide), hbits (k := 5) (by decide), hbytes (k := 6) (by decide), rfl, rfl, rfl, rfl⟩

/-! ## The registers no command reads -/

/-- The register bank with other values in `CTRL` and `RNTI`. -/
def Regs.withCtrlRnti (g : Regs) (c r : Word) : Regs := { g with ctrl := c, rnti := r }

/-- The state with other values in `CTRL` and `RNTI`. -/
def State.withCtrlRnti (s : State) (c r : Word) : State := { s with regs := s.regs.withCtrlRnti c r }

/-- The effect with other values in `CTRL` and `RNTI`. -/
def Effect.withCtrlRnti (c r : Word) (x : Effect) : Effect := { x with regs := x.regs.withCtrlRnti c r }

/-- Every command hands `CTRL` and `RNTI` on and reads neither: once the change is carried to the places where the
command's computation ends, the sizes, payloads and codes on the way there are the same by definition. -/
theorem effectOf_withCtrlRnti (i : Instr) (s : State) (c r : Word) :
    effectOf (s.withCtrlRnti c r) i = (effectOf s i).map (Effect.withCtrlRnti c r) := by
  cases i with
  | pucchE | puschAckNofBits | puschCsi1NofBits | totalBits | packPucch | computeA | encode | decode | enc1Bit |
      dec1Bit | enc2Bit | dec2Bit =>
    rw [effectOf, effectOf, Except.map_map']
    rfl
  | encRm | decRm | encPolar | decPolar =>
    rw [effectOf, effectOf, apply_ite (Except.map _), Except.map_map']
    rfl
  | unpackPucch =>
    rw [effectOf, effectOf, unpackPucchEffect, unpackPucchEffect, apply_ite (Except.map _),
      show (s.withCtrlRnti c r).mode = s.mode from rfl]
    cases s.mode with
    | ackSr => rfl
    | csiOnly => rfl
    | combined =>
      rw [apply_ite (Except.map _)]
      rfl
  | encPucch | decPucch | encPuschAck | decPuschAck | decPuschCsi1 =>
    simp only [effectOf, encPucchEffect, decPucchEffect, encPuschAckEffect, decPuschAckEffect, decPuschCsi1Effect,
      Except.map_bind, apply_ite (Except.map _)]
    rfl
  | encPuschCsi1 =>
    rw [effectOf, effectOf, encPuschCsi1Effect, encPuschCsi1Effect,
      show (s.withCtrlRnti c r).ports = s.ports from rfl]
    cases csiPack s.ports.csi aMax with
    | none => rfl
    | some payload =>
      simp only [Except.map_bind, apply_ite (Except.map _)]
      rfl

/-- The state after a command holds them too, after an effect and after an error alike. -/
theorem afterCommand_withCtrlRnti (i : Instr) (s : State) (c r : Word) (x : Except ErrorKind Effect) :
    (s.withCtrlRnti c r).afterCommand i (x.map (Effect.withCtrlRnti c r)) = (s.afterCommand i x).withCtrlRnti c r := by
  cases x with
  | ok x => rfl
  | error k => rfl

theorem exec_withCtrlRnti (i : Instr) (s : State) (c r : Word) :
    exec i (s.withCtrlRnti c r) = .next ((s.afterCommand i (effectOf s i)).withCtrlRnti c r) := by
  rw [exec_eq, effectOf_withCtrlRnti, afterCommand_withCtrlRnti]

/-- Settles O18: the effect of a command, or its error, and the state it leaves commute with a change of the two. -/
theorem ctrlAndRntiAreNeverRead : Obligations.CtrlAndRntiAreNeverRead :=
  fun i s c r => ⟨_, exec_eq i s, exec_withCtrlRnti i s c r⟩

end Sys2Proof.Machine
end
